-- ==== Sys2Proof/Word.lean ====
section
/-! DEFINITION. The words and the fixed-size tables the model is made of. -/

namespace Sys2Proof

/-- One byte of frame DRAM. -/
abbrev Byte := BitVec 8

/-- A free-running 32-bit count (section 0.6, Counts). -/
abbrev Count := BitVec 32

/-- The 48-bit frame number (R20). -/
abbrev FrameNo := BitVec 48

/-- The entry `i` of a table of `n`; `d` for a number the table has no entry for. -/
def tget {α : Type} {n : Nat} (v : Vector α n) (i : Nat) (d : α) : α :=
  v.toList.getD i d

/-- The table with entry `i` replaced; unchanged for a number it has no entry for. -/
def tset {α : Type} {n : Nat} (v : Vector α n) (i : Nat) (x : α) : Vector α n :=
  ⟨(v.toList.set i x).toArray, by simp⟩

/-- The table with `f` applied to every entry. -/
def tmap {α β : Type} {n : Nat} (f : α → β) (v : Vector α n) : Vector β n :=
  ⟨(v.toList.map f).toArray, by simp⟩

/-- `x` brought into `lo` to `hi` (section 0.6, clamped). -/
def clamp (lo hi x : Nat) : Nat :=
  if x < lo then lo else if hi < x then hi else x

/-- `x` brought into `lo` to `hi`, for a signed quantity. -/
def clampInt (lo hi x : Int) : Int :=
  if x < lo then lo else if hi < x then hi else x

/-- `n + 1`, held at `top`. -/
def countUp (top n : Nat) : Nat :=
  if n < top then n + 1 else top

end Sys2Proof
end

