-- ==== Sys2Proof/Config.lean ====
section
/-! DEFINITION. What the part fixes (section 0.4) and the one value the manual leaves undefined. -/

namespace Sys2Proof.Config

/-- FREE VALUE (assumption log 7). The contents of a byte of frame DRAM that nothing has written since
power-on reset are undefined (R126, R166, R167): the first argument is the number of power-on resets so far,
the second the byte's address. Nothing constrains it. -/
opaque dramUndefined : Nat → Nat → Byte

/-- Frame DRAM is 32 GiB (R155). -/
def dramBytes : Nat := 34359738368

/-- 1 GiB, the step of the aperture strap (R168). -/
def gib : Nat := 1073741824

/-- The control aperture is 1 MiB (R168). -/
def apertureBytes : Nat := 1048576

/-- The overlay store is 128 MiB (R40). -/
def overlayBytes : Nat := 134217728

/-- One window's pair of buffers takes 8 MiB (R40). -/
def windowBytes : Nat := 8388608

/-- One window buffer takes 4 MiB (R40). -/
def bufferBytes : Nat := 4194304

/-- A DRAM row is 8 KiB (R155). -/
def rowBytes : Nat := 8192

/-- Places of the operation queue (R156). -/
def queuePlaces : Nat := 128

/-- Entries of the request table (R1). -/
def tablePlaces : Nat := 64

/-- Entries of the request table one initiator may hold (R1). -/
def initiatorPlaces : Nat := 16

/-- Places of the report ring (R174). -/
def ringPlaces : Nat := 1024

/-- Places of the report holding queue (R174). -/
def holdingPlaces : Nat := 48

/-- Entries of the clip entry store (R120). -/
def storePlaces : Nat := 4096

/-- Entries a clip may hold (R120). -/
def clipPlaces : Nat := 900

/-- The top at which the 24-bit counts of the Rotation and Capture Units are held (R81, R99, R117). -/
def topCount : Nat := 16777215

/-- Burst starts that promote a passed-over GENERAL operation (R161). -/
def ageingPasses : Nat := 32

/-- The debt at which a refresh is forced (R162). -/
def forcedDebt : Nat := 7

/-- The debt's range is 0-8 (R162). -/
def topDebt : Nat := 8

end Sys2Proof.Config
end

