-- ==== Sys2Proof/Syntax.lean ====
section
/-! DEFINITION. The commands of the part: one constructor of `Instr` for each row of spec/opcode_table.json, with
the row's operands. Arguments of control commands are the numbers their argument words hold (R181); a unit decides
what an out-of-range number means. -/

namespace Sys2Proof

/-- The level of a single line. -/
inductive Level where
  | low
  | high
  deriving DecidableEq, Repr, Inhabited

/-- The two contacts of the timing console (R67), in the order SET-CONTACT names them. -/
inductive Contact where
  | run
  | play
  deriving DecidableEq, Repr, Inhabited

/-- A request as an initiator presents it (R1). A byte of write data is `none` where its byte enable is clear:
the data of a byte that is not enabled is used nowhere (R13, assumption log 35). -/
structure Request where
  initiator : Nat
  write : Bool
  addr : Nat
  beats : Nat
  data : List (List (Option Byte))
  deriving DecidableEq, Repr, Inhabited

/-- The steps of the part, in the order of spec/opcode_table.json. -/
inductive Instr where
  -- lines, frame number and clocks
  | frameStart
  | resetRelease (aperture : BitVec 5) (control : BitVec 4)
  | powerOnReset
  | msTick (run play : Level)
  | contactAccept (contact : Contact) (level : Level)
  | periodEnd
  | playExpiry
  | penaltyDone (team : Nat)
  -- arrivals between units
  | fieldNotice
  | gameEvent
  | replayStartEvent
  -- the frame path
  | requestAccept (presented : List Request)
  | responseReturn (initiator : Nat)
  | mirrorNotice (source offset beats : Nat)
  | compositeWorkOut
  | deliveryEvent
  -- the Render Engine
  | renderFrameStart
  | stripPassed (window : Nat)
  | renderJobStart
  | renderJobComplete
  | fontLoadFinish
  -- the Rotation Unit
  | rotationFrameStart
  | holdEnd
  | turnEnd (zone : Nat)
  | featureEnd (zone : Nat)
  -- the Capture Unit
  | captureTick
  | addUser (clip : Nat)
  | removeUser (clip : Nat)
  | markRelease (clip : Nat)
  -- the Playout Unit
  | playoutFrameStart
  | channelMove (channel : Nat)
  -- the Message Unit
  | messageFrameStart
  | messageExpiry
  | staticShowEnd
  | flipNotice
  | stripPassedNotice
  -- the Memory Scheduler
  | waitingUnitEntry
  | activateComplete (bank : Nat)
  | prechargeComplete (bank : Nat)
  | burstComplete
  | ageingPromotion
  | refreshInterval
  | idleRefreshStart
  | refreshComplete
  | dramInitStepComplete
  -- the Command Reader and the Report Writer
  | commandIndexWrite
  | reportConsumerWrite
  | commandTake
  | commandFetchComplete
  | commandEnd
  | reportArrival
  | heldReportWrite
  | statusBlockWrite
  -- control commands: frame path, stores, zones
  | setRole (initiator role source : Nat)
  | setCanvas (base width height pitch : Nat)
  | setOverlayStore (base : Nat)
  | setPool (base count stride : Nat)
  | setZone (zone x y width height rank kind : Nat)
  | zoneOff (zone : Nat)
  -- control commands: windows
  | setWindow (window x y width height z fade : Nat) (occluding : Bool) (background kind : Nat)
  | showWindow (window : Nat)
  | hideWindow (window : Nat)
  | setFade (window fade : Nat)
  | setRun (window run x y box align colour opacity kind team line : Nat) (payload : List Byte)
  | clearRun (window run : Nat)
  | setImage (window addr pitch width height : Nat)
  | loadFont (base count advance : Nat)
  -- control commands: Timing Unit
  | clockStart
  | clockStop
  | clockSet (value : Nat)
  | clockMode (mode direction threshold : Nat)
  | setPreset (preset : Nat)
  | nextPeriod
  | setContact (contact polarity : Nat)
  | playMode (mode preset : Nat)
  | playStart
  | playStop
  | playSet (value : Nat)
  | playReset
  | penaltyAdd (team player time : Nat)
  | penaltyCancel (team player : Nat)
  | penaltyClear (team : Nat)
  | setConcurrency (team limit : Nat)
  | scoreSet (team score : Nat)
  | scoreAdd (team : Nat) (delta : Int)
  | setTimeouts (team count : Nat)
  | timeout (team : Nat)
  -- control commands: Rotation Unit
  | setSponsor (sponsor mask dwell periodTarget breakTarget : Nat) (cap : Bool) (payload : List Byte)
  | setLevel (sponsor level : Nat)
  | holdRotation (frames : Nat)
  | setTrigger (entry kind argument sponsor zone level dwell : Nat)
  | clearTrigger (entry : Nat)
  | fireFeature (entry : Nat)
  | setNesting (zone : Nat) (flag : Bool)
  | setSegmentPlan (periodFrames breakFrames : Nat)
  | closeSegment
  -- control commands: Capture and Playout Units
  | setSource (source base width height capacity : Nat)
  | captureStart (source : Nat)
  | captureStop (source : Nat)
  | markClip (clip source first last : Nat)
  | dropClip (clip : Nat)
  | bindZone (zone channel : Nat)
  | setCrop (channel x y : Nat)
  | cue (channel clip position endAction : Nat)
  | markAndCue (channel source back : Nat) (playFlag : Bool)
  | play (channel : Nat)
  | pause (channel : Nat)
  | step (channel : Nat) (count : Int)
  | setSpeed (channel : Nat) (step : Int) (reps : Nat)
  | stop (channel : Nat)
  -- control commands: Message Unit, control reset
  | postMessage (id priority reps minShow expiry : Nat) (payload : List Byte)
  | approveMessage (id : Nat)
  | rejectMessage (id : Nat)
  | withdrawMessage (id : Nat)
  | setTicker (window speed : Nat)
  | resetUnits
  deriving DecidableEq, Repr

end Sys2Proof
end

