-- ==== Sys2Proof/WellFormed.lean ====
section
/-! DEFINITION. Which commands a sender can put on the part: every operand fits the wires or the argument word that
carries it (R1, R168, R181). Numbers that fit but name nothing are well formed; the units refuse them. -/

namespace Sys2Proof

/-- An argument word is 32 bits (R181). -/
def isWord (n : Nat) : Bool := n < 4294967296

/-- Two argument words make a 64-bit argument (R181). -/
def isLong (n : Nat) : Bool := n < 18446744073709551616

/-- Each of a pair takes 16 bits of its word (R181). -/
def isHalf (n : Nat) : Bool := n < 65536

/-- The parts of a run source take a byte each (R181). -/
def isByte (n : Nat) : Bool := n < 256

/-- A signed argument is a two's-complement 32-bit number (R181). -/
def isSigned (n : Int) : Bool := -2147483648 ≤ n && n < 2147483648

/-- A payload holds at most 4096 bytes (R171). -/
def isPayload (p : List Byte) : Bool := p.length ≤ 4096

/-- A request the fabric can present (R1): 40-bit beat-aligned address, 1 to 16 beats, 32 bytes with their enables
for each beat of a write and no data for a read. -/
def Request.wellFormed (r : Request) : Bool :=
  r.initiator < 16 && r.addr < 1099511627776 && r.addr % 32 == 0 && 1 ≤ r.beats && r.beats ≤ 16 &&
    (if r.write then r.data.length == r.beats && r.data.all (fun b => b.length == 32) else r.data.isEmpty)

/-- Each initiator presents its requests one at a time (section 1.6). -/
def distinctInitiators : List Request → Bool
  | [] => true
  | r :: rs => rs.all (fun q => q.initiator != r.initiator) && distinctInitiators rs

/-- The check of every operand of a command. -/
def WellFormed : Instr → Bool
  | .frameStart | .powerOnReset | .periodEnd | .playExpiry | .fieldNotice | .gameEvent | .replayStartEvent => true
  | .compositeWorkOut | .deliveryEvent | .renderFrameStart | .renderJobStart | .renderJobComplete => true
  | .fontLoadFinish | .rotationFrameStart | .holdEnd | .captureTick | .playoutFrameStart | .messageFrameStart => true
  | .messageExpiry | .staticShowEnd | .flipNotice | .stripPassedNotice | .waitingUnitEntry | .burstComplete => true
  | .ageingPromotion | .refreshInterval | .idleRefreshStart | .refreshComplete | .dramInitStepComplete => true
  | .commandIndexWrite | .reportConsumerWrite | .commandTake | .commandFetchComplete | .commandEnd => true
  | .reportArrival | .heldReportWrite | .statusBlockWrite => true
  | .resetRelease _ _ | .msTick _ _ | .contactAccept _ _ => true
  | .penaltyDone team => team < 2
  | .requestAccept rs => rs.all Request.wellFormed && distinctInitiators rs
  | .responseReturn i => i < 16
  | .mirrorNotice s off n => s < 4 && off < Config.dramBytes && 1 ≤ n && n ≤ 16
  | .stripPassed w => w < 16
  | .turnEnd z => z < 8
  | .featureEnd z => z < 8
  | .addUser c => c < 32
  | .removeUser c => c < 32
  | .markRelease c => c < 32
  | .channelMove ch => ch < 2
  | .activateComplete b => b < 16
  | .prechargeComplete b => b < 16
  | .setRole i r s => isWord i && isWord r && isWord s
  | .setCanvas b w h p => isLong b && isHalf w && isHalf h && isWord p
  | .setOverlayStore b => isLong b
  | .setPool b n s => isLong b && isWord n && isWord s
  | .setZone z x y w h r k => isWord z && isHalf x && isHalf y && isHalf w && isHalf h && isWord r && isWord k
  | .zoneOff z => isWord z
  | .setWindow n x y w h z f _ bg k =>
      isWord n && isHalf x && isHalf y && isHalf w && isHalf h && isWord z && isWord f && isWord bg && isWord k
  | .showWindow n => isWord n
  | .hideWindow n => isWord n
  | .setFade n f => isWord n && isWord f
  | .setRun n r x y bw a c o k t l p =>
      isWord n && isWord r && isHalf x && isHalf y && isWord bw && isWord a && isWord c && isWord o &&
        isByte k && isByte t && isByte l && isPayload p
  | .clearRun n r => isWord n && isWord r
  | .setImage n a p w h => isWord n && isLong a && isWord p && isHalf w && isHalf h
  | .loadFont b n a => isLong b && isWord n && isWord a
  | .clockStart | .clockStop | .nextPeriod | .playStart | .playStop | .playReset => true
  | .clockSet v => isWord v
  | .clockMode m d t => isWord m && isWord d && isWord t
  | .setPreset p => isWord p
  | .setContact c p => isWord c && isWord p
  | .playMode m p => isWord m && isWord p
  | .playSet v => isWord v
  | .penaltyAdd t p ms => isWord t && isWord p && isWord ms
  | .penaltyCancel t p => isWord t && isWord p
  | .penaltyClear t => isWord t
  | .setConcurrency t l => isWord t && isWord l
  | .scoreSet t v => isWord t && isWord v
  | .scoreAdd t d => isWord t && isSigned d
  | .setTimeouts t n => isWord t && isWord n
  | .timeout t => isWord t
  | .setSponsor s m d pt bt _ p => isWord s && isWord m && isWord d && isWord pt && isWord bt && isPayload p
  | .setLevel s l => isWord s && isWord l
  | .holdRotation n => isWord n
  | .setTrigger e k a s z l d => isWord e && isWord k && isWord a && isWord s && isWord z && isWord l && isWord d
  | .clearTrigger e => isWord e
  | .fireFeature e => isWord e
  | .setNesting z _ => isWord z
  | .setSegmentPlan p b => isWord p && isWord b
  | .closeSegment | .resetUnits => true
  | .setSource s b w h c => isWord s && isLong b && isHalf w && isHalf h && isWord c
  | .captureStart s => isWord s
  | .captureStop s => isWord s
  | .markClip c s f l => isWord c && isWord s && isLong f && isLong l
  | .dropClip c => isWord c
  | .bindZone z c => isWord z && isWord c
  | .setCrop c x y => isWord c && isHalf x && isHalf y
  | .cue c n p e => isWord c && isWord n && isWord p && isWord e
  | .markAndCue c s n _ => isWord c && isWord s && isWord n
  | .play c => isWord c
  | .pause c => isWord c
  | .step c n => isWord c && isSigned n
  | .setSpeed c s r => isWord c && isSigned s && isWord r
  | .stop c => isWord c
  | .postMessage i p r m e pl => isWord i && isWord p && isWord r && isWord m && isWord e && isPayload pl
  | .approveMessage i => isWord i
  | .rejectMessage i => isWord i
  | .withdrawMessage i => isWord i
  | .setTicker w s => isWord w && isWord s

end Sys2Proof
end

