-- ==== Sys2Proof/Decode.lean ====
section
/-! DEFINITION. Reading and writing commands as bytes: the 64-byte command record of R181, its name (R171) and its
arguments. `decodeTableWord` answers for spec/opcode_table.json, none of whose rows has bits (assumption log 12). -/

namespace Sys2Proof

/-- No row of the table gives its command a word of bits, so no word spells a command. -/
def decodeTableWord (_nbits _w : Nat) : Option Instr := none

/-! ### Little-endian numbers (section 0.6) -/

/-- The number in a list of bytes, the lowest-addressed byte first. -/
def ofLe : List Byte → Nat
  | [] => 0
  | b :: bs => b.toNat + 256 * ofLe bs

/-- The low `k` bytes of a number, the lowest-addressed byte first. -/
def toLe : Nat → Nat → List Byte
  | 0, _ => []
  | k + 1, n => BitVec.ofNat 8 n :: toLe k (n / 256)

/-- The `len` bytes from offset `at'`. -/
def slice (bs : List Byte) (at' len : Nat) : List Byte := (bs.drop at').take len

/-- The number in the `len` bytes from offset `at'`. -/
def field (bs : List Byte) (at' len : Nat) : Nat := ofLe (slice bs at' len)

/-- A code list carried in a payload: 2 bytes a code (R181). -/
def codesOf : List Byte → List Nat
  | a :: b :: rest => (a.toNat + 256 * b.toNat) :: codesOf rest
  | _ => []

/-! ### Argument words (R181) -/

/-- The first of a pair. -/
def firstOf (w : Nat) : Nat := w % 65536

/-- The second of a pair. -/
def secondOf (w : Nat) : Nat := w / 65536 % 65536

/-- Two halves as one word. -/
def pairWord (a b : Nat) : Nat := a + 65536 * b

/-- A 64-bit argument from its two words, the low word first. -/
def longOf (lo hi : Nat) : Nat := lo + 4294967296 * hi

/-- The low word of a 64-bit argument. -/
def lowWord (n : Nat) : Nat := n % 4294967296

/-- The high word of a 64-bit argument. -/
def highWord (n : Nat) : Nat := n / 4294967296

/-- A two's-complement 32-bit number. -/
def signedOf (w : Nat) : Int := if w < 2147483648 then (w : Int) else (w : Int) - 4294967296

/-- A signed argument as its word. -/
def signedWord (n : Int) : Nat := if 0 ≤ n then n.toNat else (n + 4294967296).toNat

/-- A flag is clear when its word is 0 and set otherwise. -/
def flagOf (w : Nat) : Bool := w != 0

/-- The word of a flag. -/
def flagWord (b : Bool) : Nat := if b then 1 else 0

/-- Byte `i` of an argument word. -/
def byteOf (w i : Nat) : Nat := w / 256 ^ i % 256

/-! ### The commands' names and arguments -/

/-- One control command: its name and how its arguments fill the words (R181). -/
structure CommandRow where
  name : String
  read : (Nat → Nat) → List Byte → Instr

/-- The commands of the control room, in the order of spec/opcode_table.json. -/
def commandRows : List CommandRow := [
  ⟨"SET-ROLE", fun w _ => .setRole (w 0) (w 1) (w 2)⟩,
  ⟨"SET-CANVAS", fun w _ => .setCanvas (longOf (w 0) (w 1)) (firstOf (w 2)) (secondOf (w 2)) (w 3)⟩,
  ⟨"SET-OVERLAY-STORE", fun w _ => .setOverlayStore (longOf (w 0) (w 1))⟩,
  ⟨"SET-POOL", fun w _ => .setPool (longOf (w 0) (w 1)) (w 2) (w 3)⟩,
  ⟨"SET-ZONE", fun w _ => .setZone (w 0) (firstOf (w 1)) (secondOf (w 1)) (firstOf (w 2)) (secondOf (w 2)) (w 3) (w 4)⟩,
  ⟨"ZONE-OFF", fun w _ => .zoneOff (w 0)⟩,
  ⟨"SET-WINDOW", fun w _ => .setWindow (w 0) (firstOf (w 1)) (secondOf (w 1)) (firstOf (w 2)) (secondOf (w 2)) (w 3) (w 4)
      (flagOf (w 5)) (w 6) (w 7)⟩,
  ⟨"SHOW-WINDOW", fun w _ => .showWindow (w 0)⟩,
  ⟨"HIDE-WINDOW", fun w _ => .hideWindow (w 0)⟩,
  ⟨"SET-FADE", fun w _ => .setFade (w 0) (w 1)⟩,
  ⟨"SET-RUN", fun w p => .setRun (w 0) (w 1) (firstOf (w 2)) (secondOf (w 2)) (w 3) (w 4) (w 5) (w 6)
      (byteOf (w 7) 0) (byteOf (w 7) 1) (byteOf (w 7) 2) p⟩,
  ⟨"CLEAR-RUN", fun w _ => .clearRun (w 0) (w 1)⟩,
  ⟨"SET-IMAGE", fun w _ => .setImage (w 0) (longOf (w 1) (w 2)) (w 3) (firstOf (w 4)) (secondOf (w 4))⟩,
  ⟨"LOAD-FONT", fun w _ => .loadFont (longOf (w 0) (w 1)) (w 2) (w 3)⟩] ++ [
  ⟨"CLOCK-START", fun _ _ => .clockStart⟩,
  ⟨"CLOCK-STOP", fun _ _ => .clockStop⟩,
  ⟨"CLOCK-SET", fun w _ => .clockSet (w 0)⟩,
  ⟨"CLOCK-MODE", fun w _ => .clockMode (w 0) (w 1) (w 2)⟩,
  ⟨"SET-PRESET", fun w _ => .setPreset (w 0)⟩,
  ⟨"NEXT-PERIOD", fun _ _ => .nextPeriod⟩,
  ⟨"SET-CONTACT", fun w _ => .setContact (w 0) (w 1)⟩,
  ⟨"PLAY-MODE", fun w _ => .playMode (w 0) (w 1)⟩,
  ⟨"PLAY-START", fun _ _ => .playStart⟩,
  ⟨"PLAY-STOP", fun _ _ => .playStop⟩,
  ⟨"PLAY-SET", fun w _ => .playSet (w 0)⟩,
  ⟨"PLAY-RESET", fun _ _ => .playReset⟩,
  ⟨"PENALTY-ADD", fun w _ => .penaltyAdd (w 0) (w 1) (w 2)⟩,
  ⟨"PENALTY-CANCEL", fun w _ => .penaltyCancel (w 0) (w 1)⟩,
  ⟨"PENALTY-CLEAR", fun w _ => .penaltyClear (w 0)⟩,
  ⟨"SET-CONCURRENCY", fun w _ => .setConcurrency (w 0) (w 1)⟩,
  ⟨"SCORE-SET", fun w _ => .scoreSet (w 0) (w 1)⟩,
  ⟨"SCORE-ADD", fun w _ => .scoreAdd (w 0) (signedOf (w 1))⟩,
  ⟨"SET-TIMEOUTS", fun w _ => .setTimeouts (w 0) (w 1)⟩,
  ⟨"TIMEOUT", fun w _ => .timeout (w 0)⟩] ++ [
  ⟨"SET-SPONSOR", fun w p => .setSponsor (w 0) (w 1) (w 2) (w 3) (w 4) (flagOf (w 5)) p⟩,
  ⟨"SET-LEVEL", fun w _ => .setLevel (w 0) (w 1)⟩,
  ⟨"HOLD-ROTATION", fun w _ => .holdRotation (w 0)⟩,
  ⟨"SET-TRIGGER", fun w _ => .setTrigger (w 0) (w 1) (w 2) (w 3) (w 4) (w 5) (w 6)⟩,
  ⟨"CLEAR-TRIGGER", fun w _ => .clearTrigger (w 0)⟩,
  ⟨"FIRE-FEATURE", fun w _ => .fireFeature (w 0)⟩,
  ⟨"SET-NESTING", fun w _ => .setNesting (w 0) (flagOf (w 1))⟩,
  ⟨"SET-SEGMENT-PLAN", fun w _ => .setSegmentPlan (w 0) (w 1)⟩,
  ⟨"CLOSE-SEGMENT", fun _ _ => .closeSegment⟩,
  ⟨"SET-SOURCE", fun w _ => .setSource (w 0) (longOf (w 1) (w 2)) (firstOf (w 3)) (secondOf (w 3)) (w 4)⟩,
  ⟨"CAPTURE-START", fun w _ => .captureStart (w 0)⟩,
  ⟨"CAPTURE-STOP", fun w _ => .captureStop (w 0)⟩,
  ⟨"MARK-CLIP", fun w _ => .markClip (w 0) (w 1) (longOf (w 2) (w 3)) (longOf (w 4) (w 5))⟩,
  ⟨"DROP-CLIP", fun w _ => .dropClip (w 0)⟩] ++ [
  ⟨"BIND-ZONE", fun w _ => .bindZone (w 0) (w 1)⟩,
  ⟨"SET-CROP", fun w _ => .setCrop (w 0) (firstOf (w 1)) (secondOf (w 1))⟩,
  ⟨"CUE", fun w _ => .cue (w 0) (w 1) (w 2) (w 3)⟩,
  ⟨"MARK-AND-CUE", fun w _ => .markAndCue (w 0) (w 1) (w 2) (flagOf (w 3))⟩,
  ⟨"PLAY", fun w _ => .play (w 0)⟩,
  ⟨"PAUSE", fun w _ => .pause (w 0)⟩,
  ⟨"STEP", fun w _ => .step (w 0) (signedOf (w 1))⟩,
  ⟨"SET-SPEED", fun w _ => .setSpeed (w 0) (signedOf (w 1)) (w 2)⟩,
  ⟨"STOP", fun w _ => .stop (w 0)⟩,
  ⟨"POST-MESSAGE", fun w p => .postMessage (w 0) (w 1) (w 2) (w 3) (w 4) p⟩,
  ⟨"APPROVE-MESSAGE", fun w _ => .approveMessage (w 0)⟩,
  ⟨"REJECT-MESSAGE", fun w _ => .rejectMessage (w 0)⟩,
  ⟨"WITHDRAW-MESSAGE", fun w _ => .withdrawMessage (w 0)⟩,
  ⟨"SET-TICKER", fun w _ => .setTicker (w 0) (w 1)⟩,
  ⟨"RESET-UNITS", fun _ _ => .resetUnits⟩]

/-- A command's name as the 16 bytes of a record, padded with spaces (R171). The one name of 17 characters,
SET-OVERLAY-STORE, is cut to its first 16 (DESIGN CHOICE, unsafe: assumption log 17). -/
def nameBytes (name : String) : List Byte :=
  let codes := (name.toList.map (fun c => BitVec.ofNat 8 c.toNat)).take 16
  codes ++ List.replicate (16 - codes.length) 32

/-- The command a record's name field names, if any (R171 step 1). -/
def rowOfName (bytes : List Byte) : Option CommandRow :=
  commandRows.find? (fun r => nameBytes r.name == bytes)

/-- The name field of a 64-byte record (R181). -/
def recordName (record : List Byte) : List Byte := slice record 0 16

/-- Argument word `k` of a record (R181). -/
def recordWord (record : List Byte) (k : Nat) : Nat := field record (16 + 4 * k) 4

/-- The payload address of a record (R181). -/
def recordPayloadAddr (record : List Byte) : Nat := field record 48 8

/-- The payload length of a record (R181). -/
def recordPayloadLen (record : List Byte) : Nat := field record 56 4

/-- The command a fetched record spells, given its payload; `none` for BAD-NAME (R171, R181). -/
def decodeRecord (record payload : List Byte) : Option Instr :=
  (rowOfName (recordName record)).map (fun r => r.read (recordWord record) payload)

/-! ### The encoder -/

/-- What a command record spells: the name, the argument words and the payload. -/
structure Spelling where
  name : String
  words : List Nat
  payload : List Byte
  deriving DecidableEq, Repr

/-- How a control command is written as a record (R181); `none` for a row that is no control command. -/
def spell : Instr → Option Spelling
  | .frameStart | .resetRelease _ _ | .powerOnReset | .msTick _ _ | .contactAccept _ _ | .periodEnd | .playExpiry => none
  | .penaltyDone _ | .fieldNotice | .gameEvent | .replayStartEvent | .requestAccept _ | .responseReturn _ => none
  | .mirrorNotice _ _ _ | .compositeWorkOut | .deliveryEvent | .renderFrameStart | .stripPassed _ => none
  | .renderJobStart | .renderJobComplete | .fontLoadFinish | .rotationFrameStart | .holdEnd | .turnEnd _ => none
  | .featureEnd _ | .captureTick | .addUser _ | .removeUser _ | .markRelease _ | .playoutFrameStart => none
  | .channelMove _ | .messageFrameStart | .messageExpiry | .staticShowEnd | .flipNotice | .stripPassedNotice => none
  | .waitingUnitEntry | .activateComplete _ | .prechargeComplete _ | .burstComplete | .ageingPromotion => none
  | .refreshInterval | .idleRefreshStart | .refreshComplete | .dramInitStepComplete | .commandIndexWrite => none
  | .reportConsumerWrite | .commandTake | .commandFetchComplete | .commandEnd | .reportArrival => none
  | .heldReportWrite | .statusBlockWrite => none
  | .setRole i r s => some ⟨"SET-ROLE", [i, r, s], []⟩
  | .setCanvas b w h p => some ⟨"SET-CANVAS", [lowWord b, highWord b, pairWord w h, p], []⟩
  | .setOverlayStore b => some ⟨"SET-OVERLAY-STORE", [lowWord b, highWord b], []⟩
  | .setPool b n s => some ⟨"SET-POOL", [lowWord b, highWord b, n, s], []⟩
  | .setZone z x y w h r k => some ⟨"SET-ZONE", [z, pairWord x y, pairWord w h, r, k], []⟩
  | .zoneOff z => some ⟨"ZONE-OFF", [z], []⟩
  | .setWindow n x y w h z f o bg k =>
      some ⟨"SET-WINDOW", [n, pairWord x y, pairWord w h, z, f, flagWord o, bg, k], []⟩
  | .showWindow n => some ⟨"SHOW-WINDOW", [n], []⟩
  | .hideWindow n => some ⟨"HIDE-WINDOW", [n], []⟩
  | .setFade n f => some ⟨"SET-FADE", [n, f], []⟩
  | .setRun n r x y bw a c o k t l p =>
      some ⟨"SET-RUN", [n, r, pairWord x y, bw, a, c, o, k + 256 * t + 65536 * l], p⟩
  | .clearRun n r => some ⟨"CLEAR-RUN", [n, r], []⟩
  | .setImage n a p w h => some ⟨"SET-IMAGE", [n, lowWord a, highWord a, p, pairWord w h], []⟩
  | .loadFont b n a => some ⟨"LOAD-FONT", [lowWord b, highWord b, n, a], []⟩
  | .clockStart => some ⟨"CLOCK-START", [], []⟩
  | .clockStop => some ⟨"CLOCK-STOP", [], []⟩
  | .clockSet v => some ⟨"CLOCK-SET", [v], []⟩
  | .clockMode m d t => some ⟨"CLOCK-MODE", [m, d, t], []⟩
  | .setPreset p => some ⟨"SET-PRESET", [p], []⟩
  | .nextPeriod => some ⟨"NEXT-PERIOD", [], []⟩
  | .setContact c p => some ⟨"SET-CONTACT", [c, p], []⟩
  | .playMode m p => some ⟨"PLAY-MODE", [m, p], []⟩
  | .playStart => some ⟨"PLAY-START", [], []⟩
  | .playStop => some ⟨"PLAY-STOP", [], []⟩
  | .playSet v => some ⟨"PLAY-SET", [v], []⟩
  | .playReset => some ⟨"PLAY-RESET", [], []⟩
  | .penaltyAdd t p ms => some ⟨"PENALTY-ADD", [t, p, ms], []⟩
  | .penaltyCancel t p => some ⟨"PENALTY-CANCEL", [t, p], []⟩
  | .penaltyClear t => some ⟨"PENALTY-CLEAR", [t], []⟩
  | .setConcurrency t l => some ⟨"SET-CONCURRENCY", [t, l], []⟩
  | .scoreSet t v => some ⟨"SCORE-SET", [t, v], []⟩
  | .scoreAdd t d => some ⟨"SCORE-ADD", [t, signedWord d], []⟩
  | .setTimeouts t n => some ⟨"SET-TIMEOUTS", [t, n], []⟩
  | .timeout t => some ⟨"TIMEOUT", [t], []⟩
  | .setSponsor s m d pt bt c p => some ⟨"SET-SPONSOR", [s, m, d, pt, bt, flagWord c], p⟩
  | .setLevel s l => some ⟨"SET-LEVEL", [s, l], []⟩
  | .holdRotation n => some ⟨"HOLD-ROTATION", [n], []⟩
  | .setTrigger e k a s z l d => some ⟨"SET-TRIGGER", [e, k, a, s, z, l, d], []⟩
  | .clearTrigger e => some ⟨"CLEAR-TRIGGER", [e], []⟩
  | .fireFeature e => some ⟨"FIRE-FEATURE", [e], []⟩
  | .setNesting z f => some ⟨"SET-NESTING", [z, flagWord f], []⟩
  | .setSegmentPlan p b => some ⟨"SET-SEGMENT-PLAN", [p, b], []⟩
  | .closeSegment => some ⟨"CLOSE-SEGMENT", [], []⟩
  | .setSource s b w h c => some ⟨"SET-SOURCE", [s, lowWord b, highWord b, pairWord w h, c], []⟩
  | .captureStart s => some ⟨"CAPTURE-START", [s], []⟩
  | .captureStop s => some ⟨"CAPTURE-STOP", [s], []⟩
  | .markClip c s f l => some ⟨"MARK-CLIP", [c, s, lowWord f, highWord f, lowWord l, highWord l], []⟩
  | .dropClip c => some ⟨"DROP-CLIP", [c], []⟩
  | .bindZone z c => some ⟨"BIND-ZONE", [z, c], []⟩
  | .setCrop c x y => some ⟨"SET-CROP", [c, pairWord x y], []⟩
  | .cue c n p e => some ⟨"CUE", [c, n, p, e], []⟩
  | .markAndCue c s n f => some ⟨"MARK-AND-CUE", [c, s, n, flagWord f], []⟩
  | .play c => some ⟨"PLAY", [c], []⟩
  | .pause c => some ⟨"PAUSE", [c], []⟩
  | .step c n => some ⟨"STEP", [c, signedWord n], []⟩
  | .setSpeed c s r => some ⟨"SET-SPEED", [c, signedWord s, r], []⟩
  | .stop c => some ⟨"STOP", [c], []⟩
  | .postMessage i p r m e pl => some ⟨"POST-MESSAGE", [i, p, r, m, e], pl⟩
  | .approveMessage i => some ⟨"APPROVE-MESSAGE", [i], []⟩
  | .rejectMessage i => some ⟨"REJECT-MESSAGE", [i], []⟩
  | .withdrawMessage i => some ⟨"WITHDRAW-MESSAGE", [i], []⟩
  | .setTicker w s => some ⟨"SET-TICKER", [w, s], []⟩
  | .resetUnits => some ⟨"RESET-UNITS", [], []⟩

/-- The 64 bytes of a record with its payload at `payloadAddr` (R181). -/
def Spelling.bytes (sp : Spelling) (payloadAddr : Nat) : List Byte :=
  nameBytes sp.name ++ (List.range 8).flatMap (fun k => toLe 4 (sp.words.getD k 0)) ++
    toLe 8 payloadAddr ++ toLe 4 sp.payload.length ++ toLe 4 0

/-- A control command as the record a host writes for it. -/
def encodeRecord (i : Instr) (payloadAddr : Nat) : Option (List Byte) :=
  (spell i).map (fun sp => sp.bytes payloadAddr)

end Sys2Proof
end

