-- ==== Sys2Proof/Machine/State.lean ====
section
/-! DEFINITION. The state of the part: plain data, one structure for each unit, the messages on their way between
units, frame DRAM and the queue of commands; and the state right after power-on reset. -/

namespace Sys2Proof.Machine

open Sys2Proof

/-! ### Named values -/

/-- An initiator's role (R2). -/
inductive Role where
  | none
  | scanout
  | ingest (source : Nat)
  | control
  deriving DecidableEq, Repr, Inhabited

/-- The kinds of zone (R21). -/
inductive ZoneKind where
  | sponsor
  | replay
  deriving DecidableEq, Repr, Inhabited

/-- The two replay channels (R127). -/
inductive ChannelId where
  | a
  | b
  deriving DecidableEq, Repr, Inhabited

/-- The kinds of window (R39). -/
inductive WindowKind where
  | text
  | image
  | ticker
  deriving DecidableEq, Repr, Inhabited

/-- The two buffers of a window (R39). -/
inductive Buffer where
  | a
  | b
  deriving DecidableEq, Repr, Inhabited

/-- The back buffer's state (R39). -/
inductive BackState where
  | empty
  | drawing
  | ready
  deriving DecidableEq, Repr, Inhabited

/-- Alignment of a text run (Table 3-2). -/
inductive Align where
  | left
  | right
  | centre
  deriving DecidableEq, Repr, Inhabited

/-- The 13 display fields of the Timing Unit (R73). -/
inductive DisplayField where
  | gameClock
  | playClock
  | period
  | score (team : Nat)
  | timeouts (team : Nat)
  | penalty (team line : Nat)
  deriving DecidableEq, Repr, Inhabited

/-- The source of a text run (Table 3-2). -/
inductive RunSource where
  | literal (codes : List Nat)
  | display (field : DisplayField)
  deriving DecidableEq, Repr, Inhabited

/-- Game clock mode (R60). -/
inductive ClockMode where
  | manual
  | contact
  deriving DecidableEq, Repr, Inhabited

/-- Game clock direction (R60). -/
inductive Direction where
  | down
  | up
  deriving DecidableEq, Repr, Inhabited

/-- Game clock run state (R60). -/
inductive RunState where
  | stopped
  | running
  | expired
  deriving DecidableEq, Repr, Inhabited

/-- Contact polarity (R67). -/
inductive Polarity where
  | activeHigh
  | activeLow
  deriving DecidableEq, Repr, Inhabited

/-- Play clock mode (R69). -/
inductive PlayMode where
  | linked
  | free
  deriving DecidableEq, Repr, Inhabited

/-- Game events of the Timing Unit (R80). -/
inductive GameEvent where
  | periodEnd (period : Nat)
  | periodStart (period : Nat)
  | playExpiry
  | scoreUp (team : Nat)
  | timeout (team : Nat)
  deriving DecidableEq, Repr, Inhabited

/-- What a trigger entry waits for, with its argument (R95). -/
inductive TriggerEvent where
  | periodEnd (period : Nat)
  | periodStart (period : Nat)
  | playExpiry
  | scoreUp (team : Nat)
  | timeout (team : Nat)
  | replayStart (channel : ChannelId)
  deriving DecidableEq, Repr, Inhabited

/-- The kinds of segment (R99). -/
inductive SegmentKind where
  | period
  | break'
  deriving DecidableEq, Repr, Inhabited

/-- A source's state (R107), in the order Table 6-1 lists them. -/
inductive SourceState where
  | stopped
  | armed
  | capturing
  | starved
  deriving DecidableEq, Repr, Inhabited

/-- The status of a timeline entry (R111). -/
inductive EntryStatus where
  | whole
  | missing
  | torn
  | starved
  deriving DecidableEq, Repr, Inhabited

/-- A replay channel's state (R127), in the order Table 7-1 lists them. -/
inductive ChannelState where
  | idle
  | cued
  | playing
  | paused
  | held
  deriving DecidableEq, Repr, Inhabited

/-- A channel's end action (R127). -/
inductive EndAction where
  | hold
  | loop
  | release
  deriving DecidableEq, Repr, Inhabited

/-- A message's state (R142). -/
inductive MessageState where
  | held
  | approved
  | showing
  deriving DecidableEq, Repr, Inhabited

/-- The final state of a message that leaves (R146). -/
inductive FinalState where
  | done
  | rejected
  | withdrawn
  | expired
  deriving DecidableEq, Repr, Inhabited

/-- The form of a show (R147). -/
inductive ShowForm where
  | crawl
  | static
  deriving DecidableEq, Repr, Inhabited

/-- Refusal reasons, in the order of Table 10-2 (R173). -/
inductive Reason where
  | badName
  | badArgument
  | wrongState
  | noRoom
  | notFound
  | inUse
  | contactOwned
  | payloadFault
  | ringOverrun
  deriving DecidableEq, Repr, Inhabited

/-- Why a feature was dropped (R182 FEATURE). -/
inductive DropReason where
  | queueFull
  | notShowable
  | zoneClosed
  deriving DecidableEq, Repr, Inhabited

/-- What a command's own report says (R172): DONE with two results, or REFUSED with a reason. -/
inductive CommandResult where
  | done (result1 result2 : Nat)
  | refused (reason : Reason)
  deriving DecidableEq, Repr, Inhabited

/-! ### Small records -/

/-- A pixel: red, green, blue and X (section 0.6, Pixels). -/
structure Pixel where
  r : Byte
  g : Byte
  b : Byte
  x : Byte
  deriving DecidableEq, Repr, Inhabited

/-- A rectangle of canvas pixels. -/
structure Rect where
  x : Nat
  y : Nat
  width : Nat
  height : Nat
  deriving DecidableEq, Repr, Inhabited

/-! ### Lines, Fabric Port and Path Classifier -/

/-- The straps: 5 aperture pins and 4 control pins (R168). -/
structure Straps where
  aperture : BitVec 5
  control : BitVec 4
  deriving DecidableEq, Repr, Inhabited

/-- The single input lines (section 0.3). -/
structure Lines where
  resetHeld : Bool
  strapPins : Straps
  contactRun : Level
  contactPlay : Level
  deriving DecidableEq, Repr, Inhabited

/-- A NORMAL request's treatment of one beat (R7); a snooped beat says which of its two words are snooped (R12). -/
inductive BeatTreatment where
  | plain
  | composited (line column : Nat)
  | mirrored (source : Nat)
  | snooped (index consumer : Bool)
  deriving DecidableEq, Repr, Inhabited

/-- A request's treatment as a whole (R7). -/
inductive Treatment where
  | normal
  | decodeError
  | protected'
  deriving DecidableEq, Repr, Inhabited

/-- A request table entry (Table 1-1). READY is `opsLeft = 0` and `compositesLeft = 0`; `number` is the model's own
name for the entry. -/
structure Entry where
  number : Nat
  request : Request
  treatment : Treatment
  beats : List BeatTreatment
  showFrame : FrameNo
  opsLeft : Nat
  compositesLeft : Nat
  readData : List (Option (List Byte))
  deriving DecidableEq, Repr, Inhabited

/-- Response statuses (Table 1-4). -/
inductive Status where
  | ok
  | decodeError
  | protected'
  deriving DecidableEq, Repr, Inhabited

/-- A response: its status and, for a READ, one beat of data for each beat requested (R17). -/
structure Response where
  status : Status
  data : List (List Byte)
  deriving DecidableEq, Repr, Inhabited

/-- The Fabric Port (R1, R14-R17). -/
structure FabricPort where
  presented : Vector (Option Request) 16
  offered : Option Nat
  table : List Entry
  nextEntry : Nat
  pointer : Nat
  initDone : Bool
  returnPath : Vector (Option Response) 16
  deriving DecidableEq, Repr

/-- The configured canvas geometry (R4). -/
structure Canvas where
  base : Nat
  width : Nat
  height : Nat
  pitch : Nat
  deriving DecidableEq, Repr, Inhabited

/-- The Path Classifier (R2, R4, R20, R168). The region map (R6) is computed from the straps, the overlay store and
the pool. -/
structure Classifier where
  straps : Straps
  roles : Vector Role 16
  canvas : Option Canvas
  frame : FrameNo
  deriving DecidableEq, Repr

/-! ### Compositor -/

/-- What SET-ZONE gives a zone (R22). -/
structure ZoneConfig where
  rect : Rect
  rank : Nat
  kind : ZoneKind
  deriving DecidableEq, Repr, Inhabited

/-- A zone record (Table 2-1). `config` is present once a SET-ZONE has been taken: it is the set flag. -/
structure Zone where
  enabled : Bool
  config : Option ZoneConfig
  bound : Option ChannelId
  deriving DecidableEq, Repr, Inhabited

/-- A composite request (R10). -/
structure CompositeRequest where
  entry : Nat
  position : Nat
  line : Nat
  column : Nat
  addr : Nat
  showFrame : FrameNo
  deriving DecidableEq, Repr, Inhabited

/-- A window as it was read when a composite request was worked out (R24, R30): `fetches` numbers the fetches that
read its pixels, in address order, and `from'` is the address of the first byte they read. -/
structure Layer where
  rect : Rect
  scroll : Nat
  imageWidth : Nat
  bufferBase : Nat
  background : Pixel
  fade : Nat
  fetches : List Nat
  from' : Nat
  deriving DecidableEq, Repr, Inhabited

/-- A composite request whose fetches have been entered (R24, R34). `base` numbers the base fetch, none for a black
beat; `layers` are in blend order. -/
structure Working where
  number : Nat
  request : CompositeRequest
  base : Option Nat
  layers : List Layer
  fetchesLeft : Nat
  got : List (Nat × List Byte)
  deriving DecidableEq, Repr, Inhabited

/-- Delivered beats of one zone line (R35), with the canvas line they were delivered on. -/
structure Delivered where
  zone : Nat
  zoneLine : Nat
  canvasLine : Nat
  beats : Nat
  deriving DecidableEq, Repr, Inhabited

/-- The Compositor's note on one fabric request (R35). -/
structure DeliveryNote where
  entry : Nat
  requestsLeft : Nat
  counts : List Delivered
  deriving DecidableEq, Repr, Inhabited

/-- The Compositor (R21, R24, R35). -/
structure Compositor where
  zones : Vector Zone 8
  queue : List CompositeRequest
  working : List Working
  notes : List DeliveryNote
  nextWorking : Nat
  deriving DecidableEq, Repr

/-! ### Memory Scheduler -/

/-- A DRAM bank (R158). -/
inductive Bank where
  | idle
  | activating (row : Nat)
  | active (row : Nat)
  | precharging
  deriving DecidableEq, Repr, Inhabited

/-- The class of an operation (R156). -/
inductive OpClass where
  | scanout
  | general
  deriving DecidableEq, Repr, Inhabited

/-- The unit and item a completion is handed to (R156). -/
inductive Owner where
  | fabricRead (entry firstBeat : Nat)
  | fabricWrite (entry : Nat) (index consumer : Option Count)
  | mirror
  | compositor (working fetch : Nat)
  | renderRead (job piece : Nat)
  | renderWrite (job : Nat)
  | fontRead (load piece : Nat)
  | recordFetch
  | payloadFetch (piece : Nat)
  | reportWrite
  | statusWrite
  deriving DecidableEq, Repr, Inhabited

/-- An operation (Table 9-2). Bank, row and column are read off the address (R155); `order` is its place in the order
of entry. -/
structure Operation where
  write : Bool
  addr : Nat
  beats : Nat
  data : List (List (Option Byte))
  owner : Owner
  cls : OpClass
  order : Nat
  passes : Nat
  inBurst : Bool
  deriving DecidableEq, Repr, Inhabited

/-- The refresh phase (R162). -/
inductive RefreshPhase where
  | quiet
  | closing
  | refreshing
  deriving DecidableEq, Repr, Inhabited

/-- DRAM initialisation (R166): not begun while RESET is held, then the four steps. -/
inductive InitStage where
  | waiting
  | prechargeAll
  | firstRefresh
  | secondRefresh
  | modeSetting
  | done
  deriving DecidableEq, Repr, Inhabited

/-- The units that wait for places of the operation queue (R156). -/
inductive WaitingUnit where
  | port
  | compositor
  | render
  | reader
  | writer
  deriving DecidableEq, Repr, Inhabited

/-- The Memory Scheduler (chapter 9). The data path carries the operation that is IN-BURST and is FREE when none is. -/
structure Scheduler where
  banks : Vector Bank 16
  queue : List Operation
  nextOrder : Nat
  debt : Nat
  phase : RefreshPhase
  forced : Bool
  init : InitStage
  waiters : List WaitingUnit
  promotions : List Nat
  deriving DecidableEq, Repr

/-! ### Render Engine -/

/-- A window's configuration (Table 3-1). -/
structure WindowConfig where
  rect : Rect
  z : Nat
  fade : Nat
  occluding : Bool
  background : Pixel
  kind : WindowKind
  deriving DecidableEq, Repr, Inhabited

/-- A text run (Table 3-2). -/
structure TextRun where
  x : Nat
  y : Nat
  box : Nat
  align : Align
  colour : Pixel
  opacity : Nat
  source : RunSource
  deriving DecidableEq, Repr, Inhabited

/-- An IMAGE window's image reference (R45). -/
structure ImageRef where
  addr : Nat
  pitch : Nat
  width : Nat
  height : Nat
  deriving DecidableEq, Repr, Inhabited

/-- A ticker window's content: a message id with its codes (R55). -/
structure Content where
  id : Nat
  codes : List Nat
  deriving DecidableEq, Repr, Inhabited

/-- A buffer record (R39). `background` is the background pixel the image was drawn over, which a new background of the
window replaces at a flip (R41; DESIGN CHOICE, unsafe: log 41). -/
structure BufferRecord where
  imageWidth : Nat
  strip : Bool
  message : Option Nat
  background : Pixel
  deriving DecidableEq, Repr, Inhabited

/-- A window record (Table 3-1). `config` is present once a SET-WINDOW has been taken: it is the configured flag. -/
structure Window where
  config : Option WindowConfig
  runs : Vector (Option TextRun) 4
  image : Option ImageRef
  content : Option Content
  pendingVisible : Bool
  shownVisible : Bool
  front : Buffer
  frontPresent : Bool
  back : BackState
  scroll : Nat
  speed : Nat
  jobVoid : Bool
  dirty : Bool
  recordA : BufferRecord
  recordB : BufferRecord
  deriving DecidableEq, Repr

/-- A glyph record (Table 3-3). -/
structure Glyph where
  code : Nat
  width : Nat
  height : Nat
  top : Nat
  advance : Nat
  offset : Nat
  length : Nat
  deriving DecidableEq, Repr, Inhabited

/-- What one read of a render job is for: a glyph's stream, or a line of the image. -/
inductive ReadItem where
  | glyph (code : Nat)
  | imageLine (line : Nat)
  deriving DecidableEq, Repr, Inhabited

/-- One read of a render job: whole beats within one DRAM row that hold bytes of the item (R53, R155). -/
structure ReadPiece where
  item : ReadItem
  addr : Nat
  beats : Nat
  deriving DecidableEq, Repr, Inhabited

/-- A text run as a job copies it, its text taken at the job's start (R53). -/
structure DrawnRun where
  x : Nat
  y : Nat
  box : Nat
  align : Align
  colour : Pixel
  opacity : Nat
  codes : List Nat
  deriving DecidableEq, Repr, Inhabited

/-- A render job in flight (R53): the copy taken at its start, its reads and the writes it still waits for. -/
structure Job where
  number : Nat
  window : Nat
  config : WindowConfig
  runs : List DrawnRun
  image : Option ImageRef
  content : Option Content
  glyphs : List Glyph
  fontBase : Nat
  advance : Nat
  bufferBase : Nat
  imageWidth : Nat
  strip : Bool
  pieces : List ReadPiece
  got : List (Nat × List Byte)
  readsLeft : Nat
  writing : Bool
  writesLeft : Nat
  deriving DecidableEq, Repr, Inhabited

/-- A LOAD-FONT in progress (R47): waiting for a job to complete, or loading. -/
structure FontLoad where
  number : Nat
  base : Nat
  count : Nat
  advance : Nat
  loading : Bool
  piecesLeft : Nat
  got : List (Nat × List Byte)
  deriving DecidableEq, Repr, Inhabited

/-- The Render Engine (chapter 3). `toEnter` holds the operations it has still to enter (R53). -/
structure RenderEngine where
  windows : Vector Window 16
  queue : List Nat
  overlay : Option Nat
  glyphs : List Glyph
  fontBase : Option Nat
  advance : Nat
  job : Option Job
  load : Option FontLoad
  nextJob : Nat
  toEnter : List Operation
  deriving DecidableEq, Repr

/-! ### Timing Unit -/

/-- The game clock (Table 4-1). -/
structure GameClock where
  mode : ClockMode
  direction : Direction
  value : Nat
  preset : Nat
  threshold : Nat
  run : RunState
  period : Nat
  deriving DecidableEq, Repr, Inhabited

/-- A contact filter (R67). -/
structure ContactFilter where
  polarity : Polarity
  candidate : Option Level
  count : Nat
  accepted : Option Level
  deriving DecidableEq, Repr, Inhabited

/-- The play clock (R69). -/
structure PlayClock where
  value : Nat
  preset : Nat
  mode : PlayMode
  running : Bool
  deriving DecidableEq, Repr, Inhabited

/-- A penalty (R74): RUNNING with its start position, or WAITING. -/
structure Penalty where
  player : Nat
  remaining : Nat
  start : Option Nat
  deriving DecidableEq, Repr, Inhabited

/-- One team's penalty list, score and timeouts (R74, R79). -/
structure Team where
  penalties : List Penalty
  limit : Nat
  score : Nat
  timeouts : Nat
  deriving DecidableEq, Repr, Inhabited

/-- The Timing Unit (chapter 4). `strings` are the kept strings of the 13 fields in the order of R73. -/
structure TimingUnit where
  clock : GameClock
  runFilter : ContactFilter
  playFilter : ContactFilter
  play : PlayClock
  team0 : Team
  team1 : Team
  strings : Vector (List Nat) 13
  deriving DecidableEq, Repr

/-! ### Rotation Unit -/

/-- A sponsor's art (R81). -/
structure Art where
  base : Nat
  frames : Nat
  stride : Nat
  pitch : Nat
  width : Nat
  height : Nat
  deriving DecidableEq, Repr, Inhabited

/-- A sponsor record (Table 5-1). `art` is present once a SET-SPONSOR has been taken: it is the set flag. -/
structure Sponsor where
  art : Option Art
  level : Nat
  mask : Nat
  dwell : Nat
  periodTarget : Nat
  breakTarget : Nat
  cap : Bool
  rotationCredit : Nat
  featureCredit : Nat
  turns : Nat
  occluded : Nat
  broken : Nat
  deriving DecidableEq, Repr, Inhabited

/-- A feature (R84, R96): the copy of its trigger entry, its dwell left, frames shown and arrival number. -/
structure Feature where
  entry : Nat
  sponsor : Nat
  level : Nat
  dwellLeft : Nat
  shown : Nat
  arrival : Nat
  deriving DecidableEq, Repr, Inhabited

/-- A zone's rotation state (R84). -/
inductive Showing where
  | idle
  | turn (sponsor dwellLeft shown : Nat)
  | feature (f : Feature)
  deriving DecidableEq, Repr, Inhabited

/-- A coverage record (R85). -/
structure Coverage where
  counting : Bool
  nextLine : Nat
  beats : Nat
  broken : Bool
  deriving DecidableEq, Repr, Inhabited

/-- What the Rotation Unit holds for one zone (R84). -/
structure ZoneRotation where
  showing : Showing
  lastEnded : Option Nat
  begunNow : Bool
  queue : List Feature
  nesting : Bool
  coverage : Coverage
  deriving DecidableEq, Repr, Inhabited

/-- A used trigger entry (R95). -/
structure Trigger where
  event : TriggerEvent
  sponsor : Nat
  zone : Nat
  level : Nat
  dwell : Nat
  deriving DecidableEq, Repr, Inhabited

/-- The segment record (R99). -/
structure Segment where
  kind : SegmentKind
  number : Nat
  elapsed : Nat
  pending : Option SegmentKind
  periodPlan : Nat
  breakPlan : Nat
  deriving DecidableEq, Repr, Inhabited

/-- The Rotation Unit (chapter 5). -/
structure RotationUnit where
  sponsors : Vector Sponsor 32
  zones : Vector ZoneRotation 8
  triggers : Vector (Option Trigger) 16
  hold : Nat
  holdInForce : Bool
  segment : Segment
  nextArrival : Nat
  deriving DecidableEq, Repr

/-! ### Capture and Playout Units -/

/-- The placed pool (R104). -/
structure Pool where
  base : Nat
  count : Nat
  stride : Nat
  deriving DecidableEq, Repr, Inhabited

/-- A timeline or clip entry (R111). -/
structure TimelineEntry where
  frame : FrameNo
  slot : Nat
  status : EntryStatus
  deriving DecidableEq, Repr, Inhabited

/-- What SET-SOURCE gives a source (R108). -/
structure SourceConfig where
  base : Nat
  width : Nat
  height : Nat
  capacity : Nat
  deriving DecidableEq, Repr, Inhabited

/-- A source record (Table 6-1). `config` is present once a SET-SOURCE has been taken: it is the configured flag. -/
structure Source where
  config : Option SourceConfig
  state : SourceState
  openSlot : Option Nat
  beats : Nat
  timeline : List TimelineEntry
  faults : Nat
  deriving DecidableEq, Repr, Inhabited

/-- A clip record that holds a clip (R120). -/
structure Clip where
  source : Nat
  width : Nat
  height : Nat
  users : Nat
  releasePending : Bool
  entries : List TimelineEntry
  deriving DecidableEq, Repr, Inhabited

/-- The Capture Unit (chapter 6). `refs` holds the reference count of each slot of the placed pool. -/
structure CaptureUnit where
  pool : Option Pool
  free : List Nat
  refs : List Nat
  sources : Vector Source 4
  clips : Vector (Option Clip) 32
  deriving DecidableEq, Repr

/-- A channel record (Table 7-1). -/
structure Channel where
  state : ChannelState
  clip : Option Nat
  position : Nat
  step : Int
  reps : Nat
  countdown : Nat
  endAction : EndAction
  cropX : Nat
  cropY : Nat
  deriving DecidableEq, Repr, Inhabited

/-- The Playout Unit (R127). -/
structure PlayoutUnit where
  a : Channel
  b : Channel
  deriving DecidableEq, Repr, Inhabited

/-! ### Message Unit -/

/-- A message record (Table 8-1); `countdown` is `none` while it is stopped. -/
structure Message where
  id : Nat
  text : List Nat
  priority : Nat
  reps : Nat
  minShow : Nat
  expiry : Nat
  state : MessageState
  showsLeft : Nat
  countdown : Option Nat
  deriving DecidableEq, Repr, Inhabited

/-- The ticker's phase (R147). -/
inductive TickerPhase where
  | detached
  | free
  | preparing (id : Nat)
  | showing (id : Nat) (form : ShowForm) (begun : FrameNo)
  deriving DecidableEq, Repr, Inhabited

/-- The Message Unit (chapter 8). -/
structure MessageUnit where
  queue : List Message
  window : Option Nat
  phase : TickerPhase
  lastContent : Option Nat
  deriving DecidableEq, Repr, Inhabited

/-! ### Command Reader and Report Writer -/

/-- A report, before it is given its place in the ring (R182). -/
inductive Report where
  | done (count : Count) (result1 result2 : Nat)
  | refused (count : Count) (reason : Reason) (extra : Count)
  | exposure (sponsor : Nat) (kind : SegmentKind) (number elapsed rotation feature turns occluded broken : Nat)
  | runBegin (source : Nat) (status : EntryStatus) (frame : FrameNo)
  | runEnd (source : Nat) (stopped : Bool) (frame : FrameNo) (counter : Nat)
  | clipMarked (clip source count : Nat) (first last : FrameNo)
  | clipDropped (released : Bool) (clip source count : Nat)
  | playout (channel : ChannelId) (clip : Nat) (action : EndAction) (backward : Bool) (position : Nat) (frame : FrameNo)
  | periodEnd (period : Nat) (direction : Direction) (frame : FrameNo)
  | playExpiry (frame : FrameNo)
  | penaltyDone (team player : Nat) (frame : FrameNo)
  | feature (zone entry sponsor level : Nat) (reason : DropReason)
  | message (id : Nat) (final : FinalState) (shows : Nat) (frame : FrameNo)
  deriving DecidableEq, Repr, Inhabited

/-- One arrival of a command that reaches more than one unit (R172): a unit's part of the control reset (R179), or the cue of
MARK-AND-CUE at the Playout Unit (R131). -/
inductive CommandPart where
  | resetRotation
  | resetRender
  | resetPlayout
  | resetCapture
  | resetMessages
  | cueMarked (channel : ChannelId) (clip : Nat) (playFlag : Bool)
  deriving DecidableEq, Repr

/-- The stage of the command in progress (R170-R172). A command that is `reaching` has made its first arrival, and has the arrivals
listed still to make. -/
inductive CommandStage where
  | idle
  | fetching
  | fetched (record : List Byte)
  | payload (record : List Byte) (piecesLeft : Nat) (got : List (Nat × List Byte))
  | carrying (command : Instr)
  | reaching (command : Instr) (parts : List CommandPart) (result1 result2 : Nat)
  | ended (result : CommandResult)
  deriving DecidableEq, Repr

/-- The Command Reader (R169-R172). `lastResult` is the model's own: what a unit last answered (assumption log 3). -/
structure CommandReader where
  taken : Count
  consumer : Count
  begun : Bool
  stage : CommandStage
  toEnter : List Operation
  lastResult : Option CommandResult
  deriving DecidableEq, Repr

/-- A report in the holding queue, with the low half of the frame number it arrived with (R182). -/
structure HeldReport where
  report : Report
  frame : BitVec 32
  deriving DecidableEq, Repr, Inhabited

/-- The part a channel gives the status block (R178). -/
structure ChannelStatus where
  state : ChannelState
  position : Nat
  deriving DecidableEq, Repr, Inhabited

/-- The part the Capture Unit gives the status block (R178). -/
structure CaptureStatus where
  sources : List SourceState
  free : Nat
  deriving DecidableEq, Repr, Inhabited

/-- The parts of a status block that are taken at the units' frame-start work (R178). -/
structure StatusParts where
  frame : FrameNo
  sponsors : List (Option Nat)
  channelA : ChannelStatus
  channelB : ChannelStatus
  capture : CaptureStatus
  ticker : Option Nat
  deriving DecidableEq, Repr, Inhabited

/-- A record of the Report Writer that waits for a place of the operation queue (R174, R178): the command's own report, with the
low half of the frame number current when it reached the Report Writer (R182), or a status block. -/
inductive WaitingRecord where
  | own (frame : BitVec 32)
  | status (parts : StatusParts)
  deriving DecidableEq, Repr, Inhabited

/-- The Report Writer (R174-R178). `sponsors`, `channels`, `captures` and `tickers` are the parts handed over for
status blocks not yet made, oldest first. -/
structure ReportWriter where
  producer : Count
  consumer : Count
  reserved : Bool
  holding : List HeldReport
  lost : Nat
  waiting : List WaitingRecord
  sponsors : List (List (Option Nat))
  channels : List (ChannelStatus × ChannelStatus)
  captures : List CaptureStatus
  tickers : List (Option Nat)
  deriving DecidableEq, Repr, Inhabited

/-! ### Between the units -/

/-- A delivery event (R35). `sent` is the model's own: the frame number current when it was sent, which says before which frame
start it reaches the Rotation Unit (R36; log 2). The event itself carries no frame number. -/
structure Delivery where
  zone : Nat
  line : Nat
  beats : Nat
  sent : FrameNo
  deriving DecidableEq, Repr, Inhabited

/-- A flip notice (R56). -/
structure Flip where
  window : Nat
  message : Option Nat
  strip : Bool
  deriving DecidableEq, Repr, Inhabited

/-- A strip-passed notice (R57). -/
structure StripPassed where
  window : Nat
  message : Option Nat
  deriving DecidableEq, Repr, Inhabited

/-- Frame starts on their way to the units, oldest first (R20). -/
structure FrameDue where
  render : List FrameNo
  rotation : List FrameNo
  capture : List FrameNo
  playout : List FrameNo
  message : List FrameNo
  status : List FrameNo
  deriving DecidableEq, Repr, Inhabited

/-- The occluding windows as they stood through a show frame, kept for its verdict (R88). -/
structure WindowView where
  frame : FrameNo
  occluders : List Rect
  deriving DecidableEq, Repr, Inhabited

/-- What has been sent by one unit and has not yet arrived at another, oldest first (assumption log 2). -/
structure Transit where
  due : FrameDue
  notices : List DisplayField
  events : List GameEvent
  replays : List ChannelId
  deliveries : List Delivery
  flips : List Flip
  strips : List StripPassed
  reports : List Report
  indexes : List Count
  consumers : List Count
  views : List WindowView
  deriving DecidableEq, Repr, Inhabited

/-! ### Frame DRAM and the whole -/

/-- Frame DRAM: the bytes written since power-on reset, at strictly rising addresses; an unlisted byte is undefined
and reads as the free value `Config.dramUndefined` (assumption log 7). -/
abbrev Memory := List Host.Cell

/-- The state of the part. -/
structure State where
  lines : Lines
  port : FabricPort
  classifier : Classifier
  compositor : Compositor
  render : RenderEngine
  timing : TimingUnit
  rotation : RotationUnit
  capture : CaptureUnit
  playout : PlayoutUnit
  messages : MessageUnit
  scheduler : Scheduler
  reader : CommandReader
  writer : ReportWriter
  transit : Transit
  mem : Memory
  powerOns : Nat
  pending : List Instr
  deriving DecidableEq, Repr

/-- Why a step can stop with a fault. The part reports errors only in responses and reports (R8, R9, R173). -/
inductive Fault where
  /-- An operation beyond frame DRAM reached the DRAM port. NO meaning raises it: units check their ranges before they
  enter work (R155), and a request that reaches 32 GiB is answered DECODE-ERROR (R8). Safe. -/
  | beyondDram
  deriving DecidableEq, Repr

/-- Why a command can be refused by the model. -/
inductive Refusal where
  /-- The row has no meaning yet. Raised only by an arm of `exec`; no arm does. Safe. -/
  | notModelled (mnemonic : String)
  deriving DecidableEq, Repr

/-! ### Power-on reset -/

/-- Both straps at zero, as the pins stand in `State.reset` (DESIGN CHOICE, unsafe: assumption log 8). -/
def Straps.zero : Straps := ⟨0, 0⟩

/-- The input lines in `State.reset`: RESET held (log 8), both contacts LOW (DESIGN CHOICE, unsafe: log 9). -/
def Lines.atReset : Lines := ⟨true, Straps.zero, .low, .low⟩

/-- The Fabric Port after power-on reset (R1, R15, R16). -/
def FabricPort.powerOn : FabricPort :=
  ⟨Vector.replicate 16 none, none, [], 0, 15, false, Vector.replicate 16 none⟩

/-- The role table after power-on reset: the strap initiator CONTROL, every other NONE (R2). -/
def rolesAtReset (straps : Straps) : Vector Role 16 :=
  tset (Vector.replicate 16 Role.none) straps.control.toNat .control

/-- The Path Classifier after power-on reset (R2, R4, R20). -/
def Classifier.powerOn (straps : Straps) : Classifier := ⟨straps, rolesAtReset straps, none, 0⟩

/-- A zone record that has not been set (R21). -/
def Zone.unset : Zone := ⟨false, none, none⟩

/-- The Compositor after power-on reset (R21, R24, R37). -/
def Compositor.powerOn : Compositor := ⟨Vector.replicate 8 Zone.unset, [], [], [], 0⟩

/-- A buffer record with no image (R39). -/
def BufferRecord.blank : BufferRecord := ⟨0, false, none, ⟨0, 0, 0, 0⟩⟩

/-- An unconfigured window record (R39). -/
def Window.blank : Window :=
  ⟨none, Vector.replicate 4 none, none, none, false, false, .a, false, .empty, 0, 1, false, false,
    BufferRecord.blank, BufferRecord.blank⟩

/-- The Render Engine after power-on reset (R39, R40, R46, R51). -/
def RenderEngine.powerOn : RenderEngine :=
  ⟨Vector.replicate 16 Window.blank, [], none, [], none, 0, none, none, 0, []⟩

/-- The game clock after power-on reset (R60). -/
def GameClock.powerOn : GameClock := ⟨.manual, .down, 0, 0, 60000, .stopped, 1⟩

/-- A contact filter after power-on reset (R67). -/
def ContactFilter.powerOn : ContactFilter := ⟨.activeHigh, none, 0, none⟩

/-- The play clock after power-on reset (R69). -/
def PlayClock.powerOn : PlayClock := ⟨0, 0, .free, false⟩

/-- A team after power-on reset (R74, R79). -/
def Team.powerOn : Team := ⟨[], 2, 0, 0⟩

/-- The kept strings after power-on reset (R73): "0.0", "0", "1", "0", "0", "0", "0" and six empty strings. -/
def stringsAtReset : Vector (List Nat) 13 :=
  ⟨#[[48, 46, 48], [48], [49], [48], [48], [48], [48], [], [], [], [], [], []], rfl⟩

/-- The Timing Unit after power-on reset. -/
def TimingUnit.powerOn : TimingUnit :=
  ⟨GameClock.powerOn, ContactFilter.powerOn, ContactFilter.powerOn, PlayClock.powerOn, Team.powerOn, Team.powerOn,
    stringsAtReset⟩

/-- A sponsor that has not been set (R81). -/
def Sponsor.unset : Sponsor := ⟨none, 0, 0, 30, 0, 0, false, 0, 0, 0, 0, 0⟩

/-- A coverage record in AWAITING (R85). -/
def Coverage.awaiting : Coverage := ⟨false, 0, 0, false⟩

/-- A zone's rotation after power-on reset (R84). Neither R84 nor R102 gives the begun-now flag a value there: the model clears it
(DESIGN CHOICE, unsafe: log 46). -/
def ZoneRotation.powerOn : ZoneRotation := ⟨.idle, none, false, [], false, Coverage.awaiting⟩

/-- The segment record after power-on reset (R99). -/
def Segment.powerOn : Segment := ⟨.break', 1, 0, none, 108000, 54000⟩

/-- The Rotation Unit after power-on reset (R102, R103). -/
def RotationUnit.powerOn : RotationUnit :=
  ⟨Vector.replicate 32 Sponsor.unset, Vector.replicate 8 ZoneRotation.powerOn, Vector.replicate 16 none, 0, false,
    Segment.powerOn, 0⟩

/-- An unconfigured source (R107). -/
def Source.unset : Source := ⟨none, .stopped, none, 0, [], 0⟩

/-- The Capture Unit after power-on reset (R126). -/
def CaptureUnit.powerOn : CaptureUnit :=
  ⟨none, [], [], Vector.replicate 4 Source.unset, Vector.replicate 32 none⟩

/-- A channel after power-on reset (R127). -/
def Channel.powerOn : Channel := ⟨.idle, none, 0, 1, 1, 0, .hold, 0, 0⟩

/-- The Playout Unit after power-on reset (R127). -/
def PlayoutUnit.powerOn : PlayoutUnit := ⟨Channel.powerOn, Channel.powerOn⟩

/-- The Message Unit after power-on reset (R142, R147). -/
def MessageUnit.powerOn : MessageUnit := ⟨[], none, .detached, none⟩

/-- The Memory Scheduler after power-on reset (R162, R166, R167): initialisation begins when RESET is released. -/
def Scheduler.powerOn : Scheduler := ⟨Vector.replicate 16 .idle, [], 0, 0, .quiet, false, .waiting, [], []⟩

/-- The Command Reader after power-on reset (R169). -/
def CommandReader.powerOn : CommandReader := ⟨0, 0, false, .idle, [], none⟩

/-- The Report Writer after power-on reset (R174). -/
def ReportWriter.powerOn : ReportWriter := ⟨0, 0, false, [], 0, [], [], [], [], []⟩

/-- No frame start on its way. -/
def FrameDue.none : FrameDue := ⟨[], [], [], [], [], []⟩

/-- Nothing on its way. -/
def Transit.empty : Transit := ⟨FrameDue.none, [], [], [], [], [], [], [], [], [], []⟩

/-- The part after power-on reset, with the pins as given: every unit at its power-on values (R180). -/
def State.powerOn (lines : Lines) (presented : Vector (Option Request) 16) (powerOns : Nat) (pending : List Instr) :
    State :=
  { lines := lines
    port := { FabricPort.powerOn with presented := presented }
    classifier := Classifier.powerOn lines.strapPins
    compositor := Compositor.powerOn
    render := RenderEngine.powerOn
    timing := TimingUnit.powerOn
    rotation := RotationUnit.powerOn
    capture := CaptureUnit.powerOn
    playout := PlayoutUnit.powerOn
    messages := MessageUnit.powerOn
    scheduler := Scheduler.powerOn
    reader := CommandReader.powerOn
    writer := ReportWriter.powerOn
    transit := Transit.empty
    mem := []
    powerOns := powerOns
    pending := pending }

/-- The machine right after power-on reset, RESET still held (log 8), with an empty queue. -/
def State.reset : State := State.powerOn Lines.atReset (Vector.replicate 16 none) 0 []

end Sys2Proof.Machine
end

