-- ==== Sys2Proof/Machine/Operands.lean ====
section
/-! DEFINITION. What the argument words of the control commands name (R181): named choices by their place in the list
of the rule that names them, pixels, and the addresses that two areas share. -/

namespace Sys2Proof.Machine

open Sys2Proof

/-- SET-ROLE's role, with the source read only with INGEST (R3). -/
def roleOf (role source : Nat) : Option Role :=
  match role with
  | 0 => some .none
  | 1 => some .scanout
  | 2 => if source ≤ 3 then some (.ingest source) else none
  | 3 => some .control
  | _ => none

/-- A zone's kind (R22). -/
def zoneKindOf : Nat → Option ZoneKind
  | 0 => some .sponsor
  | 1 => some .replay
  | _ => none

/-- A window's kind (R39). -/
def windowKindOf : Nat → Option WindowKind
  | 0 => some .text
  | 1 => some .image
  | 2 => some .ticker
  | _ => none

/-- A run's alignment (Table 3-2). -/
def alignOf : Nat → Option Align
  | 0 => some .left
  | 1 => some .right
  | 2 => some .centre
  | _ => none

/-- Clock mode (R60). -/
def clockModeOf : Nat → Option ClockMode
  | 0 => some .manual
  | 1 => some .contact
  | _ => none

/-- Clock direction (R60). -/
def directionOf : Nat → Option Direction
  | 0 => some .down
  | 1 => some .up
  | _ => none

/-- A contact (R67). -/
def contactOf : Nat → Option Contact
  | 0 => some .run
  | 1 => some .play
  | _ => none

/-- A contact's polarity (R67). -/
def polarityOf : Nat → Option Polarity
  | 0 => some .activeHigh
  | 1 => some .activeLow
  | _ => none

/-- Play clock mode (R69). -/
def playModeOf : Nat → Option PlayMode
  | 0 => some .linked
  | 1 => some .free
  | _ => none

/-- A channel's end action (R127). -/
def endActionOf : Nat → Option EndAction
  | 0 => some .hold
  | 1 => some .loop
  | 2 => some .release
  | _ => none

/-- A replay channel (R127). -/
def channelOf : Nat → Option ChannelId
  | 0 => some .a
  | 1 => some .b
  | _ => none

/-- BIND-ZONE's channel: A, B or NONE (R128). -/
def bindingOf : Nat → Option (Option ChannelId)
  | 0 => some (some .a)
  | 1 => some (some .b)
  | 2 => some none
  | _ => none

/-- A trigger's event kind with its argument (R95). -/
def triggerEventOf (kind argument : Nat) : Option TriggerEvent :=
  match kind with
  | 0 => if argument ≤ 9 then some (.periodEnd argument) else none
  | 1 => if argument ≤ 9 then some (.periodStart argument) else none
  | 2 => some .playExpiry
  | 3 => if argument ≤ 1 then some (.scoreUp argument) else none
  | 4 => if argument ≤ 1 then some (.timeout argument) else none
  | 5 => (channelOf argument).map .replayStart
  | _ => none

/-- A LITERAL payload (R44): whole codes, at most 32 of them, each 0-1023. -/
def literalOf (payload : List Byte) : Option (List Nat) :=
  if payload.length % 2 = 0 ∧ payload.length ≤ 64 ∧ (codesOf payload).all (· ≤ 1023) then some (codesOf payload)
  else none

/-- A run's source, its team and line in range (R44, Table 3-2). -/
def runSourceOf (kind team line : Nat) (payload : List Byte) : Option RunSource :=
  match kind with
  | 0 => (literalOf payload).map .literal
  | 1 => some (.display .gameClock)
  | 2 => some (.display .playClock)
  | 3 => if team ≤ 1 then some (.display (.score team)) else none
  | 4 => some (.display .period)
  | 5 => if team ≤ 1 then some (.display (.timeouts team)) else none
  | 6 => if team ≤ 1 ∧ line ≤ 2 then some (.display (.penalty team line)) else none
  | _ => none

/-- A message's text (R143): whole codes, 1 to 96 of them, each 0-1023. -/
def messageTextOf (payload : List Byte) : Option (List Nat) :=
  if payload.length % 2 = 0 ∧ 2 ≤ payload.length ∧ payload.length ≤ 192 ∧ (codesOf payload).all (· ≤ 1023) then
    some (codesOf payload)
  else none

/-- A pixel or colour word (R181, section 11.5): red in byte 0. -/
def pixelOf (w : Nat) : Pixel :=
  ⟨BitVec.ofNat 8 (byteOf w 0), BitVec.ofNat 8 (byteOf w 1), BitVec.ofNat 8 (byteOf w 2), BitVec.ofNat 8 (byteOf w 3)⟩

/-- NONE as a number argument (R181). -/
def noneWord : Nat := 4294967295

/-- SET-TICKER's window: 0-15, or NONE; `none` for a number that is neither (R147). -/
def tickerWindowOf (w : Nat) : Option (Option Nat) :=
  if w ≤ 15 then some (some w) else if w = noneWord then some none else none

/-- Two byte areas share a byte; an area of no bytes shares none. -/
def overlaps (base1 len1 base2 len2 : Nat) : Bool :=
  base1 < base2 + len2 && base2 < base1 + len1 && 0 < len1 && 0 < len2

end Sys2Proof.Machine
end

