-- ==== Sys2Proof/Machine/Flags.lean ====
section
/-! DEFINITION. The flags and lines that are read off the state: the REPORT output, the room in the report ring, a
table entry's READY, a window shown, a contact accepted active, the clocks' remaining time. -/

namespace Sys2Proof.Machine

open Sys2Proof

/-- A request table entry is READY when nothing is outstanding for it (R1). -/
def Entry.ready (e : Entry) : Bool := e.opsLeft == 0 && e.compositesLeft == 0

/-- Unread records of the report ring (R174). -/
def ReportWriter.unread (w : ReportWriter) : Nat := (w.producer - w.consumer).toNat

/-- The REPORT output is asserted while the two counts differ (R177). -/
def reportLine (s : State) : Bool := s.writer.producer != s.writer.consumer

/-- Usable places of the report ring: the free places beyond the reservation (R174). -/
def ReportWriter.usable (w : ReportWriter) : Nat :=
  Config.ringPlaces - w.unread - (if w.reserved then 1 else 0)

/-- The begun count (R169). -/
def CommandReader.begunCount (r : CommandReader) : Count := if r.begun then r.consumer + 1 else r.consumer

/-- A window is shown when its shown visibility is set and it has a front image (R30, R39). -/
def Window.shown (w : Window) : Bool := w.config.isSome && w.shownVisible && w.frontPresent

/-- The buffer record of the front buffer (R39). -/
def Window.frontRecord (w : Window) : BufferRecord :=
  match w.front with
  | .a => w.recordA
  | .b => w.recordB

/-- The other buffer. -/
def Buffer.other : Buffer → Buffer
  | .a => .b
  | .b => .a

/-- Buffer A counts 0 and buffer B counts 1 (R40). -/
def Buffer.number : Buffer → Nat
  | .a => 0
  | .b => 1

/-- A contact is accepted active (R67). -/
def ContactFilter.active (f : ContactFilter) : Bool :=
  match f.polarity with
  | .activeHigh => f.accepted == some .high
  | .activeLow => f.accepted == some .low

/-- A contact is accepted inactive (R67). -/
def ContactFilter.inactive (f : ContactFilter) : Bool := f.accepted.isSome && !f.active

/-- The game clock's remaining time (section 4.2). -/
def GameClock.remaining (c : GameClock) : Nat :=
  match c.direction with
  | .down => c.value
  | .up => c.preset - c.value

/-- A penalty is RUNNING when it holds a start position (R74). -/
def Penalty.running (p : Penalty) : Bool := p.start.isSome

/-- A sponsor's credit (R81). -/
def Sponsor.credit (p : Sponsor) : Nat := p.rotationCredit + p.featureCredit

/-- The sponsor a zone is showing, in TURN or FEATURE (R84). -/
def Showing.sponsor : Showing → Option Nat
  | .idle => none
  | .turn p _ _ => some p
  | .feature f => some f.sponsor

/-- The frames shown of a TURN or FEATURE (R84). -/
def Showing.shown : Showing → Nat
  | .idle => 0
  | .turn _ _ n => n
  | .feature f => f.shown

/-- The channel record of a channel. -/
def PlayoutUnit.channel (p : PlayoutUnit) : ChannelId → Channel
  | .a => p.a
  | .b => p.b

/-- The number of a channel, A 0 and B 1. -/
def ChannelId.number : ChannelId → Nat
  | .a => 0
  | .b => 1

/-- The team of a number: 0, or 1 for any other. -/
def TimingUnit.team (t : TimingUnit) (team : Nat) : Team := if team = 0 then t.team0 else t.team1

end Sys2Proof.Machine
end

