-- ==== Sys2Proof/Machine/Ops.lean ====
section
/-! DEFINITION. The named operations over frame DRAM, over the state's units and over the messages between them, and
how a control command ends. -/

namespace Sys2Proof.Machine

open Sys2Proof

/-! ### Frame DRAM -/

/-- The listed byte at an address, if any. -/
def memGet : Memory → Nat → Option Byte
  | [], _ => none
  | (k, b) :: m, a => if k = a then some b else memGet m a

/-- The memory with one byte written. -/
def memSet : Memory → Nat → Byte → Memory
  | [], a, b => [(a, b)]
  | (k, c) :: m, a, b =>
    if a < k then (a, b) :: (k, c) :: m
    else if a = k then (a, b) :: m
    else (k, c) :: memSet m a b

/-- The canonical form: addresses strictly rising. An unlisted byte has no value of its own, so no listed entry can
equal it. -/
def Memory.wf : Memory → Bool
  | [] => true
  | [_] => true
  | (a, _) :: (b, c) :: m => a < b && Memory.wf ((b, c) :: m)

/-- The memory with the enabled bytes of a run written from an address on (R13): `none` leaves its byte as it was. -/
def memWrite : Memory → Nat → List (Option Byte) → Memory
  | m, _, [] => m
  | m, a, none :: bs => memWrite m (a + 1) bs
  | m, a, some b :: bs => memWrite (memSet m a b) (a + 1) bs

/-- The beats of a write stored at consecutive beat addresses (R160). -/
def memWriteBeats : Memory → Nat → List (List (Option Byte)) → Memory
  | m, _, [] => m
  | m, a, beat :: beats => memWriteBeats (memWrite m a beat) (a + 32) beats

/-- A byte of frame DRAM: what was last written there, or the free value where nothing was (log 7). -/
def State.byteAt (s : State) (a : Nat) : Byte :=
  (memGet s.mem a).getD (Config.dramUndefined s.powerOns a)

/-- The `n` bytes from an address. -/
def State.bytesAt (s : State) (a n : Nat) : List Byte := (List.range n).map (fun k => s.byteAt (a + k))

/-! ### The units of the state -/

/-- The state with another Fabric Port. -/
def State.setPort (s : State) (p : FabricPort) : State := { s with port := p }

/-- The state with another Path Classifier. -/
def State.setClassifier (s : State) (c : Classifier) : State := { s with classifier := c }

/-- The state with another Compositor. -/
def State.setCompositor (s : State) (c : Compositor) : State := { s with compositor := c }

/-- The state with another Render Engine. -/
def State.setRender (s : State) (r : RenderEngine) : State := { s with render := r }

/-- The state with another Timing Unit. -/
def State.setTiming (s : State) (t : TimingUnit) : State := { s with timing := t }

/-- The state with another Rotation Unit. -/
def State.setRotation (s : State) (r : RotationUnit) : State := { s with rotation := r }

/-- The state with another Capture Unit. -/
def State.setCapture (s : State) (c : CaptureUnit) : State := { s with capture := c }

/-- The state with another Playout Unit. -/
def State.setPlayout (s : State) (p : PlayoutUnit) : State := { s with playout := p }

/-- The state with another Message Unit. -/
def State.setMessages (s : State) (m : MessageUnit) : State := { s with messages := m }

/-- The state with another Memory Scheduler. -/
def State.setScheduler (s : State) (d : Scheduler) : State := { s with scheduler := d }

/-- The state with another Command Reader. -/
def State.setReader (s : State) (r : CommandReader) : State := { s with reader := r }

/-- The state with another Report Writer. -/
def State.setWriter (s : State) (w : ReportWriter) : State := { s with writer := w }

/-- The state with other messages on their way. -/
def State.setTransit (s : State) (t : Transit) : State := { s with transit := t }

/-- The state with other contents of frame DRAM. -/
def State.setMem (s : State) (m : Memory) : State := { s with mem := m }

/-! ### Messages on their way (assumption log 2) -/

/-- Reports passed to the Report Writer, behind those already on their way (R172, R175). -/
def State.sendReports (s : State) (rs : List Report) : State :=
  s.setTransit { s.transit with reports := s.transit.reports ++ rs }

/-- A REPLAY-START event raised (R132). -/
def State.sendReplay (s : State) (c : ChannelId) : State :=
  s.setTransit { s.transit with replays := s.transit.replays ++ [c] }

/-- Delivery events sent (R35). -/
def State.sendDeliveries (s : State) (ds : List Delivery) : State :=
  s.setTransit { s.transit with deliveries := s.transit.deliveries ++ ds }

/-! ### How a control command ends (R172, R173) -/

/-- What a unit makes of a command: refused with a reason and no effect, done with a new state and two results, or
taken and still in progress (LOAD-FONT, R47). -/
inductive Taken where
  | refused (reason : Reason)
  | done (s : State) (result1 result2 : Nat)
  | held (s : State)

/-- A unit's answer reaches the Command Reader: it is the last result, and it ends the command in progress when that is
the command the unit carried out (assumption log 3). -/
def CommandReader.answer (r : CommandReader) (cmd : Instr) (res : CommandResult) : CommandReader :=
  { r with lastResult := some res, stage := if r.stage = .carrying cmd then .ended res else r.stage }

/-- The next state when `cmd` is carried out on `s` with the outcome given. A refused command changes nothing in any
unit (R173). -/
def carryOut (cmd : Instr) (s : State) : Taken → Host.Outcome State Fault Refusal
  | .refused r => .next (s.setReader (s.reader.answer cmd (.refused r)))
  | .done t a b => .next (t.setReader (t.reader.answer cmd (.done a b)))
  | .held t => .next t

/-! ### Areas of frame DRAM -/

/-- The base of the control aperture: the strap value times 1 GiB (R168). -/
def State.apertureBase (s : State) : Nat := s.classifier.straps.aperture.toNat * Config.gib

/-- The bytes of the pool (R6, R104). -/
def Pool.bytes (p : Pool) : Nat := p.count * p.stride

/-- The bytes of a source's frame, and of its ingest region (R7, R107). -/
def SourceConfig.bytes (c : SourceConfig) : Nat := c.width * c.height * 4

/-- An area of `len` bytes shares a byte with the control aperture. -/
def State.hitsAperture (s : State) (base len : Nat) : Bool :=
  overlaps base len s.apertureBase Config.apertureBytes

/-- An area shares a byte with the overlay store, if that is placed. -/
def State.hitsOverlay (s : State) (base len : Nat) : Bool :=
  match s.render.overlay with
  | none => false
  | some o => overlaps base len o Config.overlayBytes

/-- An area shares a byte with the replay store, if that is placed. -/
def State.hitsPool (s : State) (base len : Nat) : Bool :=
  match s.capture.pool with
  | none => false
  | some p => overlaps base len p.base p.bytes

/-- An area shares a byte with the ingest region of a configured source. -/
def State.hitsIngest (s : State) (base len : Nat) : Bool :=
  s.capture.sources.toList.any fun src =>
    match src.config with
    | none => false
    | some c => overlaps base len c.base c.bytes

/-- An area shares a byte with a part-owned area of the region map (R6): the status block, the report ring, the
overlay store, the replay store. -/
def State.hitsOwned (s : State) (base len : Nat) : Bool :=
  overlaps base len s.apertureBase 256 || overlaps base len (s.apertureBase + 32768) 32768 ||
    s.hitsOverlay base len || s.hitsPool base len

end Sys2Proof.Machine
end

