-- ==== Sys2Proof/Machine/Capture.lean ====
section
/-! DEFINITION. The Capture Unit (chapter 6): the slot pool, sources, mirror notices, the capture tick, clips and their
users, and its commands. -/

namespace Sys2Proof.Machine

open Sys2Proof

/-! ### Records -/

/-- The record of a source. -/
def CaptureUnit.source (u : CaptureUnit) (i : Nat) : Source := tget u.sources i Source.unset

/-- The unit with one source's record replaced. -/
def CaptureUnit.setSource (u : CaptureUnit) (i : Nat) (x : Source) : CaptureUnit :=
  { u with sources := tset u.sources i x }

/-- The clip a record holds, if any. -/
def CaptureUnit.clip (u : CaptureUnit) (n : Nat) : Option Clip := tget u.clips n none

/-- The unit with one clip record replaced. -/
def CaptureUnit.setClip (u : CaptureUnit) (n : Nat) (c : Option Clip) : CaptureUnit :=
  { u with clips := tset u.clips n c }

/-- The beats of a source's frame (Table 6-1). -/
def SourceConfig.expected (c : SourceConfig) : Nat := c.width * c.height / 8

/-- The expected beats of a source. -/
def Source.expected (x : Source) : Nat := (x.config.map (·.expected)).getD 0

/-- The newest entry of a timeline (R111). -/
def Source.newest (x : Source) : Option TimelineEntry := x.timeline.getLast?

/-! ### Slots (R105) -/

/-- A slot taken from the head of the free list, if there is one. -/
def CaptureUnit.take (u : CaptureUnit) : Option Nat × CaptureUnit :=
  match u.free with
  | [] => (none, u)
  | slot :: rest => (some slot, { u with free := rest })

/-- A slot returned at the tail of the free list. -/
def CaptureUnit.giveBack (u : CaptureUnit) (slot : Nat) : CaptureUnit := { u with free := u.free ++ [slot] }

/-- The reference count of a slot. -/
def CaptureUnit.refCount (u : CaptureUnit) (slot : Nat) : Nat := u.refs.getD slot 0

/-- A reference added to a slot. -/
def CaptureUnit.addRef (u : CaptureUnit) (slot : Nat) : CaptureUnit :=
  { u with refs := u.refs.set slot (u.refCount slot + 1) }

/-- A reference to a slot released: a count that reaches 0 returns the slot at once. -/
def CaptureUnit.releaseRef (u : CaptureUnit) (slot : Nat) : CaptureUnit :=
  if u.refCount slot = 0 then u
  else
    let u1 : CaptureUnit := { u with refs := u.refs.set slot (u.refCount slot - 1) }
    if u1.refCount slot = 0 then u1.giveBack slot else u1

/-- References released entry by entry, oldest first. -/
def CaptureUnit.releaseAll (u : CaptureUnit) (entries : List TimelineEntry) : CaptureUnit :=
  entries.foldl (fun v e => v.releaseRef e.slot) u

/-- A reference added for each entry, oldest first. -/
def CaptureUnit.referAll (u : CaptureUnit) (entries : List TimelineEntry) : CaptureUnit :=
  entries.foldl (fun v e => v.addRef e.slot) u

/-- A source's timeline emptied, oldest entry first (R108, R118). -/
def CaptureUnit.emptyTimeline (u : CaptureUnit) (i : Nat) : CaptureUnit :=
  let x := u.source i
  (u.setSource i { x with timeline := [] }).releaseAll x.timeline

/-- Slots 0 to n − 1 all free, with no reference (R106, R125). -/
def CaptureUnit.rebuildFree (u : CaptureUnit) : CaptureUnit :=
  let n := (u.pool.map (·.count)).getD 0
  { u with free := List.range n, refs := List.replicate n 0 }

/-! ### Mirror notices (R109) -/

/-- The beat count after a notice: restarted at ingest offset 0, else raised and held at the expected beats. -/
def Source.noticed (x : Source) (offset beats : Nat) : Source :=
  { x with beats := if offset = 0 then beats else min x.expected (x.beats + beats) }

/-- The open-slot question and the notice that follows it, one arrival: the slot named, if one is open. -/
def CaptureUnit.mirror (u : CaptureUnit) (i offset beats : Nat) : Option Nat × CaptureUnit :=
  let x := u.source i
  match x.openSlot with
  | none => (none, u)
  | some slot => (some slot, u.setSource i (x.noticed offset beats))

/-- MIRROR_NOTICE (R109); nothing for a source with no open slot. -/
def execMirrorNotice (source offset beats : Nat) (s : State) : Host.Outcome State Fault Refusal :=
  .next (s.setCapture (s.capture.mirror source offset beats).2)

/-! ### The capture tick (R112-R117) -/

/-- An entry appended to a source's timeline: the oldest leaves a full one, then the entry joins the tail and its slot
gains a reference (R116). -/
def CaptureUnit.append (u : CaptureUnit) (i : Nat) (e : TimelineEntry) : CaptureUnit :=
  let x := u.source i
  let capacity := (x.config.map (·.capacity)).getD 0
  let u1 :=
    match x.timeline with
    | [] => u
    | oldest :: rest =>
      if capacity ≤ x.timeline.length then (u.setSource i { x with timeline := rest }).releaseRef oldest.slot else u
  let x1 := u1.source i
  (u1.setSource i { x1 with timeline := x1.timeline ++ [e] }).addRef e.slot

/-- An entry's effect on the run of faults, with the CAPTURE report that begins or ends a run (R117). -/
def Source.countFault (x : Source) (i : Nat) (e : TimelineEntry) : Source × List Report :=
  if e.status = .whole then
    ({ x with faults := 0 }, if 0 < x.faults then [.runEnd i false e.frame x.faults] else [])
  else
    ({ x with faults := countUp Config.topCount x.faults }, if x.faults = 0 then [.runBegin i e.status e.frame] else [])

/-- An entry appended, with its effect on the run of faults. -/
def CaptureUnit.record (u : CaptureUnit) (i : Nat) (e : TimelineEntry) : CaptureUnit × List Report :=
  let u1 := u.append i e
  let p := (u1.source i).countFault i e
  (u1.setSource i p.1, p.2)

/-- The WHOLE case of a CAPTURING source (R114). -/
def CaptureUnit.closeWhole (u : CaptureUnit) (i : Nat) (closed : FrameNo) (slot : Nat) : CaptureUnit × List Report :=
  let p := u.record i ⟨closed, slot, .whole⟩
  let t := p.1.take
  let x := t.2.source i
  let x1 : Source := match t.1 with
    | some next => { x with openSlot := some next, beats := 0, state := .capturing }
    | none => { x with openSlot := none, beats := 0, state := .starved }
  (t.2.setSource i x1, p.2)

/-- A CAPTURING source closes its frame (R114). -/
def CaptureUnit.closeFrame (u : CaptureUnit) (i : Nat) (closed : FrameNo) : CaptureUnit × List Report :=
  let x := u.source i
  if x.expected ≤ x.beats then
    match x.openSlot with
    | some slot => u.closeWhole i closed slot
    | none => (u, [])
  else
    match x.newest with
    | none => (u, [])
    | some newest =>
      let p := u.record i ⟨closed, newest.slot, if x.beats = 0 then .missing else .torn⟩
      (p.1.setSource i { p.1.source i with beats := 0 }, p.2)

/-- A STARVED source appends its entry and then tries for a slot (R115). -/
def CaptureUnit.closeStarved (u : CaptureUnit) (i : Nat) (closed : FrameNo) : CaptureUnit × List Report :=
  match (u.source i).newest with
  | none => (u, [])
  | some newest =>
    let p := u.record i ⟨closed, newest.slot, .starved⟩
    let t := p.1.take
    match t.1 with
    | some slot => (t.2.setSource i { t.2.source i with openSlot := some slot, beats := 0, state := .capturing }, p.2)
    | none => (t.2, p.2)

/-- One source served at a capture tick (R112, R113). -/
def CaptureUnit.serveSource (u : CaptureUnit) (closed : FrameNo) (i : Nat) : CaptureUnit × List Report :=
  let x := u.source i
  match x.state with
  | .stopped => (u, [])
  | .armed =>
    if x.expected ≤ x.beats then (u.setSource i { x with state := .capturing }).closeFrame i closed
    else (u.setSource i { x with beats := 0 }, [])
  | .capturing => u.closeFrame i closed
  | .starved => u.closeStarved i closed

/-- The capture tick: the sources in ascending number, each served whole (R112). -/
def CaptureUnit.tick (u : CaptureUnit) (closed : FrameNo) : CaptureUnit × List Report :=
  (List.range 4).foldl
    (fun acc i =>
      let p := acc.1.serveSource closed i
      (p.1, acc.2 ++ p.2))
    (u, [])

/-- The part the unit gives the status block, taken after its capture tick (R178), where R105 has the free slots counted as they
stand when the block is written (DESIGN CHOICE, unsafe: log 48). -/
def CaptureUnit.status (u : CaptureUnit) : CaptureStatus := ⟨u.sources.toList.map (·.state), u.free.length⟩

/-- CAPTURE_TICK (R112): the oldest frame start on its way to the unit closes the show frame before it; nothing where none
is on its way. -/
def execCaptureTick (s : State) : Host.Outcome State Fault Refusal :=
  match s.transit.due.capture with
  | [] => .next s
  | f :: rest =>
    let p := s.capture.tick (f - 1)
    let s1 := s.setTransit { s.transit with due := { s.transit.due with capture := rest } }
    .next (((s1.setCapture p.1).setWriter { s1.writer with captures := s1.writer.captures ++ [p.1.status] }).sendReports p.2)

/-! ### Clips (R120-R124) -/

/-- Entries of the clip entry store in use. -/
def CaptureUnit.storeUsed (u : CaptureUnit) : Nat :=
  u.clips.toList.foldl (fun n c => n + match c with
    | some k => k.entries.length
    | none => 0) 0

/-- Free entries of the clip entry store (R120). -/
def CaptureUnit.storeFree (u : CaptureUnit) : Nat := Config.storePlaces - u.storeUsed

/-- The entries of a source's timeline with a frame number from `first` to `last`, oldest first (R121). -/
def Source.between (x : Source) (first last : Nat) : List TimelineEntry :=
  x.timeline.filter fun e => first ≤ e.frame.toNat && e.frame.toNat ≤ last

/-- A clip made of entries of a source, with its CLIP report (R121). -/
def State.makeClip (s : State) (clip source : Nat) (entries : List TimelineEntry) : State :=
  let x := s.capture.source source
  let made : Clip :=
    { source := source, width := (x.config.map (·.width)).getD 0, height := (x.config.map (·.height)).getD 0,
      users := 0, releasePending := false, entries := entries }
  let first := (entries.head?.map (·.frame)).getD 0
  let last := (entries.getLast?.map (·.frame)).getD 0
  (s.setCapture ((s.capture.setClip clip (some made)).referAll entries)).sendReports
    [.clipMarked clip source entries.length first last]

/-- A clip dropped (R122): references released oldest first, the record emptied, a CLIP report written. -/
def State.dropClip (s : State) (clip : Nat) (released : Bool) : State :=
  match s.capture.clip clip with
  | none => s
  | some c =>
    (s.setCapture ((s.capture.setClip clip none).releaseAll c.entries)).sendReports
      [.clipDropped released clip c.source c.entries.length]

/-- After a user request: a release-pending clip with no user is dropped (R123). -/
def State.settleClip (s : State) (clip : Nat) : State :=
  match s.capture.clip clip with
  | some c => if c.releasePending && c.users == 0 then s.dropClip clip true else s
  | none => s

/-- A user request: a clip record changed and then settled; an empty record is left alone (R123). -/
def State.userRequest (s : State) (clip : Nat) (f : Clip → Clip) : State :=
  match s.capture.clip clip with
  | some c => (s.setCapture (s.capture.setClip clip (some (f c)))).settleClip clip
  | none => s

/-- Add user (R123). The count is held at its top of 2 (log 23). -/
def State.addUser (s : State) (clip : Nat) : State :=
  s.userRequest clip fun c => { c with users := countUp 2 c.users }

/-- Remove user (R123): a count of 0 stays 0. -/
def State.removeUser (s : State) (clip : Nat) : State :=
  s.userRequest clip fun c => { c with users := c.users - 1 }

/-- Mark release (R123). -/
def State.markRelease (s : State) (clip : Nat) : State :=
  s.userRequest clip fun c => { c with releasePending := true }

/-- ADD_USER (R123). -/
def execAddUser (clip : Nat) (s : State) : Host.Outcome State Fault Refusal := .next (s.addUser clip)

/-- REMOVE_USER (R123). -/
def execRemoveUser (clip : Nat) (s : State) : Host.Outcome State Fault Refusal := .next (s.removeUser clip)

/-- MARK_RELEASE (R123). -/
def execMarkRelease (clip : Nat) (s : State) : Host.Outcome State Fault Refusal := .next (s.markRelease clip)

/-! ### Commands -/

/-- SET_POOL (R106). -/
def execSetPool (base count stride : Nat) (s : State) : Host.Outcome State Fault Refusal :=
  let u := s.capture
  let len := count * stride
  carryOut (.setPool base count stride) s <|
    if u.sources.toList.any (fun x => x.state != .stopped || !x.timeline.isEmpty) ∨ u.clips.toList.any Option.isSome then
      .refused .wrongState
    else if base % Config.rowBytes ≠ 0 ∨ stride % Config.rowBytes ≠ 0 ∨ stride = 0 ∨ count = 0 ∨ 4096 < count ∨
        Config.dramBytes < base + len ∨ s.hitsAperture base len ∨ s.hitsOverlay base len ∨ s.hitsIngest base len ∨
        u.sources.toList.any (fun x => stride < (x.config.map (·.bytes)).getD 0) then .refused .badArgument
    else .done (s.setCapture { u with pool := some ⟨base, count, stride⟩ }.rebuildFree) 0 0

/-- SET_SOURCE (R108). -/
def execSetSource (source base width height capacity : Nat) (s : State) : Host.Outcome State Fault Refusal :=
  let len := width * height * 4
  let x := s.capture.source source
  carryOut (.setSource source base width height capacity) s <|
    if 3 < source ∨ base % 32 ≠ 0 ∨ width < 64 ∨ 4096 < width ∨ width % 8 ≠ 0 ∨ height < 16 ∨ 2160 < height ∨
        capacity < 16 ∨ 2048 < capacity ∨ Config.dramBytes < base + len ∨ s.hitsAperture base len ∨
        s.hitsOverlay base len ∨ s.hitsPool base len then .refused .badArgument
    else
      match s.capture.pool with
      | none => .refused .wrongState
      | some p =>
        if x.state ≠ .stopped then .refused .wrongState
        else if p.stride < len then .refused .noRoom
        else
          let x1 : Source := { x with config := some ⟨base, width, height, capacity⟩, beats := 0, faults := 0 }
          .done (s.setCapture ((s.capture.setSource source x1).emptyTimeline source)) 0 0

/-- Emptying a source's timeline would return a slot: one whose every reference is an entry of it (R118). -/
def CaptureUnit.emptyingReturns (u : CaptureUnit) (i : Nat) : Bool :=
  let es := (u.source i).timeline
  es.any fun e => u.refCount e.slot == (es.filter fun q => q.slot == e.slot).length

/-- CAPTURE_START (R118). -/
def execCaptureStart (source : Nat) (s : State) : Host.Outcome State Fault Refusal :=
  let u := s.capture
  carryOut (.captureStart source) s <|
    if 3 < source then .refused .badArgument
    else if (u.source source).config.isNone ∨ (u.source source).state ≠ .stopped then .refused .wrongState
    else if u.free.isEmpty && !u.emptyingReturns source then .refused .noRoom
    else
      let t := (u.emptyTimeline source).take
      let x : Source := { t.2.source source with openSlot := t.1, beats := 0, faults := 0, state := .armed }
      .done (s.setCapture (t.2.setSource source x)) 0 0

/-- A source stopped, its open slot returned (R119). -/
def CaptureUnit.stop (u : CaptureUnit) (i : Nat) : CaptureUnit :=
  let x := u.source i
  let u1 := match x.openSlot with
    | some slot => u.giveBack slot
    | none => u
  u1.setSource i { x with openSlot := none, beats := 0, faults := 0, state := .stopped }

/-- CAPTURE_STOP (R119). -/
def execCaptureStop (source : Nat) (s : State) : Host.Outcome State Fault Refusal :=
  let x := s.capture.source source
  carryOut (.captureStop source) s <|
    if 3 < source then .refused .badArgument
    else if x.state = .stopped then .done s 0 0
    else
      let ended := if 0 < x.faults then
          [Report.runEnd source true ((x.newest.map (·.frame)).getD 0) x.faults] else []
      .done ((s.setCapture (s.capture.stop source)).sendReports ended) 0 0

/-- MARK_CLIP (R121). -/
def execMarkClip (clip source first last : Nat) (s : State) : Host.Outcome State Fault Refusal :=
  let entries := (s.capture.source source).between first last
  carryOut (.markClip clip source first last) s <|
    if 31 < clip ∨ 3 < source ∨ last < first ∨ Config.clipPlaces < last - first + 1 then .refused .badArgument
    else if (s.capture.clip clip).isSome then .refused .inUse
    else if entries.isEmpty then .refused .notFound
    else if s.capture.storeFree < entries.length then .refused .noRoom
    else .done (s.makeClip clip source entries) 0 0

/-- DROP_CLIP (R122). -/
def execDropClip (clip : Nat) (s : State) : Host.Outcome State Fault Refusal :=
  carryOut (.dropClip clip) s <|
    if 31 < clip then .refused .badArgument
    else
      match s.capture.clip clip with
      | none => .refused .notFound
      | some c => if 0 < c.users then .refused .inUse else .done (s.dropClip clip false) 0 0

/-! ### The control reset (R125) -/

/-- The unit after a control reset: the pool geometry and the source configurations kept. -/
def CaptureUnit.controlReset (u : CaptureUnit) : CaptureUnit :=
  ({ u with
    sources := tmap (fun x : Source => { Source.unset with config := x.config }) u.sources
    clips := Vector.replicate 32 none } : CaptureUnit).rebuildFree

end Sys2Proof.Machine
end

