-- ==== Sys2Proof/Machine/Scheduler.lean ====
section
/-! DEFINITION. The Memory Scheduler (chapter 9): address mapping, entering operations, the bank rule, the choice of
bursts, ageing, refresh and initialisation. -/

namespace Sys2Proof.Machine

open Sys2Proof

/-! ### Address mapping (R155) -/

/-- The bank of a byte address. -/
def bankOf (a : Nat) : Nat := a / 8192 % 16

/-- The row of a byte address. -/
def rowOf (a : Nat) : Nat := a / 131072

/-- The column of a byte address: the beat's place in its row. -/
def columnOf (a : Nat) : Nat := a % 8192 / 32

/-- A transfer of `beats` beats from an address as pieces within one row each, the lowest first (R155). -/
def rowPieces : Nat → Nat → Nat → List (Nat × Nat)
  | 0, _, _ => []
  | fuel + 1, a, beats =>
    if beats = 0 then []
    else
      let k := min beats (256 - columnOf a)
      (a, k) :: rowPieces fuel (a + 32 * k) (beats - k)

/-- The pieces of a transfer. -/
def transferPieces (a beats : Nat) : List (Nat × Nat) := rowPieces beats a beats

/-- The first beat and the number of beats that hold `len` bytes from an address. -/
def coveringBeats (a len : Nat) : Nat × Nat :=
  if len = 0 then (a / 32 * 32, 0) else (a / 32 * 32, (a + len - 1) / 32 - a / 32 + 1)

/-! ### Operations (R156, R157) -/

/-- An operation as its unit enters it: it holds no place yet. -/
def newRead (owner : Owner) (cls : OpClass) (a beats : Nat) : Operation :=
  ⟨false, a, beats, [], owner, cls, 0, 0, false⟩

/-- A write as its unit enters it. -/
def newWrite (owner : Owner) (a : Nat) (data : List (List (Option Byte))) : Operation :=
  ⟨true, a, data.length, data, owner, .general, 0, 0, false⟩

/-- Two operations share a beat: their column ranges overlap in the same row of the same bank (R157). -/
def Operation.sharesBeat (p q : Operation) : Bool :=
  bankOf p.addr == bankOf q.addr && rowOf p.addr == rowOf q.addr &&
    overlaps (columnOf p.addr) p.beats (columnOf q.addr) q.beats

/-- An operation is blocked by an earlier one that shares a beat, unless both are READs (R157). -/
def Scheduler.blocked (d : Scheduler) (op : Operation) : Bool :=
  d.queue.any fun e => e.order < op.order && e.sharesBeat op && (e.write || op.write)

/-- Bank rule, bursts and activates stand still: a refresh is forced or under way, or initialisation has not
completed (R157, R159, R160, R166). -/
def Scheduler.standsStill (d : Scheduler) : Bool := d.phase != .quiet || d.init != .done

/-- An operation is aged when its pass count has reached 32 (R161). -/
def Operation.aged (op : Operation) : Bool := op.passes == Config.ageingPasses

/-- A WAITING operation is ready: not blocked, its bank ACTIVE on its row, no refresh (R157). -/
def Scheduler.ready (d : Scheduler) (op : Operation) : Bool :=
  !op.inBurst && !d.blocked op && tget d.banks (bankOf op.addr) .idle == .active (rowOf op.addr) && !d.standsStill

/-- The data path carries a burst (R160). -/
def Scheduler.busy (d : Scheduler) : Bool := d.queue.any (·.inBurst)

/-- A column burst of the bank is under way. -/
def Scheduler.bankBusy (d : Scheduler) (bank : Nat) : Bool :=
  d.queue.any fun e => e.inBurst && bankOf e.addr == bank

/-- A bank given a new state. -/
def Scheduler.setBank (d : Scheduler) (bank : Nat) (b : Bank) : Scheduler := { d with banks := tset d.banks bank b }

/-! ### The bank rule (R159) -/

/-- The bank's claim: the oldest aged operation alone, else its SCANOUT operations, else its GENERAL ones, of the
WAITING operations of the bank that are not blocked. -/
def Scheduler.claim (d : Scheduler) (bank : Nat) : List Operation :=
  let ops := d.queue.filter fun e => !e.inBurst && bankOf e.addr == bank && !d.blocked e
  match ops.find? Operation.aged with
  | some e => [e]
  | none =>
    let scan := ops.filter fun e => e.cls == .scanout
    if scan.isEmpty then ops else scan

/-- The bank rule applied to one bank. -/
def Scheduler.bankRule (d : Scheduler) (bank : Nat) : Scheduler :=
  if d.standsStill then d
  else
    match tget d.banks bank .idle with
    | .idle =>
      match d.claim bank with
      | [] => d
      | e :: _ => d.setBank bank (.activating (rowOf e.addr))
    | .active r =>
      if (d.claim bank).any (fun e => rowOf e.addr == r) || d.bankBusy bank then d else d.setBank bank .precharging
    | .activating _ => d
    | .precharging => d

/-- The bank rule applied to every bank, in ascending bank number (R165). -/
def Scheduler.allBankRules (d : Scheduler) : Scheduler := (List.range 16).foldl Scheduler.bankRule d

/-! ### Bursts and ageing (R160, R161) -/

/-- What the start of a burst does to one operation of the queue: the starting one goes IN-BURST, and a WAITING GENERAL
operation entered before it is passed over once more; at 32 it is aged and joins the SCANOUT class. -/
def Operation.atBurstStart (started : Nat) (e : Operation) : Operation :=
  if e.order = started then { e with inBurst := true }
  else if !e.inBurst && e.cls == .general && e.order < started then
    let n := e.passes + 1
    if n = Config.ageingPasses then { e with passes := n, cls := .scanout } else { e with passes := n }
  else e

/-- A burst starts. The promotions it brings are arrivals of their own (log 34). -/
def Scheduler.startBurst (d : Scheduler) (started : Nat) : Scheduler :=
  let promoted := d.queue.filter fun e =>
    !e.inBurst && e.cls == .general && e.order < started && e.passes + 1 == Config.ageingPasses
  { d with
    queue := d.queue.map (Operation.atBurstStart started)
    promotions := d.promotions ++ promoted.map (·.order) }

/-- The choice of the next burst: the oldest ready SCANOUT operation, else the oldest ready GENERAL one (R160). -/
def Scheduler.chooseBurst (d : Scheduler) : Scheduler :=
  if d.standsStill || d.busy then d
  else
    match d.queue.find? (fun e => d.ready e && e.cls == .scanout) with
    | some e => d.startBurst e.order
    | none =>
      match d.queue.find? (fun e => d.ready e && e.cls == .general) with
      | some e => d.startBurst e.order
      | none => d

/-! ### Entering operations and waiting for places (R156) -/

/-- Free places of the operation queue. -/
def Scheduler.freePlaces (d : Scheduler) : Nat := Config.queuePlaces - d.queue.length

/-- A unit may enter: it needs no place, or there are enough and they are not held for a unit that has waited
longer. -/
def Scheduler.mayEnter (d : Scheduler) (u : WaitingUnit) (need : Nat) : Bool :=
  need == 0 || ((d.waiters.isEmpty || d.waiters.head? == some u) && need ≤ d.freePlaces)

/-- A unit begins to wait, unless it waits already. -/
def Scheduler.joinWait (d : Scheduler) (u : WaitingUnit) : Scheduler :=
  if d.waiters.contains u then d else { d with waiters := d.waiters ++ [u] }

/-- A unit waits no more. -/
def Scheduler.leaveWait (d : Scheduler) (u : WaitingUnit) : Scheduler := { d with waiters := d.waiters.erase u }

/-- Operations given their places in the order of entry. -/
def numberFrom : Nat → List Operation → List Operation
  | _, [] => []
  | n, op :: ops => { op with order := n, passes := 0, inBurst := false } :: numberFrom (n + 1) ops

/-- Operations entered at once: all take their places, then the bank rule is applied to their banks and the data path
chooses (R156, R159, R160; log 29). Nothing happens where there is none to enter. -/
def Scheduler.enterAll (d : Scheduler) (ops : List Operation) : Scheduler :=
  if ops.isEmpty then d
  else
    let d1 := { d with queue := d.queue ++ numberFrom d.nextOrder ops, nextOrder := d.nextOrder + ops.length }
    (ops.foldl (fun e op => e.bankRule (bankOf op.addr)) d1).chooseBurst

/-- A unit enters operations and waits no more. -/
def Scheduler.enterFor (d : Scheduler) (u : WaitingUnit) (ops : List Operation) : Scheduler :=
  (d.leaveWait u).enterAll ops

/-- A unit enters the operations of a list one after another as long as it may; what is left, and the scheduler, in which
the unit waits if anything is left (R156; log 15). -/
def Scheduler.enterMany (d : Scheduler) (u : WaitingUnit) : List Operation → List Operation × Scheduler
  | [] => ([], d.leaveWait u)
  | op :: ops =>
    if d.mayEnter u 1 then (d.enterFor u [op]).enterMany u ops else (op :: ops, d.joinWait u)

/-! ### Refresh (R162-R165) -/

/-- Every bank is IDLE. -/
def Scheduler.allIdle (d : Scheduler) : Bool := d.banks.toList.all (· == .idle)

/-- A bank closed for a refresh: an ACTIVE bank with no burst of its own begins its precharge. -/
def Scheduler.closeBank (d : Scheduler) (bank : Nat) : Scheduler :=
  match tget d.banks bank .idle with
  | .active _ => if d.bankBusy bank then d else d.setBank bank .precharging
  | _ => d

/-- The closing of the banks taken as far as it goes; with every bank IDLE the refresh begins (R163, R164). -/
def Scheduler.closeForRefresh (d : Scheduler) : Scheduler :=
  if d.phase = .closing then
    let d1 := (List.range 16).foldl Scheduler.closeBank d
    if d1.allIdle then { d1 with phase := .refreshing } else d1
  else d

/-- The conditions of an idle refresh (R163). -/
def Scheduler.idleRefreshDue (d : Scheduler) : Bool :=
  d.init == .done && d.phase == .quiet && 0 < d.debt && d.queue.isEmpty && !d.busy

/-- A refresh begins to close the banks. -/
def Scheduler.beginRefresh (d : Scheduler) : Scheduler := { d with phase := .closing }.closeForRefresh

/-! ### The arrivals of the scheduler -/

/-- An activate completes at a bank (R158, R164); nothing where none is under way. R159 applies the bank rule at this arrival and R160
has the data path choose at it, and neither says which acts first: the bank rule does, so that an operation ready on the row just opened
loses the row to another claim of its bank (DESIGN CHOICE, unsafe: log 50). -/
def Scheduler.activateDone (d : Scheduler) (bank : Nat) : Scheduler :=
  match tget d.banks bank .idle with
  | .activating r =>
    let d1 := d.setBank bank (.active r)
    if d1.phase = .quiet then (d1.bankRule bank).chooseBurst else d1.closeForRefresh
  | _ => d

/-- A precharge completes at a bank (R158, R164); nothing where none is under way. -/
def Scheduler.prechargeDone (d : Scheduler) (bank : Nat) : Scheduler :=
  match tget d.banks bank .idle with
  | .precharging =>
    let d1 := d.setBank bank .idle
    if d1.phase = .quiet then d1.bankRule bank else d1.closeForRefresh
  | _ => d

/-- A promotion by ageing reaches its bank and the data path (R161, R159, R160). -/
def Scheduler.promotionDone (d : Scheduler) : Scheduler :=
  match d.promotions with
  | [] => d
  | n :: rest =>
    let d1 := { d with promotions := rest }
    match d1.queue.find? (fun e => e.order == n) with
    | none => d1
    | some e => (d1.bankRule (bankOf e.addr)).chooseBurst

/-- The refresh interval timer raises the debt; at 7 a refresh is forced (R162, R164). The timer runs once initialisation
has completed. The debt is held at 8 (DESIGN CHOICE, unsafe: log 22). -/
def Scheduler.intervalEvent (d : Scheduler) : Scheduler :=
  if d.init != .done then d
  else
    let d1 := { d with debt := countUp Config.topDebt d.debt }
    if Config.forcedDebt ≤ d1.debt ∧ d1.forced = false then
      let d2 := { d1 with forced := true }
      if d2.phase = .quiet then d2.beginRefresh else d2
    else d1

/-- An idle refresh begins (R163), where its conditions hold. -/
def Scheduler.idleRefresh (d : Scheduler) : Scheduler := if d.idleRefreshDue then d.beginRefresh else d

/-- A refresh completes (R165); nothing where none is under way. -/
def Scheduler.refreshDone (d : Scheduler) : Scheduler :=
  if d.phase = .refreshing then
    let d1 := { d with debt := d.debt - 1 }
    if Config.forcedDebt ≤ d1.debt ∧ d1.forced = true then d1
    else
      let d2 := { d1 with forced := false, phase := .quiet }
      if d2.idleRefreshDue then d2.beginRefresh else d2.allBankRules.chooseBurst
  else d

/-- A step of DRAM initialisation completes (R166); nothing where none is under way. -/
def Scheduler.initStepDone (d : Scheduler) : Scheduler :=
  match d.init with
  | .waiting => d
  | .prechargeAll => { d with init := .firstRefresh }
  | .firstRefresh => { d with init := .secondRefresh }
  | .secondRefresh => { d with init := .modeSetting }
  | .modeSetting =>
    let d1 : Scheduler :=
      { d with init := .done, banks := Vector.replicate 16 .idle, debt := 0, phase := .quiet, forced := false }
    d1.allBankRules.chooseBurst
  | .done => d

/-- The operation whose burst is under way. -/
def Scheduler.bursting (d : Scheduler) : Option Operation := d.queue.find? (·.inBurst)

/-- An operation leaves the queue (R160). -/
def Scheduler.removeOp (d : Scheduler) (order : Nat) : Scheduler :=
  { d with queue := d.queue.filter (fun e => e.order != order) }

/-- The scheduler's own part of a burst's completion: the bank rule at the burst's bank, or the closing for a refresh
(R160, R164). -/
def Scheduler.afterBurst (d : Scheduler) (bank : Nat) : Scheduler :=
  if d.phase = .quiet then d.bankRule bank else d.closeForRefresh

end Sys2Proof.Machine
end

