-- ==== Sys2Proof/Machine/Glyph.lean ====
section
/-! DEFINITION. The blend function (R32), glyph streams (R48), and the image a render job draws (R49, R50, R53, R55). -/

namespace Sys2Proof.Machine

open Sys2Proof

/-! ### Blending (R32, R33) -/

/-- B(x, y, a) = floor((x × a + y × (255 − a) + 127) / 255) (R32). -/
def blend (x y a : Nat) : Nat := (x * a + y * (255 - a) + 127) / 255

/-- The blend function on channel values held as bytes. -/
def blendByte (x y : Byte) (a : Nat) : Byte := BitVec.ofNat 8 (blend x.toNat y.toNat a)

/-- One window pixel laid over a pixel with the window's fade (R33): X is kept from the pixel laid over. -/
def layOver (top under : Pixel) (fade : Nat) : Pixel :=
  let a := blend top.x.toNat 0 fade
  ⟨blendByte top.r under.r a, blendByte top.g under.g a, blendByte top.b under.b a, under.x⟩

/-- The four bytes of a pixel (section 11.5). -/
def Pixel.bytes (p : Pixel) : List Byte := [p.r, p.g, p.b, p.x]

/-- The pixel in four bytes. -/
def pixelAt (bs : List Byte) (at' : Nat) : Pixel :=
  ⟨bs.getD at' 0, bs.getD (at' + 1) 0, bs.getD (at' + 2) 0, bs.getD (at' + 3) 0⟩

/-- The black pixel of R27 and R28. -/
def Pixel.black : Pixel := ⟨0, 0, 0, 0⟩

/-! ### Glyph streams (R48) -/

/-- The nibbles of a stream, the high nibble of each byte first. -/
def nibbles (bs : List Byte) : List Nat := bs.flatMap fun b => [b.toNat / 16, b.toNat % 16]

/-- The coverage values a stream paints: `left` pixels are unpainted, `last` is the last coverage, `k` the repeat
position. -/
def paint : List Nat → Nat → Nat → Nat → List Nat
  | [], left, _, _ => List.replicate left 0
  | n :: ns, left, last, k =>
    if left = 0 then []
    else if n < 8 then n :: paint ns (left - 1) n 0
    else
      let r := min left ((n - 8) * 8 ^ k)
      List.replicate r last ++ paint ns (left - r) last (k + 1)

/-- The coverage of every pixel of a glyph, in raster order (R48). The rule starts the last coverage at 0 and gives the repeat position
no start before the first coverage nibble: it starts at 0 too (DESIGN CHOICE, unsafe: log 49). -/
def decodeGlyph (g : Glyph) (stream : List Byte) : List Nat := paint (nibbles stream) (g.width * g.height) 0 0

/-! ### Laying out text (R49) -/

/-- The record of a code in a glyph index. -/
def glyphOf (glyphs : List Glyph) (code : Nat) : Option Glyph := glyphs.find? (·.code == code)

/-- A code's advance: the default advance for a code without a record (R46). -/
def advanceOf (glyphs : List Glyph) (default : Nat) (code : Nat) : Nat :=
  match glyphOf glyphs code with
  | some g => g.advance
  | none => default

/-- The text width W: the sum of the codes' advances (R49). -/
def textWidth (glyphs : List Glyph) (default : Nat) (codes : List Nat) : Nat :=
  codes.foldl (fun w c => w + advanceOf glyphs default c) 0

/-- Where the pen of a run starts (R49). -/
def penStart (r : DrawnRun) (width : Nat) : Nat :=
  if r.box < width then r.x
  else
    match r.align with
    | .left => r.x
    | .right => r.x + r.box - width
    | .centre => r.x + (r.box - width) / 2

/-- A glyph in its place: its top-left pixel, its coverage, its run's colour and opacity and its run's columns. -/
structure PlacedGlyph where
  x : Nat
  y : Nat
  width : Nat
  height : Nat
  coverage : List Nat
  colour : Pixel
  opacity : Nat
  firstColumn : Nat
  endColumn : Nat
  deriving DecidableEq, Repr, Inhabited

/-- The glyphs of a run's codes, the pen moving on by each code's advance (R49). -/
def placeCodes (glyphs : List Glyph) (default : Nat) (coverageOf : Glyph → List Nat) (r : DrawnRun) :
    Nat → List Nat → List PlacedGlyph
  | _, [] => []
  | pen, c :: cs =>
    let rest := placeCodes glyphs default coverageOf r (pen + advanceOf glyphs default c) cs
    match glyphOf glyphs c with
    | none => rest
    | some g =>
      ⟨pen, r.y + g.top, g.width, g.height, coverageOf g, r.colour, r.opacity, r.x, r.x + r.box⟩ :: rest

/-- The weight of a coverage in a run's opacity (R50). -/
def coverageWeight (c opacity : Nat) : Nat := (c * opacity + 3) / 7

/-- A glyph drawn over one pixel of the image, at column `u` and line `v` (R49, R50). -/
def drawGlyph (u v : Nat) (px : Pixel) (g : PlacedGlyph) : Pixel :=
  if g.x ≤ u ∧ u < g.x + g.width ∧ g.y ≤ v ∧ v < g.y + g.height ∧ g.firstColumn ≤ u ∧ u < g.endColumn then
    let a := coverageWeight (g.coverage.getD ((v - g.y) * g.width + (u - g.x)) 0) g.opacity
    ⟨blendByte g.colour.r px.r a, blendByte g.colour.g px.g a, blendByte g.colour.b px.b a,
      BitVec.ofNat 8 (blend 255 px.x.toNat a)⟩
  else px

/-! ### A ticker's layout (R55) -/

/-- A ticker image's width, its strip flag and where its text starts. -/
structure TickerLayout where
  imageWidth : Nat
  strip : Bool
  pen : Nat
  deriving DecidableEq, Repr, Inhabited

/-- Static when the text fits the window, else a crawling strip (R55). -/
def tickerLayout (windowWidth width : Nat) : TickerLayout :=
  if width ≤ windowWidth then ⟨windowWidth, false, (windowWidth - width) / 2⟩
  else ⟨min (windowWidth + width) 8192, true, windowWidth⟩

/-- The ticker's text as a run: its style is run 0's y, colour and opacity, or y 0, white and 255 (R44, R55). -/
def tickerRun (style : Option TextRun) (lay : TickerLayout) (codes : List Nat) : DrawnRun :=
  let y := (style.map (·.y)).getD 0
  let colour := (style.map (·.colour)).getD ⟨255, 255, 255, 0⟩
  let opacity := (style.map (·.opacity)).getD 255
  ⟨lay.pen, y, lay.imageWidth - lay.pen, .left, colour, opacity, codes⟩

/-! ### A job's reads and its image (R53) -/

/-- The reads that fetch `len` bytes from an address for an item, one for each piece within a row. -/
def readsFor (item : ReadItem) (a len : Nat) : List ReadPiece :=
  let c := coveringBeats a len
  (transferPieces c.1 c.2).map fun p => ⟨item, p.1, p.2⟩

/-- The codes of a text that have a glyph record, each once, in the order of their first use (log 21). -/
def distinctGlyphs (glyphs : List Glyph) : List Nat → List Glyph
  | [] => []
  | c :: cs =>
    match glyphOf glyphs c with
    | none => distinctGlyphs glyphs cs
    | some g => g :: (distinctGlyphs glyphs cs).filter (fun q => q.code != c)

/-- The reads a job makes: a stream for each glyph it draws, or the lines of the image it copies (R53; log 21). -/
def planReads (kind : WindowKind) (cfg : WindowConfig) (runs : List DrawnRun) (image : Option ImageRef)
    (glyphs : List Glyph) (fontBase : Nat) : List ReadPiece :=
  match kind with
  | .image =>
    match image with
    | none => []
    | some i =>
      (List.range (min i.height cfg.rect.height)).flatMap fun v =>
        readsFor (.imageLine v) (i.addr + v * i.pitch) (min i.width cfg.rect.width * 4)
  | _ =>
    (distinctGlyphs glyphs (runs.flatMap (·.codes))).flatMap fun g =>
      readsFor (.glyph g.code) (fontBase + g.offset) g.length

/-- The bytes a job has read for an item: `len` of them from an address. -/
def Job.itemBytes (j : Job) (item : ReadItem) (a len : Nat) : List Byte :=
  let all := j.pieces.zipIdx.flatMap fun p => if p.1.item == item then (j.got.lookup p.2).getD [] else []
  slice all (a % 32) len

/-- The coverage of a glyph, decoded from the stream the job has read. -/
def Job.coverageOf (j : Job) (g : Glyph) : List Nat :=
  decodeGlyph g (j.itemBytes (.glyph g.code) (j.fontBase + g.offset) g.length)

/-- The glyphs a job draws, in drawing order (R49). -/
def Job.placed (j : Job) : List PlacedGlyph :=
  j.runs.flatMap fun r =>
    placeCodes j.glyphs j.advance j.coverageOf r (penStart r (textWidth j.glyphs j.advance r.codes)) r.codes

/-- One line of a job's image: the background, then the glyphs or the copied pixels over it (R53). -/
def Job.imageLine (j : Job) (placed : List PlacedGlyph) (v : Nat) : List Pixel :=
  let copied : Nat → Option Pixel :=
    match j.config.kind, j.image with
    | .image, some i =>
      let bs := j.itemBytes (.imageLine v) (i.addr + v * i.pitch) (min i.width j.config.rect.width * 4)
      fun u => if u < min i.width j.config.rect.width ∧ v < min i.height j.config.rect.height then
        some (pixelAt bs (4 * u)) else none
    | _, _ => fun _ => none
  (List.range j.imageWidth).map fun u =>
    match copied u with
    | some p => p
    | none => placed.foldl (drawGlyph u v) j.config.background

/-- The bytes of a job's whole image, in raster order with no padding (R30, R53). -/
def Job.imageBytes (j : Job) : List Byte :=
  let placed := j.placed
  (List.range j.config.rect.height).flatMap fun v => (j.imageLine placed v).flatMap Pixel.bytes

/-- A beat of a write from bytes that may end inside it: the bytes past the end are not enabled (log 20). -/
def partialBeat (bs : List Byte) : List (Option Byte) :=
  (List.range 32).map fun k => bs[k]?

/-- The job's buffer writes: every beat of the image in raster order, one operation for each piece within a row (R53,
R155). -/
def Job.writes (j : Job) : List Operation :=
  let bs := j.imageBytes
  (transferPieces j.bufferBase ((bs.length + 31) / 32)).map fun p =>
    newWrite (.renderWrite j.number) p.1
      ((List.range p.2).map fun k => partialBeat (bs.drop (p.1 - j.bufferBase + 32 * k)))

end Sys2Proof.Machine
end

