-- ==== Sys2Proof/Machine/Timing.lean ====
section
/-! DEFINITION. The Timing Unit (chapter 4): game clock, contacts, play clock, display strings, penalty lists, score
record, game events, and its commands. -/

namespace Sys2Proof.Machine

open Sys2Proof

/-! ### What the unit raises (R80) -/

/-- Events and CLOCK reports raised by a tick or a command, in the order raised. -/
structure Raised where
  events : List GameEvent
  reports : List Report
  deriving DecidableEq, Repr, Inhabited

/-- Nothing raised. -/
def Raised.none : Raised := ⟨[], []⟩

/-- What was raised first, then what was raised after it. -/
def Raised.andThen (p q : Raised) : Raised := ⟨p.events ++ q.events, p.reports ++ q.reports⟩

/-! ### Display strings (R71-R73) -/

/-- The decimal digits of a number as codes, no leading zeros, 0 written "0" (fuel bounds the number of digits). -/
def decimalAux : Nat → Nat → List Nat → List Nat
  | 0, _, acc => acc
  | fuel + 1, n, acc =>
    let acc := (48 + n % 10) :: acc
    if n / 10 = 0 then acc else decimalAux fuel (n / 10) acc

/-- A number in decimal (R72). -/
def decimal (n : Nat) : List Nat := decimalAux (n + 1) n []

/-- A number as two digits. -/
def twoDigits (n : Nat) : List Nat := [48 + n / 10 % 10, 48 + n % 10]

/-- ceil(a / b). -/
def ceilDiv (a b : Nat) : Nat := (a + b - 1) / b

/-- The minutes form "M:SS" of a number of seconds (R71). -/
def minutesForm (secs : Nat) : List Nat := decimal (secs / 60) ++ [58] ++ twoDigits (secs % 60)

/-- The tenths form "S.t" of a number of tenths (R71). -/
def tenthsForm (t : Nat) : List Nat := decimal (t / 10) ++ [46, 48 + t % 10]

/-- The GAME-CLOCK string (R71). -/
def clockString (c : GameClock) : List Nat :=
  match c.direction with
  | .down =>
    let t := ceilDiv c.value 100
    if c.value = 0 ∨ t < c.threshold / 100 then tenthsForm t else minutesForm (ceilDiv c.value 1000)
  | .up => minutesForm (c.value / 1000)

/-- A RUNNING penalty put among others in start order (R74). -/
def insertByStart (p : Penalty) : List Penalty → List Penalty
  | [] => [p]
  | q :: qs => if p.start.getD 0 < q.start.getD 0 then p :: q :: qs else q :: insertByStart p qs

/-- The RUNNING entries of a list in start order, earliest first (R74). -/
def runningInOrder (ps : List Penalty) : List Penalty :=
  (ps.filter Penalty.running).foldl (fun acc p => insertByStart p acc) []

/-- The player number right-aligned in two characters (R72). -/
def playerString (n : Nat) : List Nat := if n < 10 then [32, 48 + n] else decimal n

/-- The PENALTY(team, line) string (R72). -/
def penaltyString (ps : List Penalty) (line : Nat) : List Nat :=
  match (runningInOrder ps)[line]? with
  | none => []
  | some p => playerString p.player ++ [32] ++ minutesForm (ceilDiv p.remaining 1000)

/-- The string of a field, worked out afresh (R71, R72). -/
def TimingUnit.freshString (t : TimingUnit) : DisplayField → List Nat
  | .gameClock => clockString t.clock
  | .playClock => decimal (ceilDiv t.play.value 1000)
  | .period => decimal t.clock.period
  | .score team => decimal (t.team team).score
  | .timeouts team => decimal (t.team team).timeouts
  | .penalty team line => penaltyString (t.team team).penalties line

/-- The 13 fields in the order of R73. -/
def allFields : List DisplayField :=
  [.gameClock, .playClock, .period, .score 0, .score 1, .timeouts 0, .timeouts 1,
    .penalty 0 0, .penalty 0 1, .penalty 0 2, .penalty 1 0, .penalty 1 1, .penalty 1 2]

/-- A field's place in that order. -/
def DisplayField.place : DisplayField → Nat
  | .gameClock => 0
  | .playClock => 1
  | .period => 2
  | .score team => 3 + team
  | .timeouts team => 5 + team
  | .penalty team line => 7 + 3 * team + line

/-- The kept string of a field (R73). -/
def TimingUnit.string (t : TimingUnit) (f : DisplayField) : List Nat := tget t.strings f.place []

/-- The fields whose fresh string differs from the kept one (R73). -/
def TimingUnit.changedFields (t : TimingUnit) : List DisplayField :=
  allFields.filter fun f => t.freshString f != t.string f

/-- The unit with every string worked out afresh and kept (R73). -/
def TimingUnit.withStrings (t : TimingUnit) : TimingUnit :=
  { t with strings := ⟨(allFields.map t.freshString).toArray, by simp [allFields]⟩ }

/-- The end of a tick or command: strings kept, field notices sent for those that changed, then the events and reports
handed on (R73, R80). -/
def State.settleTiming (s : State) (t : TimingUnit) (raised : Raised) : State :=
  (s.setTiming t.withStrings).setTransit
    { s.transit with
      notices := s.transit.notices ++ t.changedFields
      events := s.transit.events ++ raised.events
      reports := s.transit.reports ++ raised.reports }

/-! ### The game clock (R61) -/

/-- One step of the game clock on a running tick. -/
def GameClock.tick (c : GameClock) (frame : FrameNo) : GameClock × Raised :=
  if c.run = .running then
    let v := match c.direction with
      | .down => c.value - 1
      | .up => c.value + 1
    let limit := match c.direction with
      | .down => 0
      | .up => c.preset
    let c1 := { c with value := v }
    if v = limit then
      ({ c1 with run := .expired }, ⟨[.periodEnd c.period], [.periodEnd c.period c.direction frame]⟩)
    else (c1, Raised.none)
  else (c, Raised.none)

/-- A RUNNING or EXPIRED clock left with no remaining time becomes STOPPED, with no event (R63, R65). -/
def GameClock.stopIfSpent (c : GameClock) : GameClock :=
  if c.remaining = 0 ∧ c.run ≠ .stopped then { c with run := .stopped } else c

/-- The start value of a direction: the preset counting DOWN, 0 counting UP (R64, R66). -/
def GameClock.startValue (c : GameClock) : Nat :=
  match c.direction with
  | .down => c.preset
  | .up => 0

/-! ### Contacts (R67, R68) -/

/-- A filter after one sample, and whether that sample brought an acceptance. -/
def ContactFilter.sample (f : ContactFilter) (l : Level) : ContactFilter × Bool :=
  let n := if f.candidate = some l then min 3 (f.count + 1) else 1
  let f1 := { f with candidate := some l, count := n }
  if n = 3 ∧ f.accepted ≠ some l then ({ f1 with accepted := some l }, true) else (f1, false)

/-- In CONTACT mode the game clock follows the run contact's accepted level (R68). -/
def GameClock.follow (c : GameClock) (f : ContactFilter) : GameClock :=
  if c.mode = .contact then
    if f.active ∧ c.run = .stopped ∧ 0 < c.remaining then { c with run := .running }
    else if f.inactive ∧ c.run = .running then { c with run := .stopped }
    else c
  else c

/-- PLAY-RESET's effect (R70): the value from the preset, a preset of 0 stopping a FREE clock. -/
def PlayClock.reset (p : PlayClock) : PlayClock :=
  { p with value := p.preset, running := if p.mode = .free ∧ p.preset = 0 then false else p.running }

/-- The effects of both contacts, after both filters have been updated (R68): `accepted` says whether the play contact
accepted a level on this tick. -/
def TimingUnit.applyContacts (t : TimingUnit) (accepted : Bool) : TimingUnit :=
  { t with
    clock := t.clock.follow t.runFilter
    play := if accepted && t.playFilter.active then t.play.reset else t.play }

/-- The first phase of a tick (R59, R67, R68). -/
def TimingUnit.contactPhase (t : TimingUnit) (run play : Level) : TimingUnit :=
  let r := t.runFilter.sample run
  let p := t.playFilter.sample play
  { t with runFilter := r.1, playFilter := p.1 }.applyContacts p.2

/-! ### The play clock (R69) -/

/-- The play clock counts on a tick: on a running tick in LINKED mode, while RUNNING in FREE mode. -/
def PlayClock.counts (p : PlayClock) (runningTick : Bool) : Bool :=
  match p.mode with
  | .linked => runningTick
  | .free => p.running

/-- One tick of the play clock. -/
def PlayClock.tick (p : PlayClock) (runningTick : Bool) (frame : FrameNo) : PlayClock × Raised :=
  if p.counts runningTick ∧ 0 < p.value then
    let p1 := { p with value := p.value - 1 }
    if p1.value = 0 then
      ({ p1 with running := if p.mode = .free then false else p.running }, ⟨[.playExpiry], [.playExpiry frame]⟩)
    else (p1, Raised.none)
  else (p, Raised.none)

/-! ### Penalty lists (R74-R78) -/

/-- The number of RUNNING entries. -/
def runningCount (ps : List Penalty) : Nat := (ps.filter Penalty.running).length

/-- The player has a RUNNING entry in the list. -/
def playerRunning (ps : List Penalty) (player : Nat) : Bool := ps.any fun q => q.running && q.player == player

/-- The last start position: behind every RUNNING entry. -/
def lastStart (ps : List Penalty) : Nat := ps.foldl (fun m q => max m (q.start.getD 0)) 0 + 1

/-- The first entry that meets `f` is given a start position. -/
def startFirst (f : Penalty → Bool) (position : Nat) : List Penalty → List Penalty
  | [] => []
  | q :: qs => if f q then { q with start := some position } :: qs else q :: startFirst f position qs

/-- One start of a fill: the oldest WAITING entry whose player has no RUNNING entry. -/
def fillOne (limit : Nat) (ps : List Penalty) : List Penalty :=
  if runningCount ps < limit then startFirst (fun q => !q.running && !playerRunning ps q.player) (lastStart ps) ps
  else ps

/-- The list filled (R74): as many starts as entries may run together find each one that qualifies. -/
def fill (limit : Nat) (ps : List Penalty) : List Penalty := Nat.repeat (fillOne limit) limit ps

/-- The fill of a team's list. -/
def Team.filled (t : Team) : Team := { t with penalties := fill t.limit t.penalties }

/-- One running tick of a team's list (R78): every RUNNING entry counts, those at 0 leave, and a list that lost an
entry is filled. The players of the entries that left, in posting order. -/
def Team.countPenalties (t : Team) : Team × List Nat :=
  let counted := t.penalties.map fun q => if q.running then { q with remaining := q.remaining - 1 } else q
  let gone := counted.filter fun q => q.running && q.remaining == 0
  let kept := counted.filter fun q => !(q.running && q.remaining == 0)
  if gone.isEmpty then ({ t with penalties := counted }, [])
  else ({ t with penalties := kept }.filled, gone.map (·.player))

/-- The fourth phase of a running tick, team 0 and then team 1 (R78). -/
def TimingUnit.penaltyPhase (t : TimingUnit) (frame : FrameNo) : TimingUnit × Raised :=
  let p0 := t.team0.countPenalties
  let p1 := t.team1.countPenalties
  ({ t with team0 := p0.1, team1 := p1.1 },
    ⟨[], p0.2.map (fun n => .penaltyDone 0 n frame) ++ p1.2.map (fun n => .penaltyDone 1 n frame)⟩)

/-! ### The millisecond tick (R59) -/

/-- Phases 1 to 4 of a tick. -/
def TimingUnit.tick (t : TimingUnit) (run play : Level) (frame : FrameNo) : TimingUnit × Raised :=
  let t1 := t.contactPhase run play
  let runningTick := t1.clock.run == .running
  let c := t1.clock.tick frame
  let p := t1.play.tick runningTick frame
  let t2 := { t1 with clock := c.1, play := p.1 }
  let q := if runningTick then t2.penaltyPhase frame else (t2, Raised.none)
  (q.1, (c.2.andThen p.2).andThen q.2)

/-- MS_TICK (R59): the lines are sampled and the tick is handled whole; no tick is taken while RESET is held. -/
def execMsTick (run play : Level) (s : State) : Host.Outcome State Fault Refusal :=
  let s1 : State := { s with lines := { s.lines with contactRun := run, contactPlay := play } }
  if s.lines.resetHeld then .next s1
  else
    let p := s1.timing.tick run play s1.classifier.frame
    .next (s1.settleTiming p.1 p.2)

/-! ### Rows that name a part of a tick (assumption log 4) -/

/-- CONTACT_ACCEPT (R67, R68): a filter's sample that brings an acceptance, with its contact's effects; nothing where the
sample brings none. -/
def execContactAccept (contact : Contact) (level : Level) (s : State) : Host.Outcome State Fault Refusal :=
  let t := s.timing
  match contact with
  | .run =>
    let p := t.runFilter.sample level
    if p.2 then .next (s.settleTiming ({ t with runFilter := p.1 }.applyContacts false) Raised.none) else .next s
  | .play =>
    let p := t.playFilter.sample level
    if p.2 then .next (s.settleTiming ({ t with playFilter := p.1 }.applyContacts true) Raised.none) else .next s

/-- PERIOD_END (R61): a step of a RUNNING game clock that reaches its limit; nothing where a step would not. -/
def execPeriodEnd (s : State) : Host.Outcome State Fault Refusal :=
  let p := s.timing.clock.tick s.classifier.frame
  if s.timing.clock.run = .running ∧ p.1.run = .expired then
    .next (s.settleTiming { s.timing with clock := p.1 } p.2)
  else .next s

/-- PLAY_EXPIRY (R69): a count of the play clock that reaches 0; nothing where a count would not. -/
def execPlayExpiry (s : State) : Host.Outcome State Fault Refusal :=
  let p := s.timing.play.tick (s.timing.clock.run == .running) s.classifier.frame
  if s.timing.play.value = 1 ∧ p.1.value = 0 then .next (s.settleTiming { s.timing with play := p.1 } p.2) else .next s

/-- A team's record replaced. -/
def TimingUnit.setTeam (t : TimingUnit) (team : Nat) (x : Team) : TimingUnit :=
  if team = 0 then { t with team0 := x } else { t with team1 := x }

/-- A team's RUNNING entries whose next count reaches 0 leave, and the list is filled (R78). -/
def Team.penaltiesDone (t : Team) : Team × List Nat :=
  let ends := fun q : Penalty => q.running && q.remaining ≤ 1
  ({ t with penalties := t.penalties.filter fun q => !ends q }.filled, (t.penalties.filter ends).map (·.player))

/-- PENALTY_DONE (R78): on a running tick the RUNNING entries of a team that reach 0 leave with their reports and the list is
filled; nothing where none does, or the game clock is not RUNNING. -/
def execPenaltyDone (team : Nat) (s : State) : Host.Outcome State Fault Refusal :=
  let p := (s.timing.team team).penaltiesDone
  if team ≤ 1 ∧ s.timing.clock.run = .running ∧ p.2 ≠ [] then
    .next (s.settleTiming (s.timing.setTeam team p.1)
      ⟨[], p.2.map (fun n => .penaltyDone team n s.classifier.frame)⟩)
  else .next s

/-! ### Commands of the game clock (R62-R66) -/

/-- A command of the Timing Unit carried out: the same string work as the end of a tick (R59, R73). -/
def State.timed (s : State) (t : TimingUnit) (raised : Raised) : Taken := .done (s.settleTiming t raised) 0 0

/-- A command that changes the game clock alone and raises nothing. -/
def State.clocked (s : State) (c : GameClock) : Taken := s.timed { s.timing with clock := c } Raised.none

/-- CLOCK_START (R62). -/
def execClockStart (s : State) : Host.Outcome State Fault Refusal :=
  let c := s.timing.clock
  carryOut .clockStart s <|
    if c.mode = .contact then .refused .contactOwned
    else if c.run = .running then s.clocked c
    else if c.run = .stopped ∧ 0 < c.remaining then s.clocked { c with run := .running }
    else .refused .wrongState

/-- CLOCK_STOP (R62). -/
def execClockStop (s : State) : Host.Outcome State Fault Refusal :=
  let c := s.timing.clock
  carryOut .clockStop s <|
    if c.mode = .contact then .refused .contactOwned
    else if c.run = .running then s.clocked { c with run := .stopped }
    else s.clocked c

/-- CLOCK_SET (R63). -/
def execClockSet (value : Nat) (s : State) : Host.Outcome State Fault Refusal :=
  let c := s.timing.clock
  let v := min value 5999999
  let v := match c.direction with
    | .down => v
    | .up => min v c.preset
  carryOut (.clockSet value) s (s.clocked { c with value := v }.stopIfSpent)

/-- CLOCK_MODE (R64). -/
def execClockMode (mode direction threshold : Nat) (s : State) : Host.Outcome State Fault Refusal :=
  let c := s.timing.clock
  carryOut (.clockMode mode direction threshold) s <|
    match clockModeOf mode, directionOf direction with
    | some m, some d =>
      if d ≠ c.direction ∧ c.run = .running then .refused .wrongState
      else
        let c1 := { c with mode := m, direction := d, threshold := min threshold 600000 / 100 * 100 }
        s.clocked (if d = c.direction then c1 else { c1 with value := c1.startValue, run := .stopped })
    | _, _ => .refused .badArgument

/-- SET_PRESET (R65). -/
def execSetPreset (preset : Nat) (s : State) : Host.Outcome State Fault Refusal :=
  let c := s.timing.clock
  let c1 := { c with preset := min preset 5999999 }
  carryOut (.setPreset preset) s <|
    match c.direction with
    | .down => s.clocked c1
    | .up => s.clocked { c1 with value := min c.value c1.preset }.stopIfSpent

/-- NEXT_PERIOD (R66). -/
def execNextPeriod (s : State) : Host.Outcome State Fault Refusal :=
  let t := s.timing
  let period := min 9 (t.clock.period + 1)
  let play := { t.play with value := t.play.preset, running := if t.play.mode = .free then false else t.play.running }
  carryOut .nextPeriod s <|
    s.timed { t with clock := { t.clock with period := period, value := t.clock.startValue, run := .stopped }, play := play }
      ⟨[.periodStart period], []⟩

/-- SET_CONTACT (R67). -/
def execSetContact (contact polarity : Nat) (s : State) : Host.Outcome State Fault Refusal :=
  carryOut (.setContact contact polarity) s <|
    match contactOf contact, polarityOf polarity with
    | some .run, some p => s.timed { s.timing with runFilter := ⟨p, none, 0, none⟩ } Raised.none
    | some .play, some p => s.timed { s.timing with playFilter := ⟨p, none, 0, none⟩ } Raised.none
    | _, _ => .refused .badArgument

/-! ### Commands of the play clock (R70) -/

/-- A command that changes the play clock alone and raises nothing. -/
def State.played (s : State) (p : PlayClock) : Taken := s.timed { s.timing with play := p } Raised.none

/-- PLAY_MODE (R70). -/
def execPlayMode (mode preset : Nat) (s : State) : Host.Outcome State Fault Refusal :=
  carryOut (.playMode mode preset) s <|
    match playModeOf mode with
    | some m => s.played { s.timing.play with mode := m, preset := min preset 99999, running := false }
    | none => .refused .badArgument

/-- PLAY_START (R70). -/
def execPlayStart (s : State) : Host.Outcome State Fault Refusal :=
  let p := s.timing.play
  carryOut .playStart s <|
    if p.mode = .linked ∨ p.value = 0 then .refused .wrongState else s.played { p with running := true }

/-- PLAY_STOP (R70). -/
def execPlayStop (s : State) : Host.Outcome State Fault Refusal :=
  let p := s.timing.play
  carryOut .playStop s <| if p.mode = .linked then .refused .wrongState else s.played { p with running := false }

/-- PLAY_SET (R70). -/
def execPlaySet (value : Nat) (s : State) : Host.Outcome State Fault Refusal :=
  let p := s.timing.play
  let v := min value 99999
  carryOut (.playSet value) s <|
    s.played { p with value := v, running := if p.mode = .free ∧ v = 0 then false else p.running }

/-- PLAY_RESET (R70). -/
def execPlayReset (s : State) : Host.Outcome State Fault Refusal :=
  carryOut .playReset s (s.played s.timing.play.reset)

/-! ### Commands of the penalty lists (R75-R77) -/

/-- A command that changes one team's record. -/
def State.teamed (s : State) (team : Nat) (x : Team) (raised : Raised) : Taken :=
  s.timed (s.timing.setTeam team x) raised

/-- PENALTY_ADD (R75). -/
def execPenaltyAdd (team player time : Nat) (s : State) : Host.Outcome State Fault Refusal :=
  let t := s.timing.team team
  carryOut (.penaltyAdd team player time) s <|
    if 1 < team ∨ 99 < player then .refused .badArgument
    else if 8 ≤ t.penalties.length then .refused .noRoom
    else
      s.teamed team
        ({ t with penalties := t.penalties ++ [⟨player, clamp 1000 600000 time, none⟩] } : Team).filled Raised.none

/-- PENALTY_CANCEL (R76). -/
def execPenaltyCancel (team player : Nat) (s : State) : Host.Outcome State Fault Refusal :=
  let t := s.timing.team team
  carryOut (.penaltyCancel team player) s <|
    if 1 < team ∨ 99 < player then .refused .badArgument
    else if t.penalties.any (·.player == player) then
      s.teamed team ({ t with penalties := t.penalties.eraseP (·.player == player) } : Team).filled Raised.none
    else .refused .notFound

/-- PENALTY_CLEAR (R76). -/
def execPenaltyClear (team : Nat) (s : State) : Host.Outcome State Fault Refusal :=
  carryOut (.penaltyClear team) s <|
    if 1 < team then .refused .badArgument
    else s.teamed team { s.timing.team team with penalties := [] } Raised.none

/-- The first entry at a start position loses it. -/
def stopFirst (position : Nat) : List Penalty → List Penalty
  | [] => []
  | q :: qs => if q.start = some position then { q with start := none } :: qs else q :: stopFirst position qs

/-- The RUNNING entry with the latest start position becomes WAITING, in its place and with its remaining time. -/
def demoteOne (ps : List Penalty) : List Penalty := stopFirst (lastStart ps - 1) ps

/-- The RUNNING entries with the latest start positions become WAITING until the limit is met (R77). -/
def demote (limit : Nat) (ps : List Penalty) : List Penalty := Nat.repeat demoteOne (runningCount ps - limit) ps

/-- SET_CONCURRENCY (R77). -/
def execSetConcurrency (team limit : Nat) (s : State) : Host.Outcome State Fault Refusal :=
  let t := s.timing.team team
  let n := clamp 1 3 limit
  carryOut (.setConcurrency team limit) s <|
    if 1 < team then .refused .badArgument
    else if n < runningCount t.penalties then
      s.teamed team { t with limit := n, penalties := demote n t.penalties } Raised.none
    else s.teamed team ({ t with limit := n } : Team).filled Raised.none

/-! ### Commands of the score record (R79) -/

/-- SCORE_SET (R79). -/
def execScoreSet (team score : Nat) (s : State) : Host.Outcome State Fault Refusal :=
  carryOut (.scoreSet team score) s <|
    if 1 < team then .refused .badArgument
    else s.teamed team { s.timing.team team with score := min score 999 } Raised.none

/-- SCORE_ADD (R79). -/
def execScoreAdd (team : Nat) (delta : Int) (s : State) : Host.Outcome State Fault Refusal :=
  let t := s.timing.team team
  let score := (clampInt 0 999 ((t.score : Int) + clampInt (-9) 9 delta)).toNat
  carryOut (.scoreAdd team delta) s <|
    if 1 < team then .refused .badArgument
    else s.teamed team { t with score := score } (if t.score < score then Raised.mk [.scoreUp team] [] else Raised.none)

/-- SET_TIMEOUTS (R79). -/
def execSetTimeouts (team count : Nat) (s : State) : Host.Outcome State Fault Refusal :=
  carryOut (.setTimeouts team count) s <|
    if 1 < team then .refused .badArgument
    else s.teamed team { s.timing.team team with timeouts := min count 9 } Raised.none

/-- TIMEOUT (R79). -/
def execTimeout (team : Nat) (s : State) : Host.Outcome State Fault Refusal :=
  let t := s.timing.team team
  carryOut (.timeout team) s <|
    if 1 < team then .refused .badArgument
    else if t.timeouts = 0 then .refused .wrongState
    else s.teamed team { t with timeouts := t.timeouts - 1 } (Raised.mk [.timeout team] [])

end Sys2Proof.Machine
end

