-- ==== Sys2Proof/Machine/Render.lean ====
section
/-! DEFINITION. The Render Engine (chapter 3): windows, text runs, fonts, the render queue, render jobs, flips and the
ticker scroll, and its commands. -/

namespace Sys2Proof.Machine

open Sys2Proof

/-! ### The render queue (R51) -/

/-- The record of a window. -/
def RenderEngine.window (r : RenderEngine) (n : Nat) : Window := tget r.windows n Window.blank

/-- The engine with one window's record replaced. -/
def RenderEngine.setWindow (r : RenderEngine) (n : Nat) (w : Window) : RenderEngine :=
  { r with windows := tset r.windows n w }

/-- The window is being rendered. -/
def RenderEngine.rendering (r : RenderEngine) (n : Nat) : Bool :=
  match r.job with
  | none => false
  | some j => j.window == n

/-- A render request for a window (R51): ignored, merged, marking the window being rendered dirty, or appended. -/
def RenderEngine.request (r : RenderEngine) (n : Nat) : RenderEngine :=
  if (r.window n).config.isNone then r
  else if r.queue.contains n then r
  else if r.rendering n then r.setWindow n { r.window n with dirty := true }
  else { r with queue := r.queue ++ [n] }

/-- Render requests for every window that meets `f`, in ascending window number. -/
def RenderEngine.requestAll (r : RenderEngine) (f : Window → Bool) : RenderEngine :=
  (List.range 16).foldl (fun e n => if f (e.window n) then e.request n else e) r

/-- The kind of a configured window. -/
def Window.kind (w : Window) : Option WindowKind := w.config.map (·.kind)

/-- A window has a present run that shows a display field (R52). -/
def Window.shows (w : Window) (f : DisplayField) : Bool :=
  w.runs.toList.any fun r => match r with
    | some t => t.source == .display f
    | none => false

/-- A field notice (R52): every configured TEXT window with a run showing the field is requested. -/
def RenderEngine.notice (r : RenderEngine) (f : DisplayField) : RenderEngine :=
  r.requestAll fun w => w.kind == some .text && w.shows f

/-- New ticker content for a window (R55): it replaces the old and requests the window. -/
def RenderEngine.handContent (r : RenderEngine) (n : Nat) (c : Option Content) : RenderEngine :=
  (r.setWindow n { r.window n with content := c }).request n

/-- FIELD_NOTICE (R52): the oldest field notice on its way arrives; nothing where none is. -/
def execFieldNotice (s : State) : Host.Outcome State Fault Refusal :=
  match s.transit.notices with
  | [] => .next s
  | f :: rest => .next ((s.setRender (s.render.notice f)).setTransit { s.transit with notices := rest })

/-! ### Entering the engine's operations (R53, R156) -/

/-- The engine's operations entered as the operation queue has room. -/
def State.renderEnter (s : State) : State :=
  if s.render.toEnter.isEmpty then s
  else
    let p := s.scheduler.enterMany .render s.render.toEnter
    (s.setRender { s.render with toEnter := p.1 }).setScheduler p.2

/-! ### Fonts (R46, R47, R184) -/

/-- The beats of a font's index table. -/
def tablePieces (base count : Nat) : List (Nat × Nat) :=
  let c := coveringBeats base (16 * count)
  transferPieces c.1 c.2

/-- A waiting LOAD-FONT begins: the index is emptied, base and default advance take their values, the table is fetched
(R47). -/
def State.fontBegin (s : State) : State :=
  match s.render.load with
  | none => s
  | some l =>
    if l.loading || s.render.job.isSome then s
    else
      let ps := tablePieces l.base l.count
      let ops := ps.zipIdx.map fun p => newRead (.fontRead l.number p.2) .general p.1.1 p.1.2
      (s.setRender { s.render with
        glyphs := []
        fontBase := some l.base
        advance := l.advance
        load := some { l with loading := true, piecesLeft := ps.length }
        toEnter := s.render.toEnter ++ ops }).renderEnter

/-- The index record in 16 bytes (Table 11-5). -/
def indexRecord (bs : List Byte) : Glyph :=
  ⟨field bs 0 2, field bs 2 1, field bs 3 1, field bs 4 1, field bs 5 1, field bs 8 4, field bs 6 2⟩

/-- A record is entered when its fields lie in Table 3-3, its code is new to this load and its stream ends within frame
DRAM (R47). -/
def Glyph.admitted (g : Glyph) (base : Nat) (entered : List Glyph) : Bool :=
  g.code ≤ 1023 && 1 ≤ g.width && g.width ≤ 64 && 1 ≤ g.height && g.height ≤ 96 && g.top ≤ 127 && g.advance ≤ 96 &&
    g.length ≤ 3072 && (glyphOf entered g.code).isNone && base + g.offset + g.length ≤ Config.dramBytes

/-- The records of a table entered in table order. -/
def enterRecords (base : Nat) (records : List Glyph) : List Glyph :=
  records.foldl (fun acc g => if g.admitted base acc then acc ++ [g] else acc) []

/-- The records of the table a load has fetched, in table order. -/
def FontLoad.records (l : FontLoad) : List Glyph :=
  let bs := (tablePieces l.base l.count).zipIdx.flatMap fun p => (l.got.lookup p.2).getD []
  (List.range l.count).map fun k => indexRecord (slice bs (16 * k) 16)

/-- FONT_LOAD_FINISH (R47): with the whole table fetched, the records are entered or skipped, TEXT and TICKER windows are
requested and the Command Reader is released; nothing before. -/
def execFontLoadFinish (s : State) : Host.Outcome State Fault Refusal :=
  match s.render.load with
  | none => .next s
  | some l =>
    if l.loading && l.piecesLeft == 0 then
      let glyphs := enterRecords l.base l.records
      let r := RenderEngine.requestAll { s.render with glyphs := glyphs, load := none }
        fun w => w.kind == some WindowKind.text || w.kind == some WindowKind.ticker
      let res : CommandResult := .done glyphs.length (l.count - glyphs.length)
      let stage := match s.reader.stage with
        | .carrying (.loadFont _ _ _) => CommandStage.ended res
        | st => st
      .next ((s.setRender r).setReader { s.reader with lastResult := some res, stage := stage })
    else .next s

/-- LOAD_FONT (R47). -/
def execLoadFont (base count advance : Nat) (s : State) : Host.Outcome State Fault Refusal :=
  carryOut (.loadFont base count advance) s <|
    if base % 32 ≠ 0 ∨ 1024 < count ∨ Config.dramBytes < base + 16 * count then .refused .badArgument
    else
      .held (s.setRender { s.render with
        load := some ⟨s.render.nextJob, base, count, min advance 96, false, 0, []⟩
        nextJob := s.render.nextJob + 1 }).fontBegin

/-! ### Render jobs (R53, R54) -/

/-- A text run as a job copies it: a display field gives its current string (R53). -/
def TimingUnit.drawn (t : TimingUnit) (r : TextRun) : DrawnRun :=
  let codes := match r.source with
    | .literal cs => cs
    | .display f => t.string f
  ⟨r.x, r.y, r.box, r.align, r.colour, r.opacity, codes⟩

/-- The address of a window's buffer (R40). -/
def bufferBase (overlay window : Nat) (buffer : Buffer) : Nat :=
  overlay + window * Config.windowBytes + buffer.number * Config.bufferBytes

/-- The job for a window, with the copy of what it draws (R53, R55). -/
def makeJob (r : RenderEngine) (t : TimingUnit) (overlay n : Nat) (w : Window) (cfg : WindowConfig) : Job :=
  let codes := match w.content with
    | some c => c.codes
    | none => []
  let lay : TickerLayout := match cfg.kind with
    | .ticker => tickerLayout cfg.rect.width (textWidth r.glyphs r.advance codes)
    | _ => ⟨cfg.rect.width, false, 0⟩
  let runs := match cfg.kind with
    | .text => (w.runs.toList.filterMap id).map t.drawn
    | .image => []
    | .ticker => [tickerRun (tget w.runs 0 none) lay codes]
  let fontBase := r.fontBase.getD 0
  let ps := planReads cfg.kind cfg runs w.image r.glyphs fontBase
  { number := r.nextJob
    window := n
    config := cfg
    runs := runs
    image := w.image
    content := w.content
    glyphs := r.glyphs
    fontBase := fontBase
    advance := r.advance
    bufferBase := bufferBase overlay n w.front.other
    imageWidth := lay.imageWidth
    strip := lay.strip
    pieces := ps
    got := []
    readsLeft := ps.length
    writing := false
    writesLeft := 0 }

/-- A job whose reads have all completed turns to its writes (R53). -/
def RenderEngine.turnToWrites (r : RenderEngine) : RenderEngine :=
  match r.job with
  | some j =>
    if j.readsLeft = 0 ∧ j.writing = false then
      let ops := j.writes
      { r with job := some { j with writing := true, writesLeft := ops.length }, toEnter := r.toEnter ++ ops }
    else r
  | none => r

/-- RENDER_JOB_START (R53): the idle engine takes the oldest queued window whose back is not READY; nothing where it may
not. -/
def execRenderJobStart (s : State) : Host.Outcome State Fault Refusal :=
  let r := s.render
  match r.overlay, r.queue.find? (fun n => (r.window n).back != .ready) with
  | some o, some n =>
    let w := r.window n
    match w.config with
    | none => .next s
    | some cfg =>
      if r.job.isSome || r.load.isSome then .next s
      else
        let j := makeJob r s.timing o n w cfg
        let ops := j.pieces.zipIdx.map fun p => newRead (.renderRead j.number p.2) .general p.1.addr p.1.beats
        let r1 := { r.setWindow n { w with back := .drawing, dirty := false, jobVoid := false } with
          queue := r.queue.erase n
          job := some j
          nextJob := r.nextJob + 1
          toEnter := r.toEnter ++ ops }
        .next (s.setRender r1.turnToWrites).renderEnter
  | _, _ => .next s

/-- RENDER_JOB_COMPLETE (R54): the last buffer write has completed; nothing before. -/
def execRenderJobComplete (s : State) : Host.Outcome State Fault Refusal :=
  match s.render.job with
  | none => .next s
  | some j =>
    if j.writing && j.writesLeft == 0 then
      let w := s.render.window j.window
      let record : BufferRecord :=
        ⟨j.imageWidth, j.strip, if j.config.kind = .ticker then j.content.map (·.id) else none, j.config.background⟩
      let w1 :=
        if w.jobVoid then { w with back := .empty, dirty := true }
        else
          match w.front with
          | .a => { w with back := .ready, recordB := record }
          | .b => { w with back := .ready, recordA := record }
      let r1 := { s.render.setWindow j.window { w1 with dirty := false } with job := none }
      let r2 := if w1.dirty then { r1 with queue := r1.queue ++ [j.window] } else r1
      .next (s.setRender r2).fontBegin
    else .next s

/-! ### Frame starts (R56, R57) -/

/-- The scroll of a crawling ticker at a frame start, with the strip-passed notice when it reaches the strip's end
(R57). -/
def Window.scrolled (w : Window) (n : Nat) : Window × Option StripPassed :=
  let rec' := w.frontRecord
  if w.kind = some .ticker ∧ w.frontPresent ∧ rec'.strip then
    let next := min (w.scroll + w.speed) rec'.imageWidth
    ({ w with scroll := next },
      if w.scroll < rec'.imageWidth ∧ next = rec'.imageWidth then some ⟨n, rec'.message⟩ else none)
  else (w, none)

/-- What a frame start does to one configured window: the flip or the scroll, then the visibility (R56, R57). -/
def Window.frameStart (w : Window) (n : Nat) : Window × Option Flip × Option StripPassed :=
  if w.config.isNone then (w, none, none)
  else if w.back = .ready then
    let w1 := { w with
      front := w.front.other, frontPresent := true, back := .empty, scroll := 0, shownVisible := w.pendingVisible }
    let rec' := w1.frontRecord
    (w1, if w.kind = some .ticker then some ⟨n, rec'.message, rec'.strip⟩ else none, none)
  else
    let p := w.scrolled n
    ({ p.1 with shownVisible := w.pendingVisible }, none, p.2)

/-- The windows that occlude in the show frame that ends: shown, occluding, fade above 0 (R88). -/
def RenderEngine.occluders (r : RenderEngine) : List Rect :=
  r.windows.toList.filterMap fun w =>
    match w.config with
    | some c => if w.shown && c.occluding && 0 < c.fade then some c.rect else none
    | none => none

/-- RENDER_FRAME_START (R56, R57): the oldest frame start on its way to the engine; nothing where none is. The occluding
windows of the show frame that ends are kept for a verdict that has yet to be given (R88; log 26). The flip notices of several
TICKER windows, and the strip-passed notices, are sent in ascending window number, an order that R56 and R57 leave open (DESIGN CHOICE,
log 52). -/
def execRenderFrameStart (s : State) : Host.Outcome State Fault Refusal :=
  match s.transit.due.render with
  | [] => .next s
  | f :: rest =>
    let ps := s.render.windows.toList.zipIdx.map fun p => Window.frameStart p.1 p.2
    let r := { s.render with
      windows := ⟨((List.range 16).map fun n => ((ps.map (·.1)).getD n Window.blank)).toArray, by simp⟩ }
    let views := if s.transit.due.rotation.contains f then [⟨f, s.render.occluders⟩] else []
    .next ((s.setRender r).setTransit { s.transit with
      due := { s.transit.due with render := rest }
      flips := s.transit.flips ++ ps.filterMap (·.2.1)
      strips := s.transit.strips ++ ps.filterMap (·.2.2)
      views := s.transit.views ++ views })

/-- STRIP_PASSED (R57): the part of a frame start that brings a crawling ticker's offset to its strip's width and sends
the notice; nothing where the scroll would not reach it (log 4). -/
def execStripPassed (window : Nat) (s : State) : Host.Outcome State Fault Refusal :=
  let w := s.render.window window
  let p := w.scrolled window
  match p.2 with
  | some n =>
    if w.back = .ready then .next s
    else
      .next ((s.setRender (s.render.setWindow window p.1)).setTransit
        { s.transit with strips := s.transit.strips ++ [n] })
  | none => .next s

/-! ### Commands (R40-R45) -/

/-- A command that changes the Render Engine alone. -/
def State.rendered (s : State) (r : RenderEngine) : Taken := .done (s.setRender r) 0 0

/-- SET_OVERLAY_STORE (R40). -/
def execSetOverlayStore (base : Nat) (s : State) : Host.Outcome State Fault Refusal :=
  carryOut (.setOverlayStore base) s <|
    if base % Config.windowBytes ≠ 0 ∨ Config.dramBytes < base + Config.overlayBytes ∨
        s.hitsAperture base Config.overlayBytes ∨ s.hitsPool base Config.overlayBytes then .refused .badArgument
    else if s.render.job.isSome then .refused .inUse
    else
      let clear := fun w : Window =>
        if w.config.isSome then { w with frontPresent := false, back := .empty, scroll := 0 } else w
      let r : RenderEngine := { s.render with overlay := some base, windows := tmap clear s.render.windows }
      s.rendered (r.requestAll fun w => w.config.isSome)

/-- The window record after a SET-WINDOW that is taken (R41). -/
def Window.configured (w : Window) (rendering : Bool) (cfg : WindowConfig) : Window :=
  match w.config with
  | none =>
    { w with
      config := some cfg, pendingVisible := false, shownVisible := false, frontPresent := false, back := .empty,
      runs := Vector.replicate 4 none, image := none, content := none, scroll := 0 }
  | some old =>
    if old.rect.width = cfg.rect.width ∧ old.rect.height = cfg.rect.height ∧ old.kind = cfg.kind then
      { w with config := some cfg }
    else
      let w1 := { w with
        config := some cfg, frontPresent := false, back := .empty, scroll := 0,
        jobVoid := if rendering then true else w.jobVoid }
      if old.kind = cfg.kind then w1 else { w1 with runs := Vector.replicate 4 none, image := none, content := none }

/-- SET_WINDOW (R41). -/
def execSetWindow (window x y width height z fade : Nat) (occluding : Bool) (background kind : Nat) (s : State) :
    Host.Outcome State Fault Refusal :=
  carryOut (.setWindow window x y width height z fade occluding background kind) s <|
    if s.render.overlay.isNone then .refused .wrongState
    else
      match windowKindOf kind with
      | none => .refused .badArgument
      | some k =>
        if 15 < window ∨ 4095 < x ∨ 2159 < y ∨ width = 0 ∨ 8192 < width ∨ height = 0 ∨ 512 < height ∨ 15 < z ∨
            1048576 < width * height ∨ (k = .ticker ∧ 128 < height) then .refused .badArgument
        else
          let cfg : WindowConfig := ⟨⟨x, y, width, height⟩, z, min fade 255, occluding, pixelOf background, k⟩
          let w := (s.render.window window).configured (s.render.rendering window) cfg
          s.rendered ((s.render.setWindow window w).request window)

/-- SHOW_WINDOW (R42). -/
def execShowWindow (window : Nat) (s : State) : Host.Outcome State Fault Refusal :=
  carryOut (.showWindow window) s <|
    if 15 < window then .refused .badArgument
    else if (s.render.window window).config.isNone then .refused .wrongState
    else s.rendered (s.render.setWindow window { s.render.window window with pendingVisible := true })

/-- HIDE_WINDOW (R42). -/
def execHideWindow (window : Nat) (s : State) : Host.Outcome State Fault Refusal :=
  carryOut (.hideWindow window) s <|
    if 15 < window then .refused .badArgument
    else s.rendered (s.render.setWindow window { s.render.window window with pendingVisible := false })

/-- SET_FADE (R43). -/
def execSetFade (window fade : Nat) (s : State) : Host.Outcome State Fault Refusal :=
  carryOut (.setFade window fade) s <|
    if 15 < window then .refused .badArgument
    else
      match (s.render.window window).config with
      | none => .refused .wrongState
      | some c =>
        s.rendered (s.render.setWindow window
          { s.render.window window with config := some { c with fade := min fade 255 } })

/-- SET_RUN (R44). A window number above 15 names no window: BAD-ARGUMENT (DEDUCED from R173, unsafe: log 18). -/
def execSetRun (window run x y box align colour opacity kind team line : Nat) (payload : List Byte) (s : State) :
    Host.Outcome State Fault Refusal :=
  let w := s.render.window window
  carryOut (.setRun window run x y box align colour opacity kind team line payload) s <|
    if 15 < window then .refused .badArgument
    else if w.kind = none ∨ w.kind = some .image then .refused .wrongState
    else
      match alignOf align, runSourceOf kind team line payload with
      | some a, some src =>
        if 3 < run ∨ (w.kind = some .ticker ∧ 0 < run) ∨ 8191 < x ∨ 511 < y ∨ box = 0 ∨ 8192 < box then
          .refused .badArgument
        else
          let t : TextRun := ⟨x, y, box, a, pixelOf colour, min opacity 255, src⟩
          s.rendered ((s.render.setWindow window { w with runs := tset w.runs run (some t) }).request window)
      | _, _ => .refused .badArgument

/-- CLEAR_RUN (R44; log 19). -/
def execClearRun (window run : Nat) (s : State) : Host.Outcome State Fault Refusal :=
  let w := s.render.window window
  carryOut (.clearRun window run) s <|
    if 15 < window ∨ 3 < run then .refused .badArgument
    else s.rendered ((s.render.setWindow window { w with runs := tset w.runs run none }).request window)

/-- SET_IMAGE (R45; log 18). -/
def execSetImage (window addr pitch width height : Nat) (s : State) : Host.Outcome State Fault Refusal :=
  let w := s.render.window window
  carryOut (.setImage window addr pitch width height) s <|
    if 15 < window then .refused .badArgument
    else if w.kind ≠ some .image then .refused .wrongState
    else if addr % 32 ≠ 0 ∨ pitch % 32 ≠ 0 ∨ 65536 < pitch ∨ width = 0 ∨ 8192 < width ∨ pitch < width * 4 ∨
        height = 0 ∨ 512 < height ∨ Config.dramBytes < addr + height * pitch then .refused .badArgument
    else
      s.rendered ((s.render.setWindow window { w with image := some ⟨addr, pitch, width, height⟩ }).request window)

end Sys2Proof.Machine
end

