-- ==== Sys2Proof/Machine/Messages.lean ====
section
/-! DEFINITION. The Message Unit (chapter 8): the message queue, moderation, the ticker's phases, selection, notices, the frame
start, and its commands. -/

namespace Sys2Proof.Machine

open Sys2Proof

/-! ### The queue -/

/-- The message of an id. -/
def MessageUnit.find (u : MessageUnit) (id : Nat) : Option Message := u.queue.find? (·.id == id)

/-- The unit with the message of an id changed in its place. -/
def MessageUnit.change (u : MessageUnit) (id : Nat) (f : Message → Message) : MessageUnit :=
  { u with queue := u.queue.map fun m => if m.id = id then f m else m }

/-- The shows a message has made (R146). -/
def Message.shows (m : Message) : Nat := m.reps - m.showsLeft

/-- A message leaves the queue with its MESSAGE report (R146). -/
def State.messageLeaves (s : State) (m : Message) (final : FinalState) (frame : FrameNo) : State :=
  (s.setMessages { s.messages with queue := s.messages.queue.filter fun q => q.id != m.id }).sendReports
    [.message m.id final m.shows frame]

/-- A message approved: its countdown is loaded and runs, or stays stopped for an expiry of 0 (R144). -/
def Message.approved (m : Message) : Message :=
  { m with state := .approved, countdown := if m.expiry = 0 then none else some m.expiry }

/-! ### The ticker -/

/-- The Message Unit given a phase. -/
def State.setPhase (s : State) (p : TickerPhase) : State := s.setMessages { s.messages with phase := p }

/-- A message on show returns to APPROVED in its place, its shows left and its countdown as they were (R147, R151). -/
def State.interrupt (s : State) : State :=
  match s.messages.phase with
  | .showing id _ _ => s.setMessages (s.messages.change id fun m => { m with state := .approved })
  | .detached => s
  | .free => s
  | .preparing _ => s

/-- The window is configured with kind TICKER. -/
def State.isTicker (s : State) (n : Nat) : Bool := (s.render.window n).kind == some .ticker

/-- Of two APPROVED messages in posting order, the one a selection prefers (R148). -/
def preferred (best : Option Message) (m : Message) : Option Message :=
  match best with
  | none => some m
  | some b => if b.priority < m.priority then some m else some b

/-- The message a selection chooses (R148). -/
def MessageUnit.best (u : MessageUnit) : Option Message :=
  (u.queue.filter fun m => m.state == .approved).foldl preferred none

/-- Content handed to the ticker window; the last content follows it (R148). -/
def State.handTicker (s : State) (c : Option Content) : State :=
  match s.messages.window with
  | none => s
  | some n =>
    (s.setRender (s.render.handContent n c)).setMessages { s.messages with lastContent := c.map (·.id) }

/-- A selection, made when the phase is FREE at the end of an arrival (R148). -/
def State.select (s : State) : State :=
  match s.messages.phase with
  | .free =>
    match s.messages.best with
    | some m => (s.handTicker (some ⟨m.id, m.text⟩)).setPhase (.preparing m.id)
    | none => if s.messages.lastContent.isSome then s.handTicker none else s
  | .detached => s
  | .preparing _ => s
  | .showing _ _ _ => s

/-- A show ends and uses one repeat (R150). -/
def State.endShow (s : State) (id : Nat) (frame : FrameNo) : State :=
  let s1 := s.setPhase .free
  match s.messages.find id with
  | none => s1
  | some m =>
    let m1 := { m with showsLeft := m.showsLeft - 1, state := MessageState.approved }
    if m1.showsLeft = 0 then s1.messageLeaves m1 .done frame
    else s1.setMessages (s1.messages.change id fun _ => m1)

/-! ### Notices (R149, R150) -/

/-- The form a strip flag names. -/
def formOf (strip : Bool) : ShowForm := if strip then .crawl else .static

/-- A flip notice handled (R149). -/
def State.flipped (s : State) (n : Flip) : State :=
  if s.messages.window ≠ some n.window then s
  else
    match s.messages.phase with
    | .preparing id =>
      if n.message = some id then
        (s.setMessages (s.messages.change id fun m => { m with state := .showing })).setPhase
          (.showing id (formOf n.strip) s.classifier.frame)
      else s
    | .showing id form begun =>
      if n.message = some id then
        s.setPhase (.showing id (formOf n.strip)
          (if form = .crawl ∧ n.strip = false then s.classifier.frame else begun))
      else s
    | .detached => s
    | .free => s

/-- A strip-passed notice handled (R150). -/
def State.stripEnded (s : State) (n : StripPassed) : State :=
  match s.messages.phase with
  | .showing id .crawl _ =>
    if s.messages.window = some n.window ∧ n.message = some id then s.endShow id s.classifier.frame else s
  | .showing _ .static _ => s
  | .detached => s
  | .free => s
  | .preparing _ => s

/-- FLIP_NOTICE (R149): the oldest flip notice on its way arrives; nothing where none is. -/
def execFlipNotice (s : State) : Host.Outcome State Fault Refusal :=
  match s.transit.flips with
  | [] => .next s
  | n :: rest => .next ((s.setTransit { s.transit with flips := rest }).flipped n).select

/-- STRIP_PASSED_NOTICE (R150): the oldest strip-passed notice on its way arrives; nothing where none is. -/
def execStripPassedNotice (s : State) : Host.Outcome State Fault Refusal :=
  match s.transit.strips with
  | [] => .next s
  | n :: rest => .next ((s.setTransit { s.transit with strips := rest }).stripEnded n).select

/-! ### Frame starts (R152) -/

/-- Step 1: a ticker window found no longer to be a TICKER is detached. -/
def State.checkTicker (s : State) : State :=
  match s.messages.window with
  | none => s
  | some n =>
    if s.isTicker n then s
    else
      let s1 := s.interrupt
      s1.setMessages { s1.messages with window := none, phase := .detached, lastContent := none }

/-- A message whose countdown runs: it is APPROVED (R152 step 2). -/
def Message.counting (m : Message) : Bool := m.state == .approved && m.countdown.isSome

/-- A message counted down at a frame start. -/
def Message.counted (m : Message) : Message :=
  if m.counting then { m with countdown := m.countdown.map (· - 1) } else m

/-- A message that expires at its next count. -/
def Message.expires (m : Message) : Bool := m.counting && m.counted.countdown == some 0

/-- Messages leave EXPIRED, in posting order; a candidate that expires frees the ticker (R152 step 2). -/
def State.expireAll (s : State) (frame : FrameNo) (ms : List Message) : State :=
  ms.foldl
    (fun t m =>
      let t1 := t.messageLeaves m .expired frame
      if t1.messages.phase = .preparing m.id then t1.setPhase .free else t1)
    s

/-- Step 2: every running countdown falls by 1, and those at 0 expire. -/
def State.countExpiry (s : State) (frame : FrameNo) : State :=
  let gone := s.messages.queue.filter Message.expires
  (s.setMessages { s.messages with queue := s.messages.queue.map Message.counted }).expireAll frame gone

/-- Step 3: a STATIC show that has reached its minimum show ends (R150). Frame numbers count modulo 2^48, and their
difference is read as signed (log 40). -/
def State.staticEnd (s : State) (frame : FrameNo) : State :=
  match s.messages.phase with
  | .showing id .static begun =>
    match s.messages.find id with
    | none => s
    | some m => if (m.minShow : Int) ≤ (frame - begun).toInt then s.endShow id frame else s
  | .showing _ .crawl _ => s
  | .detached => s
  | .free => s
  | .preparing _ => s

/-- The id of the message on show (R178). -/
def MessageUnit.shownId (u : MessageUnit) : Option Nat :=
  match u.phase with
  | .showing id _ _ => some id
  | .detached => none
  | .free => none
  | .preparing _ => none

/-- MESSAGE_FRAME_START (R152): the oldest frame start on its way to the unit; nothing where none is. -/
def execMessageFrameStart (s : State) : Host.Outcome State Fault Refusal :=
  match s.transit.due.message with
  | [] => .next s
  | f :: rest =>
    let s1 := s.setTransit { s.transit with due := { s.transit.due with message := rest } }
    let s2 := (((s1.checkTicker).countExpiry f).staticEnd f).select
    .next (s2.setWriter { s2.writer with tickers := s2.writer.tickers ++ [s2.messages.shownId] })

/-- MESSAGE_EXPIRY (R152): the APPROVED messages whose countdown's last count is due expire; the other countdowns stand
(log 4). -/
def execMessageExpiry (s : State) : Host.Outcome State Fault Refusal :=
  let s1 := s.checkTicker
  .next (s1.expireAll s1.classifier.frame ((s1.messages.queue.filter Message.expires).map Message.counted)).select

/-- STATIC_SHOW_END (R150, R152): a STATIC show that has reached its minimum show at the current frame number ends (log 4). -/
def execStaticShowEnd (s : State) : Host.Outcome State Fault Refusal :=
  .next (s.checkTicker.staticEnd s.classifier.frame).select

/-! ### Commands -/

/-- The number of a message's state in a DONE report: HELD 0, APPROVED 1 (R182). -/
def MessageState.number : MessageState → Nat
  | .held => 0
  | .approved => 1
  | .showing => 2

/-- The phase after the arrival of a priority-3 message (R151). -/
def State.preemptTicker (s : State) : State :=
  match s.messages.phase with
  | .showing id _ _ =>
    match s.messages.find id with
    | some m => if m.priority < 3 then (s.interrupt).setPhase .free else s
    | none => s
  | .preparing id =>
    match s.messages.find id with
    | some m => if m.priority < 3 then s.setPhase .free else s
    | none => s
  | .detached => s
  | .free => s

/-- POST_MESSAGE (R143, R151): the results are the id and the state the message holds at the end. -/
def execPostMessage (id priority reps minShow expiry : Nat) (payload : List Byte) (s : State) :
    Host.Outcome State Fault Refusal :=
  carryOut (.postMessage id priority reps minShow expiry payload) s <|
    match messageTextOf payload with
    | none => .refused .badArgument
    | some text =>
      if 65535 < id ∨ 3 < priority then .refused .badArgument
      else if (s.messages.find id).isSome then .refused .inUse
      else if 32 ≤ s.messages.queue.length then .refused .noRoom
      else
        let n := clamp 1 9 reps
        let m : Message := ⟨id, text, priority, n, clamp 1 3600 minShow, min expiry 216000, .held, n, none⟩
        let post := fun q : Message => s.setMessages { s.messages with queue := s.messages.queue ++ [q] }
        if priority = 3 then .done ((post m.approved).preemptTicker).select id MessageState.approved.number
        else .done (post m).select id MessageState.held.number

/-- APPROVE_MESSAGE (R144). -/
def execApproveMessage (id : Nat) (s : State) : Host.Outcome State Fault Refusal :=
  carryOut (.approveMessage id) s <|
    match s.messages.find id with
    | none => .refused .notFound
    | some m =>
      if m.state ≠ .held then .refused .wrongState
      else .done (s.setMessages (s.messages.change id Message.approved)).select 0 0

/-- REJECT_MESSAGE (R145). -/
def execRejectMessage (id : Nat) (s : State) : Host.Outcome State Fault Refusal :=
  carryOut (.rejectMessage id) s <|
    match s.messages.find id with
    | none => .refused .notFound
    | some m =>
      if m.state ≠ .held then .refused .wrongState
      else .done (s.messageLeaves m .rejected s.classifier.frame).select 0 0

/-- The message is the candidate or is on show: its leaving frees the ticker (R145). -/
def TickerPhase.holds (p : TickerPhase) (id : Nat) : Bool :=
  match p with
  | .preparing n => n == id
  | .showing n _ _ => n == id
  | .detached => false
  | .free => false

/-- WITHDRAW_MESSAGE (R145). -/
def execWithdrawMessage (id : Nat) (s : State) : Host.Outcome State Fault Refusal :=
  carryOut (.withdrawMessage id) s <|
    match s.messages.find id with
    | none => .refused .notFound
    | some m =>
      let s1 := s.messageLeaves m .withdrawn s.classifier.frame
      .done (if s.messages.phase.holds id then s1.setPhase .free else s1).select 0 0

/-- A window's scroll speed set (R147). -/
def State.setSpeed (s : State) (n speed : Nat) : State :=
  s.setRender (s.render.setWindow n { s.render.window n with speed := speed })

/-- The old ticker given up (R147): nothing where none is named. -/
def State.giveUpTicker (s : State) : State :=
  match s.messages.window with
  | none => s
  | some n =>
    let s1 := s.interrupt
    if s1.isTicker n then s1.setRender (s1.render.handContent n none) else s1

/-- SET_TICKER (R147). R51 names the command among the places render requests come from, and R147 gives it no request but those
that come with content handed to a window: it makes no other (DESIGN CHOICE, unsafe: log 45). A ticker made DETACHED has last content NONE,
also where no content NONE is handed because its window is no TICKER any more (DESIGN CHOICE, unsafe: log 47). -/
def execSetTicker (window speed : Nat) (s : State) : Host.Outcome State Fault Refusal :=
  let v := clamp 1 16 speed
  carryOut (.setTicker window speed) s <|
    match tickerWindowOf window with
    | none => .refused .badArgument
    | some none =>
      let s1 := s.giveUpTicker
      .done (s1.setMessages { s1.messages with window := none, phase := .detached, lastContent := none }) 0 0
    | some (some n) =>
      if s.isTicker n = false then .refused .wrongState
      else if s.messages.window = some n then .done (s.setSpeed n v).select 0 0
      else
        let s1 := s.giveUpTicker.setSpeed n v
        .done (s1.setMessages { s1.messages with window := some n, phase := .free, lastContent := none }).select 0 0

/-! ### The control reset (R154) -/

/-- The unit after a control reset. -/
def MessageUnit.controlReset (_ : MessageUnit) : MessageUnit := MessageUnit.powerOn

end Sys2Proof.Machine
end

