-- ==== Sys2Proof/Machine/Playout.lean ====
section
/-! DEFINITION. The Playout Unit (chapter 7): binding, cropping, cueing, the transport commands and the frame start. A user
request (R123) sent by a command or at an end is handled by the Capture Unit within the same step, in the order sent
(log 5). -/

namespace Sys2Proof.Machine

open Sys2Proof

/-! ### Channel records -/

/-- The unit with one channel's record replaced. -/
def PlayoutUnit.setChannel (p : PlayoutUnit) (c : ChannelId) (x : Channel) : PlayoutUnit :=
  match c with
  | .a => { p with a := x }
  | .b => { p with b := x }

/-- The record of a channel. -/
def State.channel (s : State) (c : ChannelId) : Channel := s.playout.channel c

/-- The state with one channel's record replaced. -/
def State.setChannel (s : State) (c : ChannelId) (x : Channel) : State := s.setPlayout (s.playout.setChannel c x)

/-- The length of a clip; 0 for an empty record (R120). -/
def CaptureUnit.clipLength (u : CaptureUnit) (n : Nat) : Nat :=
  match u.clip n with
  | some c => c.entries.length
  | none => 0

/-- The length of the clip a channel holds. -/
def State.channelLength (s : State) (x : Channel) : Nat :=
  match x.clip with
  | some n => s.capture.clipLength n
  | none => 0

/-- A channel off its clip: IDLE, its speed, end action and crop kept (R136, R138). -/
def Channel.released (x : Channel) : Channel := { x with state := .idle, clip := none, position := 0, countdown := 0 }

/-! ### Binding and cropping -/

/-- BIND_ZONE (R128). -/
def execBindZone (zone channel : Nat) (s : State) : Host.Outcome State Fault Refusal :=
  let z := tget s.compositor.zones zone Zone.unset
  carryOut (.bindZone zone channel) s <|
    match bindingOf channel with
    | none => .refused .badArgument
    | some binding =>
      if 7 < zone then .refused .badArgument
      else if (z.config.map (·.kind)) ≠ some .replay then .refused .wrongState
      else
        .done (s.setCompositor { s.compositor with zones := tset s.compositor.zones zone { z with bound := binding } }) 0 0

/-- SET_CROP (R129). -/
def execSetCrop (channel x y : Nat) (s : State) : Host.Outcome State Fault Refusal :=
  carryOut (.setCrop channel x y) s <|
    match channelOf channel with
    | none => .refused .badArgument
    | some c =>
      if x % 8 ≠ 0 ∨ 4088 < x ∨ 2159 < y then .refused .badArgument
      else .done (s.setChannel c { s.channel c with cropX := x, cropY := y }) 0 0

/-! ### Cueing -/

/-- A channel gives up the clip it holds: marked for release under end action RELEASE, its user removed (R130). -/
def State.giveUp (s : State) (x : Channel) : State :=
  match x.clip with
  | none => s
  | some old => ((if x.endAction = .release then s.markRelease old else s)).removeUser old

/-- A clip put on a channel at a position with an end action (R130). -/
def State.cueOn (s : State) (c : ChannelId) (clip position : Nat) (action : EndAction) : State :=
  let x := s.channel c
  let at' := min position (s.capture.clipLength clip - 1)
  let x1 : Channel := { x with state := .cued, clip := some clip, position := at', countdown := 0, endAction := action }
  if x.clip = some clip then s.setChannel c x1
  else ((s.giveUp x).addUser clip).setChannel c x1

/-- CUE (R130). -/
def execCue (channel clip position endAction : Nat) (s : State) : Host.Outcome State Fault Refusal :=
  carryOut (.cue channel clip position endAction) s <|
    match channelOf channel, endActionOf endAction with
    | some c, some action =>
      if 31 < clip then .refused .badArgument
      else if (s.capture.clip clip).isNone then .refused .notFound
      else .done (s.cueOn c clip position action) 0 0
    | _, _ => .refused .badArgument

/-- The lowest clip number whose record is empty (R131). -/
def CaptureUnit.lowestEmpty (u : CaptureUnit) : Option Nat := (List.range 32).find? fun n => (u.clip n).isNone

/-- A channel played: from CUED with a REPLAY-START event, from PAUSED with none (R132). -/
def State.playOn (s : State) (c : ChannelId) : State :=
  let x := s.channel c
  match x.state with
  | .cued => (s.setChannel c { x with state := .playing, countdown := x.reps }).sendReplay c
  | .paused => s.setChannel c { x with state := .playing, countdown := x.reps }
  | .playing => s
  | .idle => s
  | .held => s

/-! ### Transport -/

/-- PLAY (R132). -/
def execPlay (channel : Nat) (s : State) : Host.Outcome State Fault Refusal :=
  carryOut (.play channel) s <|
    match channelOf channel with
    | none => .refused .badArgument
    | some c =>
      match (s.channel c).state with
      | .idle => .refused .wrongState
      | .held => .refused .wrongState
      | .cued => .done (s.playOn c) 0 0
      | .paused => .done (s.playOn c) 0 0
      | .playing => .done (s.playOn c) 0 0

/-- PAUSE (R133). -/
def execPause (channel : Nat) (s : State) : Host.Outcome State Fault Refusal :=
  carryOut (.pause channel) s <|
    match channelOf channel with
    | none => .refused .badArgument
    | some c =>
      let x := s.channel c
      match x.state with
      | .idle => .refused .wrongState
      | .playing => .done (s.setChannel c { x with state := .paused }) 0 0
      | .cued => .done s 0 0
      | .paused => .done s 0 0
      | .held => .done s 0 0

/-- A position moved by a signed count and held within a clip of a length (R134). -/
def movedPosition (position : Nat) (n : Int) (length : Nat) : Nat :=
  (clampInt 0 ((length : Int) - 1) ((position : Int) + n)).toNat

/-- STEP (R134). -/
def execStep (channel : Nat) (count : Int) (s : State) : Host.Outcome State Fault Refusal :=
  carryOut (.step channel count) s <|
    match channelOf channel with
    | none => .refused .badArgument
    | some c =>
      let x := s.channel c
      let x1 := { x with position := movedPosition x.position (clampInt (-900) 900 count) (s.channelLength x) }
      match x.state with
      | .idle => .refused .wrongState
      | .playing => .refused .wrongState
      | .cued => .done (s.setChannel c x1) 0 0
      | .paused => .done (s.setChannel c x1) 0 0
      | .held => .done (s.setChannel c { x1 with state := .paused }) 0 0

/-- A step argument brought into range: 0 becomes +1 (R135). -/
def clampedStep (n : Int) : Int := if n = 0 then 1 else clampInt (-4) 4 n

/-- SET_SPEED (R135). -/
def execSetSpeed (channel : Nat) (step : Int) (reps : Nat) (s : State) : Host.Outcome State Fault Refusal :=
  carryOut (.setSpeed channel step reps) s <|
    match channelOf channel with
    | none => .refused .badArgument
    | some c =>
      let x := s.channel c
      let n := clamp 1 8 reps
      .done (s.setChannel c { x with step := clampedStep step, reps := n, countdown := min x.countdown n }) 0 0

/-- STOP (R136). -/
def execStop (channel : Nat) (s : State) : Host.Outcome State Fault Refusal :=
  carryOut (.stop channel) s <|
    match channelOf channel with
    | none => .refused .badArgument
    | some c =>
      let x := s.channel c
      match x.clip with
      | none => .done s 0 0
      | some clip => .done ((s.removeUser clip).setChannel c x.released) 0 0

/-! ### Frame starts (R137-R139) -/

/-- The end action of a channel that would move past an end to `next`, with its PLAYOUT report (R138, R139). -/
def State.channelEnd (s : State) (c : ChannelId) (clip : Nat) (next : Int) (length : Nat) (frame : FrameNo) : State :=
  let x := s.channel c
  let back : Bool := decide (x.step < 0)
  match x.endAction with
  | .hold =>
    let at' := if back then 0 else length - 1
    (s.setChannel c { x with position := at', state := .held, countdown := 0 }).sendReports
      [.playout c clip .hold back at' frame]
  | .loop =>
    let at' := (next % (length : Int)).toNat
    (s.setChannel c { x with position := at', countdown := x.reps }).sendReports [.playout c clip .loop back at' frame]
  | .release =>
    ((((s.sendReports [.playout c clip .release back 0 frame]).markRelease clip).removeUser clip)).setChannel c x.released

/-- A PLAYING channel at countdown 0 moves or reaches an end (R137 step 1, R138). -/
def State.channelMove (s : State) (c : ChannelId) (frame : FrameNo) : State :=
  let x := s.channel c
  match x.clip with
  | none => s
  | some clip =>
    let length := s.channelLength x
    let next : Int := (x.position : Int) + x.step
    if 0 ≤ next ∧ next < (length : Int) then s.setChannel c { x with position := next.toNat, countdown := x.reps }
    else s.channelEnd c clip next length frame

/-- A channel that is still PLAYING counts down (R137 step 2). -/
def State.channelCount (s : State) (c : ChannelId) : State :=
  let x := s.channel c
  if x.state = .playing then s.setChannel c { x with countdown := x.countdown - 1 } else s

/-- A channel's move is due: it is PLAYING with its countdown at 0. -/
def Channel.moveDue (x : Channel) : Bool := x.state == .playing && x.countdown == 0

/-- One channel served at a frame start (R137). -/
def State.serveChannel (s : State) (frame : FrameNo) (c : ChannelId) : State :=
  (if (s.channel c).moveDue then s.channelMove c frame else s).channelCount c

/-- The part a channel gives the status block, taken after the unit's frame start (R178), where R127 has it as it stands when the
block is written (DESIGN CHOICE, unsafe: log 48). -/
def Channel.status (x : Channel) : ChannelStatus := ⟨x.state, x.position⟩

/-- PLAYOUT_FRAME_START (R137): the oldest frame start on its way to the unit; nothing where none is. -/
def execPlayoutFrameStart (s : State) : Host.Outcome State Fault Refusal :=
  match s.transit.due.playout with
  | [] => .next s
  | f :: rest =>
    let s1 := s.setTransit { s.transit with due := { s.transit.due with playout := rest } }
    let s2 := (s1.serveChannel f .a).serveChannel f .b
    .next (s2.setWriter { s2.writer with
      channels := s2.writer.channels ++ [((s2.channel .a).status, (s2.channel .b).status)] })

/-- CHANNEL_MOVE (R137 step 1, R138): the move of one channel whose move is due; nothing where it is not (log 4). The frame
number reported is the current one. -/
def execChannelMove (channel : Nat) (s : State) : Host.Outcome State Fault Refusal :=
  match channelOf channel with
  | none => .next s
  | some c => if (s.channel c).moveDue then .next (s.channelMove c s.classifier.frame) else .next s

/-! ### The control reset (R141) -/

/-- The unit after a control reset. -/
def PlayoutUnit.controlReset (_ : PlayoutUnit) : PlayoutUnit := PlayoutUnit.powerOn

end Sys2Proof.Machine
end

