-- ==== Sys2Proof/Machine/Rotation.lean ====
section
/-! DEFINITION. The Rotation Unit (chapter 5): sponsors, coverage, verdicts, the service of a zone, triggers and features,
segments, and its commands. -/

namespace Sys2Proof.Machine

open Sys2Proof

/-! ### Records -/

/-- The record of a sponsor. -/
def RotationUnit.sponsor (u : RotationUnit) (n : Nat) : Sponsor := tget u.sponsors n Sponsor.unset

/-- The unit with one sponsor's record replaced. -/
def RotationUnit.setSponsor (u : RotationUnit) (n : Nat) (p : Sponsor) : RotationUnit :=
  { u with sponsors := tset u.sponsors n p }

/-- What the unit holds for a zone. -/
def RotationUnit.zone (u : RotationUnit) (z : Nat) : ZoneRotation := tget u.zones z ZoneRotation.powerOn

/-- The unit with what it holds for one zone replaced. -/
def RotationUnit.setZone (u : RotationUnit) (z : Nat) (x : ZoneRotation) : RotationUnit :=
  { u with zones := tset u.zones z x }

/-- A zone table entry. -/
def zoneAt (zs : Vector Zone 8) (z : Nat) : Zone := tget zs z Zone.unset

/-- The zone is enabled and of kind SPONSOR (R84). -/
def Zone.isSponsor (z : Zone) : Bool := z.enabled && (z.config.map (·.kind)) == some .sponsor

/-- A sponsor's art fits a zone (R81). -/
def Sponsor.fits (p : Sponsor) (z : Zone) : Bool :=
  match p.art, z.config with
  | some a, some c => c.rect.width ≤ a.width && c.rect.height ≤ a.height
  | _, _ => false

/-- A sponsor's target for a kind of segment (R81). -/
def Sponsor.target (p : Sponsor) : SegmentKind → Nat
  | .period => p.periodTarget
  | .break' => p.breakTarget

/-- The planned length of a kind of segment (R99). -/
def Segment.plan (g : Segment) : SegmentKind → Nat
  | .period => g.periodPlan
  | .break' => g.breakPlan

/-- The other kind (R100). -/
def SegmentKind.other : SegmentKind → SegmentKind
  | .period => .break'
  | .break' => .period

/-- A count of Table 5-1 raised by 1 and held at its top. -/
def raise (n : Nat) : Nat := countUp Config.topCount n

/-- The sponsor is showing in some zone (R81). -/
def RotationUnit.showing (u : RotationUnit) (sponsor : Nat) : Bool :=
  u.zones.toList.any fun x => x.showing.sponsor == some sponsor

/-! ### Coverage (R85) -/

/-- Beats counted into the line a COUNTING record is at. -/
def Coverage.count (c : Coverage) (beats w : Nat) : Coverage :=
  if w ≤ c.beats + beats then { c with nextLine := c.nextLine + 1, beats := 0 } else { c with beats := c.beats + beats }

/-- A delivery event taken by a coverage record; `w` is the zone's width in beats. A line above the next one breaks the record
whatever kept the next one short: R89 calls a frame INCOMPLETE in which a replay zone covers a part of the sponsor zone, and R85
and Table 5-2 make it BROKEN once a later line arrives above the one that stays short (DESIGN CHOICE, unsafe: log 43). -/
def Coverage.deliver (c : Coverage) (line beats w : Nat) : Coverage :=
  if line = 0 then Coverage.count ⟨true, 0, 0, false⟩ beats w
  else if c.counting = false then c
  else if line = c.nextLine then c.count beats w
  else if line < c.nextLine then c
  else { c with broken := true }

/-- The width of a zone in beats. -/
def Zone.beats (z : Zone) : Nat := ((z.config.map (·.rect.width)).getD 0) / 8

/-- The height of a zone. -/
def Zone.lines (z : Zone) : Nat := (z.config.map (·.rect.height)).getD 0

/-- A delivery event taken by its zone's coverage record, with the zone's width of the moment (R85). -/
def RotationUnit.deliver (u : RotationUnit) (zs : Vector Zone 8) (d : Delivery) : RotationUnit :=
  let x := u.zone d.zone
  u.setZone d.zone { x with coverage := x.coverage.deliver d.line d.beats (zoneAt zs d.zone).beats }

/-- The oldest delivery event on its way, taken by the Rotation Unit. -/
def State.takeDelivery (s : State) : State :=
  match s.transit.deliveries with
  | [] => s
  | d :: rest =>
    (s.setRotation (s.rotation.deliver s.compositor.zones d)).setTransit { s.transit with deliveries := rest }

/-- DELIVERY_EVENT (R85): the oldest delivery event on its way arrives; nothing where none is. -/
def execDeliveryEvent (s : State) : Host.Outcome State Fault Refusal := .next s.takeDelivery

/-- A delivery event was sent before a frame start: it reaches the Rotation Unit before that frame start does (R36). -/
def Delivery.precedes (d : Delivery) (f : FrameNo) : Bool := decide (0 < (f - d.sent).toInt)

/-- The delivery events sent before a frame start, taken oldest first (R36). -/
def State.takeDeliveriesBefore (f : FrameNo) : List Delivery → State → State
  | [], s => s
  | d :: ds, s => if d.precedes f then State.takeDeliveriesBefore f ds s.takeDelivery else s

/-! ### Verdicts (R87, R88) -/

/-- Two rectangles share a pixel. -/
def Rect.meets (p q : Rect) : Bool := overlaps p.x p.width q.x q.width && overlaps p.y p.height q.y q.height

/-- A zone is crossed by one of the windows that occluded in the ending show frame (R88). -/
def Zone.crossed (z : Zone) (occluders : List Rect) : Bool :=
  match z.config with
  | some c => occluders.any c.rect.meets
  | none => false

/-- The effect of a verdict on the showing sponsor (Table 5-2): a broken record comes first (log 43). -/
def Sponsor.judged (p : Sponsor) (c : Coverage) (z : Zone) (crossed isTurn : Bool) : Sponsor :=
  if c.broken then { p with broken := raise p.broken }
  else if c.counting && c.nextLine == z.lines then
    if crossed then { p with occluded := raise p.occluded }
    else if isTurn then { p with rotationCredit := raise p.rotationCredit }
    else { p with featureCredit := raise p.featureCredit }
  else p

/-- One zone judged; its coverage record returns to AWAITING (R87). -/
def RotationUnit.judgeZone (zs : Vector Zone 8) (occluders : List Rect) (u : RotationUnit) (z : Nat) : RotationUnit :=
  let x := u.zone z
  let zone := zoneAt zs z
  let judge := fun (n : Nat) (isTurn : Bool) =>
    u.setSponsor n ((u.sponsor n).judged x.coverage zone (zone.crossed occluders) isTurn)
  let u1 := match x.showing with
    | .idle => u
    | .turn n _ _ => judge n true
    | .feature f => judge f.sponsor false
  u1.setZone z { x with coverage := Coverage.awaiting }

/-- The first step of a frame start (R87). -/
def RotationUnit.verdicts (u : RotationUnit) (zs : Vector Zone 8) (occluders : List Rect) : RotationUnit :=
  (List.range 8).foldl (RotationUnit.judgeZone zs occluders)
    { u with segment := { u.segment with elapsed := raise u.segment.elapsed } }

/-! ### Segments (R100, R101) -/

/-- The EXPOSURE reports of the open segment (R101). -/
def RotationUnit.exposures (u : RotationUnit) : List Report :=
  u.sponsors.toList.zipIdx.filterMap fun q =>
    let p := q.1
    if 1 ≤ p.level ∨ 0 < p.credit then
      some (.exposure q.2 u.segment.kind u.segment.number u.segment.elapsed p.rotationCredit p.featureCredit p.turns
        p.occluded p.broken)
    else none

/-- A sponsor's five counts zeroed (R101). -/
def Sponsor.zeroed (p : Sponsor) : Sponsor :=
  { p with rotationCredit := 0, featureCredit := 0, turns := 0, occluded := 0, broken := 0 }

/-- The number after a segment number (R99). -/
def nextSegmentNumber (n : Nat) : Nat := if 65535 ≤ n then 1 else n + 1

/-- The second step of a frame start: a pending close is made (R101). -/
def RotationUnit.close (u : RotationUnit) : RotationUnit × List Report :=
  match u.segment.pending with
  | none => (u, [])
  | some kind =>
    ({ u with
        sponsors := tmap Sponsor.zeroed u.sponsors
        segment := { u.segment with kind := kind, number := nextSegmentNumber u.segment.number, elapsed := 0, pending := none } },
      u.exposures)

/-- The third step: a hold is in force and counts down, or no hold is in force (R94). -/
def RotationUnit.countHold (u : RotationUnit) : RotationUnit :=
  { u with holdInForce := decide (0 < u.hold), hold := u.hold - 1 }

/-! ### Features (R96-R98) -/

/-- A feature stands before another in a queue: higher level, or the same level and an earlier arrival (R97). -/
def Feature.before (f g : Feature) : Bool := g.level < f.level || (f.level == g.level && f.arrival < g.arrival)

/-- A feature put in its place in a queue (R97). -/
def insertFeature (f : Feature) : List Feature → List Feature
  | [] => [f]
  | g :: gs => if f.before g then f :: g :: gs else g :: insertFeature f gs

/-- The FEATURE report of a feature dropped (R97). -/
def Feature.dropped (f : Feature) (z : Nat) (r : DropReason) : Report := .feature z f.entry f.sponsor f.level r

/-- A feature placed in its zone's queue, the lowest queued feature or itself dropped when the queue is full (R97). -/
def RotationUnit.enqueue (u : RotationUnit) (z : Nat) (f : Feature) : RotationUnit × List Report :=
  let x := u.zone z
  if x.queue.length < 4 then (u.setZone z { x with queue := insertFeature f x.queue }, [])
  else
    match x.queue.getLast? with
    | some g =>
      if g.level < f.level then
        (u.setZone z { x with queue := insertFeature f x.queue.dropLast }, [g.dropped z .queueFull])
      else (u, [f.dropped z .queueFull])
    | none => (u, [f.dropped z .queueFull])

/-- The zone's queue or its FEATURE comes from a trigger entry (R96, merged). -/
def ZoneRotation.holdsEntry (x : ZoneRotation) (entry : Nat) : Bool :=
  x.queue.any (·.entry == entry) || match x.showing with
    | .feature f => f.entry == entry
    | .idle => false
    | .turn _ _ _ => false

/-- A trigger entry fires: its feature is made and offered to its zone (R96). -/
def RotationUnit.fire (u : RotationUnit) (zs : Vector Zone 8) (entry : Nat) (t : Trigger) : RotationUnit × List Report :=
  let f : Feature := ⟨entry, t.sponsor, t.level, t.dwell, 0, u.nextArrival⟩
  let u1 := { u with nextArrival := u.nextArrival + 1 }
  let zone := zoneAt zs t.zone
  if !zone.isSponsor || !(u1.sponsor t.sponsor).fits zone then (u1, [f.dropped t.zone .notShowable])
  else if (u1.zone t.zone).holdsEntry entry then (u1, [])
  else u1.enqueue t.zone f

/-- An event that has arrived: a game event or a REPLAY-START. -/
inductive Arrived where
  | game (e : GameEvent)
  | replayStart (c : ChannelId)
  deriving DecidableEq, Repr

/-- An entry's event kind and argument match an event (R95, R96). -/
def TriggerEvent.matches (t : TriggerEvent) (e : Arrived) : Bool :=
  match t, e with
  | .periodEnd p, .game (.periodEnd q) => p == 0 || p == q
  | .periodStart p, .game (.periodStart q) => p == 0 || p == q
  | .playExpiry, .game .playExpiry => true
  | .scoreUp t, .game (.scoreUp q) => t == q
  | .timeout t, .game (.timeout q) => t == q
  | .replayStart c, .replayStart d => c == d
  | _, _ => false

/-- Every used entry that matches the event fires, in ascending entry number (R96). -/
def RotationUnit.fireAll (u : RotationUnit) (zs : Vector Zone 8) (e : Arrived) : RotationUnit × List Report :=
  (List.range 16).foldl
    (fun acc n =>
      match tget acc.1.triggers n none with
      | some t =>
        if t.event.matches e then
          let p := acc.1.fire zs n t
          (p.1, acc.2 ++ p.2)
        else acc
      | none => acc)
    (u, [])

/-- The close a game event makes pending, if any (R100). -/
def GameEvent.closesInto : GameEvent → Option SegmentKind
  | .periodEnd _ => some .break'
  | .periodStart _ => some .period
  | .playExpiry => none
  | .scoreUp _ => none
  | .timeout _ => none

/-- A close made pending; none leaves what is pending. -/
def RotationUnit.pend (u : RotationUnit) : Option SegmentKind → RotationUnit
  | some k => { u with segment := { u.segment with pending := some k } }
  | none => u

/-- GAME_EVENT (R96, R100): the oldest game event on its way arrives; nothing where none is. -/
def execGameEvent (s : State) : Host.Outcome State Fault Refusal :=
  match s.transit.events with
  | [] => .next s
  | e :: rest =>
    let p := s.rotation.fireAll s.compositor.zones (.game e)
    .next (((s.setRotation (p.1.pend e.closesInto)).setTransit { s.transit with events := rest }).sendReports p.2)

/-- REPLAY_START_EVENT (R96): the oldest REPLAY-START on its way arrives; nothing where none is. -/
def execReplayStartEvent (s : State) : Host.Outcome State Fault Refusal :=
  match s.transit.replays with
  | [] => .next s
  | c :: rest =>
    let p := s.rotation.fireAll s.compositor.zones (.replayStart c)
    .next (((s.setRotation p.1).setTransit { s.transit with replays := rest }).sendReports p.2)

/-! ### Serving a zone (R90-R93, R98) -/

/-- Heads of a zone's queue whose art no longer fits are dropped (R98; log 25). -/
def dropUnfit (fits : Feature → Bool) (z : Nat) : List Feature → List Feature × List Report
  | [] => ([], [])
  | f :: fs =>
    if fits f then (f :: fs, [])
    else
      let p := dropUnfit fits z fs
      (p.1, f.dropped z .notShowable :: p.2)

/-- The zone's queue with unfit heads dropped. -/
def RotationUnit.trimQueue (u : RotationUnit) (zs : Vector Zone 8) (z : Nat) : RotationUnit × List Report :=
  let x := u.zone z
  let p := dropUnfit (fun f => (u.sponsor f.sponsor).fits (zoneAt zs z)) z x.queue
  (u.setZone z { x with queue := p.1 }, p.2)

/-- A sponsor is showing as a FEATURE in a zone other than `z` (R98). -/
def RotationUnit.featuredElsewhere (u : RotationUnit) (z sponsor : Nat) : Bool :=
  (List.range 8).any fun y =>
    y != z && match (u.zone y).showing with
      | .feature f => f.sponsor == sponsor
      | .idle => false
      | .turn _ _ _ => false

/-- The head of a trimmed queue, if it can start (R98). -/
def RotationUnit.starter (u : RotationUnit) (z : Nat) : Option Feature :=
  match (u.zone z).queue with
  | [] => none
  | f :: _ => if u.featuredElsewhere z f.sponsor then none else some f

/-- A sponsor's TURN in any zone but `z` ends at once (R98, step 4). -/
def RotationUnit.endTurnsElsewhere (u : RotationUnit) (z sponsor : Nat) : RotationUnit :=
  (List.range 8).foldl
    (fun v y =>
      let x := v.zone y
      match x.showing with
      | .turn n _ _ => if y ≠ z ∧ n = sponsor then v.setZone y { x with showing := .idle } else v
      | .idle => v
      | .feature _ => v)
    u

/-- The head of a zone's queue takes the zone (R98). -/
def RotationUnit.startFeature (u : RotationUnit) (z : Nat) (f : Feature) : RotationUnit :=
  let x := u.zone z
  let u1 := u.setZone z { x with queue := x.queue.tail, showing := .feature f, begunNow := true }
  let p := u1.sponsor f.sponsor
  let u2 := if f.shown = 0 then u1.setSponsor f.sponsor { p with turns := raise p.turns } else u1
  u2.endTurnsElsewhere z f.sponsor

/-- A showing feature preempted: charged the ending show frame, it returns to the queue with what is left of its dwell
(R98). -/
def RotationUnit.shelve (u : RotationUnit) (z : Nat) (f : Feature) : RotationUnit :=
  let x := u.zone z
  let g : Feature := { f with dwellLeft := f.dwellLeft - 1, shown := f.shown + 1 }
  if 0 < g.dwellLeft then u.setZone z { x with queue := insertFeature g x.queue } else u

/-- The preemption part of a zone's service (R98). -/
def RotationUnit.preempt (u : RotationUnit) (zs : Vector Zone 8) (z : Nat) : RotationUnit × List Report :=
  let p := u.trimQueue zs z
  let u1 := p.1
  match u1.starter z, (u1.zone z).showing with
  | some head, .turn _ _ _ => (u1.startFeature z head, p.2)
  | some head, .feature f =>
    if (u1.zone z).nesting && f.level < head.level then ((u1.startFeature z head).shelve z f, p.2) else (u1, p.2)
  | _, _ => (u1, p.2)

/-- A sponsor's TURN ends by hold, level or fit (R91). -/
def Sponsor.turnOver (p : Sponsor) (hold : Bool) (zone : Zone) : Bool :=
  (hold && 1 ≤ p.level && p.level ≤ 6) || p.level == 0 || !p.fits zone

/-- The countdown part of a zone's service (R91), and the sponsor whose turn ended in it. -/
def RotationUnit.countZone (u : RotationUnit) (zs : Vector Zone 8) (z : Nat) : RotationUnit × Option Nat :=
  let x := u.zone z
  if x.begunNow then (u, none)
  else
    match x.showing with
    | .idle => (u, none)
    | .turn n dwell shown =>
      if dwell - 1 = 0 ∨ (u.sponsor n).turnOver u.holdInForce (zoneAt zs z) then
        (u.setZone z { x with showing := .idle, lastEnded := some n }, some n)
      else (u.setZone z { x with showing := .turn n (dwell - 1) (shown + 1) }, none)
    | .feature f =>
      if f.dwellLeft - 1 = 0 ∨ (u.sponsor f.sponsor).fits (zoneAt zs z) = false then
        (u.setZone z { x with showing := .idle }, none)
      else (u.setZone z { x with showing := .feature { f with dwellLeft := f.dwellLeft - 1, shown := f.shown + 1 } }, none)

/-- A sponsor is in the first set of candidates for a turn in zone `z` (R92). -/
def RotationUnit.eligible (u : RotationUnit) (zs : Vector Zone 8) (z n : Nat) : Bool :=
  let p := u.sponsor n
  p.art.isSome && (if u.holdInForce then p.level == 7 else 1 ≤ p.level && p.level ≤ 6) && p.mask.testBit z &&
    p.fits (zoneAt zs z) && !u.showing n

/-- A sponsor is capped (R92). -/
def RotationUnit.capped (u : RotationUnit) (n : Nat) : Bool :=
  (u.sponsor n).cap && (u.sponsor n).target u.segment.kind ≤ (u.sponsor n).credit

/-- The candidates for a turn (R92); `ended` is the sponsor whose turn ended in this service. -/
def RotationUnit.candidates (u : RotationUnit) (zs : Vector Zone 8) (z : Nat) (ended : Option Nat) : List Nat :=
  let first := (List.range 32).filter (u.eligible zs z)
  let uncapped := first.filter fun n => !u.capped n
  let second := if uncapped.isEmpty then first else uncapped
  let third := second.filter fun n => ended != some n
  if third.isEmpty then second else third

/-- The deficit of a sponsor (R93). -/
def RotationUnit.deficit (u : RotationUnit) (n : Nat) : Int :=
  let p := u.sponsor n
  let l := u.segment.plan u.segment.kind
  ((p.target u.segment.kind * min u.segment.elapsed l / l : Nat) : Int) - (p.credit : Int)

/-- The place of a sponsor in the third test: counted upward from the last-ended sponsor + 1, or from 0 (R93). -/
def rotationPlace (lastEnded : Option Nat) (n : Nat) : Nat :=
  match lastEnded with
  | none => n
  | some m => (n + 64 - (m + 1)) % 32

/-- A sponsor wins the turn over another (R93). -/
def RotationUnit.beats (u : RotationUnit) (lastEnded : Option Nat) (n m : Nat) : Bool :=
  let p := u.sponsor n
  let q := u.sponsor m
  q.level < p.level ||
    (p.level == q.level &&
      (u.deficit m < u.deficit n ||
        (u.deficit n == u.deficit m && rotationPlace lastEnded n < rotationPlace lastEnded m)))

/-- The sponsor chosen among the candidates (R93). -/
def RotationUnit.choose (u : RotationUnit) (lastEnded : Option Nat) : List Nat → Option Nat
  | [] => none
  | n :: ns =>
    match u.choose lastEnded ns with
    | none => some n
    | some m => if u.beats lastEnded m n then some m else some n

/-- A turn begins in a zone (R92). -/
def RotationUnit.startTurn (u : RotationUnit) (z n : Nat) : RotationUnit :=
  let p := u.sponsor n
  (u.setZone z { u.zone z with showing := .turn n p.dwell 0, begunNow := true }).setSponsor n { p with turns := raise p.turns }

/-- The filling part of a zone's service (R90, R92, R98). -/
def RotationUnit.fillZone (u : RotationUnit) (zs : Vector Zone 8) (z : Nat) (ended : Option Nat) :
    RotationUnit × List Report :=
  match (u.zone z).showing with
  | .turn _ _ _ => (u, [])
  | .feature _ => (u, [])
  | .idle =>
    let p := u.trimQueue zs z
    match p.1.starter z with
    | some head => (p.1.startFeature z head, p.2)
    | none =>
      match p.1.choose (p.1.zone z).lastEnded (p.1.candidates zs z ended) with
      | some n => (p.1.startTurn z n, p.2)
      | none => p

/-- A zone that is not an enabled SPONSOR zone is closed (R90). The rule gives no order for the reports of the features it drops:
the showing one goes first, then the queue from head to tail (DESIGN CHOICE, unsafe: log 44). -/
def RotationUnit.closeZone (u : RotationUnit) (z : Nat) : RotationUnit × List Report :=
  let x := u.zone z
  let shown := match x.showing with
    | .feature f => [f]
    | .idle => []
    | .turn _ _ _ => []
  (u.setZone z { x with showing := .idle, queue := [] }, (shown ++ x.queue).map fun f => f.dropped z .zoneClosed)

/-- One zone served whole (R90). The art frame index is read off the frames shown when it is asked for (R84). -/
def RotationUnit.serveZone (u : RotationUnit) (zs : Vector Zone 8) (z : Nat) : RotationUnit × List Report :=
  if (zoneAt zs z).isSponsor then
    let p := u.preempt zs z
    let c := p.1.countZone zs z
    let f := c.1.fillZone zs z c.2
    (f.1, p.2 ++ f.2)
  else u.closeZone z

/-- The fourth step of a frame start: begun-now flags cleared, then every zone served (R90). -/
def RotationUnit.service (u : RotationUnit) (zs : Vector Zone 8) : RotationUnit × List Report :=
  (List.range 8).foldl
    (fun acc z =>
      let p := acc.1.serveZone zs z
      (p.1, acc.2 ++ p.2))
    ({ u with zones := tmap (fun x : ZoneRotation => { x with begunNow := false }) u.zones }, [])

/-- The four steps of a frame start (R86). -/
def RotationUnit.frameStart (u : RotationUnit) (zs : Vector Zone 8) (occluders : List Rect) : RotationUnit × List Report :=
  let c := (u.verdicts zs occluders).close
  let v := c.1.countHold.service zs
  (v.1, c.2 ++ v.2)

/-- The occluding windows of the show frame that a frame start ends: as kept when the Render Engine's own frame start went
first, else as they stand (R88; log 26). -/
def State.occludersAt (s : State) (f : FrameNo) : List Rect :=
  match s.transit.views.find? (fun v => v.frame == f) with
  | some v => v.occluders
  | none => s.render.occluders

/-- The part the unit gives the status block (R178). -/
def RotationUnit.status (u : RotationUnit) : List (Option Nat) := u.zones.toList.map (·.showing.sponsor)

/-- A frame start at the Rotation Unit (R86), every delivery event sent before it taken. -/
def State.rotationFrame (s : State) (f : FrameNo) (rest : List FrameNo) : State :=
  let p := s.rotation.frameStart s.compositor.zones (s.occludersAt f)
  let s1 := s.setTransit { s.transit with
    due := { s.transit.due with rotation := rest }
    views := s.transit.views.filter fun v => v.frame != f }
  ((s1.setRotation p.1).setWriter { s1.writer with sponsors := s1.writer.sponsors ++ [p.1.status] }).sendReports p.2

/-- ROTATION_FRAME_START (R86): the oldest frame start on its way to the unit, behind the delivery events sent before it (R36);
nothing where none is. -/
def execRotationFrameStart (s : State) : Host.Outcome State Fault Refusal :=
  match s.transit.due.rotation with
  | [] => .next s
  | f :: rest => .next ((State.takeDeliveriesBefore f s.transit.deliveries s).rotationFrame f rest)

/-! ### Rows that name a part of a frame start (log 4) -/

/-- HOLD_END (R94): the hold counter found at 0 with a hold in force ends the hold; nothing otherwise. -/
def execHoldEnd (s : State) : Host.Outcome State Fault Refusal :=
  if s.rotation.hold = 0 ∧ s.rotation.holdInForce = true then .next (s.setRotation s.rotation.countHold) else .next s

/-- TURN_END (R91): the countdown that ends a zone's TURN; nothing where the TURN would not end, or there is none. -/
def execTurnEnd (zone : Nat) (s : State) : Host.Outcome State Fault Refusal :=
  let p := s.rotation.countZone s.compositor.zones zone
  if (zoneAt s.compositor.zones zone).isSponsor && p.2.isSome then .next (s.setRotation p.1) else .next s

/-- A FEATURE's countdown ends it (R91). -/
def ZoneRotation.featureEnds (before after : ZoneRotation) : Bool :=
  match before.showing, after.showing with
  | .feature _, .idle => true
  | _, _ => false

/-- FEATURE_END (R91): the countdown that ends a zone's FEATURE; nothing where the FEATURE would not end, or there is none. -/
def execFeatureEnd (zone : Nat) (s : State) : Host.Outcome State Fault Refusal :=
  let p := s.rotation.countZone s.compositor.zones zone
  if (zoneAt s.compositor.zones zone).isSponsor && (s.rotation.zone zone).featureEnds (p.1.zone zone) then
    .next (s.setRotation p.1)
  else .next s

/-! ### Commands -/

/-- A command that changes the Rotation Unit alone. -/
def State.rotated (s : State) (u : RotationUnit) (reports : List Report) : Taken :=
  .done ((s.setRotation u).sendReports reports) 0 0

/-- The art in a SET-SPONSOR payload (R82). -/
def artOf (bs : List Byte) : Art :=
  ⟨field bs 0 8, field bs 8 4, field bs 12 4, field bs 16 4, field bs 20 4, field bs 24 4⟩

/-- The art is one a sponsor may have (R82). -/
def Art.valid (a : Art) : Bool :=
  a.base % 32 == 0 && a.stride % 32 == 0 && a.pitch % 32 == 0 && 1 ≤ a.frames && a.frames ≤ 600 && 1 ≤ a.width &&
    a.width ≤ 4096 && 1 ≤ a.height && a.height ≤ 2160 && a.width * 4 ≤ a.pitch && a.pitch ≤ 65536 &&
    a.pitch * a.height ≤ a.stride && a.base + a.frames * a.stride ≤ Config.dramBytes

/-- SET_SPONSOR (R82). -/
def execSetSponsor (sponsor mask dwell periodTarget breakTarget : Nat) (cap : Bool) (payload : List Byte) (s : State) :
    Host.Outcome State Fault Refusal :=
  carryOut (.setSponsor sponsor mask dwell periodTarget breakTarget cap payload) s <|
    if 31 < sponsor ∨ 255 < mask ∨ payload.length ≠ 28 ∨ (artOf payload).valid = false then .refused .badArgument
    else if s.rotation.showing sponsor then .refused .inUse
    else
      s.rotated (s.rotation.setSponsor sponsor { s.rotation.sponsor sponsor with
        art := some (artOf payload), mask := mask, dwell := clamp 30 36000 dwell,
        periodTarget := min periodTarget 1000000, breakTarget := min breakTarget 1000000, cap := cap }) []

/-- SET_LEVEL (R83). -/
def execSetLevel (sponsor level : Nat) (s : State) : Host.Outcome State Fault Refusal :=
  let p := s.rotation.sponsor sponsor
  carryOut (.setLevel sponsor level) s <|
    if 31 < sponsor then .refused .badArgument
    else if p.art.isNone then .refused .wrongState
    else s.rotated (s.rotation.setSponsor sponsor { p with level := min level 7 }) []

/-- HOLD_ROTATION (R94). -/
def execHoldRotation (frames : Nat) (s : State) : Host.Outcome State Fault Refusal :=
  carryOut (.holdRotation frames) s (s.rotated { s.rotation with hold := min frames 216000 } [])

/-- SET_TRIGGER (R95). -/
def execSetTrigger (entry kind argument sponsor zone level dwell : Nat) (s : State) : Host.Outcome State Fault Refusal :=
  carryOut (.setTrigger entry kind argument sponsor zone level dwell) s <|
    match triggerEventOf kind argument with
    | none => .refused .badArgument
    | some e =>
      if 15 < entry ∨ 31 < sponsor ∨ 7 < zone then .refused .badArgument
      else
        s.rotated { s.rotation with
          triggers := tset s.rotation.triggers entry (some ⟨e, sponsor, zone, clamp 8 15 level, clamp 30 36000 dwell⟩) } []

/-- CLEAR_TRIGGER (R95). -/
def execClearTrigger (entry : Nat) (s : State) : Host.Outcome State Fault Refusal :=
  carryOut (.clearTrigger entry) s <|
    if 15 < entry then .refused .badArgument
    else s.rotated { s.rotation with triggers := tset s.rotation.triggers entry none } []

/-- FIRE_FEATURE (R96). -/
def execFireFeature (entry : Nat) (s : State) : Host.Outcome State Fault Refusal :=
  carryOut (.fireFeature entry) s <|
    if 15 < entry then .refused .badArgument
    else
      match tget s.rotation.triggers entry none with
      | none => .refused .notFound
      | some t =>
        let p := s.rotation.fire s.compositor.zones entry t
        s.rotated p.1 p.2

/-- SET_NESTING (R98). -/
def execSetNesting (zone : Nat) (flag : Bool) (s : State) : Host.Outcome State Fault Refusal :=
  carryOut (.setNesting zone flag) s <|
    if 7 < zone then .refused .badArgument
    else s.rotated (s.rotation.setZone zone { s.rotation.zone zone with nesting := flag }) []

/-- SET_SEGMENT_PLAN (R99). -/
def execSetSegmentPlan (periodFrames breakFrames : Nat) (s : State) : Host.Outcome State Fault Refusal :=
  carryOut (.setSegmentPlan periodFrames breakFrames) s <|
    s.rotated { s.rotation with
      segment := { s.rotation.segment with
        periodPlan := clamp 1 16777215 periodFrames, breakPlan := clamp 1 16777215 breakFrames } } []

/-- CLOSE_SEGMENT (R100). -/
def execCloseSegment (s : State) : Host.Outcome State Fault Refusal :=
  carryOut .closeSegment s (s.rotated (s.rotation.pend (some s.rotation.segment.kind.other)) [])

/-! ### The control reset (R102) -/

/-- The unit after a control reset, with the EXPOSURE reports of the close that begins it. The number given to the next
feature goes on (log 33). -/
def RotationUnit.controlReset (u : RotationUnit) : RotationUnit × List Report :=
  ({ RotationUnit.powerOn with nextArrival := u.nextArrival }, u.exposures)

end Sys2Proof.Machine
end

