-- ==== Sys2Proof/Machine/Parts.lean ====
section
/-! DEFINITION. The commands that reach more than one unit (R172): RESET_UNITS, the control reset (R179), and MARK_AND_CUE (R131).
Each arrival at a unit is handled whole, in the order of the command's rule, and other arrivals may come between (log 36). -/

namespace Sys2Proof.Machine

open Sys2Proof

/-! ### The arrivals -/

/-- The Render Engine after a control reset (R58): the overlay store placement kept, the job and what it had still to enter
abandoned. The number given to the next job goes on, so that a completion of the abandoned one is nobody's (log 33). -/
def RenderEngine.controlReset (r : RenderEngine) : RenderEngine :=
  { RenderEngine.powerOn with overlay := r.overlay, nextJob := r.nextJob }

/-- One arrival, handled whole by its unit: a part of the control reset (R102, R58, R141, R125, R154), or the cue of a marked clip
with its play (R130, R132). -/
def State.reach (s : State) : CommandPart → State
  | .resetRotation => (s.setRotation s.rotation.controlReset.1).sendReports s.rotation.controlReset.2
  | .resetRender => (s.setRender s.render.controlReset).setScheduler (s.scheduler.leaveWait .render)
  | .resetPlayout => s.setPlayout s.playout.controlReset
  | .resetCapture => s.setCapture s.capture.controlReset
  | .resetMessages => s.setMessages s.messages.controlReset
  | .cueMarked c clip playFlag =>
    if playFlag then (s.cueOn c clip 0 .release).playOn c else s.cueOn c clip 0 .release

/-- The arrivals of a list, one behind another. -/
def State.reachAll (s : State) (ps : List CommandPart) : State := ps.foldl State.reach s

/-- What the Command Reader holds when a command in progress has the arrivals listed still to make: with none left it has ended
(R172), and its result is the last one handed over (log 3). -/
def CommandReader.withParts (r : CommandReader) (cmd : Instr) (left : List CommandPart) (a b : Nat) : CommandReader :=
  if left.isEmpty then { r with stage := .ended (.done a b), lastResult := some (.done a b) }
  else { r with stage := .reaching cmd left a b }

/-- The arrivals that a command in progress has still to make, with its results, where that command is `cmd`. -/
def CommandReader.partsOf (r : CommandReader) (cmd : Instr) : Option (List CommandPart × Nat × Nat) :=
  match r.stage with
  | .reaching c ps a b => if c = cmd then some (ps, a, b) else none
  | .idle => none
  | .fetching => none
  | .fetched _ => none
  | .payload _ _ _ => none
  | .carrying _ => none
  | .ended _ => none

/-- The next arrival of the list, with what is then left. -/
def State.reachNext (s : State) (cmd : Instr) (ps : List CommandPart) (a b : Nat) : State :=
  let t := s.reachAll (ps.take 1)
  t.setReader (t.reader.withParts cmd (ps.drop 1) a b)

/-- Every arrival that the command in progress has still to make (R172). -/
def State.partsReached (s : State) : State :=
  match s.reader.stage with
  | .reaching cmd ps a b =>
    let t := s.reachAll ps
    t.setReader (t.reader.withParts cmd [] a b)
  | .idle => s
  | .fetching => s
  | .fetched _ => s
  | .payload _ _ _ => s
  | .carrying _ => s
  | .ended _ => s

/-- The row of a command of several arrivals: the next one of the command in progress, where it is this command and has begun to reach
its units; else what a row of it does first. -/
def carryNext (cmd : Instr) (s : State) (first : Host.Outcome State Fault Refusal) : Host.Outcome State Fault Refusal :=
  match s.reader.partsOf cmd with
  | some (ps, a, b) => .next (s.reachNext cmd ps a b)
  | none => first

/-- The first arrival of a command has left `t`: where the Command Reader carries the command out, the others follow as arrivals of
their own; else they follow at once (log 3). -/
def carryFirst (cmd : Instr) (s t : State) (ps : List CommandPart) (a b : Nat) : Host.Outcome State Fault Refusal :=
  if s.reader.stage = .carrying cmd then .next (t.setReader (t.reader.withParts cmd ps a b))
  else carryOut cmd s (.done (t.reachAll ps) a b)

/-! ### The commands -/

/-- RESET_UNITS (R179): the parts of the Rotation Unit, the Render Engine, the Playout Unit, the Capture Unit and the Message
Unit, in that order. -/
def execResetUnits (s : State) : Host.Outcome State Fault Refusal :=
  carryNext .resetUnits s
    (carryFirst .resetUnits s (s.reach .resetRotation) [.resetRender, .resetPlayout, .resetCapture, .resetMessages] 0 0)

/-- MARK_AND_CUE (R131): the mark at the Capture Unit and then the cue at the Playout Unit; the results are the clip number chosen
and the number of entries marked. -/
def execMarkAndCue (channel source back : Nat) (playFlag : Bool) (s : State) : Host.Outcome State Fault Refusal :=
  let cmd : Instr := .markAndCue channel source back playFlag
  let timeline := (s.capture.source source).timeline
  let k := min (clamp 1 Config.clipPlaces back) timeline.length
  carryNext cmd s <|
    match channelOf channel with
    | none => carryOut cmd s (.refused .badArgument)
    | some c =>
      if 3 < source then carryOut cmd s (.refused .badArgument)
      else
        match s.capture.lowestEmpty with
        | none => carryOut cmd s (.refused .noRoom)
        | some clip =>
          if timeline.isEmpty then carryOut cmd s (.refused .notFound)
          else if s.capture.storeFree < k then carryOut cmd s (.refused .noRoom)
          else
            carryFirst cmd s (s.makeClip clip source (timeline.drop (timeline.length - k))) [.cueMarked c clip playFlag] clip k

end Sys2Proof.Machine
end

