-- ==== Sys2Proof/Machine/Reports.lean ====
section
/-! DEFINITION. The Report Writer (R174-R178) with the layouts of the report record and the status block (R182, R183):
writing, holding and losing reports, the command's own report, the status block; and the taking of the next command at the arrivals
that can bring it about (R170). -/

namespace Sys2Proof.Machine

open Sys2Proof

/-! ### Layouts -/

/-- Refusal reasons are numbered 1-9 (R182). -/
def Reason.number : Reason → Nat
  | .badName => 1
  | .badArgument => 2
  | .wrongState => 3
  | .noRoom => 4
  | .notFound => 5
  | .inUse => 6
  | .contactOwned => 7
  | .payloadFault => 8
  | .ringOverrun => 9

/-- PERIOD 0, BREAK 1 (R182). -/
def SegmentKind.number : SegmentKind → Nat
  | .period => 0
  | .break' => 1

/-- WHOLE 0, MISSING 1, TORN 2, STARVED 3 (R182). -/
def EntryStatus.number : EntryStatus → Nat
  | .whole => 0
  | .missing => 1
  | .torn => 2
  | .starved => 3

/-- HELD 0, LOOPED 1, RELEASED 2 (R182). -/
def EndAction.number : EndAction → Nat
  | .hold => 0
  | .loop => 1
  | .release => 2

/-- DOWN 0, UP 1 (R182, R183). -/
def Direction.number : Direction → Nat
  | .down => 0
  | .up => 1

/-- QUEUE-FULL 0, NOT-SHOWABLE 1, ZONE-CLOSED 2 (R182). -/
def DropReason.number : DropReason → Nat
  | .queueFull => 0
  | .notShowable => 1
  | .zoneClosed => 2

/-- DONE 0, REJECTED 1, WITHDRAWN 2, EXPIRED 3 (R182). -/
def FinalState.number : FinalState → Nat
  | .done => 0
  | .rejected => 1
  | .withdrawn => 2
  | .expired => 3

/-- STOPPED 0, RUNNING 1, EXPIRED 2 (R183). -/
def RunState.number : RunState → Nat
  | .stopped => 0
  | .running => 1
  | .expired => 2

/-- IDLE 0 to HELD 4 (R183). -/
def ChannelState.number : ChannelState → Nat
  | .idle => 0
  | .cued => 1
  | .playing => 2
  | .paused => 3
  | .held => 4

/-- STOPPED 0 to STARVED 3 (R183). -/
def SourceState.number : SourceState → Nat
  | .stopped => 0
  | .armed => 1
  | .capturing => 2
  | .starved => 3

/-- The kind number of a report (Table 11-2). -/
def Report.kind : Report → Nat
  | .done _ _ _ => 1
  | .refused _ _ _ => 2
  | .exposure _ _ _ _ _ _ _ _ _ => 3
  | .runBegin _ _ _ => 4
  | .runEnd _ _ _ _ => 4
  | .clipMarked _ _ _ _ _ => 5
  | .clipDropped _ _ _ _ => 5
  | .playout _ _ _ _ _ _ => 6
  | .periodEnd _ _ _ => 7
  | .playExpiry _ => 7
  | .penaltyDone _ _ _ => 7
  | .feature _ _ _ _ _ => 8
  | .message _ _ _ _ => 9

/-- The payload of a report from byte 12 on, its spare bytes at the end left out (Table 11-3). -/
def Report.payload : Report → List Byte
  | .done n a b => toLe 4 n.toNat ++ toLe 4 a ++ toLe 4 b
  | .refused n r x => toLe 4 n.toNat ++ toLe 1 r.number ++ toLe 3 0 ++ toLe 4 x.toNat
  | .exposure p k n e rc fc t o b =>
      toLe 1 (p + 128 * k.number) ++ toLe 2 n ++ toLe 3 e ++ toLe 3 rc ++ toLe 3 fc ++ toLe 2 (min t 65535) ++
        toLe 3 o ++ toLe 3 b
  | .runBegin src st f => toLe 1 0 ++ toLe 1 src ++ toLe 2 st.number ++ toLe 6 f.toNat ++ toLe 4 1
  | .runEnd src stopped f n =>
      toLe 1 1 ++ toLe 1 src ++ toLe 2 (if stopped then 1 else 0) ++ toLe 6 f.toNat ++ toLe 4 n
  | .clipMarked c src n f l =>
      toLe 1 0 ++ toLe 1 0 ++ toLe 1 c ++ toLe 1 src ++ toLe 2 n ++ toLe 6 f.toNat ++ toLe 6 l.toNat
  | .clipDropped rel c src n => toLe 1 1 ++ toLe 1 (if rel then 1 else 0) ++ toLe 1 c ++ toLe 1 src ++ toLe 2 n
  | .playout ch c act back p f =>
      toLe 1 ch.number ++ toLe 1 c ++ toLe 1 act.number ++ toLe 1 (if back then 1 else 0) ++ toLe 2 p ++ toLe 6 f.toNat
  | .periodEnd p d f => toLe 1 0 ++ toLe 1 p ++ toLe 2 d.number ++ toLe 6 f.toNat
  | .playExpiry f => toLe 1 1 ++ toLe 3 0 ++ toLe 6 f.toNat
  | .penaltyDone t p f => toLe 1 2 ++ toLe 1 t ++ toLe 1 p ++ toLe 1 0 ++ toLe 6 f.toNat
  | .feature z e p l r => toLe 1 z ++ toLe 1 e ++ toLe 1 p ++ toLe 1 l ++ toLe 1 r.number
  | .message i st n f => toLe 2 i ++ toLe 1 st.number ++ toLe 1 n ++ toLe 6 f.toNat

/-- Bytes filled up with zeros to a length. -/
def padded (len : Nat) (bs : List Byte) : List Byte := bs ++ List.replicate (len - bs.length) 0

/-- The 32 bytes of a report record (R182): its sequence, kind, lost count, frame and payload. -/
def reportBytes (r : Report) (sequence : Count) (lost : Nat) (frame : BitVec 32) : List Byte :=
  toLe 4 sequence.toNat ++ toLe 2 r.kind ++ toLe 2 lost ++ toLe 4 frame.toNat ++ padded 20 r.payload

/-- Bytes as beats of a write with every byte enabled. -/
def beatsOf (count : Nat) (bs : List Byte) : List (List (Option Byte)) :=
  (List.range count).map fun k => (slice bs (32 * k) 32).map some

/-- The 256 bytes of the status block (R183), the parts of R178 taken when the write is entered read from `s`. -/
def statusBytes (s : State) (p : StatusParts) : List Byte :=
  let t := s.timing
  let frame := toLe 8 p.frame.toNat
  frame ++ toLe 4 s.reader.consumer.toNat ++ toLe 4 s.writer.producer.toNat ++ toLe 4 t.clock.value ++
    toLe 1 t.clock.run.number ++ toLe 1 t.clock.direction.number ++ toLe 1 t.clock.period ++ toLe 1 0 ++
    toLe 4 t.play.value ++ toLe 2 t.team0.score ++ toLe 2 t.team1.score ++
    toLe 1 t.team0.timeouts ++ toLe 1 t.team1.timeouts ++ toLe 2 0 ++
    (List.range 8).flatMap (fun z => toLe 1 (((p.sponsors.getD z none)).getD 255)) ++
    toLe 2 p.channelA.state.number ++ toLe 2 p.channelA.position ++
    toLe 2 p.channelB.state.number ++ toLe 2 p.channelB.position ++
    (List.range 4).flatMap (fun i => toLe 1 (p.capture.sources.getD i .stopped).number) ++
    toLe 2 p.capture.free ++ toLe 2 0 ++ toLe 4 (p.ticker.getD 4294967295) ++
    List.replicate 184 0 ++ frame

/-! ### Writing reports (R174, R175) -/

/-- The low 32 bits of the current frame number (R182). -/
def State.frameLow (s : State) : BitVec 32 := s.classifier.frame.setWidth 32

/-- The address of the report record at a count (R168). -/
def State.recordAddr (s : State) (p : Count) : Nat := s.apertureBase + 32768 + p.toNat % 1024 * 32

/-- A report written: its record entered as a GENERAL write at the producer position, the producer count raised, the
lost count carried and returned to 0 (R174). -/
def State.ringWrite (s : State) (r : Report) (frame : BitVec 32) : State :=
  let w := s.writer
  let op := newWrite .reportWrite (s.recordAddr w.producer) (beatsOf 1 (reportBytes r w.producer w.lost frame))
  (s.setWriter { w with producer := w.producer + 1, lost := 0 }).setScheduler (s.scheduler.enterFor .writer [op])

/-- The Report Writer may enter one operation now. -/
def State.writerMay (s : State) : Bool := s.scheduler.mayEnter .writer 1

/-- The Report Writer has something it could write but for a place of the operation queue. -/
def State.writerPending (s : State) : Bool :=
  !s.writer.waiting.isEmpty || (!s.writer.holding.isEmpty && 0 < s.writer.usable)

/-- The Report Writer waits for a place as long as it has something it could write but for one (R156, R175). -/
def State.writerRest (s : State) : State :=
  if s.writerPending then s.setScheduler (s.scheduler.joinWait .writer) else s

/-- A held-kind report arrives: written at once, held, or lost (R175). Its record header carries the frame number current at
this arrival (R182), also where a step of an earlier frame start made the report and R86 has that frame start's own number
recorded (DESIGN CHOICE, log 51). -/
def State.arriveReport (s : State) (r : Report) : State :=
  let w := s.writer
  if w.holding.isEmpty && 0 < w.usable && w.waiting.isEmpty && s.writerMay then s.ringWrite r s.frameLow
  else if w.holding.length < Config.holdingPlaces then
    (s.setWriter { w with holding := w.holding ++ [⟨r, s.frameLow⟩] }).writerRest
  else s.setWriter { w with lost := countUp 65535 w.lost }

/-- The head of the holding queue is written if a usable ring place and a place of the operation queue are free
(R175). -/
def State.writeHeld (s : State) : State :=
  match s.writer.holding with
  | [] => s
  | h :: rest =>
    if 0 < s.writer.usable && s.writer.waiting.isEmpty && s.writerMay then
      ((s.setWriter { s.writer with holding := rest }).ringWrite h.report h.frame).writerRest
    else s.writerRest

/-- The holding queue drained as far as it goes (R176). -/
def State.drainHeld : Nat → State → State
  | 0, s => s
  | n + 1, s => State.drainHeld n s.writeHeld

/-- Every report on its way reaches the Report Writer, in order (R172). -/
def State.arriveAll (s : State) : State :=
  (s.transit.reports).foldl State.arriveReport (s.setTransit { s.transit with reports := [] })

/-! ### Taking a command (R170) -/

/-- The conditions under which the next command is taken (R170). -/
def State.mayTake (s : State) : Bool :=
  !s.reader.begun && s.reader.taken != s.reader.consumer && 0 < s.writer.usable && s.port.initDone

/-- The Command Reader's operations entered as the operation queue has room (R156). -/
def State.readerEnter (s : State) : State :=
  if s.reader.toEnter.isEmpty then s
  else
    let p := s.scheduler.enterMany .reader s.reader.toEnter
    (s.setReader { s.reader with toEnter := p.1 }).setScheduler p.2

/-- The address of the command record at a count (R168). -/
def State.commandAddr (s : State) (c : Count) : Nat := s.apertureBase + 4096 + c.toNat % 256 * 64

/-- The next command is taken, its report place reserved and its record fetched; nothing where the conditions do not hold
(R170). They are examined at every arrival that can change one of them: an index write taken, a command finishing, and a report
consumer word taken. -/
def State.takeNext (s : State) : State :=
  if s.mayTake then
    let fetch := newRead .recordFetch .general (s.commandAddr s.reader.consumer) 2
    ((s.setReader { s.reader with begun := true, stage := .fetching, toEnter := [fetch] }).setWriter
      { s.writer with reserved := true }).readerEnter
  else s

/-! ### The command's own report (R172, R174) -/

/-- The DONE or REFUSED report of the command in progress, carrying its count (R172). -/
def ownReport (count : Count) : CommandResult → Report
  | .done a b => .done count a b
  | .refused r => .refused count r 0

/-- The command's own report, which reached the Report Writer at the frame given, is written into the reserved place; the
consumer count rises and the begun flag becomes clear (R172, R182). -/
def State.writeOwn (s : State) (res : CommandResult) (frame : BitVec 32) : State :=
  let s1 := s.ringWrite (ownReport s.reader.consumer res) frame
  (s1.setWriter { s1.writer with reserved := false }).setReader
    { s1.reader with consumer := s1.reader.consumer + 1, begun := false, stage := .idle }

/-- A command ends: its own report is written, and the conditions for taking the next one are examined again (R172). -/
def State.finishCommand (s : State) (res : CommandResult) (frame : BitVec 32) : State :=
  (s.writeOwn res frame).writerRest.takeNext

/-! ### The status block (R178) -/

/-- The status block write entered: 8 beats at aperture base + 0. -/
def State.writeStatus (s : State) (p : StatusParts) : State :=
  s.setScheduler (s.scheduler.enterFor .writer
    [newWrite .statusWrite s.apertureBase (beatsOf 8 (statusBytes s p))])

/-- The next record of the Report Writer's own is entered, if it may be: a waiting record before the holding queue
(R156; log 16). -/
def State.writerEnter (s : State) : State :=
  match s.writer.waiting with
  | [] => if s.writerPending then s.writeHeld else s.setScheduler (s.scheduler.leaveWait .writer)
  | .own frame :: rest =>
    if s.writerMay then
      let s1 := s.setWriter { s.writer with waiting := rest }
      match s.reader.stage with
      | .ended res => s1.finishCommand res frame
      | _ => s1.writerRest
    else s
  | .status p :: rest =>
    if s.writerMay then ((s.setWriter { s.writer with waiting := rest }).writeStatus p).writerRest else s

/-! ### Refusals of the ring -/

/-- The RING-OVERRUN report of an index value (R169). -/
def ringOverrunReport (x consumer : Count) : Report := .refused x .ringOverrun consumer

end Sys2Proof.Machine
end

