-- ==== Sys2Proof/Machine/Commands.lean ====
section
/-! DEFINITION. The Command Reader and the steps of the Report Writer (chapter 10): index writes, taking, fetching and decoding
a command, its end, the arrival of reports, the status block. -/

namespace Sys2Proof.Machine

open Sys2Proof

/-! ### Index words (R169, R176) -/

/-- A command index value is within both tests of R169. -/
def CommandReader.takes (r : CommandReader) (x : Count) : Bool :=
  (x - r.consumer).toNat ≤ 256 && (x - r.begunCount).toNat ≤ 256

/-- COMMAND_INDEX_WRITE (R169, R170): the oldest snooped index value on its way is taken, and the next command with it where it
may be, or a RING-OVERRUN report is raised; nothing where none is on its way. -/
def execCommandIndexWrite (s : State) : Host.Outcome State Fault Refusal :=
  match s.transit.indexes with
  | [] => .next s
  | x :: rest =>
    let s1 := s.setTransit { s.transit with indexes := rest }
    if s.reader.takes x then .next (s1.setReader { s1.reader with taken := x }).takeNext
    else .next (s1.sendReports [ringOverrunReport x s.reader.consumer])

/-- A report consumer value lies from the old consumer count to the producer count (R176). -/
def ReportWriter.takes (w : ReportWriter) (y : Count) : Bool := (y - w.consumer).toNat ≤ w.unread

/-- REPORT_CONSUMER_WRITE (R176): the oldest snooped consumer value on its way is taken, the holding queue drained and a waiting
command taken where it may be, or the value is ignored; nothing where none is on its way. -/
def execReportConsumerWrite (s : State) : Host.Outcome State Fault Refusal :=
  match s.transit.consumers with
  | [] => .next s
  | y :: rest =>
    let s1 := s.setTransit { s.transit with consumers := rest }
    if s.writer.takes y then
      .next (State.drainHeld s1.writer.holding.length (s1.setWriter { s1.writer with consumer := y })).takeNext
    else .next s1

/-! ### Taking and fetching a command (R170, R171) -/

/-- COMMAND_TAKE (R170): the next command is taken, where the conditions hold; nothing otherwise. The arrivals that can bring them
about take it themselves (log 4). -/
def execCommandTake (s : State) : Host.Outcome State Fault Refusal := .next s.takeNext

/-- The beats that hold a record's payload, in pieces within one row each (R171). -/
def payloadPieces (record : List Byte) : List (Nat × Nat) :=
  let c := coveringBeats (recordPayloadAddr record) (recordPayloadLen record)
  transferPieces c.1 c.2

/-- The payload in the pieces fetched. -/
def payloadOf (record : List Byte) (got : List (Nat × List Byte)) : List Byte :=
  let all := (payloadPieces record).zipIdx.flatMap fun p => (got.lookup p.2).getD []
  slice all (recordPayloadAddr record % 32) (recordPayloadLen record)

/-- The stage of a command whose record and payload are at hand: it is carried out next (R172). -/
def carriedOut (record payload : List Byte) : CommandStage :=
  match decodeRecord record payload with
  | some cmd => .carrying cmd
  | none => .ended (.refused .badName)

/-- A fetched record decoded: its name, its payload's range, then the payload's fetches (R171). -/
def State.decodeFetched (s : State) (record : List Byte) : State :=
  if (rowOfName (recordName record)).isNone then
    s.setReader { s.reader with stage := .ended (.refused .badName) }
  else if recordPayloadLen record = 0 then s.setReader { s.reader with stage := carriedOut record [] }
  else if 4096 < recordPayloadLen record ∨ Config.dramBytes < recordPayloadAddr record + recordPayloadLen record then
    s.setReader { s.reader with stage := .ended (.refused .payloadFault) }
  else
    let ps := payloadPieces record
    let ops := ps.zipIdx.map fun p => newRead (.payloadFetch p.2) .general p.1.1 p.1.2
    (s.setReader { s.reader with stage := .payload record ps.length [], toEnter := s.reader.toEnter ++ ops }).readerEnter

/-- COMMAND_FETCH_COMPLETE (R171): a fetched record is decoded, or a fetched payload completes its command; nothing while a
fetch is in flight or no command is. The command then stands ready to be carried out by its own row (R172; log 3). -/
def execCommandFetchComplete (s : State) : Host.Outcome State Fault Refusal :=
  match s.reader.stage with
  | .fetched record => .next (s.decodeFetched record)
  | .payload record left got =>
    if left = 0 then .next (s.setReader { s.reader with stage := carriedOut record (payloadOf record got) }) else .next s
  | .idle => .next s
  | .fetching => .next s
  | .carrying _ => .next s
  | .reaching _ _ _ _ => .next s
  | .ended _ => .next s

/-- The record fetch completes with its 64 bytes. -/
def State.recordFetched (s : State) (bytes : List Byte) : State :=
  if s.reader.stage = .fetching then s.setReader { s.reader with stage := .fetched bytes } else s

/-- A piece of the payload fetch completes with its bytes. -/
def State.payloadFetched (s : State) (piece : Nat) (bytes : List Byte) : State :=
  match s.reader.stage with
  | .payload record left got => s.setReader { s.reader with stage := .payload record (left - 1) ((piece, bytes) :: got) }
  | .idle => s
  | .fetching => s
  | .fetched _ => s
  | .carrying _ => s
  | .reaching _ _ _ _ => s
  | .ended _ => s

/-! ### The end of a command (R172) -/

/-- The command's own report waits in the Report Writer. -/
def ReportWriter.ownWaits (w : ReportWriter) : Bool :=
  w.waiting.any fun r => match r with
    | .own _ => true
    | .status _ => false

/-- A command that its last unit has finished with (R172): the reports raised reach the Report Writer, then the command's own report
is written into its reserved place and the next command is taken where it may be, or the report waits for a place of the operation
queue (R174) with the frame number it came at (R182); nothing while no command has ended. -/
def State.endCommand (s : State) : State :=
  match s.reader.stage with
  | .ended res =>
    if s.writer.ownWaits then s
    else
      let s1 := s.arriveAll
      if s1.writer.waiting.isEmpty && s1.writerMay then s1.finishCommand res s1.frameLow
      else (s1.setWriter { s1.writer with waiting := s1.writer.waiting ++ [.own s1.frameLow] }).writerRest
  | .idle => s
  | .fetching => s
  | .fetched _ => s
  | .payload _ _ _ => s
  | .carrying _ => s
  | .reaching _ _ _ _ => s

/-- COMMAND_END (R172): the arrivals that the command in progress has still to make come first, and with the last unit finished
the command ends. -/
def execCommandEnd (s : State) : Host.Outcome State Fault Refusal := .next s.partsReached.endCommand

/-! ### Reports and the status block (R175, R178) -/

/-- REPORT_ARRIVAL (R175): the oldest report on its way arrives; nothing where none is. -/
def execReportArrival (s : State) : Host.Outcome State Fault Refusal :=
  match s.transit.reports with
  | [] => .next s
  | r :: rest => .next ((s.setTransit { s.transit with reports := rest }).arriveReport r)

/-- HELD_REPORT_WRITE (R175): the head of the holding queue is written; nothing where there is none or no place for it. -/
def execHeldReportWrite (s : State) : Host.Outcome State Fault Refusal := .next s.writeHeld

/-- The parts of the oldest frame start's status block, when every unit has handed its part over, with what is left to come
(R178; log 27). -/
def State.statusReady (s : State) : Option (StatusParts × State) :=
  let w := s.writer
  match s.transit.due.status, w.sponsors, w.channels, w.captures, w.tickers with
  | f :: fs, z :: zs, c :: cs, k :: ks, t :: ts =>
    some (⟨f, z, c.1, c.2, k, t⟩,
      (s.setTransit { s.transit with due := { s.transit.due with status := fs } }).setWriter
        { w with sponsors := zs, channels := cs, captures := ks, tickers := ts })
  | _, _, _, _, _ => none

/-- STATUS_BLOCK_WRITE (R178): the write is entered, or waits for a place; nothing while a part is missing. -/
def execStatusBlockWrite (s : State) : Host.Outcome State Fault Refusal :=
  match s.statusReady with
  | none => .next s
  | some (p, s1) =>
    if s1.writer.waiting.isEmpty && s1.writerMay then .next (s1.writeStatus p).writerRest
    else .next (s1.setWriter { s1.writer with waiting := s1.writer.waiting ++ [.status p] }).writerRest

end Sys2Proof.Machine
end

