-- ==== Sys2Proof/Machine/FramePath.lean ====
section
/-! DEFINITION. The Fabric Port and the Path Classifier (chapter 1): roles, canvas, sorting, acceptance, responses, frame
starts. -/

namespace Sys2Proof

/-- The address of beat `k` of a request. -/
def Request.beatAddr (r : Request) (k : Nat) : Nat := r.addr + 32 * k

/-- The data of beat `k` of a write. -/
def Request.beatData (r : Request) (k : Nat) : List (Option Byte) := r.data.getD k []

end Sys2Proof

namespace Sys2Proof.Machine

open Sys2Proof

/-! ### Roles and canvas (R2-R5) -/

/-- The role of an initiator. -/
def Classifier.role (c : Classifier) (i : Nat) : Role := tget c.roles i .none

/-- The strap initiator (R2, R168). -/
def Classifier.strapInitiator (c : Classifier) : Nat := c.straps.control.toNat

/-- A role given to initiator `i` puts initiator `j` out of the role it holds (Table 1-2). -/
def Classifier.displaced (c : Classifier) (i : Nat) (given : Role) (j : Nat) : Bool :=
  j != i && match given with
    | .none => false
    | .scanout => c.role j == .scanout
    | .ingest src => c.role j == .ingest src
    | .control => c.role j == .control && j != c.strapInitiator

/-- A role given to one initiator (Table 1-2). -/
def Classifier.giveRole (c : Classifier) (i : Nat) (given : Role) : Classifier :=
  { c with
    roles := ⟨((List.range 16).map fun j =>
      if j = i then given else if c.displaced i given j then Role.none else c.role j).toArray, by simp⟩ }

/-- SET_ROLE (R3). -/
def execSetRole (initiator role source : Nat) (s : State) : Host.Outcome State Fault Refusal :=
  carryOut (.setRole initiator role source) s <|
    match roleOf role source with
    | none => .refused .badArgument
    | some given =>
      if 15 < initiator ∨ initiator = s.classifier.strapInitiator then .refused .badArgument
      else .done (s.setClassifier (s.classifier.giveRole initiator given)) 0 0

/-- A canvas geometry R4 allows. -/
def Canvas.valid (c : Canvas) : Bool :=
  c.base % 32 == 0 && 64 ≤ c.width && c.width ≤ 4096 && c.width % 8 == 0 && 16 ≤ c.height && c.height ≤ 2160 &&
    c.pitch % 32 == 0 && c.width * 4 ≤ c.pitch && c.pitch ≤ 65536

/-- The bytes of the canvas with its padding (R5). -/
def Canvas.bytes (c : Canvas) : Nat := c.height * c.pitch

/-- SET_CANVAS (R5). -/
def execSetCanvas (base width height pitch : Nat) (s : State) : Host.Outcome State Fault Refusal :=
  let c : Canvas := ⟨base, width, height, pitch⟩
  carryOut (.setCanvas base width height pitch) s <|
    if c.valid = false ∨ Config.dramBytes < base + c.bytes ∨ s.hitsAperture base c.bytes then .refused .badArgument
    else if s.compositor.zones.toList.any (·.enabled) then .refused .inUse
    else .done (s.setClassifier { s.classifier with canvas := some c }) 0 0

/-- The canvas line and column of the beat at an address, if it lies inside the canvas (R4). -/
def Canvas.position (c : Canvas) (a : Nat) : Option (Nat × Nat) :=
  let o := a - c.base
  if c.base ≤ a ∧ a < c.base + c.bytes ∧ o % c.pitch < c.width * 4 then some (o / c.pitch, o % c.pitch / 4) else none

/-! ### Sorting (R7) -/

/-- The request's treatment as a whole (checks 1 and 2). -/
def State.treatment (s : State) (r : Request) : Treatment :=
  if Config.dramBytes < r.addr + 32 * r.beats then .decodeError
  else if r.write && s.hitsOwned r.addr (32 * r.beats) then .protected'
  else .normal

/-- The four bytes of a word of a beat are all enabled. -/
def wordEnabled (beat : List (Option Byte)) (at' : Nat) : Bool :=
  beat.length == 32 && ((beat.drop at').take 4).all Option.isSome

/-- The beat lies in the ingest region of a source (R7). -/
def SourceConfig.holds (c : SourceConfig) (a : Nat) : Bool := c.base ≤ a && a < c.base + c.bytes

/-- The treatment of beat `k` of a NORMAL request (checks 3 to 6). -/
def State.sortBeat (s : State) (r : Request) (k : Nat) : BeatTreatment :=
  let a := r.beatAddr k
  match s.classifier.role r.initiator with
  | .none => .plain
  | .scanout =>
    if r.write then .plain
    else
      match s.classifier.canvas with
      | none => .plain
      | some c =>
        match c.position a with
        | some (line, column) => .composited line column
        | none => .plain
  | .ingest src =>
    match (s.capture.source src).config with
    | some c => if r.write && c.holds a then .mirrored src else .plain
    | none => .plain
  | .control =>
    let index := wordEnabled (r.beatData k) 0
    let consumer := wordEnabled (r.beatData k) 4
    if r.write && a == s.apertureBase + 256 && (index || consumer) then .snooped index consumer else .plain

/-- The beat treatments of a request: none for one that is not NORMAL. -/
def State.sortBeats (s : State) (r : Request) : List BeatTreatment :=
  match s.treatment r with
  | .normal => (List.range r.beats).map (s.sortBeat r)
  | .decodeError => []
  | .protected' => []

/-! ### The operations reserved (R14) -/

/-- The beat has an operation of the Fabric Port: it is not COMPOSITED. -/
def BeatTreatment.carried : BeatTreatment → Bool
  | .plain => true
  | .composited _ _ => false
  | .mirrored _ => true
  | .snooped _ _ => true

/-- The beat is MIRRORED. -/
def BeatTreatment.isMirrored : BeatTreatment → Bool
  | .plain => false
  | .composited _ _ => false
  | .mirrored _ => true
  | .snooped _ _ => false

/-- Maximal runs of consecutive marked places, as first place and length; `at'` numbers the first place of the list. -/
def runsOf : List Bool → Nat → List (Nat × Nat)
  | [], _ => []
  | b :: bs, at' =>
    if b then
      match runsOf bs (at' + 1) with
      | (f, n) :: rest => if f = at' + 1 then (at', n + 1) :: rest else (at', 1) :: (f, n) :: rest
      | [] => [(at', 1)]
    else runsOf bs (at' + 1)

/-- The word of a beat as the 32-bit number its four bytes make (R12). -/
def beatWord (beat : List (Option Byte)) (at' : Nat) : Count :=
  BitVec.ofNat 32 (ofLe (((beat.drop at').take 4).map (·.getD 0)))

/-- What is snooped of the beats from `first` on (R12). -/
def snoopedIn (r : Request) (ts : List BeatTreatment) (first count : Nat) : Option Count × Option Count :=
  (List.range count).foldl
    (fun acc j =>
      match ts.getD (first + j) .plain with
      | .snooped index consumer =>
        (if index then some (beatWord (r.beatData (first + j)) 0) else acc.1,
          if consumer then some (beatWord (r.beatData (first + j)) 4) else acc.2)
      | .plain => acc
      | .composited _ _ => acc
      | .mirrored _ => acc)
    (none, none)

/-- The Fabric Port's own operations for a request, in the order of their first beats (R14). A READ of the SCANOUT
initiator is of class SCANOUT (R156). -/
def plainOps (role : Role) (r : Request) (entry : Nat) (ts : List BeatTreatment) : List Operation :=
  (runsOf (ts.map BeatTreatment.carried) 0).flatMap fun run =>
    (transferPieces (r.beatAddr run.1) run.2).map fun p =>
      let first := (p.1 - r.addr) / 32
      if r.write then
        let w := snoopedIn r ts first p.2
        newWrite (.fabricWrite entry w.1 w.2) p.1 ((List.range p.2).map fun j => r.beatData (first + j))
      else newRead (.fabricRead entry first) (if role = .scanout then .scanout else .general) p.1 p.2

/-- The source and the first place of a request's mirrored beats, with their number (R11). -/
def mirroredRun (ts : List BeatTreatment) : Option (Nat × Nat × Nat) :=
  match runsOf (ts.map BeatTreatment.isMirrored) 0 with
  | [] => none
  | (first, count) :: _ =>
    match ts.getD first .plain with
    | .mirrored src => some (src, first, count)
    | .plain => none
    | .composited _ _ => none
    | .snooped _ _ => none

/-- The mirror writes of a request into its source's open slot (R11). -/
def State.mirrorOps (s : State) (r : Request) (ts : List BeatTreatment) : List Operation :=
  match mirroredRun ts with
  | none => []
  | some (src, first, count) =>
    match (s.capture.source src).openSlot, (s.capture.source src).config, s.capture.pool with
    | some slot, some c, some p =>
      let offset := r.beatAddr first - c.base
      let base := p.base + slot * p.stride + offset
      (transferPieces base count).map fun q =>
        newWrite .mirror q.1 ((List.range q.2).map fun j => r.beatData (first + (q.1 - base) / 32 + j))
    | _, _, _ => []

/-! ### Acceptance (R14, R15) -/

/-- Entries of the request table that belong to an initiator. -/
def FabricPort.entriesOf (p : FabricPort) (i : Nat) : Nat := (p.table.filter fun e => e.request.initiator == i).length

/-- The initiator presents a request and is below its limit of entries. -/
def FabricPort.considered (p : FabricPort) (i : Nat) : Bool :=
  (tget p.presented i none).isSome && p.entriesOf i < Config.initiatorPlaces

/-- The initiator offered the next place: the one it stays offered to, else the first considered after the pointer (R15). -/
def FabricPort.nextOffered (p : FabricPort) : Option Nat :=
  match p.offered with
  | some i => some i
  | none => ((List.range 16).map fun k => (p.pointer + 1 + k) % 16).find? p.considered

/-- The composite requests of a request (R10). -/
def compositeRequests (r : Request) (entry : Nat) (frame : FrameNo) (ts : List BeatTreatment) : List CompositeRequest :=
  ts.zipIdx.filterMap fun q =>
    match q.1 with
    | .composited line column => some ⟨entry, q.2, line, column, r.beatAddr q.2, frame⟩
    | .plain => none
    | .mirrored _ => none
    | .snooped _ _ => none

/-- The mirror notice of a request handled by the Capture Unit as part of the acceptance (R11, R109; log 6). -/
def State.notify (s : State) (r : Request) (ts : List BeatTreatment) : State :=
  match mirroredRun ts with
  | none => s
  | some (src, first, count) =>
    match (s.capture.source src).config with
    | some c => s.setCapture (s.capture.mirror src (r.beatAddr first - c.base) count).2
    | none => s

/-- The request of initiator `i` becomes an entry: sorted, its operations entered, its composite requests and its mirror
notice handed on, the pointer moved (R1, R7-R15). -/
def State.acceptEntry (s : State) (i : Nat) (r : Request) : State :=
  let n := s.port.nextEntry
  let ts := s.sortBeats r
  let ops := plainOps (s.classifier.role i) r n ts
  let mirrors := s.mirrorOps r ts
  let cs := compositeRequests r n s.classifier.frame ts
  let e : Entry :=
    { number := n, request := r, treatment := s.treatment r, beats := ts, showFrame := s.classifier.frame,
      opsLeft := ops.length, compositesLeft := cs.length, readData := List.replicate r.beats none }
  let s1 := s.setPort { s.port with
    presented := tset s.port.presented i none
    offered := none
    table := s.port.table ++ [e]
    nextEntry := n + 1
    pointer := i }
  let s2 := s1.setCompositor { s1.compositor with
    queue := s1.compositor.queue ++ cs
    notes := if cs.isEmpty then s1.compositor.notes else s1.compositor.notes ++ [⟨n, cs.length, []⟩] }
  (s2.notify r ts).setScheduler (s2.scheduler.enterFor .port (ops ++ mirrors))

/-- The operations a request's acceptance would enter (R14). -/
def State.reservation (s : State) (i : Nat) (r : Request) : Nat :=
  (plainOps (s.classifier.role i) r 0 (s.sortBeats r)).length + (s.mirrorOps r (s.sortBeats r)).length

/-- One attempt to accept: the offered request is accepted, or stays offered and the Fabric Port waits for places (R14,
R15, R156). -/
def State.accept (s : State) : State :=
  if s.port.initDone = false ∨ Config.tablePlaces ≤ s.port.table.length then s
  else
    match s.port.nextOffered with
    | none => s.setScheduler (s.scheduler.leaveWait .port)
    | some i =>
      match tget s.port.presented i none with
      | none => s
      | some r =>
        if s.scheduler.mayEnter .port (s.reservation i r) then s.acceptEntry i r
        else (s.setPort { s.port with offered := some i }).setScheduler (s.scheduler.joinWait .port)

/-- A request newly presented on its initiator's lines: one that is ill formed, or behind one the initiator already presents,
is not taken up (log 10, 11). -/
def FabricPort.present (p : FabricPort) (r : Request) : FabricPort :=
  if r.wellFormed && (tget p.presented r.initiator none).isNone then
    { p with presented := tset p.presented r.initiator (some r) }
  else p

/-- REQUEST_ACCEPT (R14): the requests newly presented, then one attempt to accept. -/
def execRequestAccept (presented : List Request) (s : State) : Host.Outcome State Fault Refusal :=
  .next (s.setPort (presented.foldl FabricPort.present s.port)).accept

/-! ### Completions of a request's items (R17, R18) -/

/-- An entry of the table changed. -/
def FabricPort.change (p : FabricPort) (n : Nat) (f : Entry → Entry) : FabricPort :=
  { p with table := p.table.map fun e => if e.number = n then f e else e }

/-- Beats of data put into an entry from a place on. -/
def Entry.fill (e : Entry) (first : Nat) (beats : List (List Byte)) : Entry :=
  { e with readData := beats.zipIdx.foldl (fun d q => d.set (first + q.2) (some q.1)) e.readData }

/-- A read operation of an entry completes with its data. -/
def Entry.readDone (e : Entry) (first : Nat) (beats : List (List Byte)) : Entry :=
  { e.fill first beats with opsLeft := e.opsLeft - 1 }

/-- A plain write operation of an entry completes. -/
def Entry.writeDone (e : Entry) : Entry := { e with opsLeft := e.opsLeft - 1 }

/-- The Compositor returns one beat of an entry. -/
def Entry.compositeDone (e : Entry) (position : Nat) (bytes : List Byte) : Entry :=
  { e.fill position [bytes] with compositesLeft := e.compositesLeft - 1 }

/-- A beat of zeros (R8). -/
def zeroBeat : List Byte := List.replicate 32 0

/-- The response of an entry (Table 1-4). -/
def Entry.response (e : Entry) : Response :=
  match e.treatment with
  | .normal => ⟨.ok, if e.request.write then [] else e.readData.map (·.getD zeroBeat)⟩
  | .decodeError => ⟨.decodeError, if e.request.write then [] else List.replicate e.request.beats zeroBeat⟩
  | .protected' => ⟨.protected', []⟩

/-- RESPONSE_RETURN (R17): the oldest entry of an initiator, if it is READY, returns its response and leaves the table;
nothing otherwise. -/
def execResponseReturn (initiator : Nat) (s : State) : Host.Outcome State Fault Refusal :=
  match s.port.table.find? (fun e => e.request.initiator == initiator) with
  | none => .next s
  | some e =>
    if e.ready then
      .next (s.setPort { s.port with
        table := s.port.table.filter fun q => q.number != e.number
        returnPath := tset s.port.returnPath initiator (some e.response) })
    else .next s

/-! ### Frame starts (R20) -/

/-- A frame start on its way to every unit (log 27). -/
def FrameDue.push (d : FrameDue) (f : FrameNo) : FrameDue :=
  ⟨d.render ++ [f], d.rotation ++ [f], d.capture ++ [f], d.playout ++ [f], d.message ++ [f], d.status ++ [f]⟩

/-- FRAME_START (R20): not counted while RESET is held. -/
def execFrameStart (s : State) : Host.Outcome State Fault Refusal :=
  if s.lines.resetHeld then .next s
  else
    let f := s.classifier.frame + 1
    .next ((s.setClassifier { s.classifier with frame := f }).setTransit { s.transit with due := s.transit.due.push f })

end Sys2Proof.Machine
end

