-- ==== Sys2Proof/Machine/Compositing.lean ====
section
/-! DEFINITION. The Compositor (chapter 2): the zone table, the source of a beat, window fetches, blending, completion and
delivery events. -/

namespace Sys2Proof.Machine

open Sys2Proof

/-! ### The zone table (R21-R23) -/

/-- SET_ZONE (R22). -/
def execSetZone (zone x y width height rank kind : Nat) (s : State) : Host.Outcome State Fault Refusal :=
  let z := zoneAt s.compositor.zones zone
  carryOut (.setZone zone x y width height rank kind) s <|
    match s.classifier.canvas with
    | none => .refused .wrongState
    | some c =>
      match zoneKindOf kind with
      | none => .refused .badArgument
      | some k =>
        if 7 < zone ∨ 7 < rank ∨ x % 8 ≠ 0 ∨ width % 8 ≠ 0 ∨ width = 0 ∨ height = 0 ∨ c.width < x + width ∨
            c.height < y + height then .refused .badArgument
        else
          let kept := k == .replay && (z.config.map (·.kind)) == some ZoneKind.replay
          let z1 : Zone := ⟨true, some ⟨⟨x, y, width, height⟩, rank, k⟩, if kept then z.bound else none⟩
          .done (s.setCompositor { s.compositor with zones := tset s.compositor.zones zone z1 }) 0 0

/-- ZONE_OFF (R23). -/
def execZoneOff (zone : Nat) (s : State) : Host.Outcome State Fault Refusal :=
  let z := zoneAt s.compositor.zones zone
  carryOut (.zoneOff zone) s <|
    if 7 < zone then .refused .badArgument
    else .done (s.setCompositor { s.compositor with zones := tset s.compositor.zones zone { z with enabled := false } }) 0 0

/-! ### The source of a beat (R25-R29) -/

/-- A pixel position lies in a rectangle. -/
def Rect.holds (r : Rect) (line column : Nat) : Bool :=
  r.y ≤ line && line < r.y + r.height && r.x ≤ column && column < r.x + r.width

/-- What an active zone shows: the channel's slot, or the sponsor's art frame (R25). -/
inductive Shown where
  | replay (channel : Channel)
  | sponsor (art : Art) (frame : Nat)
  deriving DecidableEq, Repr

/-- What a zone shows, if it is active (R25, R84). -/
def State.zoneShows (s : State) (z : Nat) : Option Shown :=
  let zone := zoneAt s.compositor.zones z
  match zone.config.map ZoneConfig.kind with
  | none => none
  | some .replay =>
    match zone.bound with
    | none => none
    | some c => if (s.channel c).state = .idle then none else some (.replay (s.channel c))
  | some .sponsor =>
    let showing := (s.rotation.zone z).showing
    match showing.sponsor with
    | none => none
    | some n =>
      match (s.rotation.sponsor n).art with
      | none => none
      | some a => some (.sponsor a (showing.shown % a.frames))

/-- The zone covers a beat (R25). -/
def Zone.covers (z : Zone) (line column : Nat) : Bool :=
  z.enabled && match z.config with
    | some c => c.rect.holds line column
    | none => false

/-- Of two covering zones, given by number, the one on top (R25). -/
def State.above (s : State) (p q : Nat) : Bool :=
  let rank := fun n => ((zoneAt s.compositor.zones n).config.map (·.rank)).getD 0
  rank q < rank p || (rank p == rank q && q < p)

/-- The topmost of the zones of a list. -/
def State.topmost (s : State) : List Nat → Option Nat
  | [] => none
  | z :: zs =>
    match s.topmost zs with
    | none => some z
    | some y => if s.above z y then some z else some y

/-- The zone that gives a beat: the topmost covering zone that is active (R25). -/
def State.giver (s : State) (line column : Nat) : Option Nat :=
  s.topmost ((List.range 8).filter fun z =>
    (zoneAt s.compositor.zones z).covers line column && (s.zoneShows z).isSome)

/-- Where a beat comes from: the address of its base fetch, none for a black beat, and the zone and zone line it is a delivered
beat of, if any (R26-R29, R35). -/
structure BeatSource where
  base : Option Nat
  delivered : Option (Nat × Nat)
  deriving DecidableEq, Repr

/-- The source of a beat given by a REPLAY zone at a zone line and column (R26, R27). A channel always holds a clip whose entry
names a slot of the placed pool; a channel that does not, which no run reaches, gives a black beat (log 32). -/
def State.replaySource (s : State) (x : Channel) (line column : Nat) : BeatSource :=
  match x.clip.bind s.capture.clip, s.capture.pool with
  | some clip, some pool =>
    match clip.entries[x.position]? with
    | none => ⟨none, none⟩
    | some e =>
      if clip.height ≤ line + x.cropY ∨ clip.width ≤ column + x.cropX then ⟨none, none⟩
      else
        ⟨some (pool.base + e.slot * pool.stride + (line + x.cropY) * (clip.width * 4) + (column + x.cropX) * 4), none⟩
  | _, _ => ⟨none, none⟩

/-- The source of a beat given by a SPONSOR zone at a zone line and column (R28). -/
def artSource (z : Nat) (a : Art) (frame line column : Nat) : BeatSource :=
  let addr := a.base + frame * a.stride + line * a.pitch + column * 4
  if a.height ≤ line ∨ a.width ≤ column ∨ Config.dramBytes ≤ addr then ⟨none, none⟩ else ⟨some addr, some (z, line)⟩

/-- The source of a composited beat (R25-R29). -/
def State.beatSource (s : State) (q : CompositeRequest) : BeatSource :=
  match s.giver q.line q.column with
  | none => ⟨some q.addr, none⟩
  | some z =>
    let origin := ((zoneAt s.compositor.zones z).config.map (·.rect)).getD default
    let line := q.line - origin.y
    let column := q.column - origin.x
    match s.zoneShows z with
    | some (.replay x) => s.replaySource x line column
    | some (.sponsor a f) => artSource z a f line column
    | none => ⟨some q.addr, none⟩

/-! ### Windows over a beat (R30, R31) -/

/-- A window as the Compositor takes it for a beat, before its fetches are numbered: the layer, its z, and the first byte and
the number of bytes of its window pixels in the buffer. -/
structure Overlay where
  z : Nat
  layer : Layer
  first : Nat
  bytes : Nat
  deriving DecidableEq, Repr

/-- A window crosses a pixel (R30). -/
def Rect.crosses (r : Rect) (line column : Nat) : Bool := r.holds line column

/-- What a window lays over a beat: nothing where it is not shown, its fade is 0 or it crosses none of the 8 pixels (R30,
R31). R30 gives a pixel past the end of a strip the window's background, and R41 shows a new background from the next flip: the
background here is the one the front image was drawn over (DESIGN CHOICE, unsafe: log 41). -/
def overlayOf (w : Window) (overlay n line column : Nat) : Option Overlay :=
  match w.config with
  | none => none
  | some c =>
    let r := c.rect
    if !w.shown || c.fade == 0 || !((List.range 8).any fun i => r.crosses line (column + i)) then none
    else
      let rec' := w.frontRecord
      let scroll := if c.kind = .ticker then w.scroll else 0
      let base := overlay + n * Config.windowBytes + w.front.number * Config.bufferBytes
      let left := max r.x column
      let right := min (r.x + r.width) (column + 8)
      let u := left - r.x + scroll
      let count := min (right - left) (rec'.imageWidth - u)
      let first := base + ((line - r.y) * rec'.imageWidth + u) * 4
      some ⟨c.z, ⟨r, scroll, rec'.imageWidth, base, rec'.background, c.fade, [], first / 32 * 32⟩, first, count * 4⟩

/-- The windows over a beat, in ascending window number. -/
def State.overlays (s : State) (line column : Nat) : List Overlay :=
  s.render.windows.toList.zipIdx.filterMap fun q => overlayOf q.1 (s.render.overlay.getD 0) q.2 line column

/-- A window put in its place in blend order: the lowest z first, and among equal z the lower window number first (R33). -/
def insertOverlay (o : Overlay) : List Overlay → List Overlay
  | [] => [o]
  | p :: ps => if o.z < p.z then o :: p :: ps else p :: insertOverlay o ps

/-- The windows over a beat in blend order. -/
def blendOrder (os : List Overlay) : List Overlay := os.foldl (fun acc o => insertOverlay o acc) []

/-- The pieces of a window fetch (R24, R31). -/
def Overlay.pieces (o : Overlay) : List (Nat × Nat) :=
  let c := coveringBeats o.first o.bytes
  transferPieces c.1 c.2

/-- Layers with their fetches numbered from `n` on, and the pieces to fetch in that order. -/
def numberFetches : Nat → List Overlay → List Layer × List (Nat × Nat)
  | _, [] => ([], [])
  | n, o :: os =>
    let ps := o.pieces
    let rest := numberFetches (n + ps.length) os
    ({ o.layer with fetches := (List.range ps.length).map (n + ·) } :: rest.1, ps ++ rest.2)

/-! ### Working out a request (R24) -/

/-- A composite request worked out: its record, the pieces to fetch (the base first) and what it delivers. -/
structure WorkedOut where
  working : Working
  fetches : List (Nat × Nat)
  delivered : Option (Nat × Nat)
  deriving DecidableEq, Repr

/-- The request worked out against the state as it stands (R24-R31). -/
def State.workOut (s : State) (q : CompositeRequest) : WorkedOut :=
  let src := s.beatSource q
  let basePieces := match src.base with
    | some a => [(a, 1)]
    | none => []
  let layers := numberFetches basePieces.length (blendOrder (s.overlays q.line q.column))
  let fetches := basePieces ++ layers.2
  { working :=
      { number := s.compositor.nextWorking, request := q, base := src.base.map (fun _ => 0), layers := layers.1,
        fetchesLeft := fetches.length, got := [] }
    fetches := fetches
    delivered := src.delivered }

/-! ### Completion (R33, R34) -/

/-- A window's pixel for a canvas pixel it crosses (R30). -/
def Layer.pixel (l : Layer) (got : List (Nat × List Byte)) (line column : Nat) : Pixel :=
  let u := column - l.rect.x + l.scroll
  if l.imageWidth ≤ u then l.background
  else
    let bytes := l.fetches.flatMap fun n => (got.lookup n).getD []
    pixelAt bytes (l.bufferBase + ((line - l.rect.y) * l.imageWidth + u) * 4 - l.from')

/-- A window laid over one pixel, if it crosses it (R33). -/
def Layer.over (l : Layer) (got : List (Nat × List Byte)) (line column : Nat) (under : Pixel) : Pixel :=
  if l.rect.crosses line column then layOver (l.pixel got line column) under l.fade else under

/-- The 8 base pixels: read by the base fetch, or black (R34). -/
def Working.basePixel (w : Working) (i : Nat) : Pixel :=
  match w.base with
  | some n => pixelAt ((w.got.lookup n).getD []) (4 * i)
  | none => Pixel.black

/-- The 32 bytes of a complete composite request (R34). -/
def Working.beat (w : Working) : List Byte :=
  (List.range 8).flatMap fun i =>
    (w.layers.foldl (fun px l => l.over w.got w.request.line (w.request.column + i) px) (w.basePixel i)).bytes

/-! ### Delivery events (R35) -/

/-- One delivered beat counted into a note's counts. A pair of zone and zone line is sent once: one that a SET-ZONE between two
beats brings to a second canvas line keeps the canvas line it was first counted on (DESIGN CHOICE, unsafe: log 42). -/
def countDelivered (zone zoneLine canvasLine : Nat) : List Delivered → List Delivered
  | [] => [⟨zone, zoneLine, canvasLine, 1⟩]
  | d :: ds =>
    if d.zone = zone ∧ d.zoneLine = zoneLine then { d with beats := d.beats + 1 } :: ds
    else d :: countDelivered zone zoneLine canvasLine ds

/-- The note of a fabric request with a delivered beat of it counted. -/
def DeliveryNote.count (n : DeliveryNote) (q : CompositeRequest) (delivered : Option (Nat × Nat)) : DeliveryNote :=
  match delivered with
  | some (zone, line) => if n.entry = q.entry then { n with counts := countDelivered zone line q.line n.counts } else n
  | none => n

/-- A count put in its place: by canvas line, then by zone number (R35). Two zone lines of one zone on one canvas line, which a
SET-ZONE between two beats can bring, keep the order in which they were first counted (DESIGN CHOICE, unsafe: log 42). -/
def insertDelivered (d : Delivered) : List Delivered → List Delivered
  | [] => [d]
  | e :: es =>
    if d.canvasLine < e.canvasLine ∨ (d.canvasLine = e.canvasLine ∧ d.zone < e.zone) then d :: e :: es
    else e :: insertDelivered d es

/-- The delivery events of a note, in the order they are sent (R35), in the show frame given. -/
def DeliveryNote.events (n : DeliveryNote) (frame : FrameNo) : List Delivery :=
  (n.counts.foldl (fun acc d => insertDelivered d acc) []).map fun d => ⟨d.zone, d.zoneLine, d.beats, frame⟩

/-- One composite request of an entry is complete: with its last one the note is used up and its events are sent (R35). -/
def State.noteDone (s : State) (entry : Nat) : State :=
  match s.compositor.notes.find? (fun n => n.entry == entry) with
  | none => s
  | some n =>
    if n.requestsLeft ≤ 1 then
      (s.setCompositor { s.compositor with notes := s.compositor.notes.filter fun m => m.entry != entry }).sendDeliveries
        (n.events s.classifier.frame)
    else
      s.setCompositor { s.compositor with
        notes := s.compositor.notes.map fun m =>
          if m.entry = entry then { m with requestsLeft := m.requestsLeft - 1 } else m }

/-- A complete composite request returns its beat and is counted off (R34, R35). -/
def State.compositeComplete (s : State) (w : Working) : State :=
  (s.setPort (s.port.change w.request.entry (fun e => e.compositeDone w.request.position w.beat))).noteDone w.request.entry

/-! ### The Compositor's steps -/

/-- The head composite request, worked out, leaves the queue with its fetches entered, or stays and waits for places; one with
no fetch completes at once (R24, R34, R156). -/
def State.compositorWork (s : State) : State :=
  match s.compositor.queue with
  | [] => s.setScheduler (s.scheduler.leaveWait .compositor)
  | q :: rest =>
    let w := s.workOut q
    let n := w.working.number
    if s.scheduler.mayEnter .compositor w.fetches.length then
      let left := { s.compositor with
        queue := rest
        notes := s.compositor.notes.map fun m => m.count q w.delivered
        nextWorking := n + 1 }
      if w.fetches.isEmpty then
        ((s.setCompositor left).setScheduler (s.scheduler.leaveWait .compositor)).compositeComplete w.working
      else
        let ops := w.fetches.zipIdx.map fun p => newRead (.compositor n p.2) .scanout p.1.1 p.1.2
        (s.setCompositor { left with working := s.compositor.working ++ [w.working] }).setScheduler
          (s.scheduler.enterFor .compositor ops)
    else s.setScheduler (s.scheduler.joinWait .compositor)

/-- COMPOSITE_WORK_OUT (R24); nothing where the queue is empty. -/
def execCompositeWorkOut (s : State) : Host.Outcome State Fault Refusal := .next s.compositorWork

/-- A fetch of a composite request completes with its data (R34). -/
def State.compositorFetched (s : State) (working fetch : Nat) (bytes : List Byte) : State :=
  match s.compositor.working.find? (fun w => w.number == working) with
  | none => s
  | some w =>
    let w1 := { w with fetchesLeft := w.fetchesLeft - 1, got := (fetch, bytes) :: w.got }
    if w1.fetchesLeft = 0 then
      (s.setCompositor { s.compositor with
        working := s.compositor.working.filter fun v => v.number != working }).compositeComplete w1
    else
      s.setCompositor { s.compositor with
        working := s.compositor.working.map fun v => if v.number = working then w1 else v }

end Sys2Proof.Machine
end

