-- ==== Sys2Proof/Machine/Completion.lean ====
section
/-! DEFINITION. The steps of the Memory Scheduler as the rest of the part sees them (chapter 9): the completion of a burst handed
to its owner, the entry of a waiting unit, and the events of banks, refresh and initialisation. -/

namespace Sys2Proof.Machine

open Sys2Proof

/-- The scheduler's own part of a step. -/
def State.scheduled (s : State) (d : Scheduler) : Host.Outcome State Fault Refusal := .next (s.setScheduler d)

/-! ### Completions handed to their owners (R160) -/

/-- A list cut into beats of 32 bytes. -/
def beatsIn (count : Nat) (bs : List Byte) : List (List Byte) := (List.range count).map fun k => slice bs (32 * k) 32

/-- The snooped values of a completed write handed on (R12). -/
def State.handSnooped (s : State) (index consumer : Option Count) : State :=
  s.setTransit { s.transit with
    indexes := s.transit.indexes ++ index.toList
    consumers := s.transit.consumers ++ consumer.toList }

/-- A read of the job in flight completes: with the last one the job turns to its writes (R53). -/
def RenderEngine.readDone (r : RenderEngine) (job piece : Nat) (bs : List Byte) : RenderEngine :=
  match r.job with
  | some j =>
    if j.number = job then
      ({ r with job := some { j with readsLeft := j.readsLeft - 1, got := (piece, bs) :: j.got } } : RenderEngine).turnToWrites
    else r
  | none => r

/-- A write of the job in flight completes (R54). -/
def RenderEngine.writeDone (r : RenderEngine) (job : Nat) : RenderEngine :=
  match r.job with
  | some j => if j.number = job then { r with job := some { j with writesLeft := j.writesLeft - 1 } } else r
  | none => r

/-- A piece of the index table of the font being loaded completes (R47). -/
def RenderEngine.fontDone (r : RenderEngine) (load piece : Nat) (bs : List Byte) : RenderEngine :=
  match r.load with
  | some l =>
    if l.number = load then { r with load := some { l with piecesLeft := l.piecesLeft - 1, got := (piece, bs) :: l.got } } else r
  | none => r

/-- An operation's completion handed to its owner, with the bytes read (R160). An owner that no longer waits for it takes no
notice (R58). -/
def State.complete (s : State) (op : Operation) (bs : List Byte) : State :=
  match op.owner with
  | .fabricRead entry first => s.setPort (s.port.change entry fun e => e.readDone first (beatsIn op.beats bs))
  | .fabricWrite entry index consumer => (s.setPort (s.port.change entry Entry.writeDone)).handSnooped index consumer
  | .mirror => s
  | .compositor working fetch => s.compositorFetched working fetch bs
  | .renderRead job piece => s.setRender (s.render.readDone job piece bs)
  | .renderWrite job => s.setRender (s.render.writeDone job)
  | .fontRead load piece => s.setRender (s.render.fontDone load piece bs)
  | .recordFetch => s.recordFetched bs
  | .payloadFetch piece => s.payloadFetched piece bs
  | .reportWrite => s
  | .statusWrite => s

/-- The bytes of a READ as frame DRAM holds them at its burst. -/
def State.readOp (s : State) (op : Operation) : List Byte := if op.write then [] else s.bytesAt op.addr (32 * op.beats)

/-- Frame DRAM after a WRITE's burst: its enabled bytes stored (R13, R160). -/
def State.storeOp (s : State) (op : Operation) : State :=
  if op.write then s.setMem (memWriteBeats s.mem op.addr op.data) else s

/-- BURST_COMPLETE (R160): the operation leaves the queue, its data moves, its owner is handed the completion, the bank rule or
the refresh acts at its bank, the Render Engine enters the writes a job has turned to, and the next burst is chosen; nothing
where no burst is under way (log 29). -/
def execBurstComplete (s : State) : Host.Outcome State Fault Refusal :=
  match s.scheduler.bursting with
  | none => .next s
  | some op =>
    let bs := s.readOp op
    let s1 := (s.storeOp op).setScheduler (s.scheduler.removeOp op.order)
    let s2 := s1.complete op bs
    let s3 := (s2.setScheduler (s2.scheduler.afterBurst (bankOf op.addr))).renderEnter
    s3.scheduled s3.scheduler.chooseBurst

/-! ### The entry of a waiting unit (R156) -/

/-- WAITING_UNIT_ENTRY (R156): the unit that has waited longest enters, if the places it needs are free; nothing where no unit
waits. -/
def execWaitingUnitEntry (s : State) : Host.Outcome State Fault Refusal :=
  match s.scheduler.waiters.head? with
  | none => .next s
  | some .port => .next s.accept
  | some .compositor => .next s.compositorWork
  | some .render => .next s.renderEnter
  | some .reader => .next s.readerEnter
  | some .writer => .next s.writerEnter

/-! ### Banks, ageing, refresh, initialisation (R158, R161-R166) -/

/-- ACTIVATE_COMPLETE (R158); nothing where no activate of the bank is under way. -/
def execActivateComplete (bank : Nat) (s : State) : Host.Outcome State Fault Refusal :=
  s.scheduled (s.scheduler.activateDone bank)

/-- PRECHARGE_COMPLETE (R158); nothing where no precharge of the bank is under way. -/
def execPrechargeComplete (bank : Nat) (s : State) : Host.Outcome State Fault Refusal :=
  s.scheduled (s.scheduler.prechargeDone bank)

/-- AGEING_PROMOTION (R161): the oldest promotion on its way arrives at its bank and the data path (log 34). -/
def execAgeingPromotion (s : State) : Host.Outcome State Fault Refusal := s.scheduled s.scheduler.promotionDone

/-- REFRESH_INTERVAL (R162). -/
def execRefreshInterval (s : State) : Host.Outcome State Fault Refusal := s.scheduled s.scheduler.intervalEvent

/-- IDLE_REFRESH_START (R163); nothing where its conditions do not hold (log 30). -/
def execIdleRefreshStart (s : State) : Host.Outcome State Fault Refusal := s.scheduled s.scheduler.idleRefresh

/-- REFRESH_COMPLETE (R165); nothing where no refresh is under way. -/
def execRefreshComplete (s : State) : Host.Outcome State Fault Refusal := s.scheduled s.scheduler.refreshDone

/-- DRAM_INIT_STEP_COMPLETE (R166): the step under way completes; with the last one the Fabric Port is told. -/
def execDramInitStepComplete (s : State) : Host.Outcome State Fault Refusal :=
  let d := s.scheduler.initStepDone
  (s.setPort { s.port with initDone := s.port.initDone || s.scheduler.init == .modeSetting }).scheduled d

end Sys2Proof.Machine
end

