-- ==== Sys2Proof/Machine/Resets.lean ====
section
/-! DEFINITION. The power-on reset and the release of RESET (R168, R180). -/

namespace Sys2Proof.Machine

open Sys2Proof

/-- POWER_ON_RESET (R180): RESET held, every unit at its power-on values, everything on its way discarded, frame DRAM undefined.
The requests the initiators go on presenting stay presented (R16; log 10), and so does the queue of steps. -/
def execPowerOnReset (s : State) : Host.Outcome State Fault Refusal :=
  .next (State.powerOn { s.lines with resetHeld := true } s.port.presented (s.powerOns + 1) s.pending)

/-- RESET_RELEASE (R168): the straps sampled are kept, the strap initiator is CONTROL, DRAM initialisation begins (R166);
nothing where RESET is not held. -/
def execResetRelease (aperture : BitVec 5) (control : BitVec 4) (s : State) : Host.Outcome State Fault Refusal :=
  if s.lines.resetHeld then
    let straps : Straps := ⟨aperture, control⟩
    let s1 : State := { s with lines := { s.lines with resetHeld := false, strapPins := straps } }
    .next ((s1.setClassifier { s1.classifier with straps := straps, roles := rolesAtReset straps }).setScheduler
      { s1.scheduler with init := .prechargeAll })
  else .next s

end Sys2Proof.Machine
end

