-- ==== Sys2Proof/Machine/Dispatch.lean ====
section
/-! DEFINITION. One arm for each command: one direct call of its meaning. -/

namespace Sys2Proof.Machine

open Sys2Proof

def exec (i : Instr) (s : State) : Host.Outcome State Fault Refusal :=
  match i with
  | .frameStart => Sys2Proof.Machine.execFrameStart s
  | .resetRelease aperture control => Sys2Proof.Machine.execResetRelease aperture control s
  | .powerOnReset => Sys2Proof.Machine.execPowerOnReset s
  | .msTick run play => Sys2Proof.Machine.execMsTick run play s
  | .contactAccept contact level => Sys2Proof.Machine.execContactAccept contact level s
  | .periodEnd => Sys2Proof.Machine.execPeriodEnd s
  | .playExpiry => Sys2Proof.Machine.execPlayExpiry s
  | .penaltyDone team => Sys2Proof.Machine.execPenaltyDone team s
  | .fieldNotice => Sys2Proof.Machine.execFieldNotice s
  | .gameEvent => Sys2Proof.Machine.execGameEvent s
  | .replayStartEvent => Sys2Proof.Machine.execReplayStartEvent s
  | .requestAccept presented => Sys2Proof.Machine.execRequestAccept presented s
  | .responseReturn initiator => Sys2Proof.Machine.execResponseReturn initiator s
  | .mirrorNotice source offset beats => Sys2Proof.Machine.execMirrorNotice source offset beats s
  | .compositeWorkOut => Sys2Proof.Machine.execCompositeWorkOut s
  | .deliveryEvent => Sys2Proof.Machine.execDeliveryEvent s
  | .renderFrameStart => Sys2Proof.Machine.execRenderFrameStart s
  | .stripPassed window => Sys2Proof.Machine.execStripPassed window s
  | .renderJobStart => Sys2Proof.Machine.execRenderJobStart s
  | .renderJobComplete => Sys2Proof.Machine.execRenderJobComplete s
  | .fontLoadFinish => Sys2Proof.Machine.execFontLoadFinish s
  | .rotationFrameStart => Sys2Proof.Machine.execRotationFrameStart s
  | .holdEnd => Sys2Proof.Machine.execHoldEnd s
  | .turnEnd zone => Sys2Proof.Machine.execTurnEnd zone s
  | .featureEnd zone => Sys2Proof.Machine.execFeatureEnd zone s
  | .captureTick => Sys2Proof.Machine.execCaptureTick s
  | .addUser clip => Sys2Proof.Machine.execAddUser clip s
  | .removeUser clip => Sys2Proof.Machine.execRemoveUser clip s
  | .markRelease clip => Sys2Proof.Machine.execMarkRelease clip s
  | .playoutFrameStart => Sys2Proof.Machine.execPlayoutFrameStart s
  | .channelMove channel => Sys2Proof.Machine.execChannelMove channel s
  | .messageFrameStart => Sys2Proof.Machine.execMessageFrameStart s
  | .messageExpiry => Sys2Proof.Machine.execMessageExpiry s
  | .staticShowEnd => Sys2Proof.Machine.execStaticShowEnd s
  | .flipNotice => Sys2Proof.Machine.execFlipNotice s
  | .stripPassedNotice => Sys2Proof.Machine.execStripPassedNotice s
  | .waitingUnitEntry => Sys2Proof.Machine.execWaitingUnitEntry s
  | .activateComplete bank => Sys2Proof.Machine.execActivateComplete bank s
  | .prechargeComplete bank => Sys2Proof.Machine.execPrechargeComplete bank s
  | .burstComplete => Sys2Proof.Machine.execBurstComplete s
  | .ageingPromotion => Sys2Proof.Machine.execAgeingPromotion s
  | .refreshInterval => Sys2Proof.Machine.execRefreshInterval s
  | .idleRefreshStart => Sys2Proof.Machine.execIdleRefreshStart s
  | .refreshComplete => Sys2Proof.Machine.execRefreshComplete s
  | .dramInitStepComplete => Sys2Proof.Machine.execDramInitStepComplete s
  | .commandIndexWrite => Sys2Proof.Machine.execCommandIndexWrite s
  | .reportConsumerWrite => Sys2Proof.Machine.execReportConsumerWrite s
  | .commandTake => Sys2Proof.Machine.execCommandTake s
  | .commandFetchComplete => Sys2Proof.Machine.execCommandFetchComplete s
  | .commandEnd => Sys2Proof.Machine.execCommandEnd s
  | .reportArrival => Sys2Proof.Machine.execReportArrival s
  | .heldReportWrite => Sys2Proof.Machine.execHeldReportWrite s
  | .statusBlockWrite => Sys2Proof.Machine.execStatusBlockWrite s
  | .setRole initiator role source => Sys2Proof.Machine.execSetRole initiator role source s
  | .setCanvas base width height pitch => Sys2Proof.Machine.execSetCanvas base width height pitch s
  | .setOverlayStore base => Sys2Proof.Machine.execSetOverlayStore base s
  | .setPool base count stride => Sys2Proof.Machine.execSetPool base count stride s
  | .setZone zone x y width height rank kind => Sys2Proof.Machine.execSetZone zone x y width height rank kind s
  | .zoneOff zone => Sys2Proof.Machine.execZoneOff zone s
  | .setWindow window x y width height z fade occluding background kind => Sys2Proof.Machine.execSetWindow window x y width height z fade occluding background kind s
  | .showWindow window => Sys2Proof.Machine.execShowWindow window s
  | .hideWindow window => Sys2Proof.Machine.execHideWindow window s
  | .setFade window fade => Sys2Proof.Machine.execSetFade window fade s
  | .setRun window run x y box align colour opacity kind team line payload => Sys2Proof.Machine.execSetRun window run x y box align colour opacity kind team line payload s
  | .clearRun window run => Sys2Proof.Machine.execClearRun window run s
  | .setImage window addr pitch width height => Sys2Proof.Machine.execSetImage window addr pitch width height s
  | .loadFont base count advance => Sys2Proof.Machine.execLoadFont base count advance s
  | .clockStart => Sys2Proof.Machine.execClockStart s
  | .clockStop => Sys2Proof.Machine.execClockStop s
  | .clockSet value => Sys2Proof.Machine.execClockSet value s
  | .clockMode mode direction threshold => Sys2Proof.Machine.execClockMode mode direction threshold s
  | .setPreset preset => Sys2Proof.Machine.execSetPreset preset s
  | .nextPeriod => Sys2Proof.Machine.execNextPeriod s
  | .setContact contact polarity => Sys2Proof.Machine.execSetContact contact polarity s
  | .playMode mode preset => Sys2Proof.Machine.execPlayMode mode preset s
  | .playStart => Sys2Proof.Machine.execPlayStart s
  | .playStop => Sys2Proof.Machine.execPlayStop s
  | .playSet value => Sys2Proof.Machine.execPlaySet value s
  | .playReset => Sys2Proof.Machine.execPlayReset s
  | .penaltyAdd team player time => Sys2Proof.Machine.execPenaltyAdd team player time s
  | .penaltyCancel team player => Sys2Proof.Machine.execPenaltyCancel team player s
  | .penaltyClear team => Sys2Proof.Machine.execPenaltyClear team s
  | .setConcurrency team limit => Sys2Proof.Machine.execSetConcurrency team limit s
  | .scoreSet team score => Sys2Proof.Machine.execScoreSet team score s
  | .scoreAdd team delta => Sys2Proof.Machine.execScoreAdd team delta s
  | .setTimeouts team count => Sys2Proof.Machine.execSetTimeouts team count s
  | .timeout team => Sys2Proof.Machine.execTimeout team s
  | .setSponsor sponsor mask dwell periodTarget breakTarget cap payload => Sys2Proof.Machine.execSetSponsor sponsor mask dwell periodTarget breakTarget cap payload s
  | .setLevel sponsor level => Sys2Proof.Machine.execSetLevel sponsor level s
  | .holdRotation frames => Sys2Proof.Machine.execHoldRotation frames s
  | .setTrigger entry kind argument sponsor zone level dwell => Sys2Proof.Machine.execSetTrigger entry kind argument sponsor zone level dwell s
  | .clearTrigger entry => Sys2Proof.Machine.execClearTrigger entry s
  | .fireFeature entry => Sys2Proof.Machine.execFireFeature entry s
  | .setNesting zone flag => Sys2Proof.Machine.execSetNesting zone flag s
  | .setSegmentPlan periodFrames breakFrames => Sys2Proof.Machine.execSetSegmentPlan periodFrames breakFrames s
  | .closeSegment => Sys2Proof.Machine.execCloseSegment s
  | .setSource source base width height capacity => Sys2Proof.Machine.execSetSource source base width height capacity s
  | .captureStart source => Sys2Proof.Machine.execCaptureStart source s
  | .captureStop source => Sys2Proof.Machine.execCaptureStop source s
  | .markClip clip source first last => Sys2Proof.Machine.execMarkClip clip source first last s
  | .dropClip clip => Sys2Proof.Machine.execDropClip clip s
  | .bindZone zone channel => Sys2Proof.Machine.execBindZone zone channel s
  | .setCrop channel x y => Sys2Proof.Machine.execSetCrop channel x y s
  | .cue channel clip position endAction => Sys2Proof.Machine.execCue channel clip position endAction s
  | .markAndCue channel source back playFlag => Sys2Proof.Machine.execMarkAndCue channel source back playFlag s
  | .play channel => Sys2Proof.Machine.execPlay channel s
  | .pause channel => Sys2Proof.Machine.execPause channel s
  | .step channel count => Sys2Proof.Machine.execStep channel count s
  | .setSpeed channel step reps => Sys2Proof.Machine.execSetSpeed channel step reps s
  | .stop channel => Sys2Proof.Machine.execStop channel s
  | .postMessage id priority reps minShow expiry payload => Sys2Proof.Machine.execPostMessage id priority reps minShow expiry payload s
  | .approveMessage id => Sys2Proof.Machine.execApproveMessage id s
  | .rejectMessage id => Sys2Proof.Machine.execRejectMessage id s
  | .withdrawMessage id => Sys2Proof.Machine.execWithdrawMessage id s
  | .setTicker window speed => Sys2Proof.Machine.execSetTicker window speed s
  | .resetUnits => Sys2Proof.Machine.execResetUnits s

end Sys2Proof.Machine
end

