-- ==== Sys2Proof/Safety.lean ====
section
/-! DEFINITION. What a safe step is, what a step leaves alone, how a control command is answered, and the invariants that every
step keeps: the terms the claims are stated in. -/

namespace Sys2Proof.Machine

open Sys2Proof

/-! ### Safe steps -/

/-- A step is safe when it answers a next state. -/
def State.Safe (s : State) : Prop := ∃ t, step s = .next t

/-! ### Frames -/

/-- The parts of the state. -/
inductive Part where
  | lines
  | port
  | classifier
  | compositor
  | render
  | timing
  | rotation
  | capture
  | playout
  | messages
  | scheduler
  | reader
  | writer
  | transit
  | memory
  | pending
  deriving DecidableEq, Repr

/-- Two states agree on a part. Memory is compared byte by byte, as it reads. -/
def State.agrees (s t : State) : Part → Prop
  | .lines => t.lines = s.lines
  | .port => t.port = s.port
  | .classifier => t.classifier = s.classifier
  | .compositor => t.compositor = s.compositor
  | .render => t.render = s.render
  | .timing => t.timing = s.timing
  | .rotation => t.rotation = s.rotation
  | .capture => t.capture = s.capture
  | .playout => t.playout = s.playout
  | .messages => t.messages = s.messages
  | .scheduler => t.scheduler = s.scheduler
  | .reader => t.reader = s.reader
  | .writer => t.writer = s.writer
  | .transit => t.transit = s.transit
  | .memory => ∀ a, t.byteAt a = s.byteAt a
  | .pending => t.pending = s.pending

/-- Every part but those listed reads after as it read before. -/
def Frame (changed : List Part) (s t : State) : Prop := ∀ p, p ∉ changed → s.agrees t p

/-! ### How a control command is answered (R172, R173) -/

/-- A command is carried out with two results. -/
def Does (cmd : Instr) (s : State) (result1 result2 : Nat) (t : State) : Prop :=
  exec cmd s = .next t ∧ t.reader = s.reader.answer cmd (.done result1 result2)

/-- A command is refused: the answer to the Command Reader is the one change. -/
def TurnedAway (cmd : Instr) (s : State) (r : Reason) : Prop :=
  exec cmd s = .next (s.setReader (s.reader.answer cmd (.refused r)))

/-- A command or event is carried out, and nothing but the parts listed changes. -/
def Completes (cmd : Instr) (changed : List Part) (s t : State) : Prop := exec cmd s = .next t ∧ Frame changed s t

/-- A control command is carried out with no results, and nothing but the parts listed and the Command Reader's answer changes. -/
def Carries (cmd : Instr) (changed : List Part) (s t : State) : Prop :=
  Does cmd s 0 0 t ∧ Frame (.reader :: changed) s t

/-- What a step of the Timing Unit sends: field notices, and the events and reports listed, behind what is on its way. -/
def TimingSends (s t : State) (events : List GameEvent) (reports : List Report) : Prop :=
  t.transit = { s.transit with
    notices := t.transit.notices
    events := s.transit.events ++ events
    reports := s.transit.reports ++ reports }

/-- The Timing Unit changes in one team's record alone, and in the strings made from it. -/
def OnlyTeam (s t : State) (team : Nat) : Prop :=
  t.timing = { s.timing with team0 := t.timing.team0, team1 := t.timing.team1, strings := t.timing.strings } ∧
    t.timing.team (1 - team) = s.timing.team (1 - team)

/-- A number written in decimal: digits as character codes, no leading zero, 0 as "0" (R72). -/
def Decimal (cs : List Nat) (n : Nat) : Prop :=
  cs ≠ [] ∧ (∀ c ∈ cs, 48 ≤ c ∧ c ≤ 57) ∧ (cs.head? = some 48 → cs = [48]) ∧ cs.foldl (fun m c => 10 * m + (c - 48)) 0 = n

/-- No two RUNNING entries of a list have one player (R74). -/
def RunsOnce (ps : List Penalty) : Prop :=
  ps.Pairwise fun p q => p.start.isSome = true → q.start.isSome = true → p.player ≠ q.player

/-- A list has been filled (R74): its entries stand, those RUNNING keep their starts, those started come last, each of a player that
did not run. The oldest eligible entry starts first: an entry still WAITING in front of a started one has its player RUNNING from an
earlier start, and the starts rise in posting order. The limit and the one RUNNING entry for each player are kept, and below the limit
every WAITING entry's player is RUNNING. -/
structure FilledFrom (limit : Nat) (before after : List Penalty) : Prop where
  entries : after.map (fun q => (q.player, q.remaining)) = before.map fun q => (q.player, q.remaining)
  kept : ∀ (k : Nat) (q : Penalty), before[k]? = some q → q.start.isSome = true → after[k]? = some q
  last : ∀ (k : Nat) (p q : Penalty), before[k]? = some p → p.start = none → after[k]? = some q → q.start.isSome = true →
    ∀ o ∈ before, o.start.getD 0 < q.start.getD 0
  fresh : ∀ (k : Nat) (p q : Penalty), before[k]? = some p → p.start = none → after[k]? = some q → q.start.isSome = true →
    playerRunning before q.player = false
  oldest : ∀ (j k : Nat) (o p q : Penalty), j < k → after[j]? = some o → o.start = none → before[k]? = some p → p.start = none →
    after[k]? = some q → q.start.isSome = true →
    ∃ r ∈ after, r.start.isSome = true ∧ r.player = o.player ∧ r.start.getD 0 < q.start.getD 0
  rises : ∀ (j k : Nat) (p p' q q' : Penalty), j < k → before[j]? = some p → p.start = none → after[j]? = some p' →
    p'.start.isSome = true → before[k]? = some q → q.start = none → after[k]? = some q' → q'.start.isSome = true →
    p'.start.getD 0 < q'.start.getD 0
  bound : runningCount before ≤ limit → runningCount after ≤ limit
  once : RunsOnce before → RunsOnce after
  full : ∀ q ∈ after, q.start = none → runningCount after < limit → playerRunning after q.player = true

/-- The RUNNING entries of the latest start positions have become WAITING until a limit is met, each in its place with its remaining
time (R77). -/
structure DemotedTo (limit : Nat) (before after : List Penalty) : Prop where
  places : after.length = before.length
  entries : ∀ (k : Nat) (q : Penalty), before[k]? = some q →
    after[k]? = some q ∨ (q.start.isSome = true ∧ after[k]? = some { q with start := none })
  count : runningCount after = limit
  latest : ∀ (j k : Nat) (p q r : Penalty), before[j]? = some p → after[j]? = some p → p.start.isSome = true →
    before[k]? = some q → q.start.isSome = true → after[k]? = some r → r.start = none → p.start.getD 0 ≤ q.start.getD 0

/-- The rows whose steps are the Timing Unit's own: its ticks, the parts of a tick, and its commands. -/
def isTimingStep : Instr → Bool
  | .msTick _ _ | .contactAccept _ _ | .periodEnd | .playExpiry | .penaltyDone _ => true
  | .clockStart | .clockStop | .clockSet _ | .clockMode _ _ _ | .setPreset _ | .nextPeriod | .setContact _ _ => true
  | .playMode _ _ | .playStart | .playStop | .playSet _ | .playReset => true
  | .penaltyAdd _ _ _ | .penaltyCancel _ _ | .penaltyClear _ | .setConcurrency _ _ => true
  | .scoreSet _ _ | .scoreAdd _ _ | .setTimeouts _ _ | .timeout _ => true
  | _ => false

/-! ### Requests and operations -/

/-- What an operation was entered for: its direction, address, beats, write data and owner. -/
def Operation.what (op : Operation) : Bool × Nat × Nat × List (List (Option Byte)) × Owner :=
  (op.write, op.addr, op.beats, op.data, op.owner)

/-- What the operation queue holds, oldest first. -/
def State.queued (s : State) : List (Bool × Nat × Nat × List (List (Option Byte)) × Owner) :=
  s.scheduler.queue.map Operation.what

/-- Two operations of which one is a WRITE share a beat: their column ranges overlap in the same row of the same bank (R157). -/
def Conflicts (p q : Operation) : Prop :=
  (p.write = true ∨ q.write = true) ∧ p.addr / 8192 = q.addr / 8192 ∧
    ∃ column, p.addr % 8192 / 32 ≤ column ∧ column < p.addr % 8192 / 32 + p.beats ∧
      q.addr % 8192 / 32 ≤ column ∧ column < q.addr % 8192 / 32 + q.beats

/-- The queue holds an earlier operation that an operation conflicts with: it is blocked (R157). -/
def Blocked (d : Scheduler) (op : Operation) : Prop := ∃ e ∈ d.queue, e.order < op.order ∧ Conflicts e op

/-- A WAITING operation of the queue that is not blocked and whose bank is ACTIVE on its row (R157). -/
def ReadyIn (d : Scheduler) (op : Operation) : Prop :=
  op ∈ d.queue ∧ op.inBurst = false ∧ ¬ Blocked d op ∧
    tget d.banks (op.addr / 8192 % 16) .idle = .active (op.addr / 131072)

/-- A WAITING operation of a bank that is not blocked is in the bank's claim: the oldest aged one alone, else the SCANOUT ones, else the
GENERAL ones (R159). -/
def Claims (d : Scheduler) (bank : Nat) (op : Operation) : Prop :=
  let waits := fun q : Operation => q ∈ d.queue ∧ q.inBurst = false ∧ q.addr / 8192 % 16 = bank ∧ ¬ Blocked d q
  waits op ∧
    ((op.passes = 32 ∧ ∀ q, waits q → q.passes = 32 → op.order ≤ q.order) ∨
      ((∀ q, waits q → q.passes ≠ 32) ∧ (op.cls = .scanout ∨ ∀ q, waits q → q.cls ≠ .scanout)))

/-- An operation of the queue once the burst of another has started: a WAITING GENERAL one entered earlier is passed over once more, and
aged at 32 (R161). -/
def passedBy (started : Nat) (e : Operation) : Operation :=
  if e.order = started then { e with inBurst := true }
  else if e.inBurst = false ∧ e.cls = .general ∧ e.order < started then
    { e with passes := e.passes + 1, cls := if e.passes = 31 then .scanout else .general }
  else e

/-- The data path, FREE before, has chosen among the operations that are ready with the banks as they are after (R160): the oldest ready
SCANOUT operation has started its burst, else the oldest ready GENERAL one, else none. -/
structure BurstChosen (before after : Scheduler) : Prop where
  scanout : ∀ op, ReadyIn { before with banks := after.banks } op → op.cls = .scanout →
    (∀ q, ReadyIn { before with banks := after.banks } q → q.cls = .scanout → op.order ≤ q.order) →
    after.queue = before.queue.map (passedBy op.order)
  general : ∀ op, ReadyIn { before with banks := after.banks } op →
    (∀ q, ReadyIn { before with banks := after.banks } q → q.cls = .general ∧ op.order ≤ q.order) →
    after.queue = before.queue.map (passedBy op.order)
  free : (∀ op, ¬ ReadyIn { before with banks := after.banks } op) → after.queue = before.queue

/-- What the bank rule leaves at a bank (R159): an IDLE bank begins an activate for the row of the oldest operation of its claim; an ACTIVE
one stays open while its claim holds an operation of its row, or a burst of the bank is under way, and else begins a precharge; a step
under way goes on. -/
structure BankRuled (d : Scheduler) (bank : Nat) (x : Bank) : Prop where
  opens : tget d.banks bank .idle = .idle → ∀ e, Claims d bank e → (∀ q, Claims d bank q → e.order ≤ q.order) →
    x = .activating (e.addr / 131072)
  idles : tget d.banks bank .idle = .idle → (∀ e, ¬ Claims d bank e) → x = .idle
  keeps : ∀ r e, tget d.banks bank .idle = .active r → Claims d bank e → e.addr / 131072 = r → x = .active r
  carries : ∀ r, ∀ e ∈ d.queue, tget d.banks bank .idle = .active r → e.inBurst = true → e.addr / 8192 % 16 = bank → x = .active r
  closes : ∀ r, tget d.banks bank .idle = .active r → (∀ e, Claims d bank e → e.addr / 131072 ≠ r) →
    (∀ e ∈ d.queue, e.inBurst = true → e.addr / 8192 % 16 ≠ bank) → x = .precharging
  activates : ∀ r, tget d.banks bank .idle = .activating r → x = .activating r
  precharges : tget d.banks bank .idle = .precharging → x = .precharging

/-- The data path at an arrival of R160: FREE, it has chosen its next burst; carrying one, it leaves the queue as it is. -/
structure DataPath (before after : Scheduler) : Prop where
  free : (∀ q ∈ before.queue, q.inBurst = false) → BurstChosen before after
  busy : (∃ q ∈ before.queue, q.inBurst = true) → after.queue = before.queue

/-- Operations have been entered at once (R156, R159, R160): they take the next places of the order of entry, WAITING and passed over by
none; the bank rule has been applied to their banks and to no other; and the data path has chosen. -/
structure Entered (before after : Scheduler) (ops : List Operation) : Prop where
  placed : ∀ k op, ops[k]? = some op → op.order = before.nextOrder + k ∧ op.passes = 0 ∧ op.inBurst = false
  ruled : ∀ bank, bank < 16 → (∃ op ∈ ops, op.addr / 8192 % 16 = bank) →
    BankRuled { before with queue := before.queue ++ ops } bank (tget after.banks bank .idle)
  others : ∀ bank, (∀ op ∈ ops, op.addr / 8192 % 16 ≠ bank) → tget after.banks bank .idle = tget before.banks bank .idle
  path : DataPath { before with queue := before.queue ++ ops } after

/-- Operations have been entered one after another, each where the one before it left the scheduler (R156); units may have begun or ended
their waits in between. -/
inductive EnteredInTurn : Scheduler → Scheduler → List Operation → Prop where
  | none (d e : Scheduler) (banks : e.banks = d.banks) (queue : e.queue = d.queue) : EnteredInTurn d e []
  | one (d m e : Scheduler) (op : Operation) (ops : List Operation) (first : Entered d m [op]) (next : m.nextOrder = d.nextOrder + 1)
      (rest : EnteredInTurn m e ops) : EnteredInTurn d e (op :: ops)

/-- The rows whose steps enter operations for their units (R156), but for BURST_COMPLETE, at which the Render Engine enters a job's
writes. -/
def entersOperations : Instr → Bool
  | .requestAccept _ | .compositeWorkOut | .renderJobStart | .renderJobComplete | .loadFont _ _ _ | .waitingUnitEntry => true
  | .commandIndexWrite | .reportConsumerWrite | .commandTake | .commandFetchComplete | .commandEnd => true
  | .reportArrival | .heldReportWrite | .statusBlockWrite => true
  | _ => false

/-- The rows whose operations are entered at once: an acceptance and a composite request worked out, also as the entry of the unit that has
waited longest (DESIGN CHOICE: log 29). -/
def entersTogether (c : Instr) (s : State) : Bool :=
  match c with
  | .requestAccept _ | .compositeWorkOut => true
  | .waitingUnitEntry =>
    match s.scheduler.waiters.head? with
    | some .port | some .compositor => true
    | _ => false
  | _ => false

/-- A byte of an area the part owns (R6): the status block, the report ring, the overlay store, the replay store. -/
def State.owns (s : State) (a : Nat) : Prop :=
  (s.apertureBase ≤ a ∧ a < s.apertureBase + 256) ∨
    (s.apertureBase + 32768 ≤ a ∧ a < s.apertureBase + 65536) ∨
    (∃ o, s.render.overlay = some o ∧ o ≤ a ∧ a < o + 134217728) ∨
    (∃ p, s.capture.pool = some p ∧ p.base ≤ a ∧ a < p.base + p.count * p.stride)

/-- A byte of a request. -/
def touches (r : Request) (a : Nat) : Prop := r.addr ≤ a ∧ a < r.addr + 32 * r.beats

/-- Nothing but one request is presented, no unit waits for a place, and the request table has room for it (R14). -/
structure Admits (s : State) (r : Request) : Prop where
  ready : s.port.initDone = true
  room : s.port.table.length < 64
  share : s.port.entriesOf r.initiator < 16
  unoffered : s.port.offered = none
  quiet : ∀ i, tget s.port.presented i none = none
  formed : r.wellFormed = true
  nobody : s.scheduler.waiters = []

/-- What acceptance does at the Fabric Port: one entry more, the pointer moved, nothing presented any more (R14, R15). -/
def Accepted (s t : State) (r : Request) (e : Entry) : Prop :=
  t.port = { s.port with
    table := s.port.table ++ [e], nextEntry := s.port.nextEntry + 1, pointer := r.initiator
    presented := t.port.presented } ∧
  (∀ i, tget t.port.presented i none = none) ∧
  e.number = s.port.nextEntry ∧ e.request = r ∧ e.showFrame = s.classifier.frame

/-! ### The render queue -/

/-- The window is drawn by the job in flight. -/
def InJob (s : State) (n : Nat) : Prop := ∃ j, s.render.job = some j ∧ j.window = n

/-- A configured window's record has become `w` and the window is requested for rendering (R51): it stays in the queue if it is
there, is marked dirty if it is being rendered, and else joins the tail. Nothing else of the Render Engine changes. -/
def Requested (s t : State) (n : Nat) (w : Window) : Prop :=
  t.render = { s.render with windows := t.render.windows, queue := t.render.queue } ∧
  (∀ m, m ≠ n → t.render.window m = s.render.window m) ∧
  (n ∈ s.render.queue → t.render.queue = s.render.queue ∧ t.render.window n = w) ∧
  (n ∉ s.render.queue → InJob s n → t.render.queue = s.render.queue ∧ t.render.window n = { w with dirty := true }) ∧
  (n ∉ s.render.queue → ¬ InJob s n → t.render.queue = s.render.queue ++ [n] ∧ t.render.window n = w)

/-- One window's record has become `w`, and nothing else of the Render Engine changes. -/
def Rewindowed (s t : State) (n : Nat) (w : Window) : Prop :=
  t.render = { s.render with windows := t.render.windows } ∧ (∀ m, m ≠ n → t.render.window m = s.render.window m) ∧
    t.render.window n = w

/-! ### Composited beats -/

/-- An enabled zone whose rectangle holds a composited beat covers it (R25). -/
def CoversBeat (s : State) (q : CompositeRequest) (z : Nat) (c : ZoneConfig) : Prop :=
  z < 8 ∧ (zoneAt s.compositor.zones z).enabled = true ∧ (zoneAt s.compositor.zones z).config = some c ∧
    c.rect.y ≤ q.line ∧ q.line < c.rect.y + c.rect.height ∧ c.rect.x ≤ q.column ∧ q.column < c.rect.x + c.rect.width

/-- A REPLAY zone is active when its channel is not IDLE, a SPONSOR zone when it is in TURN or FEATURE (R25). -/
def ZoneActive (s : State) (z : Nat) (c : ZoneConfig) : Prop :=
  match c.kind with
  | .replay => ∃ ch, (zoneAt s.compositor.zones z).bound = some ch ∧ (s.channel ch).state ≠ .idle
  | .sponsor => (s.rotation.zone z).showing ≠ .idle

/-- A covering zone with no active covering zone above it: every other one has a lower rank, or the same rank and a lower number
(R25). -/
def TopOfBeat (s : State) (q : CompositeRequest) (z : Nat) (c : ZoneConfig) : Prop :=
  CoversBeat s q z c ∧ ∀ y d, y ≠ z → CoversBeat s q y d → ZoneActive s y d → d.rank < c.rank ∨ (d.rank = c.rank ∧ y < z)

/-- The zone is in TURN or FEATURE with a sponsor, and has shown it for a number of frame starts (R84). -/
def ShowsSponsor (s : State) (z n shown : Nat) : Prop :=
  (∃ dwell, (s.rotation.zone z).showing = .turn n dwell shown) ∨
    ∃ f, (s.rotation.zone z).showing = .feature f ∧ f.sponsor = n ∧ f.shown = shown

/-- The address of an art beat (R28), by zone line and column. -/
def artBeatAddr (a : Art) (shown line column : Nat) : Nat :=
  a.base + shown % a.frames * a.stride + line * a.pitch + column * 4

/-- What a REPLAY zone's channel shows (R26): its clip, the pool, and the slot of the entry at its position. -/
def ShowsEntry (s : State) (z : Nat) (x : Channel) (k : Clip) (pool : Pool) (slot : Nat) : Prop :=
  ∃ ch clip e, (zoneAt s.compositor.zones z).bound = some ch ∧ s.channel ch = x ∧ x.state ≠ .idle ∧ x.clip = some clip ∧
    s.capture.clip clip = some k ∧ s.capture.pool = some pool ∧ k.entries[x.position]? = some e ∧ e.slot = slot

/-- Where a composited beat comes from: the address of its base fetch, none for a black beat, and the zone and zone line it is a
delivered beat of (R25 to R29, R35). -/
inductive BeatFrom (s : State) (q : CompositeRequest) : Option Nat → Option (Nat × Nat) → Prop where
  | canvas (unzoned : ∀ z c, CoversBeat s q z c → ¬ ZoneActive s z c) : BeatFrom s q (some q.addr) none
  | art (z : Nat) (c : ZoneConfig) (n shown : Nat) (a : Art) (top : TopOfBeat s q z c) (kind : c.kind = .sponsor)
      (shows : ShowsSponsor s z n shown) (set : (s.rotation.sponsor n).art = some a) (lines : q.line - c.rect.y < a.height)
      (columns : q.column - c.rect.x < a.width)
      (dram : artBeatAddr a shown (q.line - c.rect.y) (q.column - c.rect.x) < 34359738368) :
      BeatFrom s q (some (artBeatAddr a shown (q.line - c.rect.y) (q.column - c.rect.x))) (some (z, q.line - c.rect.y))
  | artBlack (z : Nat) (c : ZoneConfig) (n shown : Nat) (a : Art) (top : TopOfBeat s q z c) (kind : c.kind = .sponsor)
      (shows : ShowsSponsor s z n shown) (set : (s.rotation.sponsor n).art = some a)
      (past : a.height ≤ q.line - c.rect.y ∨ a.width ≤ q.column - c.rect.x ∨
        34359738368 ≤ artBeatAddr a shown (q.line - c.rect.y) (q.column - c.rect.x)) : BeatFrom s q none none
  | slot (z : Nat) (c : ZoneConfig) (x : Channel) (k : Clip) (pool : Pool) (slot : Nat) (top : TopOfBeat s q z c)
      (kind : c.kind = .replay) (shows : ShowsEntry s z x k pool slot) (lines : q.line - c.rect.y + x.cropY < k.height)
      (columns : q.column - c.rect.x + x.cropX < k.width) :
      BeatFrom s q (some (pool.base + slot * pool.stride + (q.line - c.rect.y + x.cropY) * (k.width * 4) +
        (q.column - c.rect.x + x.cropX) * 4)) none
  | slotBlack (z : Nat) (c : ZoneConfig) (x : Channel) (k : Clip) (pool : Pool) (slot : Nat) (top : TopOfBeat s q z c)
      (kind : c.kind = .replay) (shows : ShowsEntry s z x k pool slot)
      (past : k.height ≤ q.line - c.rect.y + x.cropY ∨ k.width ≤ q.column - c.rect.x + x.cropX) : BeatFrom s q none none

/-! ### What a render job draws -/

/-- A count spelled by repeat digits in base 8, the lowest digit first (R48). -/
def octal (digits : List Nat) : Nat := digits.foldr (fun d n => d + 8 * n) 0

/-- Every read of a job has given the bytes of a memory (R53). -/
def ReadsGave (j : Job) (m : Nat → Byte) : Prop :=
  j.pieces = planReads j.config.kind j.config j.runs j.image j.glyphs j.fontBase ∧
    ∀ (n : Nat) (p : ReadPiece), j.pieces[n]? = some p →
      j.got.lookup n = some ((List.range (32 * p.beats)).map fun k => m (p.addr + k))

/-- The advance of a code: its glyph's, or the default of a code with no record (R46, R49). -/
def advanceIn (j : Job) (code : Nat) : Nat :=
  match j.glyphs.find? (fun g => g.code == code) with
  | some g => g.advance
  | none => j.advance

/-- The pen at the k-th code of a run: where its alignment has it start, and the advances of the codes before (R49). -/
def penAt (j : Job) (r : DrawnRun) (k : Nat) : Nat :=
  let width := (r.codes.map (advanceIn j)).sum
  let start :=
    if r.box < width then r.x
    else
      match r.align with
      | .left => r.x
      | .right => r.x + r.box - width
      | .centre => r.x + (r.box - width) / 2
  start + ((r.codes.take k).map (advanceIn j)).sum

/-- The k-th code of a run drawn over the pixel at column `u` and line `v`: its glyph's coverage there, decoded from its stream, as a
weight of the run's colour and of full alpha (R48, R49, R50). -/
def drawCode (j : Job) (m : Nat → Byte) (u v : Nat) (r : DrawnRun) (px : Pixel) (k : Nat) : Pixel :=
  match (r.codes[k]?).bind fun c => j.glyphs.find? fun g => g.code == c with
  | none => px
  | some g =>
    let x := penAt j r k
    let y := r.y + g.top
    if x ≤ u ∧ u < x + g.width ∧ y ≤ v ∧ v < y + g.height ∧ r.x ≤ u ∧ u < r.x + r.box then
      let stream := (List.range g.length).map fun k => m (j.fontBase + g.offset + k)
      let a := ((decodeGlyph g stream).getD ((v - y) * g.width + (u - x)) 0 * r.opacity + 3) / 7
      ⟨blendByte r.colour.r px.r a, blendByte r.colour.g px.g a, blendByte r.colour.b px.b a,
        BitVec.ofNat 8 (blend 255 px.x.toNat a)⟩
    else px

/-- The pixel of a job's image that no referenced image gives: the background with the runs drawn over it in order (R49, R53). -/
def textPixel (j : Job) (m : Nat → Byte) (u v : Nat) : Pixel :=
  j.runs.foldl (fun px r => (List.range r.codes.length).foldl (drawCode j m u v r) px) j.config.background

/-- The pixel of a job's image: the one copied from the referenced image where it has one, else the background with the runs drawn
over it (R53). -/
def imagePixel (j : Job) (m : Nat → Byte) (u v : Nat) : Pixel :=
  match j.config.kind, j.image with
  | .image, some i =>
    if u < min i.width j.config.rect.width ∧ v < min i.height j.config.rect.height then
      let a := i.addr + v * i.pitch + 4 * u
      ⟨m a, m (a + 1), m (a + 2), m (a + 3)⟩
    else textPixel j m u v
  | _, _ => textPixel j m u v

/-! ### Sponsor zones -/

/-- The zone is enabled, of kind SPONSOR, and has the rectangle given. -/
def ServesSponsors (s : State) (z : Nat) (r : Rect) : Prop :=
  (zoneAt s.compositor.zones z).enabled = true ∧
    ∃ c, (zoneAt s.compositor.zones z).config = some c ∧ c.kind = .sponsor ∧ c.rect = r

/-- The zone is the one enabled SPONSOR zone. -/
def OnlyServes (s : State) (z : Nat) (r : Rect) : Prop :=
  z < 8 ∧ ServesSponsors s z r ∧ ∀ y, y ≠ z → ∀ q, ¬ ServesSponsors s y q

/-- A sponsor has art that fits a rectangle (R81). -/
def ArtFits (s : State) (n : Nat) (r : Rect) : Prop :=
  ∃ a, (s.rotation.sponsor n).art = some a ∧ r.width ≤ a.width ∧ r.height ≤ a.height

/-- A window occludes a rectangle in the show frame that ends (R88). -/
def Occludes (s : State) (w : Nat) (r : Rect) : Prop :=
  ∃ c, (s.render.window w).config = some c ∧ (s.render.window w).shownVisible = true ∧ (s.render.window w).frontPresent = true ∧
    c.occluding = true ∧ 0 < c.fade ∧
    ∃ line column, c.rect.holds line column = true ∧ r.holds line column = true

/-- A sponsor's deficit in the open segment with `elapsed` frames begun (R93). -/
def deficitAt (u : RotationUnit) (elapsed n : Nat) : Int :=
  let p := u.sponsor n
  let target := if u.segment.kind = .period then p.periodTarget else p.breakTarget
  let plan := if u.segment.kind = .period then u.segment.periodPlan else u.segment.breakPlan
  ((target * min elapsed plan / plan : Nat) : Int) - ((p.rotationCredit + p.featureCredit : Nat) : Int)

/-- A sponsor as the verdicts of a frame start leave it (R87, Table 5-2): the sponsor of no zone stands; a zone's sponsor is judged by
the zone's coverage record and by the windows that crossed the zone, each count held at its top. -/
structure Judged (s : State) (n : Nat) (p : Sponsor) : Prop where
  unseen : (∀ z, z < 8 → (s.rotation.zone z).showing.sponsor ≠ some n) → p = s.rotation.sponsor n
  verdict : ∀ z c, z < 8 → (s.rotation.zone z).showing.sponsor = some n → (zoneAt s.compositor.zones z).config = some c →
    let old := s.rotation.sponsor n
    let k := (s.rotation.zone z).coverage
    let whole := k.counting = true ∧ k.nextLine = c.rect.height
    (k.broken = true → p = { old with broken := min 16777215 (old.broken + 1) }) ∧
    (k.broken = false → whole → (∃ w, w < 16 ∧ Occludes s w c.rect) →
      p = { old with occluded := min 16777215 (old.occluded + 1) }) ∧
    (k.broken = false → whole → (∀ w, w < 16 → ¬ Occludes s w c.rect) →
      (∀ dwell shown, (s.rotation.zone z).showing = .turn n dwell shown →
        p = { old with rotationCredit := min 16777215 (old.rotationCredit + 1) }) ∧
      (∀ g, (s.rotation.zone z).showing = .feature g →
        p = { old with featureCredit := min 16777215 (old.featureCredit + 1) })) ∧
    (k.broken = false → ¬ whole → p = old)

/-- The EXPOSURE report of a sponsor at a close, for a level of 1 or more or a credit above 0 (R101). -/
def exposureOf (g : Segment) (n : Nat) (p : Sponsor) : Option Report :=
  if 1 ≤ p.level ∨ 0 < p.rotationCredit + p.featureCredit then
    some (.exposure n g.kind g.number (min 16777215 (g.elapsed + 1)) p.rotationCredit p.featureCredit p.turns p.occluded p.broken)
  else none

/-- A report of a feature dropped. -/
def isFeatureReport : Report → Prop
  | .feature _ _ _ _ _ => True
  | _ => False

/-- The first set of candidates for a turn in an idle zone (R92): level 7 under a hold, 1 to 6 without, and showing in no zone. -/
def FirstSet (s : State) (z : Nat) (r : Rect) (n : Nat) : Prop :=
  n < 32 ∧ (s.rotation.sponsor n).mask.testBit z = true ∧ ArtFits s n r ∧
    (s.rotation.holdInForce = true → (s.rotation.sponsor n).level = 7) ∧
    (s.rotation.holdInForce = false → 1 ≤ (s.rotation.sponsor n).level ∧ (s.rotation.sponsor n).level ≤ 6) ∧
    ∀ y, y < 8 → y ≠ z → (s.rotation.zone y).showing.sponsor ≠ some n

/-- A sponsor is capped: its cap flag is set and its credit has reached its target for the open segment (R92). -/
def Capped (s : State) (n : Nat) : Prop :=
  let p := s.rotation.sponsor n
  p.cap = true ∧
    (if s.rotation.segment.kind = .period then p.periodTarget else p.breakTarget) ≤ p.rotationCredit + p.featureCredit

/-- The first set without its capped sponsors, unless all are capped (R92). -/
def SecondSet (s : State) (z : Nat) (r : Rect) (n : Nat) : Prop :=
  FirstSet s z r n ∧ (¬ Capped s n ∨ ∀ m, FirstSet s z r m → Capped s m)

/-- The second set without the sponsor whose turn ended in the zone at this frame start, unless it is the only one (R92). -/
def ThirdSet (s : State) (z : Nat) (r : Rect) (ended : Option Nat) (n : Nat) : Prop :=
  SecondSet s z r n ∧ (ended ≠ some n ∨ ∀ m, SecondSet s z r m → m = n)

/-- A sponsor comes before another for a turn (R93): the higher level, then the greater deficit, then the one found first counting
upward from the zone's last-ended sponsor + 1, or from 0. -/
def ComesFirst (s : State) (last : Option Nat) (n m : Nat) : Prop :=
  let level := fun n => (s.rotation.sponsor n).level
  let deficit := deficitAt s.rotation s.rotation.segment.elapsed
  let place := fun n : Nat => match last with
    | none => n
    | some l => (n + 63 - l) % 32
  level m < level n ∨ (level m = level n ∧ (deficit m < deficit n ∨ (deficit m = deficit n ∧ place n < place m)))

/-! ### A zone served (R90, R91, R92, R93, R98) -/

/-- A sponsor is showing as a FEATURE in a zone other than `z` (R98). -/
def FeaturedBeside (s : State) (z n : Nat) : Prop :=
  ∃ y f, y < 8 ∧ y ≠ z ∧ (s.rotation.zone y).showing = .feature f ∧ f.sponsor = n

/-- The head of a queue of which no unfit feature stands at the head can start (R98). -/
def Starts (s : State) (z : Nat) (queue : List Feature) (g : Feature) (behind : List Feature) : Prop :=
  queue = g :: behind ∧ ¬ FeaturedBeside s z g.sponsor

/-- No other zone and no sponsor changes, and the zone's record has become `x`. -/
def ZoneAlone (s t : State) (z : Nat) (x : ZoneRotation) : Prop :=
  t.rotation.zone z = x ∧ (∀ y, y ≠ z → t.rotation.zone y = s.rotation.zone y) ∧ t.rotation.sponsors = s.rotation.sponsors

/-- A feature has taken a zone (R98): the zone is in FEATURE and begun now, with what is left of its queue; the feature's sponsor has one
turn more if the feature has not shown before; and a TURN of that sponsor in another zone has ended, that zone's last-ended sponsor and all
else of it kept. -/
structure TakesZone (s t : State) (z : Nat) (g : Feature) (queue : List Feature) : Prop where
  zone : t.rotation.zone z = { s.rotation.zone z with queue := queue, showing := .feature g, begunNow := true }
  ends : ∀ y dwell shown, y ≠ z → (s.rotation.zone y).showing = .turn g.sponsor dwell shown →
    t.rotation.zone y = { s.rotation.zone y with showing := .idle }
  stand : ∀ y, y ≠ z → (∀ dwell shown, (s.rotation.zone y).showing ≠ .turn g.sponsor dwell shown) →
    t.rotation.zone y = s.rotation.zone y
  counted : t.rotation.sponsor g.sponsor = { s.rotation.sponsor g.sponsor with
    turns := if g.shown = 0 then min 16777215 ((s.rotation.sponsor g.sponsor).turns + 1) else (s.rotation.sponsor g.sponsor).turns }
  others : ∀ n, n ≠ g.sponsor → t.rotation.sponsor n = s.rotation.sponsor n

/-- A zone that is idle, or whose TURN or FEATURE has ended in this service, has been filled with a turn (R92, R93): the last-ended
sponsor is the one whose turn ended, if one did; the zone stays IDLE with no candidate, and else begins the turn of the candidate that
comes before the others. -/
structure FilledWithTurn (s t : State) (z : Nat) (r : Rect) (ended : Option Nat) (queue : List Feature) : Prop where
  rest : t.rotation.zone z = { s.rotation.zone z with
    queue := queue, lastEnded := ended.or (s.rotation.zone z).lastEnded
    showing := (t.rotation.zone z).showing, begunNow := (t.rotation.zone z).begunNow }
  stand : ∀ y, y ≠ z → t.rotation.zone y = s.rotation.zone y
  none : (∀ n, ¬ ThirdSet s z r ended n) →
    (t.rotation.zone z).showing = .idle ∧ (t.rotation.zone z).begunNow = false ∧ t.rotation.sponsors = s.rotation.sponsors
  turn : ∀ n, ThirdSet s z r ended n →
    (∀ m, m ≠ n → ThirdSet s z r ended m → ComesFirst s (ended.or (s.rotation.zone z).lastEnded) n m) →
    (t.rotation.zone z).showing = .turn n (s.rotation.sponsor n).dwell 0 ∧ (t.rotation.zone z).begunNow = true ∧
      t.rotation.sponsor n = { s.rotation.sponsor n with turns := min 16777215 ((s.rotation.sponsor n).turns + 1) } ∧
      ∀ m, m ≠ n → t.rotation.sponsor m = s.rotation.sponsor m

/-- A TURN ends in its zone's countdown (R91). -/
def TurnEnds (s : State) (r : Rect) (n dwell : Nat) : Prop :=
  dwell ≤ 1 ∨ (s.rotation.sponsor n).level = 0 ∨ ¬ ArtFits s n r ∨
    (s.rotation.holdInForce = true ∧ (s.rotation.sponsor n).level ≤ 6)

/-- A FEATURE ends in its zone's countdown (R91). -/
def FeatureEnds (s : State) (r : Rect) (f : Feature) : Prop := f.dwellLeft ≤ 1 ∨ ¬ ArtFits s f.sponsor r

/-- A head takes a zone from a FEATURE where the nesting flag is set and the head's level is above the FEATURE's (R98). -/
def Nests (s : State) (z : Nat) (f g : Feature) : Prop := (s.rotation.zone z).nesting = true ∧ f.level < g.level

/-- An enabled SPONSOR zone served with a queue whose head fits (R90): preemption, countdown, filling. A head that waits for its sponsor
lets the zone go on as if the queue were empty, and stays. -/
structure SponsorZoneServed (s t : State) (z : Nat) (r : Rect) (queue : List Feature) : Prop where
  takes : ∀ g behind, Starts s z queue g behind →
    ((s.rotation.zone z).showing = .idle ∨ ∃ n dwell shown, (s.rotation.zone z).showing = .turn n dwell shown) →
    TakesZone s t z g behind
  nests : ∀ f g behind, Starts s z queue g behind → (s.rotation.zone z).showing = .feature f → Nests s z f g →
    ∃ left, TakesZone s t z g left ∧ (f.dwellLeft ≤ 1 → left = behind) ∧
      (2 ≤ f.dwellLeft → behind.Pairwise (fun p q => q.level < p.level ∨ (q.level = p.level ∧ p.arrival ≤ q.arrival)) →
        ∃ front back, behind = front ++ back ∧
          left = front ++ { f with dwellLeft := f.dwellLeft - 1, shown := f.shown + 1 } :: back ∧
          (∀ q ∈ front, f.level < q.level ∨ (f.level = q.level ∧ q.arrival ≤ f.arrival)) ∧
          ∀ q ∈ back, q.level < f.level ∨ (q.level = f.level ∧ f.arrival < q.arrival))
  follows : ∀ f g behind, Starts s z queue g behind → (s.rotation.zone z).showing = .feature f → ¬ Nests s z f g →
    FeatureEnds s r f → TakesZone s t z g behind
  turnGoesOn : ∀ n dwell shown, (∀ g behind, ¬ Starts s z queue g behind) → (s.rotation.zone z).showing = .turn n dwell shown →
    ¬ TurnEnds s r n dwell →
    ZoneAlone s t z { s.rotation.zone z with queue := queue, showing := .turn n (dwell - 1) (shown + 1) }
  featureGoesOn : ∀ f, (∀ g behind, Starts s z queue g behind → ¬ Nests s z f g) → (s.rotation.zone z).showing = .feature f →
    ¬ FeatureEnds s r f →
    ZoneAlone s t z { s.rotation.zone z with
      queue := queue, showing := .feature { f with dwellLeft := f.dwellLeft - 1, shown := f.shown + 1 } }
  fills : ∀ ended, (∀ g behind, ¬ Starts s z queue g behind) →
    ((s.rotation.zone z).showing = .idle ∧ ended = none ∨
      (∃ f, (s.rotation.zone z).showing = .feature f ∧ FeatureEnds s r f ∧ ended = none) ∨
      ∃ n dwell shown, (s.rotation.zone z).showing = .turn n dwell shown ∧ TurnEnds s r n dwell ∧ ended = some n) →
    FilledWithTurn s t z r ended queue

/-- A zone that is no enabled SPONSOR zone closed (R90): it is IDLE with an empty queue and the rest of it kept, and a report goes out for
each feature dropped, the showing one first and then the queue from its head (the order is log 44's). -/
structure ZoneClosed (s t : State) (z : Nat) (reports : List Report) : Prop where
  alone : ZoneAlone s t z { s.rotation.zone z with showing := .idle, queue := [] }
  showing : ∀ f, (s.rotation.zone z).showing = .feature f →
    reports = (f :: (s.rotation.zone z).queue).map fun g => .feature z g.entry g.sponsor g.level .zoneClosed
  rest : (∀ f, (s.rotation.zone z).showing ≠ .feature f) →
    reports = (s.rotation.zone z).queue.map fun g => .feature z g.entry g.sponsor g.level .zoneClosed

/-- One zone of a frame start served whole, with the reports of the features it drops (R90, R98): the zone's begun-now flag is clear
before, nothing but zones and sponsors changes, a closed zone is closed, and an enabled SPONSOR zone drops the unfit features at the head
of its queue and is served with what is left of it. -/
structure ZoneServed (s t : State) (z : Nat) (reports : List Report) : Prop where
  fresh : (s.rotation.zone z).begunNow = false
  rest : t = s.setRotation { s.rotation with zones := t.rotation.zones, sponsors := t.rotation.sponsors }
  closed : (∀ r, ¬ ServesSponsors s z r) → ZoneClosed s t z reports
  served : ∀ r, ServesSponsors s z r → ∃ unfit queue, (s.rotation.zone z).queue = unfit ++ queue ∧
    (∀ f ∈ unfit, ¬ ArtFits s f.sponsor r) ∧ (∀ g behind, queue = g :: behind → ArtFits s g.sponsor r) ∧
    reports = unfit.map (fun f => .feature z f.entry f.sponsor f.level .notShowable) ∧ SponsorZoneServed s t z r queue

/-! ### Entries that fire -/

/-- A used trigger entry's event kind and argument match a game event (R95). -/
def WaitsFor : TriggerEvent → GameEvent → Prop
  | .periodEnd p, .periodEnd q => p = 0 ∨ p = q
  | .periodStart p, .periodStart q => p = 0 ∨ p = q
  | .playExpiry, .playExpiry => True
  | .scoreUp team, .scoreUp q => team = q
  | .timeout team, .timeout q => team = q
  | _, _ => False

/-- Trigger entries fired one after another, each as FIRE_FEATURE fires it (R96). -/
inductive FiresInTurn : List Nat → State → State → Prop where
  | nil (s : State) : FiresInTurn [] s s
  | cons (n : Nat) (ns : List Nat) (s t u : State) (first : exec (.fireFeature n) s = .next t) (rest : FiresInTurn ns t u) :
      FiresInTurn (n :: ns) s u

/-- The Rotation Unit with one zone's record replaced. -/
def ZoneBecomes (s t : State) (z : Nat) (x : ZoneRotation) : Prop :=
  t.rotation = { s.rotation with zones := t.rotation.zones, nextArrival := t.rotation.nextArrival } ∧
    (∀ y, y ≠ z → t.rotation.zone y = s.rotation.zone y) ∧ t.rotation.zone z = x

/-- What the Rotation Unit sends on: reports behind those on their way. -/
def ReportsSent (s t : State) (reports : List Report) : Prop :=
  t.transit = { s.transit with reports := s.transit.reports ++ reports }

/-! ### Records in memory -/

/-- Bytes laid out by a table of fields, each an offset, a length in bytes and a value: every field holds its value with the low
byte first, and every byte in no field is 0 (R182, R183). -/
structure LaidOut (bs : List Byte) (length : Nat) (fields : List (Nat × Nat × Nat)) : Prop where
  size : bs.length = length
  held : ∀ f ∈ fields, ∀ k < f.2.1, bs[f.1 + k]? = some (BitVec.ofNat 8 (f.2.2 / 256 ^ k))
  spare : ∀ k < length, (∀ f ∈ fields, k < f.1 ∨ f.1 + f.2.1 ≤ k) → bs[k]? = some 0

/-! ### Slots and clips -/

/-- The references to a slot: the timeline entries and the clip entries that name it (R104). -/
def CaptureUnit.naming (u : CaptureUnit) (slot : Nat) : Nat :=
  ((u.sources.toList.flatMap (·.timeline)).filter fun e => e.slot == slot).length +
    ((u.clips.toList.flatMap fun c => match c with
      | some k => k.entries
      | none => []).filter fun e => e.slot == slot).length

/-- The number of sources for which a slot is open. -/
def CaptureUnit.openFor (u : CaptureUnit) (slot : Nat) : Nat :=
  (u.sources.toList.filter fun x => x.openSlot == some slot).length

/-- The number of slots of the pool; 0 while it is unplaced. -/
def CaptureUnit.slots (u : CaptureUnit) : Nat := (u.pool.map (·.count)).getD 0

/-- The number of entries of a list that name a slot. -/
def namedBy (entries : List TimelineEntry) (slot : Nat) : Nat := (entries.filter fun e => e.slot == slot).length

/-- The references of entries have been released (R105): the counts fall by them, and the slots whose counts reach 0, each once,
have joined the free list. -/
def Released (u v : CaptureUnit) (entries : List TimelineEntry) : Prop :=
  (∀ slot, v.refCount slot = u.refCount slot - namedBy entries slot) ∧
    ∃ back : List Nat, v.free = u.free ++ back ∧ back.Nodup ∧
      ∀ slot, slot ∈ back ↔ 0 < u.refCount slot ∧ u.refCount slot ≤ namedBy entries slot

/-- A clip has been dropped with its CLIP report (R122). -/
def ClipDropped (s t : State) (clip : Nat) (c : Clip) (released : Bool) : Prop :=
  t.capture = { s.capture with clips := t.capture.clips, refs := t.capture.refs, free := t.capture.free } ∧
    t.capture.clip clip = none ∧ (∀ k, k ≠ clip → t.capture.clip k = s.capture.clip k) ∧
    Released s.capture t.capture c.entries ∧ ReportsSent s t [.clipDropped released clip c.source c.entries.length]

/-- One clip's record has become `c`, and nothing else of the Capture Unit changes. -/
def Reclipped (s t : State) (clip : Nat) (c : Clip) : Prop :=
  t.capture = { s.capture with clips := t.capture.clips } ∧ t.capture.clip clip = some c ∧
    ∀ k, k ≠ clip → t.capture.clip k = s.capture.clip k

/-- One source's record has become `x`; the clips, the pool and the other sources stand. -/
def Resourced (s t : State) (i : Nat) (x : Source) : Prop :=
  t.capture = { s.capture with sources := t.capture.sources, free := t.capture.free, refs := t.capture.refs } ∧
    t.capture.source i = x ∧ ∀ k, k ≠ i → t.capture.source k = s.capture.source k

/-- One source served whole at a capture tick that closes the frame `closed` (R112 to R117), with the CAPTURE reports it brings: passed over
where it is STOPPED; ARMED with its frame not whole it waits; and it appends WHOLE, MISSING, TORN or STARVED, with the oldest entry of a
full timeline released, and takes a slot where it needs one and one is free. -/
structure SourceServed (u v : CaptureUnit) (i : Nat) (closed : FrameNo) (reports : List Report) : Prop where
  rest : v = { u with sources := v.sources, free := v.free, refs := v.refs }
  others : ∀ k, k ≠ i → v.source k = u.source k
  passed : (u.source i).state = .stopped → v = u ∧ reports = []
  served : ∀ c, (u.source i).config = some c →
    let x := u.source i
    let expected := c.width * c.height / 8
    let becomes := fun (y : Source) (free : List Nat) (sent : List Report) (counts : Nat → Nat) =>
      v.source i = y ∧ v.free = free ∧ reports = sent ∧ ∀ slot, slot < u.refs.length → v.refCount slot = counts slot
    let oldest := if c.capacity ≤ x.timeline.length then x.timeline.head? else none
    let kept := if c.capacity ≤ x.timeline.length then x.timeline.tail else x.timeline
    let free := u.free ++ (oldest.toList.filter fun o => u.refCount o.slot == 1).map (·.slot)
    let counts := fun (named slot : Nat) => u.refCount slot - namedBy oldest.toList slot + (if slot = named then 1 else 0)
    let fault := fun st : EntryStatus => if x.faults = 0 then [Report.runBegin i st closed] else []
    (x.state = .armed → x.beats < expected → becomes { x with beats := 0 } u.free [] u.refCount) ∧
    (∀ slot, x.state = .armed ∨ x.state = .capturing → expected ≤ x.beats → x.openSlot = some slot →
      becomes { x with
          timeline := kept ++ [⟨closed, slot, .whole⟩], openSlot := free.head?, beats := 0, faults := 0
          state := if free = [] then .starved else .capturing }
        free.tail (if 0 < x.faults then [.runEnd i false closed x.faults] else []) (counts slot)) ∧
    (∀ newest, x.state = .capturing → x.beats < expected → x.timeline.getLast? = some newest →
      let st : EntryStatus := if x.beats = 0 then .missing else .torn
      becomes { x with timeline := kept ++ [⟨closed, newest.slot, st⟩], beats := 0, faults := min 16777215 (x.faults + 1) }
        free (fault st) (counts newest.slot)) ∧
    (∀ newest, x.state = .starved → x.timeline.getLast? = some newest →
      becomes { x with
          timeline := kept ++ [⟨closed, newest.slot, .starved⟩], faults := min 16777215 (x.faults + 1)
          openSlot := if free = [] then x.openSlot else free.head?
          beats := if free = [] then x.beats else 0, state := if free = [] then .starved else .capturing }
        free.tail (fault .starved) (counts newest.slot))

/-! ### Channels -/

/-- One channel's record has become `x`; the other stands. -/
def Rechanneled (s t : State) (c : ChannelId) (x : Channel) : Prop :=
  t.channel c = x ∧ ∀ d, d ≠ c → t.channel d = s.channel d

/-- One channel served whole at the frame start `f` (R137, R138, R139): passed over where it is not PLAYING, counted down, moved, or at an
end of its clip held, looped or released, with the PLAYOUT report of the end. -/
structure ChannelServed (s t : State) (c : ChannelId) (f : FrameNo) : Prop where
  frame : Frame [.playout, .capture, .transit] s t
  other : ∀ d, d ≠ c → t.channel d = s.channel d
  sends : ∃ reports, ReportsSent s t reports
  passed : (s.channel c).state ≠ .playing → t = s
  counts : (s.channel c).state = .playing → 0 < (s.channel c).countdown →
    t.channel c = { s.channel c with countdown := (s.channel c).countdown - 1 } ∧ t.capture = s.capture ∧ ReportsSent s t []
  moves : ∀ k clip, (s.channel c).state = .playing → (s.channel c).countdown = 0 → (s.channel c).clip = some k →
    s.capture.clip k = some clip →
    let x := s.channel c
    let length := clip.entries.length
    let next := (x.position : Int) + x.step
    let back := decide (x.step < 0)
    (0 ≤ next → next < (length : Int) →
      t.channel c = { x with position := next.toNat, countdown := x.reps - 1 } ∧ t.capture = s.capture ∧ ReportsSent s t []) ∧
    (next < 0 ∨ (length : Int) ≤ next →
      (x.endAction = .hold → t.capture = s.capture ∧
        t.channel c = { x with position := if x.step < 0 then 0 else length - 1, state := .held, countdown := 0 } ∧
        ReportsSent s t [.playout c k .hold back (if x.step < 0 then 0 else length - 1) f]) ∧
      (x.endAction = .loop → t.capture = s.capture ∧
        t.channel c = { x with position := (next % (length : Int)).toNat, countdown := x.reps - 1 } ∧
        ReportsSent s t [.playout c k .loop back (next % (length : Int)).toNat f]) ∧
      (∀ u v, x.endAction = .release → exec (.markRelease k) s = .next u → exec (.removeUser k) u = .next v →
        t.capture = v.capture ∧ t.channel c = { x with state := .idle, clip := none, position := 0, countdown := 0 } ∧
        ReportsSent s t (.playout c k .release back 0 f :: v.transit.reports.drop s.transit.reports.length)))

/-! ### The ticker -/

/-- The message a selection takes from a queue: an APPROVED one of the highest priority, the oldest of that priority (R148). -/
def Chooses (queue : List Message) (m : Message) : Prop :=
  ∃ older younger, queue = older ++ m :: younger ∧ m.state = .approved ∧
    (∀ q ∈ older, q.state = .approved → q.priority < m.priority) ∧
    ∀ q ∈ younger, q.state = .approved → q.priority ≤ m.priority

/-- With the queue as given and the ticker in window `n` FREE, a selection has been made (R148). -/
def Selected (s t : State) (n : Nat) (queue : List Message) : Prop :=
  t.messages.queue = queue ∧ t.messages.window = some n ∧
  (∀ m, Chooses queue m → t.messages.phase = .preparing m.id ∧ t.messages.lastContent = some m.id ∧
    Requested s t n { s.render.window n with content := some ⟨m.id, m.text⟩ }) ∧
  ((∀ q ∈ queue, q.state ≠ .approved) → t.messages.phase = .free ∧ t.messages.lastContent = none ∧
    (s.messages.lastContent = none → t.render = s.render) ∧
    (s.messages.lastContent ≠ none → Requested s t n { s.render.window n with content := none }))

/-- The ticker window is named and is a configured TICKER window. -/
def Ticking (s : State) (n : Nat) : Prop :=
  n < 16 ∧ s.messages.window = some n ∧ ∃ c, (s.render.window n).config = some c ∧ c.kind = .ticker

/-- The queue with the message of an id changed in its place. -/
def changed (queue : List Message) (id : Nat) (f : Message → Message) : List Message :=
  queue.map fun m => if m.id = id then f m else m

/-- The queue without the message of an id. -/
def without (queue : List Message) (id : Nat) : List Message := queue.filter fun m => m.id != id

/-- A message counted down at a frame start (R152 step 2). -/
def countedDown (m : Message) : Message :=
  if m.state = .approved then { m with countdown := m.countdown.map (· - 1) } else m

/-- A message that expires when it is counted down. -/
def expiring (m : Message) : Bool := m.state == .approved && (countedDown m).countdown == some 0

/-- The MESSAGE reports of the messages of a queue that expire, in posting order (R146). -/
def expiries (queue : List Message) (frame : FrameNo) : List Report :=
  (queue.filter expiring).map fun m => .message m.id .expired (m.reps - m.showsLeft) frame

/-- The queue after the expiry step of a frame start. -/
def afterExpiry (queue : List Message) : List Message := (queue.filter fun m => !expiring m).map countedDown

/-! ### Invariants -/

/-- Frame DRAM is in its canonical form. -/
def MemoryInv (s : State) : Prop := Memory.wf s.mem = true

/-- The role table is one R2 allows. -/
structure RolesInv (c : Classifier) : Prop where
  strap : c.role c.strapInitiator = .control
  oneScanout : ∀ i j, i < 16 → j < 16 → c.role i = .scanout → c.role j = .scanout → i = j
  oneIngest : ∀ n i j, i < 16 → j < 16 → c.role i = .ingest n → c.role j = .ingest n → i = j
  oneSecond : ∀ i j, i < 16 → j < 16 → i ≠ c.strapInitiator → j ≠ c.strapInitiator → c.role i = .control →
    c.role j = .control → i = j
  sources : ∀ i n, c.role i = .ingest n → n ≤ 3

/-- The request table keeps to R1: 64 entries, 16 of one initiator; what an initiator presents is its own and well formed, and
an initiator that is offered a place is below its limit; entries are numbered in the order they were accepted. -/
structure TableInv (p : FabricPort) : Prop where
  places : p.table.length ≤ 64
  perInitiator : ∀ i, p.entriesOf i ≤ 16
  presents : ∀ i r, tget p.presented i none = some r → r.initiator = i ∧ r.wellFormed = true
  offer : ∀ i, p.offered = some i → p.entriesOf i < 16
  numbers : p.table.Pairwise (fun e f => e.number < f.number)
  fresh : ∀ e ∈ p.table, e.number < p.nextEntry

/-- The operation queue keeps to R156, R160 and R19: 128 places, entry orders rising and below the next one, one burst at a time, no
burst of an operation while an earlier one that it conflicts with is in the queue, and no unit twice in the line of waiting units. -/
structure QueueInv (d : Scheduler) : Prop where
  places : d.queue.length ≤ 128
  order : d.queue.Pairwise (fun e f => e.order < f.order)
  fresh : ∀ e ∈ d.queue, e.order < d.nextOrder
  oneBurst : (d.queue.filter (·.inBurst)).length ≤ 1
  inTurn : ∀ op ∈ d.queue, op.inBurst = true → ¬ Blocked d op
  waitsOnce : d.waiters.Nodup

/-- The report ring keeps to R174 and R175: unread records and the reservation together take at most its 1024 places, the holding
queue at most 48, the lost count stays in its range; and a command in progress has begun and holds the reservation (R170). -/
structure RingInv (s : State) : Prop where
  places : s.writer.unread + (if s.writer.reserved then 1 else 0) ≤ 1024
  holding : s.writer.holding.length ≤ 48
  lost : s.writer.lost ≤ 65535
  reserved : s.reader.stage ≠ .idle → s.writer.reserved = true ∧ s.reader.begun = true

/-- The message queue keeps to R142 and R149: 32 messages, no id twice, and a message is SHOWING only when the ticker shows it; a
ticker with no window is DETACHED (R147). -/
structure MessagesInv (u : MessageUnit) : Prop where
  places : u.queue.length ≤ 32
  ids : (u.queue.map (·.id)).Nodup
  showing : ∀ m ∈ u.queue, m.state = .showing → ∃ form begun, u.phase = .showing m.id form begun
  detached : u.window = none → u.phase = .detached

/-- No sponsor shows in two zones (R98). -/
def ShowsOnce (u : RotationUnit) : Prop :=
  ∀ y z n, y < 8 → z < 8 → (u.zone y).showing.sponsor = some n → (u.zone z).showing.sponsor = some n → y = z

/-- The slot law of R104: every slot of the pool is exactly one of free, open for one source, or referenced, and its reference
count is the number of entries that name it. -/
structure SlotLaw (u : CaptureUnit) : Prop where
  counts : ∀ slot, u.refCount slot = u.naming slot
  inPool : ∀ slot, u.slots ≤ slot → u.free.count slot = 0 ∧ u.openFor slot = 0 ∧ u.naming slot = 0
  one : ∀ slot, slot < u.slots →
    u.free.count slot + u.openFor slot + (if 0 < u.naming slot then 1 else 0) = 1

/-- The slot law with what it takes to keep it: the source records keep to R107 and R111. -/
structure CaptureInv (u : CaptureUnit) : Prop where
  law : SlotLaw u
  refs : u.refs.length = u.slots
  opened : ∀ i, (u.source i).openSlot.isSome = true ↔ (u.source i).state = .armed ∨ (u.source i).state = .capturing
  active : ∀ i, (u.source i).state ≠ .stopped → (u.source i).config.isSome = true
  newest : ∀ i, (u.source i).state = .capturing ∨ (u.source i).state = .starved → (u.source i).timeline ≠ []
  capacity : ∀ i c, (u.source i).config = some c → 16 ≤ c.capacity ∧ (u.source i).timeline.length ≤ c.capacity

end Sys2Proof.Machine
end

