-- ==== Sys2Proof/Certificates/Slice0/Obligations.lean ====
section
/-! DEFINITION. The statements for the provers. -/

open Sys2Proof Sys2Proof.Machine

/-! ### The whole machine -/

/-- One step carries out the command at the front of the queue with the queue's rest, and idles on an empty queue. The queue is
the model's own (log 1). -/
def Obligations.StepTakesTheFrontCommand : Prop :=
  ∀ (c : Instr) (rest : List Instr) (s : State),
    step { s with pending := c :: rest } = exec c { s with pending := rest } ∧
      step { s with pending := [] } = .next { s with pending := [] }

/-- No step of the part stops: every command answers a next state from every state. -/
def Obligations.EveryStepAnswersNext : Prop := ∀ s : State, s.Safe

/-- Every step keeps frame DRAM in its canonical form. -/
def Obligations.MemoryStaysCanonical : Prop :=
  ∀ s t : State, MemoryInv s → step s = .next t → MemoryInv t

/-- Frame DRAM changes only by a completed burst (R13, R160): every other command but a power-on reset leaves every byte as it
reads. -/
def Obligations.OnlyBurstsWriteMemory : Prop :=
  ∀ (c : Instr) (s t : State), exec c s = .next t → c ≠ .burstComplete → c ≠ .powerOnReset → ∀ a, t.byteAt a = s.byteAt a

/-- Every step keeps the role table one R2 allows. -/
def Obligations.RolesStayLegal : Prop :=
  ∀ s t : State, RolesInv s.classifier → step s = .next t → RolesInv t.classifier

/-- Every step keeps the request table within R1's limits. -/
def Obligations.RequestTableKeepsItsLimits : Prop :=
  ∀ s t : State, TableInv s.port → step s = .next t → TableInv t.port

/-- Every step keeps the operation queue within its 128 places, in order of entry, with one burst at a time, no operation in its burst
while an earlier one that it conflicts with is in the queue (R19, R157), and the line of waiting units without a unit twice (R156,
R160). -/
def Obligations.OperationQueueKeepsItsLimits : Prop :=
  ∀ s t : State, QueueInv s.scheduler → step s = .next t → QueueInv t.scheduler

/-- Every step keeps the report ring, the holding queue and the lost count within their ranges, and the place of the command in
progress reserved (R170, R174, R175). -/
def Obligations.ReportRingKeepsItsLimits : Prop :=
  ∀ s t : State, RingInv s → step s = .next t → RingInv t

/-- Every step keeps the message queue within R142, with a message SHOWING only when the ticker shows it. -/
def Obligations.MessageQueueStaysConsistent : Prop :=
  ∀ s t : State, MessagesInv s.messages → step s = .next t → MessagesInv t.messages

/-- Every step keeps each sponsor in at most one zone (R98). -/
def Obligations.SponsorsShowInOneZone : Prop :=
  ∀ s t : State, ShowsOnce s.rotation → step s = .next t → ShowsOnce t.rotation

/-- Every step keeps the slot law of R104: every slot free, open for one source, or referenced, with its count right. -/
def Obligations.SlotLawHolds : Prop :=
  ∀ s t : State, CaptureInv s.capture → step s = .next t → CaptureInv t.capture

/-- The state after power-on reset meets every invariant stated here. -/
def Obligations.ResetMeetsTheInvariants : Prop :=
  MemoryInv State.reset ∧ RolesInv State.reset.classifier ∧ TableInv State.reset.port ∧ QueueInv State.reset.scheduler ∧
    RingInv State.reset ∧ MessagesInv State.reset.messages ∧ ShowsOnce State.reset.rotation ∧ CaptureInv State.reset.capture

/-- A refused control command changes nothing in any unit (R173): the answer to the Command Reader is the one change, and the
Command Reader shows it, where its last answer was not the same refusal already. -/
def Obligations.RefusedCommandsChangeNothing : Prop :=
  ∀ (c : Instr) (s t : State) (r : Reason), (spell c).isSome = true → s.reader.lastResult ≠ some (.refused r) →
    exec c s = .next t → t.reader.lastResult = some (.refused r) → t = s.setReader (s.reader.answer c (.refused r))

/-- Every control command that fits its record is read back from the record a host writes for it: the name, the argument words and
the payload (R181). SET-OVERLAY-STORE, whose name is longer than the name field, is read back because the model cuts the name to its
first 16 characters: for that one command the clause is the model's choice (DESIGN CHOICE: log 17), not a rule's. -/
def Obligations.RecordsDecodeToTheirCommands : Prop :=
  ∀ (c : Instr) (sp : Spelling) (payloadAddr : Nat), WellFormed c = true → spell c = some sp →
    payloadAddr < 18446744073709551616 →
    decodeRecord (sp.bytes payloadAddr) sp.payload = some c ∧ recordPayloadLen (sp.bytes payloadAddr) = sp.payload.length ∧
      recordPayloadAddr (sp.bytes payloadAddr) = payloadAddr ∧ (sp.bytes payloadAddr).length = 64

/-! ### The Timing Unit -/

/-- At the end of every tick and every command of the Timing Unit each of the 13 strings is the fresh one, and a field notice has
been sent for each string that changed, in the order of the list (R73). The fresh strings are those of R71 and R72: the game clock in
its tenths or minutes form, numbers in decimal, and the RUNNING penalties of a team in start order. -/
def Obligations.StringsFollowTheUnit : Prop :=
  (∀ (c : Instr) (s t : State), isTimingStep c = true → exec c s = .next t →
    (t.timing = s.timing ∧ t.transit.notices = s.transit.notices) ∨
      ((∀ f ∈ allFields, t.timing.string f = t.timing.freshString f) ∧
        t.transit.notices = s.transit.notices ++ allFields.filter fun f => t.timing.string f != s.timing.string f)) ∧
  ∀ t : TimingUnit,
    let minutes := fun (cs : List Nat) (secs : Nat) =>
      ∃ m, Decimal m (secs / 60) ∧ cs = m ++ [58, 48 + secs % 60 / 10, 48 + secs % 10]
    let tenths := (t.clock.value + 99) / 100
    (t.clock.direction = .down → t.clock.value = 0 ∨ tenths < t.clock.threshold / 100 →
      ∃ m, Decimal m (tenths / 10) ∧ t.freshString .gameClock = m ++ [46, 48 + tenths % 10]) ∧
    (t.clock.direction = .down → t.clock.value ≠ 0 → t.clock.threshold / 100 ≤ tenths →
      minutes (t.freshString .gameClock) ((t.clock.value + 999) / 1000)) ∧
    (t.clock.direction = .up → minutes (t.freshString .gameClock) (t.clock.value / 1000)) ∧
    Decimal (t.freshString .playClock) ((t.play.value + 999) / 1000) ∧ Decimal (t.freshString .period) t.clock.period ∧
    ∀ team, Decimal (t.freshString (.score team)) (t.team team).score ∧
      Decimal (t.freshString (.timeouts team)) (t.team team).timeouts ∧
      ∃ running : List Penalty, running.Perm ((t.team team).penalties.filter (·.start.isSome)) ∧
        running.Pairwise (fun p q => p.start.getD 0 ≤ q.start.getD 0) ∧
        (∀ line, running.length ≤ line → t.freshString (.penalty team line) = []) ∧
        ∀ line q, running[line]? = some q → q.player ≤ 99 → ∃ m, minutes m ((q.remaining + 999) / 1000) ∧
          t.freshString (.penalty team line) =
            [if q.player < 10 then 32 else 48 + q.player / 10, 48 + q.player % 10, 32] ++ m

/-- CLOCK_START and CLOCK_STOP in every mode and run state, and NEXT_PERIOD (R62, R66). -/
def Obligations.ClockCommands : Prop :=
  (∀ s : State,
      (s.timing.clock.mode = .contact → TurnedAway .clockStart s .contactOwned ∧ TurnedAway .clockStop s .contactOwned) ∧
      (s.timing.clock.mode = .manual → s.timing.clock.run ≠ .running →
        (s.timing.clock.run = .expired ∨ s.timing.clock.remaining = 0) → TurnedAway .clockStart s .wrongState) ∧
      (s.timing.clock.mode = .manual →
        s.timing.clock.run = .running ∨ (s.timing.clock.run = .stopped ∧ 0 < s.timing.clock.remaining) →
        ∃ t, Does .clockStart s 0 0 t ∧ Frame [.timing, .transit, .reader] s t ∧ TimingSends s t [] [] ∧
          t.timing = { s.timing with clock := { s.timing.clock with run := .running }, strings := t.timing.strings }) ∧
      (s.timing.clock.mode = .manual →
        ∃ t, Does .clockStop s 0 0 t ∧ Frame [.timing, .transit, .reader] s t ∧ TimingSends s t [] [] ∧
          t.timing = { s.timing with
            clock := { s.timing.clock with run := if s.timing.clock.run = .running then .stopped else s.timing.clock.run }
            strings := t.timing.strings })) ∧
  (∀ s : State,
      ∃ t, Does .nextPeriod s 0 0 t ∧ Frame [.timing, .transit, .reader] s t ∧
        TimingSends s t [.periodStart (min 9 (s.timing.clock.period + 1))] [] ∧
        t.timing = { s.timing with
          clock := { s.timing.clock with
            period := min 9 (s.timing.clock.period + 1), run := .stopped,
            value := match s.timing.clock.direction with
              | .down => s.timing.clock.preset
              | .up => 0 }
          play := { s.timing.play with
            value := s.timing.play.preset
            running := if s.timing.play.mode = .free then false else s.timing.play.running }
          strings := t.timing.strings })

/-- CLOCK_SET, SET_PRESET and CLOCK_MODE (R63, R64, R65). -/
def Obligations.ClockSettings : Prop :=
  ∀ (s : State) (v : Nat),
    (s.timing.clock.direction = .down →
      (∃ t, Does (.clockSet v) s 0 0 t ∧ Frame [.timing, .transit, .reader] s t ∧ TimingSends s t [] [] ∧
        t.timing = { s.timing with
          clock := { s.timing.clock with
            value := min v 5999999, run := if v = 0 then .stopped else s.timing.clock.run }
          strings := t.timing.strings }) ∧
      (∃ t, Does (.setPreset v) s 0 0 t ∧ Frame [.timing, .transit, .reader] s t ∧ TimingSends s t [] [] ∧
        t.timing = { s.timing with
          clock := { s.timing.clock with preset := min v 5999999 }, strings := t.timing.strings })) ∧
    (s.timing.clock.direction = .up →
      (∃ t, Does (.clockSet v) s 0 0 t ∧ Frame [.timing, .transit, .reader] s t ∧ TimingSends s t [] [] ∧
        t.timing = { s.timing with
          clock := { s.timing.clock with
            value := min (min v 5999999) s.timing.clock.preset
            run := if s.timing.clock.preset ≤ min v 5999999 then .stopped else s.timing.clock.run }
          strings := t.timing.strings }) ∧
      (∃ t, Does (.setPreset v) s 0 0 t ∧ Frame [.timing, .transit, .reader] s t ∧ TimingSends s t [] [] ∧
        t.timing = { s.timing with
          clock := { s.timing.clock with
            preset := min v 5999999
            value := min s.timing.clock.value (min v 5999999)
            run := if min v 5999999 ≤ s.timing.clock.value then .stopped else s.timing.clock.run }
          strings := t.timing.strings })) ∧
    (∀ (m d : Nat) (mode : ClockMode) (dir : Direction), clockModeOf m = some mode → directionOf d = some dir →
      (dir = s.timing.clock.direction →
        ∃ t, Does (.clockMode m d v) s 0 0 t ∧ Frame [.timing, .transit, .reader] s t ∧ TimingSends s t [] [] ∧
          t.timing = { s.timing with
            clock := { s.timing.clock with mode := mode, threshold := min v 600000 / 100 * 100 }
            strings := t.timing.strings }) ∧
      (dir ≠ s.timing.clock.direction → s.timing.clock.run = .running → TurnedAway (.clockMode m d v) s .wrongState) ∧
      (dir ≠ s.timing.clock.direction → s.timing.clock.run ≠ .running →
        ∃ t, Does (.clockMode m d v) s 0 0 t ∧ Frame [.timing, .transit, .reader] s t ∧ TimingSends s t [] [] ∧
          t.timing = { s.timing with
            clock := { s.timing.clock with
              mode := mode, direction := dir, threshold := min v 600000 / 100 * 100, run := .stopped,
              value := match dir with
                | .down => s.timing.clock.preset
                | .up => 0 }
            strings := t.timing.strings })) ∧
    (∀ m d : Nat, 1 < m ∨ 1 < d → TurnedAway (.clockMode m d v) s .badArgument)

/-- SET_CONTACT gives a contact its polarity and clears its filter; a level is accepted on the third of three equal samples, and the run
contact's acceptance starts or stops a clock in CONTACT mode (R67, R68). An active play contact reloads the play clock in either mode, and in
CONTACT mode the clock follows the run contact's accepted level there as on every sample. -/
def Obligations.Contacts : Prop :=
  (∀ (s : State) (n : Nat) (p : Polarity), polarityOf n = some p →
      (∃ t, Does (.setContact 0 n) s 0 0 t ∧ Frame [.timing, .transit, .reader] s t ∧ TimingSends s t [] [] ∧
        t.timing = { s.timing with
          runFilter := { polarity := p, candidate := none, count := 0, accepted := none }, strings := t.timing.strings }) ∧
      (∃ t, Does (.setContact 1 n) s 0 0 t ∧ Frame [.timing, .transit, .reader] s t ∧ TimingSends s t [] [] ∧
        t.timing = { s.timing with
          playFilter := { polarity := p, candidate := none, count := 0, accepted := none }, strings := t.timing.strings }) ∧
      (∀ c, 1 < c → TurnedAway (.setContact c n) s .badArgument)) ∧
  (∀ (s : State) (c n : Nat), 1 < c ∨ 1 < n → TurnedAway (.setContact c n) s .badArgument) ∧
  (∀ (s : State) (l : Level),
      (s.timing.runFilter.candidate = some l → 2 ≤ s.timing.runFilter.count → s.timing.runFilter.accepted ≠ some l →
        ∃ t, exec (.contactAccept .run l) s = .next t ∧ Frame [.timing, .transit] s t ∧ TimingSends s t [] [] ∧
          t.timing.runFilter = { s.timing.runFilter with count := 3, accepted := some l } ∧
          t.timing.playFilter = s.timing.playFilter ∧ t.timing.play = s.timing.play ∧ t.timing.team0 = s.timing.team0 ∧
          t.timing.team1 = s.timing.team1 ∧
          (s.timing.clock.mode = .manual → t.timing.clock = s.timing.clock) ∧
          (s.timing.clock.mode = .contact → s.timing.clock.run = .stopped → 0 < s.timing.clock.remaining →
            t.timing.runFilter.active = true → t.timing.clock = { s.timing.clock with run := .running }) ∧
          (s.timing.clock.mode = .contact → s.timing.clock.run = .running → t.timing.runFilter.active = false →
            t.timing.clock = { s.timing.clock with run := .stopped })) ∧
      (s.timing.playFilter.candidate = some l → 2 ≤ s.timing.playFilter.count → s.timing.playFilter.accepted ≠ some l →
        ∃ t, exec (.contactAccept .play l) s = .next t ∧ Frame [.timing, .transit] s t ∧ TimingSends s t [] [] ∧
          t.timing.playFilter = { s.timing.playFilter with count := 3, accepted := some l } ∧
          t.timing.runFilter = s.timing.runFilter ∧ t.timing.team0 = s.timing.team0 ∧ t.timing.team1 = s.timing.team1 ∧
          (s.timing.clock.mode = .manual → t.timing.clock = s.timing.clock) ∧
          (s.timing.clock.mode = .contact → s.timing.clock.run = .stopped → 0 < s.timing.clock.remaining →
            s.timing.runFilter.active = true → t.timing.clock = { s.timing.clock with run := .running }) ∧
          (s.timing.clock.mode = .contact → s.timing.clock.run = .running → s.timing.runFilter.accepted ≠ none →
            s.timing.runFilter.active = false → t.timing.clock = { s.timing.clock with run := .stopped }) ∧
          (s.timing.clock.mode = .contact → s.timing.runFilter.accepted = none → t.timing.clock = s.timing.clock) ∧
          (t.timing.playFilter.active = true → t.timing.play.value = s.timing.play.preset) ∧
          (t.timing.playFilter.active = false → t.timing.play = s.timing.play)))

/-- The five commands of the play clock (R70). -/
def Obligations.PlayClockCommands : Prop :=
  ∀ (s : State) (v : Nat),
    (∀ (n : Nat) (m : PlayMode), playModeOf n = some m →
      ∃ t, Does (.playMode n v) s 0 0 t ∧ Frame [.timing, .transit, .reader] s t ∧ TimingSends s t [] [] ∧
        t.timing = { s.timing with
          play := { s.timing.play with mode := m, preset := min v 99999, running := false }, strings := t.timing.strings }) ∧
    (∀ n, 1 < n → TurnedAway (.playMode n v) s .badArgument) ∧
    (s.timing.play.mode = .linked ∨ s.timing.play.value = 0 → TurnedAway .playStart s .wrongState) ∧
    (s.timing.play.mode = .linked → TurnedAway .playStop s .wrongState) ∧
    (s.timing.play.mode = .free → 0 < s.timing.play.value →
      ∃ t, Does .playStart s 0 0 t ∧ Frame [.timing, .transit, .reader] s t ∧ TimingSends s t [] [] ∧
        t.timing = { s.timing with play := { s.timing.play with running := true }, strings := t.timing.strings }) ∧
    (s.timing.play.mode = .free →
      ∃ t, Does .playStop s 0 0 t ∧ Frame [.timing, .transit, .reader] s t ∧ TimingSends s t [] [] ∧
        t.timing = { s.timing with play := { s.timing.play with running := false }, strings := t.timing.strings }) ∧
    (∃ t, Does (.playSet v) s 0 0 t ∧ Frame [.timing, .transit, .reader] s t ∧ TimingSends s t [] [] ∧
      t.timing = { s.timing with
        play := { s.timing.play with
          value := min v 99999
          running := if s.timing.play.mode = .free ∧ v = 0 then false else s.timing.play.running }
        strings := t.timing.strings }) ∧
    (∃ t, Does .playReset s 0 0 t ∧ Frame [.timing, .transit, .reader] s t ∧ TimingSends s t [] [] ∧
      t.timing = { s.timing with
        play := { s.timing.play with
          value := s.timing.play.preset
          running := if s.timing.play.mode = .free ∧ s.timing.play.preset = 0 then false else s.timing.play.running }
        strings := t.timing.strings })

/-- The commands of the penalty lists (R74 to R77): their refusals, the entries the team's list holds afterwards and which of them run,
with nothing else of the team's record changed. A list that was full already starts a new entry exactly when its team runs fewer
than the limit and its player does not run (R75). -/
def Obligations.PenaltyCommands : Prop :=
  ∀ (s : State) (team player v : Nat),
    let x := s.timing.team team
    let changes := fun (cmd : Instr) (ps : List Penalty) (n : Nat) =>
      ∃ t, Does cmd s 0 0 t ∧ Frame [.timing, .transit, .reader] s t ∧ TimingSends s t [] [] ∧ OnlyTeam s t team ∧
        t.timing.team team = { x with penalties := ps, limit := n }
    let posted := fun start : Option Nat => x.penalties ++ [(⟨player, clamp 1000 600000 v, start⟩ : Penalty)]
    let left := x.penalties.eraseP fun q => q.player == player
    let full := ∀ q ∈ x.penalties, q.start = none → runningCount x.penalties < x.limit →
      playerRunning x.penalties q.player = true
    let starts := runningCount x.penalties < x.limit ∧ playerRunning x.penalties player = false
    (1 < team ∨ 99 < player → TurnedAway (.penaltyAdd team player v) s .badArgument ∧
      TurnedAway (.penaltyCancel team player) s .badArgument) ∧
    (1 < team → TurnedAway (.penaltyClear team) s .badArgument ∧ TurnedAway (.setConcurrency team v) s .badArgument) ∧
    (team ≤ 1 → player ≤ 99 → 8 ≤ x.penalties.length → TurnedAway (.penaltyAdd team player v) s .noRoom) ∧
    (team ≤ 1 → player ≤ 99 → x.penalties.length < 8 →
      (∃ ps, changes (.penaltyAdd team player v) ps x.limit ∧ FilledFrom x.limit (posted none) ps) ∧
      (full → starts → ∃ p, changes (.penaltyAdd team player v) (posted (some p)) x.limit ∧
        ∀ q ∈ x.penalties, q.start.getD 0 < p) ∧
      (full → ¬ starts → changes (.penaltyAdd team player v) (posted none) x.limit)) ∧
    (team ≤ 1 → player ≤ 99 → (∀ q ∈ x.penalties, q.player ≠ player) →
      TurnedAway (.penaltyCancel team player) s .notFound) ∧
    (team ≤ 1 → player ≤ 99 → (∃ q ∈ x.penalties, q.player = player) →
      ∃ ps, changes (.penaltyCancel team player) ps x.limit ∧ FilledFrom x.limit left ps) ∧
    (team ≤ 1 → changes (.penaltyClear team) [] x.limit) ∧
    (team ≤ 1 → runningCount x.penalties < clamp 1 3 v →
      ∃ ps, changes (.setConcurrency team v) ps (clamp 1 3 v) ∧ FilledFrom (clamp 1 3 v) x.penalties ps) ∧
    (team ≤ 1 → runningCount x.penalties = clamp 1 3 v → changes (.setConcurrency team v) x.penalties (clamp 1 3 v)) ∧
    (team ≤ 1 → clamp 1 3 v < runningCount x.penalties →
      ∃ ps, changes (.setConcurrency team v) ps (clamp 1 3 v) ∧ DemotedTo (clamp 1 3 v) x.penalties ps)

/-- The score record: its four commands, its values after power-on reset, and that a control reset leaves it (R79). -/
def Obligations.ScoreCommands : Prop :=
  (∀ team, (State.reset.timing.team team).score = 0 ∧ (State.reset.timing.team team).timeouts = 0) ∧
  (∀ s : State, ∃ t, exec .resetUnits s = .next t ∧ t.timing = s.timing) ∧
  ∀ (s : State) (team v : Nat) (delta : Int),
    (team ≤ 1 →
      let x := s.timing.team team
      (∃ t, Does (.scoreSet team v) s 0 0 t ∧ Frame [.timing, .transit, .reader] s t ∧ TimingSends s t [] [] ∧
        t.timing.team team = { x with score := min v 999 } ∧ OnlyTeam s t team) ∧
      (∃ (t : State) (score : Nat), Does (.scoreAdd team delta) s 0 0 t ∧ Frame [.timing, .transit, .reader] s t ∧
        (score : Int) = max 0 (min 999 ((x.score : Int) + max (-9) (min 9 delta))) ∧
        TimingSends s t (if x.score < score then [.scoreUp team] else []) [] ∧
        t.timing.team team = { x with score := score } ∧ OnlyTeam s t team) ∧
      (∃ t, Does (.setTimeouts team v) s 0 0 t ∧ Frame [.timing, .transit, .reader] s t ∧ TimingSends s t [] [] ∧
        t.timing.team team = { x with timeouts := min v 9 } ∧ OnlyTeam s t team) ∧
      (0 < x.timeouts →
        ∃ t, Does (.timeout team) s 0 0 t ∧ Frame [.timing, .transit, .reader] s t ∧ TimingSends s t [.timeout team] [] ∧
          t.timing.team team = { x with timeouts := x.timeouts - 1 } ∧
          OnlyTeam s t team) ∧
      (x.timeouts = 0 → TurnedAway (.timeout team) s .wrongState)) ∧
    (1 < team →
      TurnedAway (.scoreSet team v) s .badArgument ∧ TurnedAway (.scoreAdd team delta) s .badArgument ∧
        TurnedAway (.setTimeouts team v) s .badArgument ∧ TurnedAway (.timeout team) s .badArgument)

/-- A millisecond tick on which no clock and no penalty reaches its end and the play contact is not accepted (R59, R61, R67, R68,
R69, R78): the lines and the filters have their sample; in CONTACT mode the game clock first starts or stops as the run contact's
accepted level has it; and then, in either direction and either mode, a running game clock moves by one, the play clock counts
where its mode has it, and on a running tick every RUNNING penalty counts. Then a tick on which anything ends, with the samples of the
two contacts said directly (R67): the game clock expires, the play contact's acceptance reloads the play clock before it counts, the play
clock expires, and every RUNNING penalty that reaches 0 leaves its list, team 0 and then team 1, after which each list that lost an entry
is filled (R74, R78); the period-end event goes first, then the play-expiry event, and the reports follow in that order with the
PENALTY-DONE reports last, in posting order. The frame number in the three reports is the model's reading (DEDUCED: log 28). No tick is
taken while RESET is held: the lines alone change. -/
def Obligations.MillisecondTick : Prop :=
  (∀ (s : State) (run play : Level), s.lines.resetHeld = false → (s.timing.playFilter.sample play).2 = false →
    let old := s.timing.clock
    let filter := (s.timing.runFilter.sample run).1
    let starts := old.mode = .contact ∧ filter.active = true ∧ old.run = .stopped ∧
      0 < (if old.direction = .down then old.value else old.preset - old.value)
    let stops := old.mode = .contact ∧ filter.accepted.isSome = true ∧ filter.active = false ∧ old.run = .running
    let now : RunState := if starts then .running else if stops then .stopped else old.run
    let counts := (s.timing.play.mode = .linked ∧ now = .running) ∨
      (s.timing.play.mode = .free ∧ s.timing.play.running = true)
    let counted := fun x : Team => if now = .running then { x with penalties := x.penalties.map fun q =>
      if q.start.isSome then { q with remaining := q.remaining - 1 } else q } else x
    (now = .running → old.direction = .down → 2 ≤ old.value) →
    (now = .running → old.direction = .up → old.value + 1 < old.preset) →
    (counts → s.timing.play.value ≠ 1) →
    (now = .running → ∀ q ∈ s.timing.team0.penalties ++ s.timing.team1.penalties, q.start.isSome = true → 2 ≤ q.remaining) →
    ∃ t, exec (.msTick run play) s = .next t ∧ Frame [.lines, .timing, .transit] s t ∧ TimingSends s t [] [] ∧
      t.lines = { s.lines with contactRun := run, contactPlay := play } ∧
      t.timing = { s.timing with
        clock := { old with
          run := now
          value := if now = .running then (if old.direction = .down then old.value - 1 else old.value + 1) else old.value }
        play := { s.timing.play with value := if counts then s.timing.play.value - 1 else s.timing.play.value }
        runFilter := filter
        playFilter := (s.timing.playFilter.sample play).1
        team0 := counted s.timing.team0
        team1 := counted s.timing.team1
        strings := t.timing.strings }) ∧
  (∀ (s : State) (run play : Level), s.lines.resetHeld = true →
    exec (.msTick run play) s = .next { s with lines := { s.lines with contactRun := run, contactPlay := play } }) ∧
  (∀ (s : State) (run play : Level), s.lines.resetHeld = false →
    let old := s.timing.clock
    let p := s.timing.play
    let accepts := fun (f : ContactFilter) (l : Level) => f.candidate = some l ∧ 2 ≤ f.count ∧ f.accepted ≠ some l
    let sampled := fun (f g : ContactFilter) (l : Level) =>
      (f.candidate ≠ some l → g = { f with candidate := some l, count := 1 }) ∧
      (f.candidate = some l → f.count = 0 → g = { f with count := 1 }) ∧
      (f.candidate = some l → f.count = 1 → g = { f with count := 2 }) ∧
      (f.candidate = some l → 2 ≤ f.count → g = { f with count := 3, accepted := some l })
    let level := fun f : ContactFilter => if f.polarity = .activeHigh then Level.high else Level.low
    ∃ (t : State) (now : RunState) (value : Nat) (going : Bool) (gone0 gone1 : List Penalty),
      exec (.msTick run play) s = .next t ∧ Frame [.lines, .timing, .transit] s t ∧
      t.lines = { s.lines with contactRun := run, contactPlay := play } ∧
      sampled s.timing.runFilter t.timing.runFilter run ∧ sampled s.timing.playFilter t.timing.playFilter play ∧
      (old.mode = .contact → t.timing.runFilter.accepted = some (level s.timing.runFilter) → old.run = .stopped →
        0 < (if old.direction = .down then old.value else old.preset - old.value) → now = .running) ∧
      (old.mode = .contact → t.timing.runFilter.accepted ≠ none → t.timing.runFilter.accepted ≠ some (level s.timing.runFilter) →
        old.run = .running → now = .stopped) ∧
      (old.mode = .manual ∨ t.timing.runFilter.accepted = none ∨ old.run = .expired ∨
        (old.run = .stopped ∧ (t.timing.runFilter.accepted ≠ some (level s.timing.runFilter) ∨
          (if old.direction = .down then old.value else old.preset - old.value) = 0)) ∨
        (old.run = .running ∧ t.timing.runFilter.accepted = some (level s.timing.runFilter)) → now = old.run) ∧
      let reloads := accepts s.timing.playFilter play ∧ play = level s.timing.playFilter
      (reloads → value = p.preset ∧ going = (if p.mode = .free ∧ p.preset = 0 then false else p.running)) ∧
      (¬ reloads → value = p.value ∧ going = p.running) ∧
      let next := if old.direction = .down then old.value - 1 else old.value + 1
      let ends := now = .running ∧ next = if old.direction = .down then 0 else old.preset
      let counts := (p.mode = .linked ∧ now = .running) ∨ (p.mode = .free ∧ going = true)
      let expires := counts ∧ value = 1
      let counted := fun (x y : Team) (gone : List Penalty) =>
        (now ≠ .running → gone = [] ∧ y = x) ∧
        (now = .running →
          let less := x.penalties.map fun q => if q.start.isSome then { q with remaining := q.remaining - 1 } else q
          let kept := less.filter fun q => q.start.isNone || q.remaining != 0
          gone = (less.filter fun q => q.start.isSome && q.remaining == 0) ∧ y = { x with penalties := y.penalties } ∧
            (gone = [] → y.penalties = less) ∧ (gone ≠ [] → FilledFrom x.limit kept y.penalties))
      counted s.timing.team0 t.timing.team0 gone0 ∧ counted s.timing.team1 t.timing.team1 gone1 ∧
      t.timing = { s.timing with
        clock := { old with
          run := if ends then .expired else now
          value := if now = .running then next else old.value }
        play := { p with
          value := if counts then value - 1 else value
          running := if expires ∧ p.mode = .free then false else going }
        runFilter := t.timing.runFilter
        playFilter := t.timing.playFilter
        team0 := t.timing.team0
        team1 := t.timing.team1
        strings := t.timing.strings } ∧
      TimingSends s t ((if ends then [.periodEnd old.period] else []) ++ if expires then [.playExpiry] else [])
        ((if ends then [.periodEnd old.period old.direction s.classifier.frame] else []) ++
          (if expires then [.playExpiry s.classifier.frame] else []) ++
          (gone0.map fun q => .penaltyDone 0 q.player s.classifier.frame) ++
          gone1.map fun q => .penaltyDone 1 q.player s.classifier.frame))

/-- The last millisecond of the game clock, of the play clock and of a team's penalties (R61, R69, R78, R80): a penalty counts only
while the game clock is RUNNING, the entries that reach 0 leave together with their reports in posting order, and the list is then filled
(R74). The rows that name one part of a tick do just that part (log 4); the frame number in the three
reports is the model's reading of R182 (DEDUCED: log 28), since R80 gives PENALTY-DONE only the team and the player. -/
def Obligations.LastMilliseconds : Prop :=
  ∀ s : State,
    (s.timing.clock.run = .running → s.timing.clock.direction = .down → s.timing.clock.value = 1 →
      ∃ t, exec .periodEnd s = .next t ∧ Frame [.timing, .transit] s t ∧
        TimingSends s t [.periodEnd s.timing.clock.period] [.periodEnd s.timing.clock.period .down s.classifier.frame] ∧
        t.timing = { s.timing with
          clock := { s.timing.clock with value := 0, run := .expired }, strings := t.timing.strings }) ∧
    (s.timing.clock.run = .running → s.timing.clock.direction = .up → s.timing.clock.value + 1 = s.timing.clock.preset →
      ∃ t, exec .periodEnd s = .next t ∧ Frame [.timing, .transit] s t ∧
        TimingSends s t [.periodEnd s.timing.clock.period] [.periodEnd s.timing.clock.period .up s.classifier.frame] ∧
        t.timing = { s.timing with
          clock := { s.timing.clock with value := s.timing.clock.preset, run := .expired }, strings := t.timing.strings }) ∧
    (s.timing.play.value = 1 → s.timing.play.mode = .free → s.timing.play.running = true →
      ∃ t, exec .playExpiry s = .next t ∧ Frame [.timing, .transit] s t ∧
        TimingSends s t [.playExpiry] [.playExpiry s.classifier.frame] ∧
        t.timing = { s.timing with
          play := { s.timing.play with value := 0, running := false }, strings := t.timing.strings }) ∧
    (s.timing.play.value = 1 → s.timing.play.mode = .linked → s.timing.clock.run = .running →
      ∃ t, exec .playExpiry s = .next t ∧ Frame [.timing, .transit] s t ∧
        TimingSends s t [.playExpiry] [.playExpiry s.classifier.frame] ∧
        t.timing = { s.timing with play := { s.timing.play with value := 0 }, strings := t.timing.strings }) ∧
    (∀ team, s.timing.clock.run ≠ .running → exec (.penaltyDone team) s = .next s) ∧
    (∀ (team : Nat) (q : Penalty) (rest : List Penalty), team ≤ 1 → s.timing.clock.run = .running → q.start.isSome = true →
      q.remaining = 1 → (s.timing.team team).penalties = q :: rest →
      (∀ p ∈ rest, p.start.isSome = true → 2 ≤ p.remaining) →
      ∃ t, exec (.penaltyDone team) s = .next t ∧ Frame [.timing, .transit] s t ∧
        TimingSends s t [] [.penaltyDone team q.player s.classifier.frame] ∧
        (t.timing.team team).penalties.map (fun p => (p.player, p.remaining)) = rest.map (fun p => (p.player, p.remaining)) ∧
        OnlyTeam s t team) ∧
    (∀ team, team ≤ 1 → s.timing.clock.run = .running →
      let x := s.timing.team team
      let gone := x.penalties.filter fun q => q.start.isSome && q.remaining ≤ 1
      (gone = [] → exec (.penaltyDone team) s = .next s) ∧
      (gone ≠ [] → ∃ t, exec (.penaltyDone team) s = .next t ∧ Frame [.timing, .transit] s t ∧
        TimingSends s t [] (gone.map fun q => .penaltyDone team q.player s.classifier.frame) ∧ OnlyTeam s t team ∧
        t.timing.team team = { x with penalties := (t.timing.team team).penalties } ∧
        FilledFrom x.limit (x.penalties.filter fun q => q.start.isNone || !(decide (q.remaining ≤ 1)))
          (t.timing.team team).penalties))

/-! ### The frame path -/

/-- SET_ROLE and SET_CANVAS: refusals and effects (R3, R4, R5). -/
def Obligations.RoleAndCanvasCommands : Prop :=
  (∀ (s : State) (i role source : Nat),
      (15 < i ∨ i = s.classifier.strapInitiator ∨ 3 < role ∨ (role = 2 ∧ 3 < source) →
        TurnedAway (.setRole i role source) s .badArgument) ∧
      (∀ given, i ≤ 15 → i ≠ s.classifier.strapInitiator → roleOf role source = some given →
        ∃ t, Carries (.setRole i role source) [.classifier] s t ∧
          t.classifier = { s.classifier with roles := t.classifier.roles } ∧ t.classifier.role i = given ∧
          ∀ j, j < 16 → j ≠ i → t.classifier.role j =
            if s.classifier.role j = given ∧ ¬ (given = .control ∧ j = s.classifier.strapInitiator) then .none
            else s.classifier.role j)) ∧
  (∀ (s : State) (base width height pitch : Nat),
      let bad := base % 32 ≠ 0 ∨ width < 64 ∨ 4096 < width ∨ width % 8 ≠ 0 ∨ height < 16 ∨ 2160 < height ∨ pitch % 32 ≠ 0 ∨
        pitch < 4 * width ∨ 65536 < pitch ∨ 34359738368 < base + height * pitch ∨
        ∃ a, base ≤ a ∧ a < base + height * pitch ∧ s.apertureBase ≤ a ∧ a < s.apertureBase + 1048576
      (bad → TurnedAway (.setCanvas base width height pitch) s .badArgument) ∧
      (¬ bad → (∃ z, z < 8 ∧ (zoneAt s.compositor.zones z).enabled = true) →
        TurnedAway (.setCanvas base width height pitch) s .inUse) ∧
      (¬ bad → (∀ z, z < 8 → (zoneAt s.compositor.zones z).enabled = false) →
        ∃ t, Carries (.setCanvas base width height pitch) [.classifier] s t ∧
          t.classifier = { s.classifier with canvas := some ⟨base, width, height, pitch⟩ }))

/-- A FRAME pulse, the release of RESET and a power-on reset (R2, R16, R20, R166, R168, R180). Frame starts wait for their units in
FIFOs (log 27), and what the initiators present stays presented over a power-on reset (log 10). -/
def Obligations.FrameStartsAndResets : Prop :=
  ∀ (s : State) (aperture : BitVec 5) (control : BitVec 4),
    (s.lines.resetHeld = false →
      ∃ t, Completes .frameStart [.classifier, .transit] s t ∧
        t.classifier = { s.classifier with frame := s.classifier.frame + 1 } ∧
        t.transit = { s.transit with
          due := {
            render := s.transit.due.render ++ [s.classifier.frame + 1]
            rotation := s.transit.due.rotation ++ [s.classifier.frame + 1]
            capture := s.transit.due.capture ++ [s.classifier.frame + 1]
            playout := s.transit.due.playout ++ [s.classifier.frame + 1]
            message := s.transit.due.message ++ [s.classifier.frame + 1]
            status := s.transit.due.status ++ [s.classifier.frame + 1] } }) ∧
    (s.lines.resetHeld = true → exec .frameStart s = .next s) ∧
    (s.lines.resetHeld = true →
      ∃ t, Completes (.resetRelease aperture control) [.lines, .classifier, .scheduler] s t ∧
        t.lines.resetHeld = false ∧ t.lines.contactRun = s.lines.contactRun ∧ t.lines.contactPlay = s.lines.contactPlay ∧
        t.apertureBase = aperture.toNat * 1073741824 ∧ t.classifier.strapInitiator = control.toNat ∧
        t.classifier.canvas = s.classifier.canvas ∧ t.classifier.frame = s.classifier.frame ∧
        (∀ i, i < 16 → t.classifier.role i = if i = control.toNat then .control else .none) ∧
        t.scheduler = { s.scheduler with init := .prechargeAll }) ∧
    (s.lines.resetHeld = false → exec (.resetRelease aperture control) s = .next s) ∧
    (∃ t, exec .powerOnReset s = .next t ∧ t.lines = { s.lines with resetHeld := true } ∧ t.pending = s.pending ∧
      t.port = { State.reset.port with presented := s.port.presented } ∧
      t.classifier.canvas = none ∧ t.classifier.frame = 0 ∧
      (∀ i, i < 16 → t.classifier.role i = if i = s.lines.strapPins.control.toNat then .control else .none) ∧
      t.compositor = State.reset.compositor ∧ t.render = State.reset.render ∧ t.timing = State.reset.timing ∧
      t.rotation = State.reset.rotation ∧ t.capture = State.reset.capture ∧ t.playout = State.reset.playout ∧
      t.messages = State.reset.messages ∧ t.scheduler = State.reset.scheduler ∧ t.reader = State.reset.reader ∧
      t.writer = State.reset.writer ∧ t.transit = State.reset.transit ∧
      ∀ a, t.byteAt a = Config.dramUndefined (s.powerOns + 1) a)

/-- A request that reaches 32 GiB, and a write that touches an area the part owns, are accepted with nothing entered, sampled or
handed on, and are READY at once with their refusals (R8, R9); and a request of an initiator with no role, within one DRAM row, is
carried to memory as it was presented, as one operation with all its beats PLAIN (R7, R13, R14). Among several initiators that
present requests the next place goes to the first behind the pointer that is below its limit of 16, or to the one it is offered to
already (R15); before DRAM initialisation has completed, with a full table, with every presenting initiator at its limit, or with too
few places of the operation queue, nothing is accepted, and a request newly presented is kept (R14, R16, R156). -/
def Obligations.RequestsRefusedOrPlain : Prop :=
  (∀ (s : State) (r : Request), Admits s r →
      (34359738368 < r.addr + 32 * r.beats →
        ∃ (t : State) (e : Entry), Completes (.requestAccept [r]) [.port] s t ∧ Accepted s t r e ∧ e.ready = true ∧
          e.response = ⟨.decodeError, if r.write then [] else List.replicate r.beats (List.replicate 32 0)⟩) ∧
      (r.addr + 32 * r.beats ≤ 34359738368 → r.write = true → (∃ a, touches r a ∧ s.owns a) →
        ∃ (t : State) (e : Entry), Completes (.requestAccept [r]) [.port] s t ∧ Accepted s t r e ∧ e.ready = true ∧
          e.response = ⟨.protected', []⟩)) ∧
  (∀ (s : State) (r : Request), Admits s r → s.classifier.role r.initiator = .none → s.scheduler.queue.length < 128 →
      r.addr + 32 * r.beats ≤ 34359738368 → (r.write = true → ∀ a, touches r a → ¬ s.owns a) →
      r.addr / 8192 = (r.addr + 32 * r.beats - 1) / 8192 →
      ∃ (t : State) (e : Entry), Completes (.requestAccept [r]) [.port, .scheduler] s t ∧ Accepted s t r e ∧
        e.treatment = .normal ∧ e.beats = List.replicate r.beats .plain ∧ e.opsLeft = 1 ∧ e.compositesLeft = 0 ∧
        t.queued = s.queued ++ [(r.write, r.addr, r.beats, r.data,
          if r.write then .fabricWrite e.number none none else .fabricRead e.number 0)]) ∧
  (∀ (s : State) (k i : Nat) (r : Request), k < 16 → i = (s.port.pointer + 1 + k) % 16 → s.port.initDone = true →
      s.port.table.length < 64 → s.port.offered = none ∨ s.port.offered = some i →
      tget s.port.presented i none = some r → r.initiator = i → s.port.entriesOf i < 16 →
      (s.port.offered = none → ∀ j, j < k → tget s.port.presented ((s.port.pointer + 1 + j) % 16) none = none ∨
        16 ≤ s.port.entriesOf ((s.port.pointer + 1 + j) % 16)) →
      s.scheduler.waiters = [] →
      (s.scheduler.queue.length + s.reservation i r ≤ 128 →
        ∃ (t : State) (e : Entry), exec (.requestAccept []) s = .next t ∧
          Frame [.port, .compositor, .capture, .scheduler] s t ∧
          t.port = { s.port with
            table := s.port.table ++ [e], nextEntry := s.port.nextEntry + 1, pointer := i, offered := none
            presented := t.port.presented } ∧
          e.request = r ∧ tget t.port.presented i none = none ∧
          (∀ j, j ≠ i → tget t.port.presented j none = tget s.port.presented j none) ∧
          t.queued.length = s.queued.length + s.reservation i r) ∧
      (128 < s.scheduler.queue.length + s.reservation i r → 0 < s.reservation i r →
        ∃ t, Completes (.requestAccept []) [.port, .scheduler] s t ∧ t.port = { s.port with offered := some i } ∧
          t.scheduler = { s.scheduler with waiters := [.port] })) ∧
  (∀ s : State, s.port.offered = none → s.port.initDone = true → s.port.table.length < 64 → .port ∉ s.scheduler.waiters →
      (∀ i, i < 16 → tget s.port.presented i none = none ∨ 16 ≤ s.port.entriesOf i) →
      exec (.requestAccept []) s = .next s) ∧
  (∀ (s : State) (r : Request), s.port.initDone = false ∨ 64 ≤ s.port.table.length →
      exec (.requestAccept []) s = .next s ∧
      (r.wellFormed = true → tget s.port.presented r.initiator none = none →
        ∃ t, Completes (.requestAccept [r]) [.port] s t ∧ t.port = { s.port with presented := t.port.presented } ∧
          tget t.port.presented r.initiator none = some r ∧
          ∀ j, j ≠ r.initiator → tget t.port.presented j none = tget s.port.presented j none))

/-- Requests whose initiator's role gives their beats another treatment (R7, R10, R11, R12): a scanout read within one canvas line
is composited beat by beat, an ingest write is mirrored into the open slot, its mirror notice handled within the acceptance
(log 6), and a control write of the command index word is snooped. So is one of the report consumer word; a beat with both words fully
enabled hands on both; and a word with fewer than four of its byte enables set is not snooped, nor is either word in a write of an
initiator that is not CONTROL: these are written to memory as plain beats alone (R12). -/
def Obligations.RequestsOfARole : Prop :=
  ∀ (s : State) (r : Request), Admits s r → r.addr + 32 * r.beats ≤ 34359738368 →
    (∀ c, s.classifier.role r.initiator = .scanout → r.write = false → s.classifier.canvas = some c → c.valid = true →
      c.base ≤ r.addr → r.addr < c.base + c.height * c.pitch →
      (r.addr - c.base) % c.pitch + 32 * r.beats ≤ 4 * c.width →
      ∃ (t : State) (e : Entry), Completes (.requestAccept [r]) [.port, .compositor] s t ∧ Accepted s t r e ∧
        e.opsLeft = 0 ∧ e.compositesLeft = r.beats ∧
        t.compositor = { s.compositor with queue := t.compositor.queue, notes := t.compositor.notes } ∧
        t.compositor.queue = s.compositor.queue ++ (List.range r.beats).map fun k =>
          ⟨e.number, k, (r.addr - c.base) / c.pitch, (r.addr - c.base) % c.pitch / 4 + 8 * k, r.addr + 32 * k,
            s.classifier.frame⟩) ∧
    (∀ n c slot p, s.classifier.role r.initiator = .ingest n → n ≤ 3 → r.write = true → (∀ a, touches r a → ¬ s.owns a) →
      (s.capture.source n).config = some c → (s.capture.source n).openSlot = some slot → s.capture.pool = some p →
      c.base ≤ r.addr → r.addr + 32 * r.beats ≤ c.base + c.width * c.height * 4 →
      r.addr / 8192 = (r.addr + 32 * r.beats - 1) / 8192 →
      (p.base + slot * p.stride + (r.addr - c.base)) / 8192 =
        (p.base + slot * p.stride + (r.addr - c.base) + 32 * r.beats - 1) / 8192 →
      (p.base + slot * p.stride + (r.addr - c.base)) % 32 = 0 →
      s.scheduler.queue.length + 2 ≤ 128 →
      ∃ (t : State) (e : Entry), Completes (.requestAccept [r]) [.port, .capture, .scheduler] s t ∧ Accepted s t r e ∧
        e.opsLeft = 1 ∧ e.compositesLeft = 0 ∧
        t.queued = s.queued ++
          [(true, r.addr, r.beats, r.data, .fabricWrite e.number none none),
            (true, p.base + slot * p.stride + (r.addr - c.base), r.beats, r.data, .mirror)] ∧
        t.capture = { s.capture with sources := t.capture.sources } ∧
        (∀ m, m ≠ n → t.capture.source m = s.capture.source m) ∧
        t.capture.source n = { s.capture.source n with
          beats := if r.addr = c.base then r.beats
            else min (c.width * c.height / 8) ((s.capture.source n).beats + r.beats) }) ∧
    (∀ beat, s.classifier.role r.initiator = .control → r.write = true → (∀ a, touches r a → ¬ s.owns a) →
      r.addr = s.apertureBase + 256 → r.data = [beat] → r.beats = 1 → wordEnabled beat 0 = true →
      wordEnabled beat 4 = false → s.scheduler.queue.length < 128 →
      ∃ (t : State) (e : Entry), Completes (.requestAccept [r]) [.port, .scheduler] s t ∧ Accepted s t r e ∧
        e.opsLeft = 1 ∧ e.compositesLeft = 0 ∧
        t.queued = s.queued ++
          [(true, r.addr, 1, [beat], .fabricWrite e.number
            (some (BitVec.ofNat 32 (ofLe ((beat.take 4).map (·.getD 0))))) none)]) ∧
    (∀ beat, r.write = true → (∀ a, touches r a → ¬ s.owns a) → r.addr = s.apertureBase + 256 → r.data = [beat] → r.beats = 1 →
      s.scheduler.queue.length < 128 →
      let full := fun first : Nat => ∀ k, first ≤ k → k < first + 4 → ∃ b, beat[k]? = some (some b)
      let word := fun first : Nat => BitVec.ofNat 32 (ofLe (((beat.drop first).take 4).map (·.getD 0)))
      let carried := fun (b : BeatTreatment) (index consumer : Option Count) =>
        ∃ (t : State) (e : Entry), Completes (.requestAccept [r]) [.port, .scheduler] s t ∧ Accepted s t r e ∧ e.beats = [b] ∧
          e.opsLeft = 1 ∧ e.compositesLeft = 0 ∧
          t.queued = s.queued ++ [(true, r.addr, 1, [beat], .fabricWrite e.number index consumer)]
      (s.classifier.role r.initiator = .control →
        (full 0 → full 4 → carried (.snooped true true) (some (word 0)) (some (word 4))) ∧
        (full 0 → ¬ full 4 → carried (.snooped true false) (some (word 0)) none) ∧
        (¬ full 0 → full 4 → carried (.snooped false true) none (some (word 4))) ∧
        (¬ full 0 → ¬ full 4 → carried .plain none none)) ∧
      (s.classifier.role r.initiator = .none ∨ s.classifier.role r.initiator = .scanout → carried .plain none none) ∧
      (∀ n, s.classifier.role r.initiator = .ingest n → (s.capture.source n).config = none → carried .plain none none))

/-- The oldest entry of an initiator returns its response when it is READY and leaves the table; an entry that is OPEN holds its
initiator's responses back (R17). -/
def Obligations.Responses : Prop :=
  ∀ (s : State) (i : Nat) (earlier later : List Entry) (e : Entry), i < 16 → s.port.table = earlier ++ e :: later →
    e.request.initiator = i → (∀ q ∈ earlier, q.request.initiator ≠ i) →
    (∀ q ∈ earlier ++ later, q.number ≠ e.number) →
    (e.opsLeft = 0 → e.compositesLeft = 0 →
      ∃ t, Completes (.responseReturn i) [.port] s t ∧
        t.port = { s.port with table := earlier ++ later, returnPath := t.port.returnPath } ∧
        (∀ j, j ≠ i → tget t.port.returnPath j none = tget s.port.returnPath j none) ∧
        (e.treatment = .normal → e.request.write = true → tget t.port.returnPath i none = some ⟨.ok, []⟩) ∧
        (∀ beats, e.treatment = .normal → e.request.write = false → e.readData = beats.map some →
          tget t.port.returnPath i none = some ⟨.ok, beats⟩) ∧
        (e.treatment = .decodeError → tget t.port.returnPath i none =
          some ⟨.decodeError, if e.request.write then [] else List.replicate e.request.beats (List.replicate 32 0)⟩) ∧
        (e.treatment = .protected' → tget t.port.returnPath i none = some ⟨.protected', []⟩)) ∧
    (e.opsLeft ≠ 0 ∨ e.compositesLeft ≠ 0 → exec (.responseReturn i) s = .next s)

/-! ### Zones and compositing -/

/-- SET_ZONE, ZONE_OFF and BIND_ZONE: refusals and effects (R22, R23, R128). -/
def Obligations.ZoneCommands : Prop :=
  ∀ (s : State) (z x y width height rank kind channel : Nat),
    let old := zoneAt s.compositor.zones z
    let others := fun t : State =>
      t.compositor = { s.compositor with zones := t.compositor.zones } ∧
        ∀ m, m ≠ z → zoneAt t.compositor.zones m = zoneAt s.compositor.zones m
    let bad := fun c : Canvas => 7 < z ∨ 1 < kind ∨ 7 < rank ∨ x % 8 ≠ 0 ∨ width % 8 ≠ 0 ∨ width = 0 ∨ height = 0 ∨
      c.width < x + width ∨ c.height < y + height
    (s.classifier.canvas = none → TurnedAway (.setZone z x y width height rank kind) s .wrongState) ∧
    (∀ c, s.classifier.canvas = some c → bad c → TurnedAway (.setZone z x y width height rank kind) s .badArgument) ∧
    (∀ c k, s.classifier.canvas = some c → ¬ bad c → zoneKindOf kind = some k →
      ∃ t, Carries (.setZone z x y width height rank kind) [.compositor] s t ∧ others t ∧
        zoneAt t.compositor.zones z =
          ⟨true, some ⟨⟨x, y, width, height⟩, rank, k⟩,
            if k = .replay ∧ old.config.map (·.kind) = some .replay then old.bound else none⟩) ∧
    (7 < z → TurnedAway (.zoneOff z) s .badArgument) ∧
    (z ≤ 7 → ∃ t, Carries (.zoneOff z) [.compositor] s t ∧ others t ∧
      zoneAt t.compositor.zones z = { old with enabled := false }) ∧
    (7 < z ∨ 2 < channel → TurnedAway (.bindZone z channel) s .badArgument) ∧
    (z ≤ 7 → channel ≤ 2 → old.config.map (·.kind) ≠ some .replay → TurnedAway (.bindZone z channel) s .wrongState) ∧
    (∀ binding, z ≤ 7 → bindingOf channel = some binding → old.config.map (·.kind) = some .replay →
      ∃ t, Carries (.bindZone z channel) [.compositor] s t ∧ others t ∧
        zoneAt t.compositor.zones z = { old with bound := binding })

/-- The blend function: the whole value nearest to the weighted sum, within 0 to 255, x at weight 255, y at weight 0, and equal
values kept at every weight (R32). -/
def Obligations.BlendFunction : Prop :=
  ∀ x y a : Nat, x ≤ 255 → y ≤ 255 → a ≤ 255 →
    blend x y a = (x * a + y * (255 - a) + 127) / 255 ∧ blend x y a ≤ 255 ∧ blend x y 255 = x ∧ blend x y 0 = y ∧
      blend x x a = x ∧ (∀ b : Byte, blendByte b b a = b) ∧
      2 * (255 * blend x y a) ≤ 2 * (x * a + y * (255 - a)) + 255 ∧
      2 * (x * a + y * (255 - a)) ≤ 2 * (255 * blend x y a) + 255 ∧
      blend x y a + blend y x a = x + y

/-- Working out the head of the composite queue (R24 to R31, R33, R84, R35). The beat comes from the topmost active zone that covers it,
an inactive one falling through to the next, or from the canvas: its own address, the art of a sponsor in TURN or FEATURE, counted as
delivered, or the slot of a clip's entry, and past the art or the clip's frame it is black. With no window shown one beat is fetched,
or a black beat completes at once. Over any beat a shown window whose fade is above 0 adds a fetch of the one or two buffer beats that
hold its pixels up to the image's width, and none past it; two of them are laid in the order of their z and then of their numbers. The
background past a strip's end is the one the image was drawn over (log 41). A request with nothing to fetch completes within the row:
its beat, black or the background of a window whose image it is past laid over black, goes back to its entry, and the last one of a
fabric request sends that request's delivery events by canvas line and then by zone (R34, R35). No zone changes. Two zone lines of one
zone on one canvas line keep their order, and a pair its first canvas line (log 42). -/
def Obligations.CompositeRequestsAreWorkedOut : Prop :=
  ∀ (s : State) (q : CompositeRequest) (rest : List CompositeRequest) (base : Option Nat) (delivered : Option (Nat × Nat)),
    s.compositor.queue = q :: rest → s.scheduler.waiters = [] → BeatFrom s q base delivered →
    let unshown := fun ns : List Nat => ∀ n, n < 16 → n ∉ ns → (s.render.window n).shown = false
    let crosses := fun (n : Nat) (c : WindowConfig) => n < 16 ∧ (s.render.window n).config = some c ∧
      (s.render.window n).shown = true ∧ 0 < c.fade ∧ c.rect.y ≤ q.line ∧ q.line < c.rect.y + c.rect.height ∧
      c.rect.x < q.column + 8 ∧ q.column < c.rect.x + c.rect.width ∧ 0 < c.rect.width
    let buffer := fun n : Nat => s.render.overlay.getD 0 + n * 8388608 +
      (if (s.render.window n).front = .b then 4194304 else 0)
    let owner := fun fetch : Nat => Owner.compositor s.compositor.nextWorking fetch
    let basic := base.toList.map fun a => (false, a, 1, ([] : List (List (Option Byte))), owner 0)
    let completes := fun bytes : List Byte =>
      let port : FabricPort := { s.port with table := s.port.table.map fun en =>
        if en.number = q.entry then
          { en with compositesLeft := en.compositesLeft - 1, readData := en.readData.set q.position (some bytes) }
        else en }
      let left : Compositor := { s.compositor with queue := rest, nextWorking := s.compositor.nextWorking + 1 }
      ((∀ m ∈ s.compositor.notes, m.entry ≠ q.entry) →
        ∃ t, Completes .compositeWorkOut [.port, .compositor] s t ∧ t.port = port ∧ t.compositor = left) ∧
      (∀ m ∈ s.compositor.notes, m.entry = q.entry → (∀ k ∈ s.compositor.notes, k.entry = q.entry → k = m) →
        (2 ≤ m.requestsLeft →
          ∃ t, Completes .compositeWorkOut [.port, .compositor] s t ∧ t.port = port ∧
            t.compositor = { left with notes := s.compositor.notes.map fun k =>
              if k.entry = q.entry then { k with requestsLeft := k.requestsLeft - 1 } else k }) ∧
        (m.requestsLeft = 1 →
          ∃ t sent, Completes .compositeWorkOut [.port, .compositor, .transit] s t ∧ t.port = port ∧
            t.compositor = { left with notes := s.compositor.notes.filter fun k => k.entry != q.entry } ∧
            t.transit = { s.transit with deliveries := s.transit.deliveries ++
              (sent.map fun d : Delivered => ⟨d.zone, d.zoneLine, d.beats, s.classifier.frame⟩) } ∧
            List.Perm sent m.counts ∧
            sent.Pairwise fun d e => d.canvasLine < e.canvasLine ∨ (d.canvasLine = e.canvasLine ∧ d.zone ≤ e.zone)))
    let works := fun (t : State) (w : Working) (fetches : Nat) =>
      t.compositor = { s.compositor with
        queue := rest, working := s.compositor.working ++ [w], notes := t.compositor.notes
        nextWorking := s.compositor.nextWorking + 1 } ∧ t.compositor.queue = rest ∧
      t.compositor.zones = s.compositor.zones ∧ t.compositor.working = s.compositor.working ++ [w] ∧
      w.number = s.compositor.nextWorking ∧ w.request = q ∧ w.base = base.map (fun _ => 0) ∧ w.fetchesLeft = fetches ∧
      t.compositor.notes = match delivered with
        | some (z, line) => s.compositor.notes.map fun m =>
          if m.entry = q.entry then { m with counts := countDelivered z line q.line m.counts } else m
        | none => s.compositor.notes
    (base ≠ none → unshown [] → s.scheduler.queue.length < 128 →
      ∃ t w, Completes .compositeWorkOut [.compositor, .scheduler] s t ∧ t.queued = s.queued ++ basic ∧ works t w 1 ∧
        w.layers = []) ∧
    (base = none → unshown [] →
      ∃ t, Completes .compositeWorkOut [.port, .compositor, .transit] s t ∧ t.compositor.queue = rest ∧
        t.compositor.working = s.compositor.working ∧
        t.port = { s.port with table := s.port.table.map fun en =>
          if en.number = q.entry then
            { en with
              compositesLeft := en.compositesLeft - 1
              readData := en.readData.set q.position (some (List.replicate 32 0)) }
          else en }) ∧
    (base = none → unshown [] → completes (List.replicate 32 0)) ∧
    (∀ n c, crosses n c → unshown [n] → s.scheduler.queue.length + 3 ≤ 128 →
      let w := s.render.window n
      let scroll := if c.kind = .ticker then w.scroll else 0
      let left := max c.rect.x q.column
      let u := left - c.rect.x + scroll
      let pixels := min (min (c.rect.x + c.rect.width) (q.column + 8) - left) (w.frontRecord.imageWidth - u)
      let first := buffer n + ((q.line - c.rect.y) * w.frontRecord.imageWidth + u) * 4
      let layer := fun (l : Layer) (numbers : List Nat) => l.rect = c.rect ∧ l.scroll = scroll ∧ l.fade = c.fade ∧
        l.imageWidth = w.frontRecord.imageWidth ∧ l.bufferBase = buffer n ∧ l.background = w.frontRecord.background ∧
        l.fetches = numbers
      (base ≠ none → w.frontRecord.imageWidth ≤ u →
        ∃ t v l, Completes .compositeWorkOut [.compositor, .scheduler] s t ∧ t.queued = s.queued ++ basic ∧ works t v 1 ∧
          v.layers = [l] ∧ layer l []) ∧
      (base = none → w.frontRecord.imageWidth ≤ u →
        let g := w.frontRecord.background
        completes ((List.range 8).flatMap fun i =>
          if c.rect.x ≤ q.column + i ∧ q.column + i < c.rect.x + c.rect.width then
            let weight := blend g.x.toNat 0 c.fade
            [blendByte g.r 0 weight, blendByte g.g 0 weight, blendByte g.b 0 weight, 0]
          else [0, 0, 0, 0])) ∧
      (u < w.frontRecord.imageWidth → first / 8192 = (first + 4 * pixels - 1) / 8192 →
        ∃ t v l, Completes .compositeWorkOut [.compositor, .scheduler] s t ∧
          t.queued = s.queued ++ basic ++
            [(false, first / 32 * 32, (first + 4 * pixels - 1) / 32 - first / 32 + 1, [], owner basic.length)] ∧
          works t v (basic.length + 1) ∧ v.layers = [l] ∧ layer l [basic.length] ∧ l.from' = first / 32 * 32)) ∧
    (∀ m n c d, m ≠ n → crosses m c → crosses n d → unshown [m, n] → c.z < d.z ∨ (c.z = d.z ∧ m < n) →
      let past := fun (n : Nat) (c : WindowConfig) => (s.render.window n).frontRecord.imageWidth ≤
        max c.rect.x q.column - c.rect.x + if c.kind = .ticker then (s.render.window n).scroll else 0
      let lay := fun (n : Nat) (c : WindowConfig) (i : Nat) (under : Pixel) =>
        let g := (s.render.window n).frontRecord.background
        let weight := blend g.x.toNat 0 c.fade
        if c.rect.x ≤ q.column + i ∧ q.column + i < c.rect.x + c.rect.width then
          (⟨blendByte g.r under.r weight, blendByte g.g under.g weight, blendByte g.b under.b weight, under.x⟩ : Pixel)
        else under
      (base ≠ none ∨ ¬ past m c ∨ ¬ past n d → s.scheduler.queue.length + 5 ≤ 128 →
        ∃ t v lower upper, Completes .compositeWorkOut [.compositor, .scheduler] s t ∧
          v.layers = [lower, upper] ∧ lower.bufferBase = buffer m ∧ upper.bufferBase = buffer n ∧
          works t v (basic.length + lower.fetches.length + upper.fetches.length) ∧
          ∃ more, t.queued = s.queued ++ basic ++ more ∧ more.length = lower.fetches.length + upper.fetches.length) ∧
      (base = none → past m c → past n d →
        completes ((List.range 8).flatMap fun i =>
          let p := lay n d i (lay m c i ⟨0, 0, 0, 0⟩)
          [p.r, p.g, p.b, p.x]))) ∧
    (∀ m n c d, m ≠ n → crosses m c → crosses n d → unshown [m, n] → s.scheduler.queue.length + 3 ≤ 128 →
      c.z < d.z ∨ (c.z = d.z ∧ m < n) →
      let scroll := fun (n : Nat) (c : WindowConfig) => if c.kind = .ticker then (s.render.window n).scroll else 0
      let width := fun n : Nat => (s.render.window n).frontRecord.imageWidth
      let left := fun c : WindowConfig => max c.rect.x q.column
      let u := fun (n : Nat) (c : WindowConfig) => left c - c.rect.x + scroll n c
      let pixels := fun (n : Nat) (c : WindowConfig) =>
        min (min (c.rect.x + c.rect.width) (q.column + 8) - left c) (width n - u n c)
      let first := fun (n : Nat) (c : WindowConfig) => buffer n + ((q.line - c.rect.y) * width n + u n c) * 4
      let last := fun (n : Nat) (c : WindowConfig) => first n c + 4 * pixels n c - 1
      let fetch := fun (n : Nat) (c : WindowConfig) (number : Nat) =>
        (false, first n c / 32 * 32, last n c / 32 - first n c / 32 + 1, ([] : List (List (Option Byte))), owner number)
      let layer := fun (n : Nat) (c : WindowConfig) (number : Nat) (l : Layer) => l.rect = c.rect ∧ l.scroll = scroll n c ∧
        l.fade = c.fade ∧ l.imageWidth = width n ∧ l.bufferBase = buffer n ∧
        l.background = (s.render.window n).frontRecord.background ∧ l.fetches = [number] ∧ l.from' = first n c / 32 * 32
      u m c < width m → u n d < width n → first m c / 8192 = last m c / 8192 → first n d / 8192 = last n d / 8192 →
      ∃ t v lower upper, Completes .compositeWorkOut [.compositor, .scheduler] s t ∧
        t.queued = s.queued ++ basic ++ [fetch m c basic.length, fetch n d (basic.length + 1)] ∧ works t v (basic.length + 2) ∧
        v.layers = [lower, upper] ∧ layer m c basic.length lower ∧ layer n d (basic.length + 1) upper)

/-- A delivery event at a zone's coverage record: line 0 starts it anew, an AWAITING record takes no other line, a COUNTING one
counts its own line, leaves lines before it and is broken by a line beyond it (R85). -/
def Obligations.DeliveryEvents : Prop :=
  ∀ (s : State) (d : Delivery) (rest : List Delivery) (c : ZoneConfig), s.transit.deliveries = d :: rest → d.zone < 8 →
    (zoneAt s.compositor.zones d.zone).config = some c →
    let old := (s.rotation.zone d.zone).coverage
    let counted := fun line beats : Nat =>
      if c.rect.width / 8 ≤ beats then (⟨true, line + 1, 0, false⟩ : Coverage) else ⟨true, line, beats, false⟩
    let becomes := fun k : Coverage =>
      ∃ t, Completes .deliveryEvent [.rotation, .transit] s t ∧ t.transit = { s.transit with deliveries := rest } ∧
        t.rotation = { s.rotation with zones := t.rotation.zones } ∧
        (∀ z, z ≠ d.zone → t.rotation.zone z = s.rotation.zone z) ∧
        t.rotation.zone d.zone = { s.rotation.zone d.zone with coverage := k }
    (d.line = 0 → becomes (counted 0 d.beats)) ∧
    (d.line ≠ 0 → old.counting = false → becomes old) ∧
    (d.line ≠ 0 → old.counting = true → d.line < old.nextLine → becomes old) ∧
    (d.line ≠ 0 → old.counting = true → old.broken = false → d.line = old.nextLine →
      becomes (counted d.line (old.beats + d.beats))) ∧
    (d.line ≠ 0 → old.counting = true → old.nextLine < d.line → becomes { old with broken := true })

/-! ### The Render Engine -/

/-- SET_WINDOW, SHOW_WINDOW, HIDE_WINDOW and SET_FADE: refusals and effects (R41, R42, R43). -/
def Obligations.WindowCommands : Prop :=
  ∀ (s : State) (n x y width height z fade background kind : Nat) (occluding : Bool),
    let w := s.render.window n
    let cmd : Instr := .setWindow n x y width height z fade occluding background kind
    let bad := 15 < n ∨ 2 < kind ∨ 4095 < x ∨ 2159 < y ∨ width = 0 ∨ 8192 < width ∨ height = 0 ∨ 512 < height ∨ 15 < z ∨
      1048576 < width * height ∨ (kind = 2 ∧ 128 < height)
    (s.render.overlay = none → TurnedAway cmd s .wrongState) ∧
    (s.render.overlay ≠ none → bad → TurnedAway cmd s .badArgument) ∧
    (∀ k, s.render.overlay ≠ none → ¬ bad → windowKindOf kind = some k →
      let cfg : WindowConfig := ⟨⟨x, y, width, height⟩, z, min fade 255, occluding, pixelOf background, k⟩
      (w.config = none → ∃ t, Carries cmd [.render] s t ∧
        Requested s t n { w with
          config := some cfg, pendingVisible := false, shownVisible := false, frontPresent := false, back := .empty
          runs := Vector.replicate 4 none, image := none, content := none, scroll := 0 }) ∧
      (∀ old, w.config = some old → old.rect.width = width → old.rect.height = height → old.kind = k →
        ∃ t, Carries cmd [.render] s t ∧ Requested s t n { w with config := some cfg }) ∧
      (∀ old, w.config = some old → (old.rect.width ≠ width ∨ old.rect.height ≠ height) → old.kind = k →
        ∃ t v, Carries cmd [.render] s t ∧ Requested s t n v ∧
          v = { w with config := some cfg, frontPresent := false, back := .empty, scroll := 0, jobVoid := v.jobVoid } ∧
          (InJob s n → v.jobVoid = true) ∧ (¬ InJob s n → v.jobVoid = w.jobVoid)) ∧
      (∀ old, w.config = some old → old.kind ≠ k →
        ∃ t v, Carries cmd [.render] s t ∧ Requested s t n v ∧
          v = { w with
            config := some cfg, frontPresent := false, back := .empty, scroll := 0, jobVoid := v.jobVoid
            runs := Vector.replicate 4 none, image := none, content := none } ∧
          (InJob s n → v.jobVoid = true) ∧ (¬ InJob s n → v.jobVoid = w.jobVoid))) ∧
    (15 < n → TurnedAway (.showWindow n) s .badArgument ∧ TurnedAway (.hideWindow n) s .badArgument ∧
      TurnedAway (.setFade n fade) s .badArgument) ∧
    (n ≤ 15 → w.config = none → TurnedAway (.showWindow n) s .wrongState ∧ TurnedAway (.setFade n fade) s .wrongState) ∧
    (n ≤ 15 → w.config ≠ none →
      ∃ t, Carries (.showWindow n) [.render] s t ∧ Rewindowed s t n { w with pendingVisible := true }) ∧
    (n ≤ 15 → ∃ t, Carries (.hideWindow n) [.render] s t ∧ Rewindowed s t n { w with pendingVisible := false }) ∧
    (∀ old, n ≤ 15 → w.config = some old →
      ∃ t, Carries (.setFade n fade) [.render] s t ∧
        Rewindowed s t n { w with config := some { old with fade := min fade 255 } })

/-- SET_RUN, CLEAR_RUN and SET_IMAGE on configured windows (R44, R45). A window number above 15 in SET_RUN and SET_IMAGE is
refused as BAD-ARGUMENT (log 18), and CLEAR_RUN takes any of the four runs of a window of any kind (log 19). -/
def Obligations.ContentCommands : Prop :=
  ∀ (s : State) (n run x y box align colour opacity kind team line addr pitch width height : Nat) (payload : List Byte),
    let w := s.render.window n
    let cmd : Instr := .setRun n run x y box align colour opacity kind team line payload
    let runs := fun (cmd : Instr) (r : Option TextRun) =>
      ∃ t v, Carries cmd [.render] s t ∧ Requested s t n v ∧ v = { w with runs := v.runs } ∧ tget v.runs run none = r ∧
        ∀ k, k ≠ run → tget v.runs k none = tget w.runs k none
    let outside := 3 < run ∨ 8191 < x ∨ 511 < y ∨ box = 0 ∨ 8192 < box ∨ 2 < align ∨ 6 < kind
    let badImage := addr % 32 ≠ 0 ∨ pitch % 32 ≠ 0 ∨ 65536 < pitch ∨ width = 0 ∨ 8192 < width ∨ pitch < width * 4 ∨ height = 0 ∨
      512 < height ∨ 34359738368 < addr + height * pitch
    (15 < n → TurnedAway cmd s .badArgument ∧ TurnedAway (.setImage n addr pitch width height) s .badArgument ∧
      TurnedAway (.clearRun n run) s .badArgument) ∧
    (n ≤ 15 → w.config = none → TurnedAway cmd s .wrongState ∧ TurnedAway (.setImage n addr pitch width height) s .wrongState) ∧
    (∀ c, n ≤ 15 → w.config = some c →
      (c.kind = .image → TurnedAway cmd s .wrongState) ∧
      (c.kind ≠ .image → TurnedAway (.setImage n addr pitch width height) s .wrongState) ∧
      (c.kind ≠ .image → outside ∨ (c.kind = .ticker ∧ 0 < run) → TurnedAway cmd s .badArgument) ∧
      (c.kind ≠ .image → kind = 0 → payload.length % 2 = 1 ∨ 64 < payload.length ∨ (∃ code ∈ codesOf payload, 1023 < code) →
        TurnedAway cmd s .badArgument) ∧
      (c.kind ≠ .image → (kind = 3 ∨ kind = 5 ∨ kind = 6) → 1 < team → TurnedAway cmd s .badArgument) ∧
      (c.kind ≠ .image → kind = 6 → 2 < line → TurnedAway cmd s .badArgument) ∧
      (∀ a src, c.kind ≠ .image → ¬ outside → ¬ (c.kind = .ticker ∧ 0 < run) → alignOf align = some a →
        runSourceOf kind team line payload = some src →
        runs cmd (some ⟨x, y, box, a, pixelOf colour, min opacity 255, src⟩)) ∧
      (3 < run → TurnedAway (.clearRun n run) s .badArgument) ∧
      (run ≤ 3 → runs (.clearRun n run) none) ∧
      (c.kind = .image → badImage → TurnedAway (.setImage n addr pitch width height) s .badArgument) ∧
      (c.kind = .image → ¬ badImage →
        ∃ t, Carries (.setImage n addr pitch width height) [.render] s t ∧
          Requested s t n { w with image := some ⟨addr, pitch, width, height⟩ }))

/-- SET_OVERLAY_STORE: refusals, and the loss of every configured window's image with a request for each (R40). -/
def Obligations.OverlayStoreCommand : Prop :=
  ∀ (s : State) (base : Nat),
    let bad := base % 8388608 ≠ 0 ∨ 34359738368 < base + 134217728 ∨
      ∃ a, base ≤ a ∧ a < base + 134217728 ∧ ((s.apertureBase ≤ a ∧ a < s.apertureBase + 1048576) ∨
        ∃ p, s.capture.pool = some p ∧ p.base ≤ a ∧ a < p.base + p.count * p.stride)
    (bad → TurnedAway (.setOverlayStore base) s .badArgument) ∧
    (¬ bad → s.render.job ≠ none → TurnedAway (.setOverlayStore base) s .inUse) ∧
    (¬ bad → s.render.job = none →
      ∃ t, Carries (.setOverlayStore base) [.render] s t ∧
        t.render = { s.render with overlay := some base, windows := t.render.windows, queue := t.render.queue } ∧
        (∀ n, n < 16 → t.render.window n =
          if (s.render.window n).config = none then s.render.window n
          else { s.render.window n with frontPresent := false, back := .empty, scroll := 0 }) ∧
        t.render.queue = s.render.queue ++ (List.range 16).filter fun n =>
          decide ((s.render.window n).config ≠ none ∧ n ∉ s.render.queue))

/-- LOAD_FONT from its command to its end (R47): its refusals, the wait for the job in flight, the loading of the index table, and
the finish, at which the records that lie in Table 3-3, with a new code and a stream within frame DRAM, stand in the index in
table order, and the results are the numbers entered and skipped. -/
def Obligations.FontLoading : Prop :=
  ∀ (s : State) (base count advance : Nat),
    let bad := base % 32 ≠ 0 ∨ 1024 < count ∨ 34359738368 < base + 16 * count
    (bad → TurnedAway (.loadFont base count advance) s .badArgument) ∧
    (¬ bad → s.render.job ≠ none →
      ∃ t l, Completes (.loadFont base count advance) [.render] s t ∧
        t.render = { s.render with load := some l, nextJob := s.render.nextJob + 1 } ∧
        l.base = base ∧ l.count = count ∧ l.advance = min advance 96 ∧ l.loading = false) ∧
    (¬ bad → s.render.job = none → s.render.toEnter = [] → s.scheduler.waiters = [] → s.scheduler.queue.length < 128 → 0 < count →
      base / 8192 = (base + 16 * count - 1) / 8192 →
      ∃ t l, Completes (.loadFont base count advance) [.render, .scheduler] s t ∧
        t.render = { s.render with
          load := some l, nextJob := s.render.nextJob + 1, glyphs := [], fontBase := some base, advance := min advance 96 } ∧
        l.base = base ∧ l.count = count ∧ l.loading = true ∧ l.piecesLeft = 1 ∧
        t.queued = s.queued ++ [(false, base, (16 * count + 31) / 32, [], .fontRead l.number 0)]) ∧
    (∀ l, s.render.load = some l → l.loading = true → l.piecesLeft = 0 →
      ∃ t, Completes .fontLoadFinish [.render, .reader] s t ∧
        t.render = { s.render with
          load := none, glyphs := t.render.glyphs, windows := t.render.windows, queue := t.render.queue } ∧
        List.Sublist t.render.glyphs l.records ∧ (t.render.glyphs.map (·.code)).Nodup ∧
        (∀ g ∈ t.render.glyphs, g.code ≤ 1023 ∧ 1 ≤ g.width ∧ g.width ≤ 64 ∧ 1 ≤ g.height ∧ g.height ≤ 96 ∧ g.top ≤ 127 ∧
          g.advance ≤ 96 ∧ g.length ≤ 3072 ∧ l.base + g.offset + g.length ≤ 34359738368) ∧
        (∀ g ∈ l.records, g.code ≤ 1023 → 1 ≤ g.width → g.width ≤ 64 → 1 ≤ g.height → g.height ≤ 96 → g.top ≤ 127 →
          g.advance ≤ 96 → g.length ≤ 3072 → l.base + g.offset + g.length ≤ 34359738368 →
          ∃ h ∈ t.render.glyphs, h.code = g.code) ∧
        (∀ n c, n < 16 → (s.render.window n).config = some c → c.kind = .text ∨ c.kind = .ticker →
          n ∈ t.render.queue ∨ (InJob s n ∧ (t.render.window n).dirty = true)) ∧
        t.reader.lastResult = some (.done t.render.glyphs.length (l.count - t.render.glyphs.length)) ∧
        (∀ b n a, s.reader.stage = .carrying (.loadFont b n a) →
          t.reader.stage = .ended (.done t.render.glyphs.length (l.count - t.render.glyphs.length))))

/-- A render job's start, the image it draws and its completion (R48, R49, R50, R53, R54, R55): the idle engine takes the oldest queued
window whose back is not READY with a copy of what it draws, in run order; a ticker's text is one run, laid out static or as a strip;
with its reads answered by a memory, the job's writes hold the image in raster order, each pixel the copied one or the background with
the runs drawn over it; and at completion the back buffer becomes READY with its record, or EMPTY when the job was void, the window
joining the queue again if it is dirty. The background pixel in the record is the model's ruling between R30 and R41 (log 41), and
the bytes past the image's end in its last beat are not enabled (log 20). The repeat digits before a stream's first coverage nibble count
from repeat position 0, which R48 leaves open (DESIGN CHOICE: log 49). -/
def Obligations.RenderJobs : Prop :=
  (∀ (s : State) (n : Nat), n < 16 →
    let w := s.render.window n
    (∀ o cfg before after, s.render.overlay = some o → s.render.job = none → s.render.load = none →
      s.render.queue = before ++ n :: after → n ∉ before → (∀ m ∈ before, (s.render.window m).back = .ready) →
      w.back ≠ .ready → w.config = some cfg →
      ∃ t j, Completes .renderJobStart [.render, .scheduler] s t ∧ t.render.job = some j ∧ j.window = n ∧ j.config = cfg ∧
        j.image = w.image ∧ j.content = w.content ∧ j.glyphs = s.render.glyphs ∧ j.advance = s.render.advance ∧
        (∀ f, s.render.fontBase = some f → j.fontBase = f) ∧
        j.bufferBase = o + n * 8388608 + (if w.front = .a then 4194304 else 0) ∧
        (cfg.kind ≠ .ticker → j.imageWidth = cfg.rect.width ∧ j.strip = false) ∧
        (cfg.kind = .text → j.runs = ((List.range 4).filterMap fun k => tget w.runs k none).map fun run =>
          ⟨run.x, run.y, run.box, run.align, run.colour, run.opacity, match run.source with
            | .literal codes => codes
            | .display f => s.timing.string f⟩) ∧
        (cfg.kind = .image → j.runs = []) ∧
        (cfg.kind = .ticker →
          let codes : List Nat := match w.content with
            | some c => c.codes
            | none => []
          let width := (codes.map (advanceIn j)).sum
          (width ≤ cfg.rect.width → j.imageWidth = cfg.rect.width ∧ j.strip = false) ∧
          (cfg.rect.width < width → j.imageWidth = min (cfg.rect.width + width) 8192 ∧ j.strip = true) ∧
          ∃ d, j.runs = [d] ∧ d.codes = codes ∧ d.align = .left ∧ d.x + d.box = max j.imageWidth d.x ∧
            d.x = (if width ≤ cfg.rect.width then (cfg.rect.width - width) / 2 else cfg.rect.width) ∧
            (∀ run, tget w.runs 0 none = some run → d.y = run.y ∧ d.colour = run.colour ∧ d.opacity = run.opacity) ∧
            (tget w.runs 0 none = none → d.y = 0 ∧ d.colour = ⟨255, 255, 255, 0⟩ ∧ d.opacity = 255)) ∧
        t.render.queue = before ++ after ∧
        t.render.window n = { w with back := .drawing, dirty := false, jobVoid := false } ∧
        (∀ m, m ≠ n → t.render.window m = s.render.window m) ∧
        t.render.glyphs = s.render.glyphs ∧ t.render.overlay = s.render.overlay ∧ t.render.load = none) ∧
    (∀ j, s.render.job = some j → j.window = n → j.writing = true → j.writesLeft = 0 → s.render.load = none →
      let record : BufferRecord :=
        ⟨j.imageWidth, j.strip, if j.config.kind = .ticker then j.content.map (·.id) else none, j.config.background⟩
      ∃ t, Completes .renderJobComplete [.render] s t ∧
        t.render = { s.render with job := none, windows := t.render.windows, queue := t.render.queue } ∧
        (∀ m, m ≠ n → t.render.window m = s.render.window m) ∧
        (w.jobVoid = true → t.render.queue = s.render.queue ++ [n] ∧
          t.render.window n = { w with back := .empty, dirty := false }) ∧
        (w.jobVoid = false → t.render.queue = (if w.dirty then s.render.queue ++ [n] else s.render.queue) ∧
          (w.front = .a → t.render.window n = { w with back := .ready, recordB := record, dirty := false }) ∧
          (w.front = .b → t.render.window n = { w with back := .ready, recordA := record, dirty := false })))) ∧
  (∀ (j : Job) (m : Nat → Byte), ReadsGave j m → (j.config.kind = .image → j.runs = []) → j.bufferBase % 32 = 0 →
    ∃ image : List Byte, image.length = j.imageWidth * j.config.rect.height * 4 ∧
      (∀ u v, u < j.imageWidth → v < j.config.rect.height →
        let p := imagePixel j m u v
        (image.drop (4 * (v * j.imageWidth + u))).take 4 = [p.r, p.g, p.b, p.x]) ∧
      (∃ past, past < 32 ∧ (j.writes.flatMap (·.data)).flatten = image.map some ++ List.replicate past none) ∧
      ∀ before op after, j.writes = before ++ op :: after →
        op.write = true ∧ op.owner = .renderWrite j.number ∧ op.addr = j.bufferBase + 32 * (before.map (·.beats)).sum ∧
          op.beats = op.data.length ∧ 0 < op.beats ∧ op.addr / 8192 = (op.addr + 32 * op.beats - 1) / 8192 ∧
          ∀ beat ∈ op.data, beat.length = 32) ∧
  (∀ (g : Glyph) (stream : List Byte) (first : List Nat) (groups : List (Nat × List Nat)), (∀ d ∈ first, d < 8) →
    (∀ p ∈ groups, p.1 < 8 ∧ ∀ d ∈ p.2, d < 8) →
    (stream.flatMap fun b => [b.toNat / 16, b.toNat % 16]) =
      first.map (8 + ·) ++ (groups.flatMap fun p : Nat × List Nat => p.1 :: p.2.map (8 + ·)) →
    decodeGlyph g stream = (List.replicate (octal first) 0 ++
      (groups.flatMap fun p : Nat × List Nat => List.replicate (1 + octal p.2) p.1) ++
      List.replicate (g.width * g.height) 0).take (g.width * g.height))

/-- A field notice, a frame start and a strip's end at the Render Engine (R52, R56, R57). A notice requests, in ascending window number,
the configured TEXT windows with a run that shows its field, and touches no other window. The flip notices of one frame start, and the
strip-passed notices, stand in ascending window number: the model's choice (DESIGN CHOICE: log 52). -/
def Obligations.WindowsBetweenFrames : Prop :=
  ∀ s : State,
    (∀ f rest, s.transit.notices = f :: rest →
      let shows := fun n : Nat => n < 16 ∧ (∃ c, (s.render.window n).config = some c ∧ c.kind = .text) ∧
        ∃ k run, tget (s.render.window n).runs k none = some run ∧ run.source = .display f
      ∃ t added, Completes .fieldNotice [.render, .transit] s t ∧ t.transit = { s.transit with notices := rest } ∧
        t.render = { s.render with windows := t.render.windows, queue := s.render.queue ++ added } ∧
        added.Pairwise (· < ·) ∧ (∀ n, n ∈ added ↔ shows n ∧ n ∉ s.render.queue ∧ ¬ InJob s n) ∧
        (∀ n, shows n → n ∉ s.render.queue → InJob s n → t.render.window n = { s.render.window n with dirty := true }) ∧
        (∀ n, ¬ shows n ∨ n ∈ s.render.queue ∨ ¬ InJob s n → t.render.window n = s.render.window n)) ∧
    (s.transit.notices = [] → exec .fieldNotice s = .next s) ∧
    (∀ f rest, s.transit.due.render = f :: rest →
      ∃ t flips strips, Completes .renderFrameStart [.render, .transit] s t ∧
        t.render = { s.render with windows := t.render.windows } ∧
        t.transit = { s.transit with
          due := { s.transit.due with render := rest }, flips := s.transit.flips ++ flips
          strips := s.transit.strips ++ strips, views := t.transit.views } ∧
        (∀ n, n < 16 →
          let w := s.render.window n
          let w' := t.render.window n
          (w.config = none → w' = w) ∧
          (∀ c, w.config = some c → w'.shownVisible = w.pendingVisible ∧
            (w.back = .ready → w' = { w with
              front := w.front.other, frontPresent := true, back := .empty, scroll := 0, shownVisible := w.pendingVisible }) ∧
            (w.back ≠ .ready → w' = { w with
              shownVisible := w.pendingVisible
              scroll := if c.kind = .ticker ∧ w.frontPresent = true ∧ w.frontRecord.strip = true then
                min (w.scroll + w.speed) w.frontRecord.imageWidth else w.scroll }))) ∧
        flips.Pairwise (fun x y => x.window < y.window) ∧ strips.Pairwise (fun x y => x.window < y.window) ∧
        (∀ x, x ∈ flips ↔ ∃ n c, n < 16 ∧ (s.render.window n).config = some c ∧ c.kind = .ticker ∧
          (s.render.window n).back = .ready ∧
          x = ⟨n, (t.render.window n).frontRecord.message, (t.render.window n).frontRecord.strip⟩) ∧
        (∀ x, x ∈ strips ↔ ∃ n c, n < 16 ∧ (s.render.window n).config = some c ∧ c.kind = .ticker ∧
          (s.render.window n).back ≠ .ready ∧ (s.render.window n).frontPresent = true ∧
          (s.render.window n).frontRecord.strip = true ∧
          (s.render.window n).scroll < (s.render.window n).frontRecord.imageWidth ∧
          (t.render.window n).scroll = (s.render.window n).frontRecord.imageWidth ∧
          x = ⟨n, (s.render.window n).frontRecord.message⟩)) ∧
    (∀ n c, n < 16 → (s.render.window n).config = some c → c.kind = .ticker → (s.render.window n).back ≠ .ready →
      (s.render.window n).frontPresent = true → (s.render.window n).frontRecord.strip = true →
      (s.render.window n).scroll < (s.render.window n).frontRecord.imageWidth →
      (s.render.window n).frontRecord.imageWidth ≤ (s.render.window n).scroll + (s.render.window n).speed →
      ∃ t, Completes (.stripPassed n) [.render, .transit] s t ∧
        Rewindowed s t n { s.render.window n with scroll := (s.render.window n).frontRecord.imageWidth } ∧
        t.transit = { s.transit with
          strips := s.transit.strips ++ [⟨n, (s.render.window n).frontRecord.message⟩] })

/-! ### The Rotation Unit -/

/-- SET_SPONSOR, SET_LEVEL, HOLD_ROTATION, SET_SEGMENT_PLAN, CLOSE_SEGMENT, SET_NESTING, SET_TRIGGER and CLEAR_TRIGGER (R82, R83, R94,
R95, R98, R99, R100). -/
def Obligations.RotationCommands : Prop :=
  (∀ (s : State) (n mask dwell period break' level : Nat) (cap : Bool),
      let sponsor := fun (t : State) (p : Sponsor) =>
        t.rotation = { s.rotation with sponsors := t.rotation.sponsors } ∧ t.rotation.sponsor n = p ∧
          ∀ m, m ≠ n → t.rotation.sponsor m = s.rotation.sponsor m
      (∀ a : Art, a.base < 18446744073709551616 → a.frames < 4294967296 → a.stride < 4294967296 → a.pitch < 4294967296 →
        a.width < 4294967296 → a.height < 4294967296 →
        let payload := toLe 8 a.base ++ toLe 4 a.frames ++ toLe 4 a.stride ++ toLe 4 a.pitch ++ toLe 4 a.width ++ toLe 4 a.height
        let cmd : Instr := .setSponsor n mask dwell period break' cap payload
        let bad := 31 < n ∨ 255 < mask ∨ a.base % 32 ≠ 0 ∨ a.stride % 32 ≠ 0 ∨ a.pitch % 32 ≠ 0 ∨ a.frames = 0 ∨ 600 < a.frames ∨
          a.width = 0 ∨ 4096 < a.width ∨ a.height = 0 ∨ 2160 < a.height ∨ a.pitch < a.width * 4 ∨ 65536 < a.pitch ∨
          a.stride < a.pitch * a.height ∨ 34359738368 < a.base + a.frames * a.stride
        (bad → TurnedAway cmd s .badArgument) ∧
        (¬ bad → (∃ z, z < 8 ∧ (s.rotation.zone z).showing.sponsor = some n) → TurnedAway cmd s .inUse) ∧
        (¬ bad → (∀ z, z < 8 → (s.rotation.zone z).showing.sponsor ≠ some n) →
          ∃ t, Carries cmd [.rotation] s t ∧
            sponsor t { s.rotation.sponsor n with
              art := some a, mask := mask, dwell := max 30 (min 36000 dwell), periodTarget := min period 1000000
              breakTarget := min break' 1000000, cap := cap })) ∧
      (∀ payload : List Byte, payload.length ≠ 28 →
        TurnedAway (.setSponsor n mask dwell period break' cap payload) s .badArgument) ∧
      (31 < n → TurnedAway (.setLevel n level) s .badArgument) ∧
      (n ≤ 31 → (s.rotation.sponsor n).art = none → TurnedAway (.setLevel n level) s .wrongState) ∧
      (n ≤ 31 → (s.rotation.sponsor n).art ≠ none →
        ∃ t, Carries (.setLevel n level) [.rotation] s t ∧ sponsor t { s.rotation.sponsor n with level := min level 7 })) ∧
  (∀ (s : State) (n a b : Nat) (flag : Bool),
      (∃ t, Carries (.holdRotation n) [.rotation] s t ∧ t.rotation = { s.rotation with hold := min n 216000 }) ∧
      (∃ t, Carries (.setSegmentPlan a b) [.rotation] s t ∧
        t.rotation = { s.rotation with segment := { s.rotation.segment with
          periodPlan := max 1 (min 16777215 a), breakPlan := max 1 (min 16777215 b) } }) ∧
      (∃ t, Carries .closeSegment [.rotation] s t ∧
        t.rotation = { s.rotation with segment := { s.rotation.segment with
          pending := some (if s.rotation.segment.kind = .period then .break' else .period) } }) ∧
      (7 < n → TurnedAway (.setNesting n flag) s .badArgument) ∧
      (n ≤ 7 → ∃ t, Carries (.setNesting n flag) [.rotation] s t ∧
        ZoneBecomes s t n { s.rotation.zone n with nesting := flag } ∧ t.rotation.nextArrival = s.rotation.nextArrival) ∧
      (∀ kind argument sponsor zone level dwell : Nat,
        (15 < n ∨ 5 < kind ∨ (kind ≤ 1 ∧ 9 < argument) ∨ (3 ≤ kind ∧ 1 < argument) ∨ 31 < sponsor ∨ 7 < zone →
          TurnedAway (.setTrigger n kind argument sponsor zone level dwell) s .badArgument) ∧
        (∀ e, n ≤ 15 → sponsor ≤ 31 → zone ≤ 7 → triggerEventOf kind argument = some e →
          ∃ t, Carries (.setTrigger n kind argument sponsor zone level dwell) [.rotation] s t ∧
            t.rotation = { s.rotation with triggers := t.rotation.triggers } ∧
            tget t.rotation.triggers n none = some ⟨e, sponsor, zone, max 8 (min 15 level), max 30 (min 36000 dwell)⟩ ∧
            ∀ m, m ≠ n → tget t.rotation.triggers m none = tget s.rotation.triggers m none)) ∧
      (15 < n → TurnedAway (.clearTrigger n) s .badArgument) ∧
      (n ≤ 15 → ∃ t, Carries (.clearTrigger n) [.rotation] s t ∧
        t.rotation = { s.rotation with triggers := t.rotation.triggers } ∧ tget t.rotation.triggers n none = none ∧
        ∀ m, m ≠ n → tget t.rotation.triggers m none = tget s.rotation.triggers m none))

/-- FIRE_FEATURE and the arrival of game and REPLAY-START events (R95, R96, R97, R100): a feature is dropped, merged, placed by level
behind its equals, or drops the lowest of a full queue; an event fires every used entry whose kind and argument match it, in ascending
entry number, and PERIOD-END and PERIOD-START make a segment close pending whatever fires. -/
def Obligations.Features : Prop :=
  ∀ (s : State) (entry : Nat),
    (15 < entry → TurnedAway (.fireFeature entry) s .badArgument) ∧
    (entry ≤ 15 → tget s.rotation.triggers entry none = none → TurnedAway (.fireFeature entry) s .notFound) ∧
    (∀ k r, entry ≤ 15 → tget s.rotation.triggers entry none = some k → k.zone < 8 →
      let x := s.rotation.zone k.zone
      let f : Feature := ⟨entry, k.sponsor, k.level, k.dwell, 0, s.rotation.nextArrival⟩
      let fires := fun (y : ZoneRotation) (reports : List Report) =>
        ∃ t, Carries (.fireFeature entry) [.rotation, .transit] s t ∧ ZoneBecomes s t k.zone y ∧
          t.rotation.nextArrival = s.rotation.nextArrival + 1 ∧ ReportsSent s t reports
      let mine := (∃ q ∈ x.queue, q.entry = entry) ∨ ∃ g, x.showing = .feature g ∧ g.entry = entry
      ((∀ q, ¬ ServesSponsors s k.zone q) → fires x [.feature k.zone entry k.sponsor k.level .notShowable]) ∧
      (ServesSponsors s k.zone r → ¬ ArtFits s k.sponsor r →
        fires x [.feature k.zone entry k.sponsor k.level .notShowable]) ∧
      (ServesSponsors s k.zone r → ArtFits s k.sponsor r → mine → fires x []) ∧
      (ServesSponsors s k.zone r → ArtFits s k.sponsor r → ¬ mine → (∀ q ∈ x.queue, q.arrival < s.rotation.nextArrival) →
        x.queue.Pairwise (fun p q => q.level ≤ p.level) →
        (x.queue.length < 4 →
          fires { x with queue := x.queue.filter (fun q => k.level ≤ q.level) ++ f :: x.queue.filter (fun q => q.level < k.level) }
            []) ∧
        (∀ before g, 4 ≤ x.queue.length → x.queue = before ++ [g] → g.level < k.level →
          fires { x with queue := before.filter (fun q => k.level ≤ q.level) ++ f :: before.filter (fun q => q.level < k.level) }
            [.feature k.zone g.entry g.sponsor g.level .queueFull]) ∧
        (∀ before g, 4 ≤ x.queue.length → x.queue = before ++ [g] → k.level ≤ g.level →
          fires x [.feature k.zone entry k.sponsor k.level .queueFull]))) ∧
    (s.transit.events = [] → exec .gameEvent s = .next s) ∧
    (∀ e rest, s.transit.events = e :: rest →
      ∃ entries u t, entries.Pairwise (· < ·) ∧
        (∀ n, n ∈ entries ↔ ∃ k, tget s.rotation.triggers n none = some k ∧ WaitsFor k.event e) ∧
        FiresInTurn entries s u ∧ Completes .gameEvent [.rotation, .transit] s t ∧ t.transit = { u.transit with events := rest } ∧
        t.rotation = { u.rotation with segment := { s.rotation.segment with
          pending := match e with
            | .periodEnd _ => some .break'
            | .periodStart _ => some .period
            | _ => s.rotation.segment.pending } }) ∧
    (s.transit.replays = [] → exec .replayStartEvent s = .next s) ∧
    (∀ c rest, s.transit.replays = c :: rest →
      ∃ entries u t, entries.Pairwise (· < ·) ∧
        (∀ n, n ∈ entries ↔ ∃ k, tget s.rotation.triggers n none = some k ∧ k.event = .replayStart c) ∧
        FiresInTurn entries s u ∧ Completes .replayStartEvent [.rotation, .transit] s t ∧
        t.transit = { u.transit with replays := rest } ∧ t.rotation = u.rotation)

/-- A frame start at the Rotation Unit (R86, R87, R88, R90, R91, R92, R93, R94, R97, R98, R101): what every one does, the verdicts, the
EXPOSURE reports of a close, and the zones served whole in ascending number, each from what the ones before it left (`before z` is the
machine as zone `z` is about to be served). `ZoneServed` says what one service does in every case: a closed zone drops its features with
ZONE-CLOSED reports, the showing one first (DESIGN CHOICE: log 44); unfit heads are dropped at every service, whatever the zone shows
(DEDUCED: log 25); a head that can start takes the zone and ends its sponsor's TURN in any other zone; a head whose sponsor
is featured in another zone waits; what shows counts down and may end; and an idle zone is filled with a turn. The clauses behind that one
say the outcome in the show frame itself where one zone alone is an enabled SPONSOR zone. The occluding windows are read as they stand when
no frame start of the Render Engine has gone before (log 26). A delivery event sent before the frame start reaches the unit before it
(R36): the frame start then does what it does once the event has been taken. -/
def Obligations.RotationFrameStart : Prop :=
  ∀ (s : State) (f : FrameNo) (rest : List FrameNo), s.transit.due.rotation = f :: rest →
    (∀ d ds u, s.transit.deliveries = d :: ds → 0 < (f - d.sent).toInt → exec .deliveryEvent s = .next u →
      exec .rotationFrameStart s = exec .rotationFrameStart u) ∧
    ((∀ d ds, s.transit.deliveries = d :: ds → (f - d.sent).toInt ≤ 0) →
    ∃ t reports, Completes .rotationFrameStart [.rotation, .writer, .transit] s t ∧
      t.transit = { s.transit with
        due := { s.transit.due with rotation := rest }, reports := s.transit.reports ++ reports, views := t.transit.views } ∧
      t.writer = { s.writer with
        sponsors := s.writer.sponsors ++ [(List.range 8).map fun z => (t.rotation.zone z).showing.sponsor] } ∧
      t.rotation.hold = s.rotation.hold - 1 ∧ (t.rotation.holdInForce = true ↔ 0 < s.rotation.hold) ∧
      t.rotation.triggers = s.rotation.triggers ∧
      (∀ z, z < 8 → (t.rotation.zone z).coverage = ⟨false, 0, 0, false⟩ ∧
        ((∀ r, ¬ ServesSponsors s z r) → (t.rotation.zone z).showing = .idle ∧ (t.rotation.zone z).queue = [])) ∧
      (s.rotation.segment.pending = none → (∀ q ∈ reports, isFeatureReport q) ∧
        t.rotation.segment = { s.rotation.segment with elapsed := min 16777215 (s.rotation.segment.elapsed + 1) }) ∧
      (∀ k, s.rotation.segment.pending = some k →
        t.rotation.segment = { s.rotation.segment with
          kind := k, number := t.rotation.segment.number, elapsed := 0, pending := none } ∧
        (s.rotation.segment.number < 65535 → t.rotation.segment.number = s.rotation.segment.number + 1) ∧
        (s.rotation.segment.number = 65535 → t.rotation.segment.number = 1) ∧
        ∀ n, n < 32 → t.rotation.sponsor n = { s.rotation.sponsor n with
          rotationCredit := 0, featureCredit := 0, turns := (t.rotation.sponsor n).turns, occluded := 0, broken := 0 }) ∧
      (ShowsOnce s.rotation → s.transit.views = [] →
        ∃ judged : Nat → Sponsor, (∀ n, n < 32 → Judged s n (judged n)) ∧
          (s.rotation.segment.pending = none →
            ∀ n, n < 32 → t.rotation.sponsor n = { judged n with turns := (t.rotation.sponsor n).turns }) ∧
          (s.rotation.segment.pending ≠ none →
            ∃ features, (∀ q ∈ features, isFeatureReport q) ∧
              reports = ((List.range 32).filterMap fun n => exposureOf s.rotation.segment n (judged n)) ++ features)) ∧
      (∃ (before : Nat → State) (closing : List Report) (dropped : Nat → List Report),
        (∀ z, before z = s.setRotation (before z).rotation) ∧
        (before 0).rotation = { t.rotation with
          zones := (before 0).rotation.zones, sponsors := (before 0).rotation.sponsors } ∧
        (∀ z, z < 8 → (before 0).rotation.zone z =
          { s.rotation.zone z with coverage := ⟨false, 0, 0, false⟩, begunNow := false }) ∧
        (∀ n, n < 32 → (before 0).rotation.sponsor n = { t.rotation.sponsor n with
          turns := if s.rotation.segment.pending = none then (s.rotation.sponsor n).turns else 0 }) ∧
        (∀ z, z < 8 → ZoneServed (before z) (before (z + 1)) z (dropped z)) ∧ t.rotation = (before 8).rotation ∧
        reports = closing ++ (List.range 8).flatMap dropped ∧ (∀ q ∈ closing, ¬ isFeatureReport q) ∧
        (s.rotation.segment.pending = none → closing = [])) ∧
      (∀ z r n dwell shown, OnlyServes s z r → (s.rotation.zone z).showing = .turn n dwell shown →
        (∀ y, y < 8 → (s.rotation.zone y).queue = []) → 2 ≤ dwell → s.rotation.hold = 0 → 1 ≤ (s.rotation.sponsor n).level →
        ArtFits s n r → (t.rotation.zone z).showing = .turn n (dwell - 1) (shown + 1)) ∧
      (∀ z r n dwell shown g queue, OnlyServes s z r → (s.rotation.zone z).showing = .turn n dwell shown →
        (s.rotation.zone z).queue = g :: queue → ArtFits s g.sponsor r →
        (∀ y h, y ≠ z → (s.rotation.zone y).showing = .feature h → h.sponsor ≠ g.sponsor) →
        (t.rotation.zone z).showing = .feature g ∧ (t.rotation.zone z).queue = queue ∧
          (t.rotation.zone z).lastEnded = (s.rotation.zone z).lastEnded) ∧
      (∀ z r h g queue, OnlyServes s z r → (s.rotation.zone z).showing = .feature h → (s.rotation.zone z).queue = g :: queue →
        (s.rotation.zone z).nesting = true → h.level < g.level → ArtFits s g.sponsor r →
        (∀ y q, y ≠ z → (s.rotation.zone y).showing = .feature q → q.sponsor ≠ g.sponsor) →
        queue.Pairwise (fun p q => q.level < p.level ∨ (q.level = p.level ∧ p.arrival ≤ q.arrival)) →
        (t.rotation.zone z).showing = .feature g ∧ (t.rotation.zone z).begunNow = true ∧
          (t.rotation.zone z).lastEnded = (s.rotation.zone z).lastEnded ∧
          (h.dwellLeft ≤ 1 → (t.rotation.zone z).queue = queue) ∧
          (2 ≤ h.dwellLeft → ∃ front back, queue = front ++ back ∧
            (t.rotation.zone z).queue = front ++ { h with dwellLeft := h.dwellLeft - 1, shown := h.shown + 1 } :: back ∧
            (∀ q ∈ front, h.level < q.level ∨ (h.level = q.level ∧ q.arrival ≤ h.arrival)) ∧
            ∀ q ∈ back, q.level < h.level ∨ (q.level = h.level ∧ h.arrival < q.arrival))) ∧
      (∀ z r h, OnlyServes s z r → (s.rotation.zone z).showing = .feature h →
        ((s.rotation.zone z).nesting = false ∨ ∀ g ∈ (s.rotation.zone z).queue, g.level ≤ h.level) →
        (∀ g ∈ (s.rotation.zone z).queue, ArtFits s g.sponsor r) → 2 ≤ h.dwellLeft → ArtFits s h.sponsor r →
        (t.rotation.zone z).showing = .feature { h with dwellLeft := h.dwellLeft - 1, shown := h.shown + 1 } ∧
          (t.rotation.zone z).queue = (s.rotation.zone z).queue) ∧
      (∀ z r ended, OnlyServes s z r → (∀ y, y < 8 → y ≠ z → (s.rotation.zone y).showing = .idle) →
        (s.rotation.zone z).queue = [] →
        ((s.rotation.zone z).showing = .idle ∧ ended = none ∨
          ∃ n dwell shown, (s.rotation.zone z).showing = .turn n dwell shown ∧ ended = some n ∧
            (dwell ≤ 1 ∨ (s.rotation.sponsor n).level = 0 ∨ ¬ ArtFits s n r ∨
              (0 < s.rotation.hold ∧ (s.rotation.sponsor n).level ≤ 6))) →
        let last := ended.or (s.rotation.zone z).lastEnded
        (t.rotation.zone z).lastEnded = last ∧
        ((∀ n, ¬ ThirdSet t z r ended n) → (t.rotation.zone z).showing = .idle) ∧
        (∀ n, ThirdSet t z r ended n → (∀ m, m ≠ n → ThirdSet t z r ended m → ComesFirst t last n m) →
          (t.rotation.zone z).showing = .turn n (s.rotation.sponsor n).dwell 0 ∧ (t.rotation.zone z).begunNow = true ∧
            (t.rotation.sponsor n).turns =
              min 16777215 ((if s.rotation.segment.pending = none then (s.rotation.sponsor n).turns else 0) + 1))))

/-- The rows that name one part of a frame start do just that part (log 4): the end of a hold, of a TURN and of a FEATURE
(R91, R94). -/
def Obligations.TurnsAndFeaturesEnd : Prop :=
  ∀ (s : State) (z : Nat) (r : Rect),
    (s.rotation.hold = 0 → s.rotation.holdInForce = true →
      ∃ t, Completes .holdEnd [.rotation] s t ∧ t.rotation = { s.rotation with holdInForce := false }) ∧
    (ServesSponsors s z r → (s.rotation.zone z).begunNow = false →
      (∀ n dwell shown, (s.rotation.zone z).showing = .turn n dwell shown →
        (dwell ≤ 1 ∨ (s.rotation.sponsor n).level = 0 ∨ ¬ ArtFits s n r ∨
          (s.rotation.holdInForce = true ∧ (s.rotation.sponsor n).level ≤ 6) →
          ∃ t, Completes (.turnEnd z) [.rotation] s t ∧
            ZoneBecomes s t z { s.rotation.zone z with showing := .idle, lastEnded := some n }) ∧
        (2 ≤ dwell → 1 ≤ (s.rotation.sponsor n).level → ArtFits s n r →
          (s.rotation.holdInForce = false ∨ 7 ≤ (s.rotation.sponsor n).level) → exec (.turnEnd z) s = .next s)) ∧
      (∀ f, (s.rotation.zone z).showing = .feature f →
        (f.dwellLeft ≤ 1 ∨ ¬ ArtFits s f.sponsor r →
          ∃ t, Completes (.featureEnd z) [.rotation] s t ∧ ZoneBecomes s t z { s.rotation.zone z with showing := .idle }) ∧
        (2 ≤ f.dwellLeft → ArtFits s f.sponsor r → exec (.featureEnd z) s = .next s)))

/-! ### The Capture Unit -/

/-- SET_POOL and SET_SOURCE: refusals in their order, and effects (R104, R106, R108). -/
def Obligations.CapturePlacement : Prop :=
  ∀ (s : State) (i base count stride width height capacity : Nat),
    let inUse := (∃ k, k < 4 ∧ ((s.capture.source k).state ≠ .stopped ∨ (s.capture.source k).timeline ≠ [])) ∨
      ∃ k, k < 32 ∧ s.capture.clip k ≠ none
    let touches := fun (len a n : Nat) => ∃ b, base ≤ b ∧ b < base + len ∧ a ≤ b ∧ b < a + n
    let badPool := base % 8192 ≠ 0 ∨ stride % 8192 ≠ 0 ∨ stride = 0 ∨ count = 0 ∨ 4096 < count ∨
      34359738368 < base + count * stride ∨ touches (count * stride) s.apertureBase 1048576 ∨
      (∃ o, s.render.overlay = some o ∧ touches (count * stride) o 134217728) ∨
      ∃ k c, k < 4 ∧ (s.capture.source k).config = some c ∧
        (touches (count * stride) c.base (c.width * c.height * 4) ∨ stride < c.width * c.height * 4)
    let len := width * height * 4
    let badSource := 3 < i ∨ base % 32 ≠ 0 ∨ width < 64 ∨ 4096 < width ∨ width % 8 ≠ 0 ∨ height < 16 ∨ 2160 < height ∨
      capacity < 16 ∨ 2048 < capacity ∨ 34359738368 < base + len ∨ touches len s.apertureBase 1048576 ∨
      (∃ o, s.render.overlay = some o ∧ touches len o 134217728) ∨
      ∃ p, s.capture.pool = some p ∧ touches len p.base (p.count * p.stride)
    let source : Instr := .setSource i base width height capacity
    (inUse → TurnedAway (.setPool base count stride) s .wrongState) ∧
    (¬ inUse → badPool → TurnedAway (.setPool base count stride) s .badArgument) ∧
    (¬ inUse → ¬ badPool →
      ∃ t, Carries (.setPool base count stride) [.capture] s t ∧
        t.capture = { s.capture with
          pool := some ⟨base, count, stride⟩, free := List.range count, refs := List.replicate count 0 }) ∧
    (badSource → TurnedAway source s .badArgument) ∧
    (¬ badSource → s.capture.pool = none ∨ (s.capture.source i).state ≠ .stopped → TurnedAway source s .wrongState) ∧
    (∀ p, ¬ badSource → s.capture.pool = some p → (s.capture.source i).state = .stopped →
      (p.stride < len → TurnedAway source s .noRoom) ∧
      (len ≤ p.stride →
        ∃ t, Carries source [.capture] s t ∧
          Resourced s t i { s.capture.source i with
            config := some ⟨base, width, height, capacity⟩, beats := 0, faults := 0, timeline := [] } ∧
          Released s.capture t.capture (s.capture.source i).timeline))

/-- CAPTURE_START and CAPTURE_STOP (R118, R119). -/
def Obligations.CaptureStartAndStop : Prop :=
  ∀ (s : State) (i : Nat),
    let x := s.capture.source i
    let returns := ∃ e ∈ x.timeline, s.capture.refCount e.slot = namedBy x.timeline e.slot
    (3 < i → TurnedAway (.captureStart i) s .badArgument ∧ TurnedAway (.captureStop i) s .badArgument) ∧
    (i ≤ 3 → x.config = none ∨ x.state ≠ .stopped → TurnedAway (.captureStart i) s .wrongState) ∧
    (i ≤ 3 → x.config ≠ none → x.state = .stopped → s.capture.free = [] → ¬ returns → TurnedAway (.captureStart i) s .noRoom) ∧
    (i ≤ 3 → x.config ≠ none → x.state = .stopped → s.capture.free ≠ [] ∨ returns →
      ∃ t slot v, Carries (.captureStart i) [.capture] s t ∧
        Resourced s t i { x with state := .armed, openSlot := some slot, beats := 0, faults := 0, timeline := [] } ∧
        Released s.capture v x.timeline ∧ v.free = slot :: t.capture.free ∧ v.refs = t.capture.refs) ∧
    (i ≤ 3 → x.state = .stopped →
      ∃ t, Carries (.captureStop i) [] s t) ∧
    (i ≤ 3 → x.state ≠ .stopped →
      ∃ t reports, Carries (.captureStop i) [.capture, .transit] s t ∧
        Resourced s t i { x with state := .stopped, openSlot := none, beats := 0, faults := 0 } ∧
        t.capture.refs = s.capture.refs ∧ t.capture.free = s.capture.free ++ x.openSlot.toList ∧ ReportsSent s t reports ∧
        (x.faults = 0 → reports = []) ∧
        (∀ before e, 0 < x.faults → x.timeline = before ++ [e] → reports = [.runEnd i true e.frame x.faults]))

/-- MARK_CLIP, DROP_CLIP and the three user requests (R121, R122, R123). Frame numbers are compared as plain numbers (log 40). -/
def Obligations.Clips : Prop :=
  ∀ (s : State) (clip source first last : Nat),
    let x := s.capture.source source
    let entries := x.timeline.filter fun e => decide (first ≤ e.frame.toNat ∧ e.frame.toNat ≤ last)
    let mark : Instr := .markClip clip source first last
    let bad := 31 < clip ∨ 3 < source ∨ last < first ∨ first + 900 ≤ last
    (bad → TurnedAway mark s .badArgument) ∧
    (¬ bad → s.capture.clip clip ≠ none → TurnedAway mark s .inUse) ∧
    (¬ bad → s.capture.clip clip = none → entries = [] → TurnedAway mark s .notFound) ∧
    (¬ bad → s.capture.clip clip = none → entries ≠ [] → 4096 < s.capture.storeUsed + entries.length →
      TurnedAway mark s .noRoom) ∧
    (∀ c e l, ¬ bad → s.capture.clip clip = none → entries.head? = some e → entries.getLast? = some l → x.config = some c →
      s.capture.storeUsed + entries.length ≤ 4096 →
      ∃ t, Carries mark [.capture, .transit] s t ∧
        t.capture = { s.capture with clips := t.capture.clips, refs := t.capture.refs } ∧
        t.capture.clip clip = some ⟨source, c.width, c.height, 0, false, entries⟩ ∧
        (∀ k, k ≠ clip → t.capture.clip k = s.capture.clip k) ∧
        (∀ slot, slot < s.capture.refs.length → t.capture.refCount slot = s.capture.refCount slot + namedBy entries slot) ∧
        ReportsSent s t [.clipMarked clip source entries.length e.frame l.frame]) ∧
    (31 < clip → TurnedAway (.dropClip clip) s .badArgument) ∧
    (clip ≤ 31 → s.capture.clip clip = none → TurnedAway (.dropClip clip) s .notFound ∧
      exec (.addUser clip) s = .next s ∧ exec (.removeUser clip) s = .next s ∧ exec (.markRelease clip) s = .next s) ∧
    (∀ c, clip ≤ 31 → s.capture.clip clip = some c →
      (0 < c.users → TurnedAway (.dropClip clip) s .inUse) ∧
      (c.users = 0 → ∃ t, Carries (.dropClip clip) [.capture, .transit] s t ∧ ClipDropped s t clip c false) ∧
      (c.users < 2 → ∃ t, Completes (.addUser clip) [.capture] s t ∧ Reclipped s t clip { c with users := c.users + 1 }) ∧
      (c.releasePending = false ∨ 2 ≤ c.users →
        ∃ t, Completes (.removeUser clip) [.capture] s t ∧ Reclipped s t clip { c with users := c.users - 1 }) ∧
      (c.releasePending = true → c.users ≤ 1 →
        ∃ t, Completes (.removeUser clip) [.capture, .transit] s t ∧ ClipDropped s t clip c true) ∧
      (0 < c.users →
        ∃ t, Completes (.markRelease clip) [.capture] s t ∧ Reclipped s t clip { c with releasePending := true }) ∧
      (c.users = 0 → ∃ t, Completes (.markRelease clip) [.capture, .transit] s t ∧ ClipDropped s t clip c true))

/-- A mirror notice, and a capture tick that finds one source not STOPPED (R109, R112 to R117): an ARMED source waits for a whole
frame, a CAPTURING one appends WHOLE, MISSING or TORN, a STARVED one appends STARVED and tries for a slot, and runs of faults begin
and end with their reports. A capture tick with any number of sources active serves all four in ascending number, each whole before the
next, so that a slot returned or taken by one is seen by those after it, with their reports in that order (R112). -/
def Obligations.CaptureTicks : Prop :=
  (∀ (s : State) (f : FrameNo) (rest : List FrameNo), s.transit.due.capture = f :: rest →
    ∃ t u1 u2 u3 r0 r1 r2 r3, Completes .captureTick [.capture, .writer, .transit] s t ∧
      SourceServed s.capture u1 0 (f - 1) r0 ∧ SourceServed u1 u2 1 (f - 1) r1 ∧ SourceServed u2 u3 2 (f - 1) r2 ∧
      SourceServed u3 t.capture 3 (f - 1) r3 ∧
      t.transit = { s.transit with
        due := { s.transit.due with capture := rest }, reports := s.transit.reports ++ (r0 ++ r1 ++ r2 ++ r3) } ∧
      t.writer = { s.writer with captures := s.writer.captures ++
        [⟨(List.range 4).map fun k => (t.capture.source k).state, t.capture.free.length⟩] }) ∧
  (∀ s : State, s.transit.due.capture = [] → exec .captureTick s = .next s) ∧
  ∀ (s : State) (i : Nat) (c : SourceConfig), i < 4 → (s.capture.source i).config = some c →
    let x := s.capture.source i
    let expected := c.width * c.height / 8
    (∀ slot offset beats, x.openSlot = some slot →
      ∃ t, Completes (.mirrorNotice i offset beats) [.capture] s t ∧
        Resourced s t i { x with beats := if offset = 0 then beats else min expected (x.beats + beats) } ∧
        t.capture.free = s.capture.free ∧ t.capture.refs = s.capture.refs) ∧
    (∀ offset beats, x.openSlot = none → exec (.mirrorNotice i offset beats) s = .next s) ∧
    (∀ f rest, s.transit.due.capture = f :: rest → (∀ k, k < 4 → k ≠ i → (s.capture.source k).state = .stopped) →
      let ticks := fun (y : Source) (free : List Nat) (reports : List Report) (counts : Nat → Nat) =>
        ∃ t, Completes .captureTick [.capture, .writer, .transit] s t ∧ Resourced s t i y ∧ t.capture.free = free ∧
          (∀ slot, slot < s.capture.refs.length → t.capture.refCount slot = counts slot) ∧
          t.transit = { s.transit with
            due := { s.transit.due with capture := rest }, reports := s.transit.reports ++ reports } ∧
          t.writer = { s.writer with
            captures := s.writer.captures ++ [⟨(List.range 4).map fun k => (t.capture.source k).state, free.length⟩] }
      let oldest := if c.capacity ≤ x.timeline.length then x.timeline.head? else none
      let kept := if c.capacity ≤ x.timeline.length then x.timeline.tail else x.timeline
      let free := s.capture.free ++ (oldest.toList.filter fun o => s.capture.refCount o.slot == 1).map (·.slot)
      let counts := fun (named slot : Nat) =>
        s.capture.refCount slot - namedBy oldest.toList slot + (if slot = named then 1 else 0)
      let fault := fun st : EntryStatus => if x.faults = 0 then [Report.runBegin i st (f - 1)] else []
      (x.state = .armed → x.beats < expected → ticks { x with beats := 0 } s.capture.free [] s.capture.refCount) ∧
      (∀ slot, x.state = .armed ∨ x.state = .capturing → expected ≤ x.beats → x.openSlot = some slot →
        ticks { x with
            timeline := kept ++ [⟨f - 1, slot, .whole⟩], openSlot := free.head?, beats := 0, faults := 0
            state := if free = [] then .starved else .capturing }
          free.tail (if 0 < x.faults then [.runEnd i false (f - 1) x.faults] else []) (counts slot)) ∧
      (∀ newest, x.state = .capturing → x.beats < expected → x.timeline.getLast? = some newest →
        let st : EntryStatus := if x.beats = 0 then .missing else .torn
        ticks { x with timeline := kept ++ [⟨f - 1, newest.slot, st⟩], beats := 0, faults := min 16777215 (x.faults + 1) }
          free (fault st) (counts newest.slot)) ∧
      (∀ newest, x.state = .starved → x.timeline.getLast? = some newest →
        ticks { x with
            timeline := kept ++ [⟨f - 1, newest.slot, .starved⟩], faults := min 16777215 (x.faults + 1)
            openSlot := if free = [] then x.openSlot else free.head?
            beats := if free = [] then x.beats else 0, state := if free = [] then .starved else .capturing }
          free.tail (fault .starved) (counts newest.slot)))

/-! ### The Playout Unit -/

/-- SET_CROP, PLAY, PAUSE, STEP, SET_SPEED and STOP in every state of a channel (R129, R132 to R136). What a STOP does to the clip
is what its remove-user request does (log 5). -/
def Obligations.TransportCommands : Prop :=
  ∀ (s : State) (n x y reps : Nat) (count : Int),
    (1 < n → TurnedAway (.setCrop n x y) s .badArgument ∧ TurnedAway (.play n) s .badArgument ∧
      TurnedAway (.pause n) s .badArgument ∧ TurnedAway (.step n count) s .badArgument ∧
      TurnedAway (.setSpeed n count reps) s .badArgument ∧ TurnedAway (.stop n) s .badArgument) ∧
    (∀ c, channelOf n = some c →
      let r := s.channel c
      (x % 8 ≠ 0 ∨ 4088 < x ∨ 2159 < y → TurnedAway (.setCrop n x y) s .badArgument) ∧
      (x % 8 = 0 → x ≤ 4088 → y ≤ 2159 →
        ∃ t, Carries (.setCrop n x y) [.playout] s t ∧ Rechanneled s t c { r with cropX := x, cropY := y }) ∧
      (r.state = .idle ∨ r.state = .held → TurnedAway (.play n) s .wrongState) ∧
      (r.state = .playing → ∃ t, Carries (.play n) [] s t) ∧
      (r.state = .paused →
        ∃ t, Carries (.play n) [.playout] s t ∧ Rechanneled s t c { r with state := .playing, countdown := r.reps }) ∧
      (r.state = .cued →
        ∃ t, Carries (.play n) [.playout, .transit] s t ∧
          Rechanneled s t c { r with state := .playing, countdown := r.reps } ∧
          t.transit = { s.transit with replays := s.transit.replays ++ [c] }) ∧
      (r.state = .idle → TurnedAway (.pause n) s .wrongState) ∧
      (r.state = .playing → ∃ t, Carries (.pause n) [.playout] s t ∧ Rechanneled s t c { r with state := .paused }) ∧
      (r.state = .cued ∨ r.state = .paused ∨ r.state = .held → ∃ t, Carries (.pause n) [] s t) ∧
      (r.state = .idle ∨ r.state = .playing → TurnedAway (.step n count) s .wrongState) ∧
      (∀ k clip, r.clip = some k → s.capture.clip k = some clip → r.state = .cued ∨ r.state = .paused ∨ r.state = .held →
        ∃ (t : State) (p : Nat), Carries (.step n count) [.playout] s t ∧
          (p : Int) = max 0 (min ((clip.entries.length : Int) - 1) ((r.position : Int) + max (-900) (min 900 count))) ∧
          Rechanneled s t c { r with position := p, state := if r.state = .held then .paused else r.state }) ∧
      (∃ t, Carries (.setSpeed n count reps) [.playout] s t ∧
        Rechanneled s t c { r with
          step := if count = 0 then 1 else max (-4) (min 4 count), reps := max 1 (min 8 reps)
          countdown := min r.countdown (max 1 (min 8 reps)) }) ∧
      (r.clip = none → ∃ t, Carries (.stop n) [] s t) ∧
      (∀ k u, r.clip = some k → exec (.removeUser k) s = .next u →
        ∃ t, Carries (.stop n) [.playout, .capture, .transit] s t ∧
          Rechanneled s t c { r with state := .idle, clip := none, position := 0, countdown := 0 } ∧
          t.capture = u.capture ∧ t.transit = u.transit))

/-- CUE and MARK_AND_CUE (R130, R131, R172): the user requests they send, in their order, and the channel afterwards, whatever the
channel held. A MARK_AND_CUE that the Command Reader carries out reaches the Capture Unit and then the Playout Unit as two arrivals,
each a row of the command (log 36); a row given directly makes both (log 3). User requests are handled within the command (log 5). -/
def Obligations.CueCommands : Prop :=
  ∀ (s : State) (n clip position action source back : Nat) (flag : Bool),
    let cue : Instr := .cue n clip position action
    let mark : Instr := .markAndCue n source back flag
    (1 < n ∨ 31 < clip ∨ 2 < action → TurnedAway cue s .badArgument) ∧
    (n ≤ 1 → clip ≤ 31 → action ≤ 2 → s.capture.clip clip = none → TurnedAway cue s .notFound) ∧
    (∀ c a k, channelOf n = some c → endActionOf action = some a → clip ≤ 31 → s.capture.clip clip = some k →
      let x := s.channel c
      let y : Channel := { x with
        state := .cued, clip := some clip, position := min position (k.entries.length - 1), countdown := 0, endAction := a }
      (x.clip = some clip → ∃ t, Carries cue [.playout] s t ∧ Rechanneled s t c y) ∧
      (∀ u, x.clip = none → exec (.addUser clip) s = .next u →
        ∃ t, Carries cue [.playout, .capture, .transit] s t ∧ Rechanneled s t c y ∧ t.capture = u.capture ∧
          t.transit = u.transit) ∧
      (∀ old u v, x.clip = some old → old ≠ clip → x.endAction ≠ .release → exec (.removeUser old) s = .next u →
        exec (.addUser clip) u = .next v →
        ∃ t, Carries cue [.playout, .capture, .transit] s t ∧ Rechanneled s t c y ∧ t.capture = v.capture ∧
          t.transit = v.transit) ∧
      (∀ old u v w, x.clip = some old → old ≠ clip → x.endAction = .release → exec (.markRelease old) s = .next u →
        exec (.removeUser old) u = .next v → exec (.addUser clip) v = .next w →
        ∃ t, Carries cue [.playout, .capture, .transit] s t ∧ Rechanneled s t c y ∧ t.capture = w.capture ∧
          t.transit = w.transit)) ∧
    let begun := ∃ ps x y, s.reader.stage = .reaching mark ps x y
    (¬ begun → 1 < n ∨ 3 < source → TurnedAway mark s .badArgument) ∧
    (¬ begun → n ≤ 1 → source ≤ 3 → (∀ m, m < 32 → s.capture.clip m ≠ none) → TurnedAway mark s .noRoom) ∧
    (∀ c cfg, ¬ begun → channelOf n = some c → source ≤ 3 → clip ≤ 31 → s.capture.clip clip = none →
      (∀ m, m < clip → s.capture.clip m ≠ none) → (s.capture.source source).config = some cfg →
      let timeline := (s.capture.source source).timeline
      let k := min (max 1 (min 900 back)) timeline.length
      let entries := timeline.drop (timeline.length - k)
      (timeline = [] → TurnedAway mark s .notFound) ∧
      (timeline ≠ [] → 4096 < s.capture.storeUsed + k → TurnedAway mark s .noRoom) ∧
      (∀ e l, s.capture.storeUsed + k ≤ 4096 → entries.head? = some e → entries.getLast? = some l →
        let marked := fun m : State =>
          m.capture = { s.capture with clips := m.capture.clips, refs := m.capture.refs } ∧
          m.capture.clip clip = some ⟨source, cfg.width, cfg.height, 0, false, entries⟩ ∧
          (∀ j, j ≠ clip → m.capture.clip j = s.capture.clip j) ∧
          m.transit = { s.transit with reports := s.transit.reports ++ [.clipMarked clip source k e.frame l.frame] }
        (s.reader.stage = .carrying mark →
          ∃ m, Completes mark [.reader, .capture, .transit] s m ∧ marked m ∧
            m.reader = { s.reader with stage := .reaching mark [.cueMarked c clip flag] clip k }) ∧
        (s.reader.stage ≠ .carrying mark →
          ∃ m u v t, Frame [.capture, .transit] s m ∧ marked m ∧ exec (.cue n clip 0 2) m = .next u ∧
            exec (.play n) u = .next v ∧ Does mark s clip k t ∧ Frame [.reader, .playout, .capture, .transit] s t ∧
            t.capture = u.capture ∧ t.playout = (if flag then v else u).playout ∧ t.transit = (if flag then v else u).transit ∧
            ((s.channel c).clip = none →
              t.capture.clip clip = some ⟨source, cfg.width, cfg.height, 1, false, entries⟩ ∧
              t.transit.replays = (if flag then s.transit.replays ++ [c] else s.transit.replays) ∧
              Rechanneled s t c { s.channel c with
                state := if flag then .playing else .cued, clip := some clip, position := 0
                countdown := if flag then (s.channel c).reps else 0, endAction := .release })))) ∧
    (∀ c m play x y, s.reader.stage = .reaching mark [.cueMarked c m play] x y → channelOf n = some c → m ≤ 31 →
      s.capture.clip m ≠ none →
      ∃ u v t, exec (.cue n m 0 2) s = .next u ∧ exec (.play n) u = .next v ∧
        Completes mark [.reader, .playout, .capture, .transit] s t ∧
        t.reader = { s.reader with stage := .ended (.done x y), lastResult := some (.done x y) } ∧
        t.capture = u.capture ∧ t.playout = (if play then v else u).playout ∧ t.transit = (if play then v else u).transit)

/-- A channel at a frame start, the other channel not PLAYING, and the row CHANNEL_MOVE, which is the move alone (log 4): the
countdown, the move, and the three end actions with their PLAYOUT reports (R137, R138, R139). With both channels PLAYING, channel A is
served whole before channel B, and when both reach an end the report of channel A goes first. -/
def Obligations.ChannelsMove : Prop :=
  (∀ (s : State) (f : FrameNo) (rest : List FrameNo), s.transit.due.playout = f :: rest →
    ∃ t u v, Completes .playoutFrameStart [.playout, .capture, .writer, .transit] s t ∧
      ChannelServed { s with transit := { s.transit with due := { s.transit.due with playout := rest } } } u .a f ∧
      ChannelServed u v .b f ∧
      t = { v with writer := { v.writer with channels := v.writer.channels ++
        [(⟨(v.channel .a).state, (v.channel .a).position⟩, ⟨(v.channel .b).state, (v.channel .b).position⟩)] } }) ∧
  (∀ s : State, s.transit.due.playout = [] → exec .playoutFrameStart s = .next s) ∧
  ∀ (s : State) (n : Nat) (c : ChannelId), channelOf n = some c →
    let x := s.channel c
    (∀ f rest, s.transit.due.playout = f :: rest → (∀ d, d ≠ c → (s.channel d).state ≠ .playing) →
      let serves := fun (t : State) (y : Channel) =>
        Rechanneled s t c y ∧
          t.writer = { s.writer with channels := s.writer.channels ++
            [(⟨(t.channel .a).state, (t.channel .a).position⟩, ⟨(t.channel .b).state, (t.channel .b).position⟩)] } ∧
          t.transit = { s.transit with due := { s.transit.due with playout := rest }, reports := t.transit.reports }
      let stays := fun (y : Channel) (reports : List Report) =>
        ∃ t, Completes .playoutFrameStart [.playout, .writer, .transit] s t ∧ serves t y ∧
          t.transit.reports = s.transit.reports ++ reports
      (x.state ≠ .playing → stays x []) ∧
      (x.state = .playing → 0 < x.countdown → stays { x with countdown := x.countdown - 1 } []) ∧
      (∀ k clip, x.state = .playing → x.countdown = 0 → x.clip = some k → s.capture.clip k = some clip →
        let length := clip.entries.length
        let next := (x.position : Int) + x.step
        let back := decide (x.step < 0)
        (0 ≤ next → next < (length : Int) → stays { x with position := next.toNat, countdown := x.reps - 1 } []) ∧
        (next < 0 ∨ (length : Int) ≤ next →
          (x.endAction = .hold →
            stays { x with position := if x.step < 0 then 0 else length - 1, state := .held, countdown := 0 }
              [.playout c k .hold back (if x.step < 0 then 0 else length - 1) f]) ∧
          (x.endAction = .loop →
            stays { x with position := (next % (length : Int)).toNat, countdown := x.reps - 1 }
              [.playout c k .loop back (next % (length : Int)).toNat f]) ∧
          (∀ u v, x.endAction = .release → exec (.markRelease k) s = .next u → exec (.removeUser k) u = .next v →
            ∃ t, Completes .playoutFrameStart [.playout, .capture, .writer, .transit] s t ∧
              serves t { x with state := .idle, clip := none, position := 0, countdown := 0 } ∧ t.capture = v.capture ∧
              t.transit.reports = s.transit.reports ++
                .playout c k .release back 0 f :: v.transit.reports.drop s.transit.reports.length)))) ∧
    (x.state ≠ .playing ∨ x.countdown ≠ 0 → exec (.channelMove n) s = .next s) ∧
    (∀ k clip, x.state = .playing → x.countdown = 0 → x.clip = some k → s.capture.clip k = some clip →
      let length := clip.entries.length
      let next := (x.position : Int) + x.step
      (0 ≤ next → next < (length : Int) →
        ∃ t, Completes (.channelMove n) [.playout] s t ∧
          Rechanneled s t c { x with position := next.toNat, countdown := x.reps }) ∧
      (next < 0 ∨ (length : Int) ≤ next → x.endAction = .hold →
        ∃ t, Completes (.channelMove n) [.playout, .transit] s t ∧
          Rechanneled s t c { x with position := if x.step < 0 then 0 else length - 1, state := .held, countdown := 0 } ∧
          ReportsSent s t [.playout c k .hold (decide (x.step < 0)) (if x.step < 0 then 0 else length - 1)
            s.classifier.frame]))

/-! ### The Message Unit -/

/-- POST_MESSAGE, APPROVE_MESSAGE, REJECT_MESSAGE and WITHDRAW_MESSAGE (R143, R144, R145, R146, R151). -/
def Obligations.Moderation : Prop :=
  ∀ (s : State) (id priority reps minShow expiry : Nat) (payload : List Byte),
    let u := s.messages
    let post : Instr := .postMessage id priority reps minShow expiry payload
    let bad := 65535 < id ∨ 3 < priority ∨ payload.length % 2 = 1 ∨ payload.length < 2 ∨ 192 < payload.length ∨
      ∃ code ∈ codesOf payload, 1023 < code
    let named := ∃ m ∈ u.queue, m.id = id
    let r := max 1 (min 9 reps)
    let e := min expiry 216000
    let held : Message :=
      ⟨id, codesOf payload, priority, r, max 1 (min 3600 minShow), e, .held, r, none⟩
    let approved : Message := { held with state := .approved, countdown := if e = 0 then none else some e }
    (bad → TurnedAway post s .badArgument) ∧
    (¬ bad → named → TurnedAway post s .inUse) ∧
    (¬ bad → ¬ named → 32 ≤ u.queue.length → TurnedAway post s .noRoom) ∧
    (¬ bad → ¬ named → u.queue.length < 32 →
      (priority < 3 → u.phase ≠ .free →
        ∃ t, Does post s id 0 t ∧ Frame [.reader, .messages] s t ∧ t.messages = { u with queue := u.queue ++ [held] }) ∧
      (∀ n, priority < 3 → Ticking s n → u.phase = .free →
        ∃ t, Does post s id 0 t ∧ Frame [.reader, .messages, .render] s t ∧ Selected s t n (u.queue ++ [held])) ∧
      (priority = 3 → u.phase = .detached →
        ∃ t, Does post s id 1 t ∧ Frame [.reader, .messages] s t ∧ t.messages = { u with queue := u.queue ++ [approved] }) ∧
      (∀ n, priority = 3 → Ticking s n → u.phase = .free →
        ∃ t, Does post s id 1 t ∧ Frame [.reader, .messages, .render] s t ∧ Selected s t n (u.queue ++ [approved])) ∧
      (∀ n k m, priority = 3 → Ticking s n → u.phase = .preparing k → u.find k = some m → m.priority < 3 →
        ∃ t, Does post s id 1 t ∧ Frame [.reader, .messages, .render] s t ∧ Selected s t n (u.queue ++ [approved])) ∧
      (∀ k m, priority = 3 → u.phase = .preparing k → u.find k = some m → m.priority = 3 →
        ∃ t, Does post s id 1 t ∧ Frame [.reader, .messages] s t ∧
          t.messages = { u with queue := u.queue ++ [approved] }) ∧
      (∀ n k m form begun, priority = 3 → Ticking s n → u.phase = .showing k form begun → u.find k = some m → m.priority < 3 →
        ∃ t, Does post s id 1 t ∧ Frame [.reader, .messages, .render] s t ∧
          Selected s t n (changed u.queue k (fun q => { q with state := .approved }) ++ [approved])) ∧
      (∀ k m form begun, priority = 3 → u.phase = .showing k form begun → u.find k = some m → m.priority = 3 →
        ∃ t, Does post s id 1 t ∧ Frame [.reader, .messages] s t ∧
          t.messages = { u with queue := u.queue ++ [approved] })) ∧
    (¬ named → TurnedAway (.approveMessage id) s .notFound ∧ TurnedAway (.rejectMessage id) s .notFound ∧
      TurnedAway (.withdrawMessage id) s .notFound) ∧
    (∀ m, u.find id = some m → (u.queue.map (·.id)).Nodup →
      let approve := changed u.queue id fun q =>
        { q with state := .approved, countdown := if q.expiry = 0 then none else some q.expiry }
      let report := fun final : FinalState => [Report.message id final (m.reps - m.showsLeft) s.classifier.frame]
      (m.state ≠ .held → TurnedAway (.approveMessage id) s .wrongState ∧ TurnedAway (.rejectMessage id) s .wrongState) ∧
      (m.state = .held → u.phase ≠ .free →
        ∃ t, Carries (.approveMessage id) [.messages] s t ∧ t.messages = { u with queue := approve }) ∧
      (∀ n, m.state = .held → Ticking s n → u.phase = .free →
        ∃ t, Carries (.approveMessage id) [.messages, .render] s t ∧ Selected s t n approve) ∧
      (m.state = .held → u.phase ≠ .free →
        ∃ t, Carries (.rejectMessage id) [.messages, .transit] s t ∧ ReportsSent s t (report .rejected) ∧
          t.messages = { u with queue := without u.queue id }) ∧
      (∀ n, m.state = .held → Ticking s n → u.phase = .free →
        ∃ t, Carries (.rejectMessage id) [.messages, .render, .transit] s t ∧ ReportsSent s t (report .rejected) ∧
          Selected s t n (without u.queue id)) ∧
      (∀ n, Ticking s n → u.phase = .free →
        ∃ t, Carries (.withdrawMessage id) [.messages, .render, .transit] s t ∧ ReportsSent s t (report .withdrawn) ∧
          Selected s t n (without u.queue id)) ∧
      (u.phase ≠ .free → u.phase ≠ .preparing id → (∀ form begun, u.phase ≠ .showing id form begun) →
        ∃ t, Carries (.withdrawMessage id) [.messages, .transit] s t ∧ ReportsSent s t (report .withdrawn) ∧
          t.messages = { u with queue := without u.queue id }) ∧
      (∀ n, Ticking s n → u.phase = .preparing id ∨ (∃ form begun, u.phase = .showing id form begun) →
        ∃ t, Carries (.withdrawMessage id) [.messages, .render, .transit] s t ∧ ReportsSent s t (report .withdrawn) ∧
          Selected s t n (without u.queue id)))

/-- SET_TICKER and the Render Engine's two notices (R147, R148, R149, R150). SET_TICKER gives up the old ticker first (`back` is the queue
with a message on show back to APPROVED; the old window, if it is a TICKER still, is given content NONE), then sets the new one up, and a
selection follows. That SET_TICKER makes no render request where it hands no content over (the same window named again, and a new window
with no APPROVED message) is the model's choice (DESIGN CHOICE: log 45), and so is a last content of NONE where no content NONE is handed
(DESIGN CHOICE: log 47). -/
def Obligations.Ticker : Prop :=
  ∀ (s : State) (w speed n id : Nat),
    let u := s.messages
    let v := max 1 (min 16 speed)
    let set : Instr := .setTicker w speed
    let back := match u.phase with
      | .showing k _ _ => changed u.queue k fun q => { q with state := .approved }
      | _ => u.queue
    let lost := u.window = some n ∧ ∀ c, (s.render.window n).config = some c → c.kind ≠ .ticker
    (15 < w → w ≠ 4294967295 → TurnedAway set s .badArgument) ∧
    (w ≤ 15 → (∀ c, (s.render.window w).config = some c → c.kind ≠ .ticker) → TurnedAway set s .wrongState) ∧
    (∀ c, w ≤ 15 → (s.render.window w).config = some c → c.kind = .ticker →
      let faster := { s.render.window w with speed := v }
      let fresh : MessageUnit := { u with queue := back, window := some w, phase := .free, lastContent := none }
      (u.window = some w → u.phase ≠ .free → ∃ t, Carries set [.render] s t ∧ Rewindowed s t w faster) ∧
      (u.window = some w → u.phase = .free →
        ∃ k t, Carries set [.render, .messages] s t ∧ Rewindowed s k w faster ∧ k.messages = u ∧ Selected k t w u.queue) ∧
      (u.window = none → (∀ m ∈ u.queue, m.state ≠ .approved) → u.phase = .detached →
        ∃ t, Carries set [.render, .messages] s t ∧ Rewindowed s t w faster ∧
          t.messages = { u with window := some w, phase := .free, lastContent := none }) ∧
      (n ≠ w → lost ∨ (u.window = none ∧ u.phase = .detached) →
        ∃ k t, Carries set [.render, .messages] s t ∧ Rewindowed s k w faster ∧ k.messages = fresh ∧ Selected k t w back) ∧
      (n ≠ w → Ticking s n →
        ∃ m k t, Carries set [.render, .messages] s t ∧ Requested s m n { s.render.window n with content := none } ∧
          Rewindowed m k w faster ∧ k.messages = fresh ∧ Selected k t w back)) ∧
    (w = 4294967295 →
      let gone : MessageUnit := { u with queue := back, window := none, phase := .detached, lastContent := none }
      (lost ∨ (u.window = none ∧ u.phase = .detached) → ∃ t, Carries set [.messages] s t ∧ t.messages = gone) ∧
      (Ticking s n →
        ∃ t, Carries set [.render, .messages] s t ∧ Requested s t n { s.render.window n with content := none } ∧
          t.messages = gone)) ∧
    (s.transit.flips = [] → exec .flipNotice s = .next s) ∧
    (s.transit.strips = [] → exec .stripPassedNotice s = .next s) ∧
    (∀ x rest, s.transit.flips = x :: rest → u.phase = .free → Ticking s n →
      ∃ t, Completes .flipNotice [.messages, .render, .transit] s t ∧ t.transit = { s.transit with flips := rest } ∧
        Selected s t n u.queue) ∧
    (∀ x rest, s.transit.strips = x :: rest → u.phase = .free → Ticking s n →
      ∃ t, Completes .stripPassedNotice [.messages, .render, .transit] s t ∧ t.transit = { s.transit with strips := rest } ∧
        Selected s t n u.queue) ∧
    (∀ x rest, s.transit.flips = x :: rest → u.phase ≠ .free →
      let taken := fun (phase : TickerPhase) (queue : List Message) =>
        ∃ t, Completes .flipNotice [.messages, .transit] s t ∧ t.transit = { s.transit with flips := rest } ∧
          t.messages = { u with phase := phase, queue := queue }
      let form : ShowForm := if x.strip then .crawl else .static
      (u.window ≠ some x.window → taken u.phase u.queue) ∧
      (u.window = some x.window → u.phase = .preparing id → x.message = some id →
        taken (.showing id form s.classifier.frame) (changed u.queue id fun q => { q with state := .showing })) ∧
      (u.window = some x.window → u.phase = .preparing id → x.message ≠ some id → taken u.phase u.queue) ∧
      (∀ was begun, u.window = some x.window → u.phase = .showing id was begun → x.message = some id →
        taken (.showing id form (if was = .crawl ∧ form = .static then s.classifier.frame else begun)) u.queue) ∧
      (∀ was begun, u.window = some x.window → u.phase = .showing id was begun → x.message ≠ some id →
        taken u.phase u.queue)) ∧
    (∀ x rest, s.transit.strips = x :: rest →
      (∀ begun m, Ticking s n → u.phase = .showing id .crawl begun → x.window = n → x.message = some id →
        u.find id = some m →
        (2 ≤ m.showsLeft →
          ∃ t, Completes .stripPassedNotice [.messages, .render, .transit] s t ∧
            t.transit = { s.transit with strips := rest } ∧
            Selected s t n (changed u.queue id fun _ => { m with state := .approved, showsLeft := m.showsLeft - 1 })) ∧
        (m.showsLeft = 1 →
          ∃ t, Completes .stripPassedNotice [.messages, .render, .transit] s t ∧
            t.transit = { s.transit with
              strips := rest
              reports := s.transit.reports ++ [.message id .done m.reps s.classifier.frame] } ∧
            Selected s t n (without u.queue id))) ∧
      (u.phase ≠ .free → (∀ begun, u.phase ≠ .showing id .crawl begun) ∨ u.window ≠ some x.window ∨ x.message ≠ some id →
        (∀ k form begun, u.phase = .showing k form begun → k = id) →
        ∃ t, Completes .stripPassedNotice [.transit] s t ∧ t.transit = { s.transit with strips := rest }))

/-- A frame start at the Message Unit, and the rows that name its expiry and its static end alone (log 4): the ticker check, the
countdowns and expiries, the end of a STATIC show, the selection (R150, R152). The frames a show has stood for are read as a
signed difference of frame numbers (log 40). -/
def Obligations.MessagesAtFrameStarts : Prop :=
  ∀ s : State,
    let u := s.messages
    (u.queue.map (·.id)).Nodup →
    let queue := afterExpiry u.queue
    (∀ f rest, s.transit.due.message = f :: rest →
      let due := { s.transit.due with message := rest }
      let shown := fun t : State => t.writer = { s.writer with tickers := s.writer.tickers ++ [match t.messages.phase with
        | .showing id _ _ => some id
        | _ => none] }
      (u.window = none ∨ (∃ n, Ticking s n) →
        u.phase = .detached ∨ (∃ id, u.phase = .preparing id ∧ ∀ m ∈ u.queue, m.id = id → expiring m = false) ∨
          (∃ id begun, u.phase = .showing id .crawl begun) ∨
          (∃ id begun m, u.phase = .showing id .static begun ∧ u.find id = some m ∧ m.state = .showing ∧
            (f - begun).toInt < m.minShow) →
        ∃ t, Completes .messageFrameStart [.messages, .writer, .transit] s t ∧ t.messages = { u with queue := queue } ∧
          t.transit = { s.transit with due := due, reports := s.transit.reports ++ expiries u.queue f } ∧ shown t) ∧
      (∀ n, Ticking s n → u.phase = .free ∨ (∃ id, u.phase = .preparing id ∧ ∃ m ∈ u.queue, m.id = id ∧ expiring m = true) →
        ∃ t, Completes .messageFrameStart [.messages, .render, .writer, .transit] s t ∧ Selected s t n queue ∧
          t.transit = { s.transit with due := due, reports := s.transit.reports ++ expiries u.queue f } ∧ shown t) ∧
      (∀ n id begun m, Ticking s n → u.phase = .showing id .static begun → u.find id = some m → m.state = .showing →
        m.minShow ≤ (f - begun).toInt →
        (2 ≤ m.showsLeft →
          ∃ t, Completes .messageFrameStart [.messages, .render, .writer, .transit] s t ∧
            Selected s t n (changed queue id fun _ => { m with state := .approved, showsLeft := m.showsLeft - 1 }) ∧
            t.transit = { s.transit with due := due, reports := s.transit.reports ++ expiries u.queue f } ∧ shown t) ∧
        (m.showsLeft = 1 →
          ∃ t, Completes .messageFrameStart [.messages, .render, .writer, .transit] s t ∧
            Selected s t n (without queue id) ∧
            t.transit = { s.transit with
              due := due, reports := s.transit.reports ++ expiries u.queue f ++ [.message id .done m.reps f] } ∧ shown t)) ∧
      (∀ n id form begun, u.window = some n → (∀ c, (s.render.window n).config = some c → c.kind ≠ .ticker) →
        u.phase = .showing id form begun →
        let back := changed u.queue id fun q => { q with state := .approved }
        ∃ t, Completes .messageFrameStart [.messages, .writer, .transit] s t ∧
          t.messages = { u with queue := afterExpiry back, window := none, phase := .detached, lastContent := none } ∧
          t.transit = { s.transit with due := due, reports := s.transit.reports ++ expiries back f } ∧ shown t)) ∧
    (u.window = none ∨ (∃ n, Ticking s n) → u.phase = .detached ∨ (∃ id form begun, u.phase = .showing id form begun) →
      ∃ t, Completes .messageExpiry [.messages, .transit] s t ∧
        t.messages = { u with queue := u.queue.filter fun m => !expiring m } ∧
        ReportsSent s t (expiries u.queue s.classifier.frame)) ∧
    (∀ n id begun m, Ticking s n → u.phase = .showing id .static begun → u.find id = some m →
      m.minShow ≤ (s.classifier.frame - begun).toInt → 2 ≤ m.showsLeft →
      ∃ t, Completes .staticShowEnd [.messages, .render] s t ∧
        Selected s t n (changed u.queue id fun _ => { m with state := .approved, showsLeft := m.showsLeft - 1 })) ∧
    (∀ n id begun m, Ticking s n → u.phase = .showing id .static begun → u.find id = some m →
      m.minShow ≤ (s.classifier.frame - begun).toInt → m.showsLeft = 1 →
      ∃ t, Completes .staticShowEnd [.messages, .render, .transit] s t ∧
        ReportsSent s t [.message id .done m.reps s.classifier.frame] ∧ Selected s t n (without u.queue id))

/-! ### The Memory Scheduler -/

/-- Activates, precharges and promotions, with no refresh under way and the data path FREE (R157 to R161): a row that opens for a
queued operation starts its burst and passes over the older GENERAL operations, one that no operation wants is closed again, a
bank that has closed opens the row of what waits for it, and an aged operation closes a row it does not want. In a queue of any length
the bank's claim decides its row, and the burst that starts is that of the oldest ready operation of the class served first: a blocked
operation neither claims a bank nor starts (R157). With a burst under way an activate completes at its bank alone. An ENTRY, whatever
command brings it, gives its operation the next place and its class (R156), applies the bank rule to its bank and has the data path choose;
the operations of one acceptance and of one composite request are entered at once (DESIGN CHOICE: log 29), all others one after another. That a promotion by
ageing waits in the list of promotions and reaches its bank as the arrival AGEING_PROMOTION is the model's choice (DESIGN CHOICE:
log 34), which the clauses on that list and that arrival rest on. So is the order at the completion of an activate, where R159 and R160 both
act: the bank rule first, then the data path (DESIGN CHOICE: log 50); the clauses on ACTIVATE_COMPLETE rest on it. -/
def Obligations.BanksAndAgeing : Prop :=
  ∀ (s : State) (bank row : Nat) (op : Operation), bank < 16 → s.scheduler.init = .done → s.scheduler.phase = .quiet →
    let d := s.scheduler
    let becomes := fun (cmd : Instr) (x : Bank) (queue : List Operation) (promotions : List Nat) =>
      ∃ t, Completes cmd [.scheduler] s t ∧
        t.scheduler = { d with banks := t.scheduler.banks, queue := queue, promotions := promotions } ∧
        tget t.scheduler.banks bank .idle = x ∧
        ∀ k, k ≠ bank → tget t.scheduler.banks k .idle = tget d.banks k .idle
    (tget d.banks bank .idle = .activating row →
      (d.queue = [] → becomes (.activateComplete bank) .precharging [] d.promotions) ∧
      (d.queue = [op] → op.inBurst = false → bankOf op.addr = bank → rowOf op.addr = row →
        becomes (.activateComplete bank) (.active row) [{ op with inBurst := true }] d.promotions) ∧
      (∀ g, d.queue = [g, op] → op.inBurst = false → g.inBurst = false → bankOf op.addr = bank → rowOf op.addr = row →
        op.cls = .scanout → g.cls = .general → bankOf g.addr ≠ bank → g.order < op.order →
        (g.passes < 31 → becomes (.activateComplete bank) (.active row)
          [{ g with passes := g.passes + 1 }, { op with inBurst := true }] d.promotions) ∧
        (g.passes = 31 → becomes (.activateComplete bank) (.active row)
          [{ g with passes := 32, cls := .scanout }, { op with inBurst := true }] (d.promotions ++ [g.order])))) ∧
    (tget d.banks bank .idle = .precharging →
      (d.queue = [] → becomes (.prechargeComplete bank) .idle [] d.promotions) ∧
      (d.queue = [op] → op.inBurst = false → bankOf op.addr = bank →
        becomes (.prechargeComplete bank) (.activating (rowOf op.addr)) [op] d.promotions)) ∧
    (d.queue.Pairwise (fun e f => e.order < f.order) → (∀ e ∈ d.queue, e.inBurst = false) →
      (tget d.banks bank .idle = .activating row →
        ∃ t, Completes (.activateComplete bank) [.scheduler] s t ∧
          t.scheduler = { d with banks := t.scheduler.banks, queue := t.scheduler.queue, promotions := t.scheduler.promotions } ∧
          (∀ e, Claims d bank e → e.addr / 131072 = row → tget t.scheduler.banks bank .idle = .active row) ∧
          ((∀ e, Claims d bank e → e.addr / 131072 ≠ row) → tget t.scheduler.banks bank .idle = .precharging) ∧
          (∀ k, k ≠ bank → tget t.scheduler.banks k .idle = tget d.banks k .idle) ∧ BurstChosen d t.scheduler) ∧
      (tget d.banks bank .idle = .precharging →
        ∃ t, Completes (.prechargeComplete bank) [.scheduler] s t ∧ t.scheduler = { d with banks := t.scheduler.banks } ∧
          (∀ e, Claims d bank e → (∀ q, Claims d bank q → e.order ≤ q.order) →
            tget t.scheduler.banks bank .idle = .activating (e.addr / 131072)) ∧
          ((∀ e, ¬ Claims d bank e) → tget t.scheduler.banks bank .idle = .idle) ∧
          ∀ k, k ≠ bank → tget t.scheduler.banks k .idle = tget d.banks k .idle)) ∧
    (d.queue.Pairwise (fun e f => e.order < f.order) →
      (tget d.banks bank .idle = .activating row → (∃ e ∈ d.queue, e.inBurst = true) →
        ∃ t, Completes (.activateComplete bank) [.scheduler] s t ∧ t.scheduler = { d with banks := t.scheduler.banks } ∧
          BankRuled { d with banks := tset d.banks bank (.active row) } bank (tget t.scheduler.banks bank .idle) ∧
          ∀ k, k ≠ bank → tget t.scheduler.banks k .idle = tget d.banks k .idle) ∧
      (tget d.banks bank .idle = .precharging →
        ∃ t, Completes (.prechargeComplete bank) [.scheduler] s t ∧ t.scheduler = { d with banks := t.scheduler.banks } ∧
          BankRuled { d with banks := tset d.banks bank .idle } bank (tget t.scheduler.banks bank .idle) ∧
          ∀ k, k ≠ bank → tget t.scheduler.banks k .idle = tget d.banks k .idle) ∧
      (∀ rest, op ∈ d.queue → d.promotions = op.order :: rest →
        ∃ t more, Completes .ageingPromotion [.scheduler] s t ∧
          t.scheduler = { d with banks := t.scheduler.banks, queue := t.scheduler.queue, promotions := rest ++ more } ∧
          BankRuled d (op.addr / 8192 % 16) (tget t.scheduler.banks (op.addr / 8192 % 16) .idle) ∧
          (∀ k, k ≠ op.addr / 8192 % 16 → tget t.scheduler.banks k .idle = tget d.banks k .idle) ∧ DataPath d t.scheduler) ∧
      ((∀ e ∈ d.queue, e.order < d.nextOrder) → ∀ (cmd : Instr) (t : State) (new : List (Bool × Nat × Nat × List (List (Option Byte)) × Owner)),
        entersOperations cmd = true → exec cmd s = .next t → t.queued = s.queued ++ new → new ≠ [] →
        ∃ ops, ops.map Operation.what = new ∧
          (entersTogether cmd s = true → Entered d t.scheduler ops) ∧
          (entersTogether cmd s = false → EnteredInTurn d t.scheduler ops) ∧
          (s.render.toEnter = [] → s.reader.toEnter = [] → ∀ o ∈ ops, o.cls = .scanout ↔
            ((∃ working fetch, o.owner = .compositor working fetch) ∨
              (∃ entry first, o.owner = .fabricRead entry first) ∧ s.classifier.role t.port.pointer = .scanout)))) ∧
    (∀ n rest, d.promotions = n :: rest → (∀ e ∈ d.queue, e.order ≠ n) →
      ∃ t, Completes .ageingPromotion [.scheduler] s t ∧ t.scheduler = { d with promotions := rest }) ∧
    (d.promotions = [] → exec .ageingPromotion s = .next s) ∧
    (∀ rest, tget d.banks bank .idle = .active row → d.promotions = op.order :: rest → d.queue = [op] → op.inBurst = false →
      op.passes = 32 → bankOf op.addr = bank → rowOf op.addr ≠ row →
      becomes .ageingPromotion .precharging [op] rest) ∧
    ((∀ r, tget d.banks bank .idle ≠ .activating r) → exec (.activateComplete bank) s = .next s) ∧
    (tget d.banks bank .idle ≠ .precharging → exec (.prechargeComplete bank) s = .next s)

/-- The completion of a burst (R13, R160): the operation leaves the queue; a WRITE has stored its enabled bytes and no others, a
READ none; and its owner, whichever unit it is, has the completion: a request's entry counts it off with the data of its beats or
hands on what was snooped; a composite request keeps a fetch's data while others are outstanding, and with the last one returns its
beat, with a window laid over it (R30, R33, R34), and sends its delivery event (R35); the Render Engine's job and font load, and the
Command Reader's record and payload, have their data; and a mirror, report or status write is just done. Whichever it is, the
bank rule is applied to the burst's bank, whose row is closed when nothing wants it (R159), what a render job then writes is entered
one operation after another, and the data path chooses its next burst. -/
def Obligations.BurstsComplete : Prop :=
  ∀ (s : State) (before after : List Operation) (op : Operation), s.scheduler.queue = before ++ op :: after →
    op.inBurst = true → (∀ q ∈ before, q.inBurst = false) → (∀ q ∈ before ++ after, q.order ≠ op.order) →
    (op.write = true → ∀ beat ∈ op.data, beat.length = 32) → s.render.toEnter = [] →
    let remains := (before ++ after).map Operation.what
    let stored := fun t : State => ∀ a, t.byteAt a =
      if op.write = true ∧ op.addr ≤ a then ((op.data.flatten[a - op.addr]?).join).getD (s.byteAt a) else s.byteAt a
    (∃ t, exec .burstComplete s = .next t ∧ stored t ∧
      (s.scheduler.init = .done → s.scheduler.phase = .quiet → (∀ q ∈ after, q.inBurst = false) →
        (before ++ after).Pairwise (fun e f => e.order < f.order) → t.queued = remains →
        let left : Scheduler := { s.scheduler with queue := before ++ after }
        let bank := op.addr / 8192 % 16
        BankRuled left bank (tget t.scheduler.banks bank .idle) ∧
          (∀ k, k ≠ bank → tget t.scheduler.banks k .idle = tget s.scheduler.banks k .idle) ∧ BurstChosen left t.scheduler) ∧
      (s.scheduler.init = .done → s.scheduler.phase = .quiet → (∀ q ∈ after, q.inBurst = false) →
        (before ++ after).Pairwise (fun e f => e.order < f.order) → (∀ q ∈ before ++ after, q.order < s.scheduler.nextOrder) →
        let left : Scheduler := { s.scheduler with queue := before ++ after }
        let bank := op.addr / 8192 % 16
        ∃ ruled u ops, ruled = { left with banks := ruled.banks } ∧ BankRuled left bank (tget ruled.banks bank .idle) ∧
          (∀ k, k ≠ bank → tget ruled.banks k .idle = tget s.scheduler.banks k .idle) ∧ EnteredInTurn ruled u ops ∧
          t.queued = remains ++ ops.map Operation.what ∧ t.scheduler.banks = u.banks ∧ DataPath u t.scheduler)) ∧
    (∀ r, s.scheduler.init = .done → s.scheduler.phase = .quiet → before = [] → after = [] →
      op.owner = .mirror ∨ op.owner = .reportWrite ∨ op.owner = .statusWrite → tget s.scheduler.banks (op.addr / 8192 % 16) .idle = .active r →
      ∃ t, exec .burstComplete s = .next t ∧ t.scheduler = { s.scheduler with
        queue := [], banks := tset s.scheduler.banks (op.addr / 8192 % 16) .precharging }) ∧
    (∀ entry index consumer, op.write = true → op.owner = .fabricWrite entry index consumer →
      ∃ t, Completes .burstComplete [.port, .scheduler, .memory, .transit] s t ∧ stored t ∧ t.queued = remains ∧
        t.port = { s.port with table := s.port.table.map fun e =>
          if e.number = entry then { e with opsLeft := e.opsLeft - 1 } else e } ∧
        t.transit = { s.transit with
          indexes := s.transit.indexes ++ index.toList, consumers := s.transit.consumers ++ consumer.toList }) ∧
    (∀ entry first, op.write = false → op.owner = .fabricRead entry first →
      ∃ t, Completes .burstComplete [.port, .scheduler] s t ∧ t.queued = remains ∧
        t.port = { s.port with table := t.port.table } ∧ t.port.table.length = s.port.table.length ∧
        ∀ (n : Nat) (e : Entry), s.port.table[n]? = some e →
          (e.number ≠ entry → t.port.table[n]? = some e) ∧
          (e.number = entry → ∃ read, t.port.table[n]? = some { e with opsLeft := e.opsLeft - 1, readData := read } ∧
            read.length = e.readData.length ∧
            (∀ k, first ≤ k → k < first + op.beats → k < e.readData.length →
              read[k]? = some (some ((List.range 32).map fun b => s.byteAt (op.addr + 32 * (k - first) + b)))) ∧
            ∀ k, k < first ∨ first + op.beats ≤ k → read[k]? = e.readData[k]?)) ∧
    (∀ w fetch, op.write = false → op.beats = 1 → op.owner = .compositor w.number fetch → w.base = some fetch → w.layers = [] →
      w.fetchesLeft = 1 → s.compositor.working = [w] → s.compositor.notes = [] →
      ∃ t, Completes .burstComplete [.port, .compositor, .scheduler] s t ∧ t.queued = remains ∧ t.compositor.working = [] ∧
        t.port = { s.port with table := s.port.table.map fun e =>
          if e.number = w.request.entry then
            { e with
              compositesLeft := e.compositesLeft - 1
              readData := e.readData.set w.request.position
                (some ((List.range 32).map fun k => s.byteAt (op.addr + k))) }
          else e }) ∧
    (∀ w fetch m, op.write = false → op.beats = 1 → op.owner = .compositor w.number fetch → w.base = some fetch → w.layers = [] →
      w.fetchesLeft = 1 → s.compositor.working = [w] → s.compositor.notes = [m] → m.entry = w.request.entry →
      let returned := fun t : State => t.queued = remains ∧ t.port = { s.port with table := s.port.table.map fun e =>
        if e.number = w.request.entry then
          { e with
            compositesLeft := e.compositesLeft - 1
            readData := e.readData.set w.request.position
              (some ((List.range 32).map fun k => s.byteAt (op.addr + k))) }
        else e }
      (2 ≤ m.requestsLeft →
        ∃ t, Completes .burstComplete [.port, .compositor, .scheduler] s t ∧ returned t ∧
          t.compositor = { s.compositor with working := [], notes := [{ m with requestsLeft := m.requestsLeft - 1 }] }) ∧
      (m.requestsLeft = 1 →
        ∃ t sent, Completes .burstComplete [.port, .compositor, .scheduler, .transit] s t ∧ returned t ∧
          t.compositor = { s.compositor with working := [], notes := [] } ∧
          t.transit = { s.transit with deliveries := s.transit.deliveries ++
            (sent.map fun d : Delivered => ⟨d.zone, d.zoneLine, d.beats, s.classifier.frame⟩) } ∧
          List.Perm sent m.counts ∧
          sent.Pairwise fun d e => d.canvasLine < e.canvasLine ∨ (d.canvasLine = e.canvasLine ∧ d.zone ≤ e.zone))) ∧
    (∀ w fetch, op.write = false → op.owner = .compositor w.number fetch → 2 ≤ w.fetchesLeft → s.compositor.working = [w] →
      ∃ t, Completes .burstComplete [.compositor, .scheduler] s t ∧ t.queued = remains ∧
        t.compositor = { s.compositor with working := [{ w with
          fetchesLeft := w.fetchesLeft - 1
          got := (fetch, (List.range (32 * op.beats)).map fun k => s.byteAt (op.addr + k)) :: w.got }] }) ∧
    (∀ w l base baseBytes fetch m d, op.write = false → op.owner = .compositor w.number fetch → w.fetchesLeft = 1 →
      s.compositor.working = [w] → w.base = some base → base ≠ fetch → w.got = [(base, baseBytes)] → baseBytes.length = 32 →
      w.layers = [l] → l.fetches = [fetch] → l.from' = op.addr →
      s.compositor.notes = [m] → m.entry = w.request.entry → m.requestsLeft = 1 → m.counts = [d] →
      let column := fun i : Nat => w.request.column + i
      let u := fun i : Nat => column i - l.rect.x + l.scroll
      let place := fun i : Nat => l.bufferBase + ((w.request.line - l.rect.y) * l.imageWidth + u i) * 4
      let under := fun i : Nat => (⟨baseBytes.getD (4 * i) 0, baseBytes.getD (4 * i + 1) 0, baseBytes.getD (4 * i + 2) 0,
        baseBytes.getD (4 * i + 3) 0⟩ : Pixel)
      let laid := fun i : Nat => if l.imageWidth ≤ u i then l.background else
        (⟨s.byteAt (place i), s.byteAt (place i + 1), s.byteAt (place i + 2), s.byteAt (place i + 3)⟩ : Pixel)
      let weight := fun i : Nat => blend (laid i).x.toNat 0 l.fade
      let crossed := fun i : Nat => l.rect.y ≤ w.request.line ∧ w.request.line < l.rect.y + l.rect.height ∧
        l.rect.x ≤ column i ∧ column i < l.rect.x + l.rect.width
      let pixel := fun i : Nat =>
        if crossed i then
          [blendByte (laid i).r (under i).r (weight i), blendByte (laid i).g (under i).g (weight i),
            blendByte (laid i).b (under i).b (weight i), (under i).x]
        else [(under i).r, (under i).g, (under i).b, (under i).x]
      (∀ i, i < 8 → crossed i → u i < l.imageWidth → op.addr ≤ place i ∧ place i + 4 ≤ op.addr + 32 * op.beats) →
      ∃ t, Completes .burstComplete [.port, .compositor, .scheduler, .transit] s t ∧ t.queued = remains ∧
        t.compositor = { s.compositor with working := [], notes := [] } ∧
        t.transit = { s.transit with
          deliveries := s.transit.deliveries ++ [⟨d.zone, d.zoneLine, d.beats, s.classifier.frame⟩] } ∧
        t.port = { s.port with table := s.port.table.map fun e =>
          if e.number = w.request.entry then
            { e with
              compositesLeft := e.compositesLeft - 1
              readData := e.readData.set w.request.position (some ((List.range 8).flatMap pixel)) }
          else e }) ∧
    (∀ j piece, op.write = false → op.owner = .renderRead j.number piece → s.render.job = some j → j.writing = false →
      let got := (piece, (List.range (32 * op.beats)).map fun k => s.byteAt (op.addr + k)) :: j.got
      (2 ≤ j.readsLeft →
        ∃ t, Completes .burstComplete [.render, .scheduler] s t ∧ t.queued = remains ∧
          t.render = { s.render with job := some { j with readsLeft := j.readsLeft - 1, got := got } }) ∧
      let full : Job := { j with readsLeft := 0, got := got }
      (j.readsLeft = 1 →
        ∃ t entered, Completes .burstComplete [.render, .scheduler] s t ∧
          t.render = { s.render with
            job := some { full with writing := true, writesLeft := full.writes.length }, toEnter := t.render.toEnter } ∧
          full.writes = entered ++ t.render.toEnter ∧ t.queued = remains ++ entered.map Operation.what)) ∧
    (∀ l piece, op.write = false → op.owner = .fontRead l.number piece → s.render.load = some l →
      ∃ t, Completes .burstComplete [.render, .scheduler] s t ∧ t.queued = remains ∧
        t.render = { s.render with load := some { l with
          piecesLeft := l.piecesLeft - 1
          got := (piece, (List.range (32 * op.beats)).map fun k => s.byteAt (op.addr + k)) :: l.got } }) ∧
    (∀ piece record left got, op.write = false → op.owner = .payloadFetch piece → s.reader.stage = .payload record left got →
      let had := (piece, (List.range (32 * op.beats)).map fun k => s.byteAt (op.addr + k)) :: got
      ∃ t, Completes .burstComplete [.reader, .scheduler] s t ∧ t.queued = remains ∧
        t.reader = { s.reader with stage := .payload record (left - 1) had }) ∧
    (op.write = false → op.owner = .recordFetch → op.beats = 2 → s.reader.stage = .fetching →
      ∃ t, Completes .burstComplete [.reader, .scheduler] s t ∧ t.queued = remains ∧
        t.reader = { s.reader with stage := .fetched ((List.range 64).map fun k => s.byteAt (op.addr + k)) }) ∧
    (op.write = true → op.owner = .mirror ∨ op.owner = .reportWrite ∨ op.owner = .statusWrite →
      ∃ t, Completes .burstComplete [.scheduler, .memory] s t ∧ stored t ∧ t.queued = remains ∧
        (s.scheduler.init = .done → s.scheduler.phase = .quiet → (∀ q ∈ after, q.inBurst = false) →
          (before ++ after).Pairwise (fun e f => e.order < f.order) →
          BurstChosen { s.scheduler with queue := before ++ after } t.scheduler)) ∧
    (∀ j, op.write = true → op.owner = .renderWrite j.number → s.render.job = some j →
      ∃ t, Completes .burstComplete [.render, .scheduler, .memory] s t ∧ stored t ∧ t.queued = remains ∧
        t.render = { s.render with job := some { j with writesLeft := j.writesLeft - 1 } })

/-- The refresh debt, forced and idle refreshes and their completion (R162 to R165), and the four steps of DRAM initialisation
(R166). While the phase is CLOSING a bank that completes its activate is precharged in turn, a burst's bank as soon as the burst
completes, and the refresh begins when the last bank is IDLE (R163, R164). What is entered while a refresh is forced or under way, or
before initialisation has completed, waits in the queue; the bank rule at every bank and the data path serve it at the completion (R165,
R166). A debt of 8 is held by a further interval: the model's choice (DESIGN CHOICE: log 22). -/
def Obligations.RefreshAndInitialisation : Prop :=
  ∀ s : State,
    let d := s.scheduler
    let scheduled := fun (cmd : Instr) (e : Scheduler) => ∃ t, Completes cmd [.scheduler] s t ∧ t.scheduler = e
    let allIdle := ∀ b, b < 16 → tget d.banks b .idle = .idle
    let closed := fun (before after : Scheduler) =>
      (∀ b, b < 16 → tget after.banks b .idle = match tget before.banks b .idle with
        | .active r => if before.queue.any (fun e => e.inBurst && bankOf e.addr == b) then .active r else .precharging
        | x => x) ∧
      ((∀ b, b < 16 → tget before.banks b .idle = .idle) → after.phase = .refreshing) ∧
      (¬ (∀ b, b < 16 → tget before.banks b .idle = .idle) → after.phase = .closing)
    let closes := fun (cmd : Instr) (before : Scheduler) =>
      ∃ t, Completes cmd [.scheduler] s t ∧
        t.scheduler = { before with banks := t.scheduler.banks, phase := t.scheduler.phase } ∧ closed before t.scheduler
    let served := fun (before : Scheduler) (t : State) =>
      t.scheduler = { before with
        banks := t.scheduler.banks, queue := t.scheduler.queue, promotions := t.scheduler.promotions } ∧
      (∀ b, b < 16 → BankRuled before b (tget t.scheduler.banks b .idle)) ∧ DataPath before t.scheduler
    (d.init = .done → d.debt < 6 → scheduled .refreshInterval { d with debt := d.debt + 1 }) ∧
    (d.init = .done → d.debt < 8 → d.forced = true → scheduled .refreshInterval { d with debt := d.debt + 1 }) ∧
    (d.init = .done → d.debt = 8 → d.forced = true → exec .refreshInterval s = .next s) ∧
    (d.init = .done → d.debt = 6 → d.forced = false → d.phase = .quiet →
      closes .refreshInterval { d with debt := 7, forced := true }) ∧
    (d.init = .done → d.debt = 6 → d.forced = false → d.phase ≠ .quiet →
      scheduled .refreshInterval { d with debt := 7, forced := true }) ∧
    (d.init = .done → d.phase = .quiet → 0 < d.debt → d.queue = [] → closes .idleRefreshStart d) ∧
    (∀ bank row, bank < 16 → d.phase = .closing → tget d.banks bank .idle = .activating row →
      closes (.activateComplete bank) { d with banks := tset d.banks bank (.active row) }) ∧
    (∀ bank, bank < 16 → d.phase = .closing → tget d.banks bank .idle = .precharging →
      closes (.prechargeComplete bank) { d with banks := tset d.banks bank .idle }) ∧
    (∀ before op after, d.phase = .closing → d.queue = before ++ op :: after → op.inBurst = true →
      (∀ q ∈ before ++ after, q.inBurst = false ∧ q.order ≠ op.order) →
      ∃ t, exec .burstComplete s = .next t ∧ closed { d with queue := before ++ after } t.scheduler ∧
        t.scheduler.debt = d.debt ∧ t.scheduler.forced = d.forced ∧ ∀ q ∈ t.scheduler.queue, q.inBurst = false) ∧
    (∀ (cmd : Instr) (t : State) (new : List (Bool × Nat × Nat × List (List (Option Byte)) × Owner)),
      d.phase ≠ .quiet ∨ d.init ≠ .done → entersOperations cmd = true → exec cmd s = .next t → t.queued = s.queued ++ new → new ≠ [] →
      t.scheduler.banks = d.banks ∧ t.scheduler.phase = d.phase ∧ ∃ ops, t.scheduler.queue = d.queue ++ ops ∧
        ∀ k op, ops[k]? = some op → op.order = d.nextOrder + k ∧ op.passes = 0 ∧ op.inBurst = false) ∧
    (d.init = .done → d.phase = .refreshing → d.queue.Pairwise (fun e f => e.order < f.order) → d.debt ≤ 1 ∨ d.queue ≠ [] →
      d.debt ≤ 7 → ∃ t, Completes .refreshComplete [.scheduler] s t ∧
        served { d with debt := d.debt - 1, forced := false, phase := .quiet } t) ∧
    (d.phase = .refreshing → 8 ≤ d.debt → d.forced = true → scheduled .refreshComplete { d with debt := d.debt - 1 }) ∧
    (d.init = .done → d.phase = .refreshing → allIdle → d.queue = [] → d.debt = 1 →
      scheduled .refreshComplete { d with debt := 0, forced := false, phase := .quiet }) ∧
    (d.init = .done → d.phase = .refreshing → allIdle → d.queue = [] → 2 ≤ d.debt → d.debt ≤ 7 →
      scheduled .refreshComplete { d with debt := d.debt - 1, forced := false }) ∧
    (∀ op, d.init = .done → d.phase = .refreshing → allIdle → d.queue = [op] → op.inBurst = false → d.debt ≤ 7 →
      ∃ t, Completes .refreshComplete [.scheduler] s t ∧
        t.scheduler = { d with debt := d.debt - 1, forced := false, phase := .quiet, banks := t.scheduler.banks } ∧
        ∀ b, b < 16 → tget t.scheduler.banks b .idle =
          if b = bankOf op.addr then .activating (rowOf op.addr) else .idle) ∧
    (d.init = .prechargeAll → scheduled .dramInitStepComplete { d with init := .firstRefresh }) ∧
    (d.init = .firstRefresh → scheduled .dramInitStepComplete { d with init := .secondRefresh }) ∧
    (d.init = .secondRefresh → scheduled .dramInitStepComplete { d with init := .modeSetting }) ∧
    (d.init = .modeSetting → d.queue = [] →
      ∃ t, Completes .dramInitStepComplete [.port, .scheduler] s t ∧ t.port = { s.port with initDone := true } ∧
        t.scheduler = { d with
          init := .done, debt := 0, phase := .quiet, forced := false, banks := Vector.replicate 16 .idle }) ∧
    (d.init = .modeSetting → d.queue.Pairwise (fun e f => e.order < f.order) →
      ∃ t, Completes .dramInitStepComplete [.port, .scheduler] s t ∧ t.port = { s.port with initDone := true } ∧
        served { d with
          init := .done, debt := 0, phase := .quiet, forced := false, banks := Vector.replicate 16 .idle } t)

/-- The unit that has waited longest enters, when the places its next entry needs are free (R156): its operations join the queue in
its own order. The Render Engine, the Command Reader and the Report Writer wait no more when all they had to enter is entered, and
rejoin the line at its tail with what is left (DESIGN CHOICE: log 15); where no place is free nothing changes. The Report Writer's own
records go before its holding queue (DESIGN CHOICE: log 16), and the command's own report carries the frame number at which it
reached the Report Writer (R182). -/
def Obligations.WaitingUnitsEnter : Prop :=
  ∀ (s : State) (op : Operation) (more : List Operation) (rest : List WaitingUnit),
    let d := s.scheduler
    let enters := fun (ops : List Operation) (waiters : List WaitingUnit) (t : State) =>
      t.queued = s.queued ++ ops.map Operation.what ∧ t.scheduler.waiters = waiters
    (d.waiters = .render :: rest → .render ∉ rest → s.render.toEnter = op :: more →
      (128 ≤ d.queue.length → exec .waitingUnitEntry s = .next s) ∧
      (d.queue.length < 128 → rest ≠ [] →
        ∃ t, Completes .waitingUnitEntry [.render, .scheduler] s t ∧ t.render = { s.render with toEnter := more } ∧
          enters [op] (if more = [] then rest else rest ++ [.render]) t) ∧
      (∀ now later, d.queue.length < 128 → rest = [] → op :: more = now ++ later → d.queue.length + now.length ≤ 128 →
        later = [] ∨ d.queue.length + now.length = 128 →
        ∃ t, Completes .waitingUnitEntry [.render, .scheduler] s t ∧ t.render = { s.render with toEnter := later } ∧
          enters now (if later = [] then [] else [.render]) t)) ∧
    (d.waiters = .reader :: rest → .reader ∉ rest → s.reader.toEnter = op :: more →
      (128 ≤ d.queue.length → exec .waitingUnitEntry s = .next s) ∧
      (d.queue.length < 128 → rest ≠ [] →
        ∃ t, Completes .waitingUnitEntry [.reader, .scheduler] s t ∧ t.reader = { s.reader with toEnter := more } ∧
          enters [op] (if more = [] then rest else rest ++ [.reader]) t) ∧
      (∀ now later, d.queue.length < 128 → rest = [] → op :: more = now ++ later → d.queue.length + now.length ≤ 128 →
        later = [] ∨ d.queue.length + now.length = 128 →
        ∃ t, Completes .waitingUnitEntry [.reader, .scheduler] s t ∧ t.reader = { s.reader with toEnter := later } ∧
          enters now (if later = [] then [] else [.reader]) t)) ∧
    (d.waiters = .port :: rest → exec .waitingUnitEntry s = exec (.requestAccept []) s) ∧
    (d.waiters = .compositor :: rest → exec .waitingUnitEntry s = exec .compositeWorkOut s) ∧
    (d.waiters = .writer :: rest → .writer ∉ rest →
      let w := s.writer
      let room := (w.producer - w.consumer).toNat + (if w.reserved then 1 else 0) < 1024
      (128 ≤ d.queue.length → w.waiting ≠ [] ∨ w.holding ≠ [] ∧ room → exec .waitingUnitEntry s = .next s) ∧
      (∀ p later, w.waiting = .status p :: later → d.queue.length < 128 →
        ∃ t, Completes .waitingUnitEntry [.writer, .scheduler] s t ∧ t.writer = { w with waiting := later } ∧
          t.queued = s.queued ++ [(true, s.apertureBase, 8, beatsOf 8 (statusBytes s p), .statusWrite)] ∧
          t.scheduler.waiters = if later ≠ [] ∨ w.holding ≠ [] ∧ room then rest ++ [.writer] else rest) ∧
      (∀ frame later res, w.waiting = .own frame :: later → s.reader.stage = .ended res → d.queue.length < 128 →
        s.reader.taken = s.reader.consumer + 1 →
        ∃ t, Completes .waitingUnitEntry [.reader, .writer, .scheduler] s t ∧
          t.writer = { w with waiting := later, producer := w.producer + 1, lost := 0, reserved := false } ∧
          t.reader = { s.reader with consumer := s.reader.consumer + 1, begun := false, stage := .idle } ∧
          t.queued = s.queued ++ [(true, s.recordAddr w.producer, 1,
            [(reportBytes (ownReport s.reader.consumer res) w.producer w.lost frame).map some], .reportWrite)]) ∧
      (∀ h held, w.waiting = [] → w.holding = h :: held → room → d.queue.length < 128 →
        ∃ t, Completes .waitingUnitEntry [.writer, .scheduler] s t ∧
          t.writer = { w with holding := held, producer := w.producer + 1, lost := 0 } ∧
          t.queued = s.queued ++ [(true, s.recordAddr w.producer, 1,
            [(reportBytes h.report w.producer w.lost h.frame).map some], .reportWrite)] ∧
          t.scheduler.waiters =
            if held ≠ [] ∧ (w.producer - w.consumer).toNat + (if w.reserved then 1 else 0) + 1 < 1024 then rest ++ [.writer]
            else rest))

/-! ### Commands, reports and the control reset -/

/-- The two snooped words (R169, R170, R176): an index value within 256 of the consumer and begun counts is taken and any other raises
a RING-OVERRUN report; a report consumer value between the old one and the producer count is taken, the holding queue drained, and
any other is ignored. Several held reports are drained on one write from the head of the holding queue, each in its place of the ring and
with the frame number it arrived with, until the queue is empty, no usable place remains or the operation queue is full (R176 step 1); the
Report Writer then waits for a place of the operation queue where it could write another. What is taken is followed at the same arrival by the taking of a waiting command, where its conditions hold,
as the command COMMAND_TAKE states them. -/
def Obligations.IndexWords : Prop :=
  ∀ (s : State) (x : Count) (rest : List Count),
    let begun := if s.reader.begun then s.reader.consumer + 1 else s.reader.consumer
    let within := (x - s.reader.consumer).toNat ≤ 256 ∧ (x - begun).toNat ≤ 256
    let free := (x - s.writer.consumer).toNat ≤ (s.writer.producer - s.writer.consumer).toNat
    let reserved := if s.writer.reserved then 1 else 0
    let stays := fun taken : Count => s.reader.begun = true ∨ taken = s.reader.consumer ∨ s.port.initDone = false
    (s.transit.indexes = x :: rest →
      (within → exec .commandIndexWrite s = exec .commandTake
        { s with reader := { s.reader with taken := x }, transit := { s.transit with indexes := rest } }) ∧
      (within → stays x ∨ 1024 ≤ (s.writer.producer - s.writer.consumer).toNat + reserved →
        ∃ t, Completes .commandIndexWrite [.reader, .transit] s t ∧
          t.transit = { s.transit with indexes := rest } ∧ t.reader = { s.reader with taken := x }) ∧
      (¬ within → ∃ t, Completes .commandIndexWrite [.transit] s t ∧
        t.transit = { s.transit with
          indexes := rest, reports := s.transit.reports ++ [.refused x .ringOverrun s.reader.consumer] })) ∧
    (s.transit.consumers = x :: rest →
      (free → s.writer.holding = [] → exec .reportConsumerWrite s = exec .commandTake
        { s with writer := { s.writer with consumer := x }, transit := { s.transit with consumers := rest } }) ∧
      (free → s.writer.holding = [] → stays s.reader.taken →
        ∃ t, Completes .reportConsumerWrite [.writer, .transit] s t ∧ t.transit = { s.transit with consumers := rest } ∧
          t.writer = { s.writer with consumer := x } ∧ (reportLine t = true ↔ x ≠ s.writer.producer)) ∧
      (∀ h, free → s.writer.holding = [h] → s.writer.waiting = [] → s.scheduler.waiters = [] →
        s.scheduler.queue.length < 128 → (s.writer.producer - x).toNat + reserved < 1024 →
        ∃ u, Frame [.writer, .scheduler, .transit] s u ∧ u.transit = { s.transit with consumers := rest } ∧
          u.writer = { s.writer with consumer := x, holding := [], producer := s.writer.producer + 1, lost := 0 } ∧
          u.queued = s.queued ++ [(true, s.recordAddr s.writer.producer, 1,
            [(reportBytes h.report s.writer.producer s.writer.lost h.frame).map some], .reportWrite)] ∧
          u.scheduler.waiters = [] ∧ exec .reportConsumerWrite s = exec .commandTake u ∧
          (stays s.reader.taken ∨ (s.writer.producer - x).toNat + reserved + 1 = 1024 →
            exec .reportConsumerWrite s = .next u)) ∧
      (∀ drained left, free → s.writer.holding = drained ++ left → drained ≠ [] → s.writer.waiting = [] →
        s.scheduler.waiters = [] → s.scheduler.queue.length + drained.length ≤ 128 →
        let used := (s.writer.producer - x).toNat + reserved
        used + drained.length ≤ 1024 →
        left = [] ∨ s.scheduler.queue.length + drained.length = 128 ∨ used + drained.length = 1024 →
        ∃ u, Frame [.writer, .scheduler, .transit] s u ∧ u.transit = { s.transit with consumers := rest } ∧
          u.writer = { s.writer with
            consumer := x, holding := left, producer := s.writer.producer + BitVec.ofNat 32 drained.length, lost := 0 } ∧
          u.queued = s.queued ++ (drained.zipIdx.map fun h =>
            let place := s.writer.producer + BitVec.ofNat 32 h.2
            (true, s.recordAddr place, 1,
              [(reportBytes h.1.report place (if h.2 = 0 then s.writer.lost else 0) h.1.frame).map some], .reportWrite)) ∧
          u.scheduler.waiters = (if left ≠ [] ∧ used + drained.length < 1024 then [.writer] else []) ∧
          exec .reportConsumerWrite s = exec .commandTake u ∧
          (stays s.reader.taken ∨ used + drained.length = 1024 → exec .reportConsumerWrite s = .next u)) ∧
      (¬ free → ∃ t, Completes .reportConsumerWrite [.transit] s t ∧ t.transit = { s.transit with consumers := rest }))

/-- A command is taken and fetched (R168, R170, R171): with the conditions met its report place is reserved and its record is
fetched, at the consumer count's place in the ring, at once or when a place of the operation queue has come free; without them, a full
report ring among them, nothing changes. A fetched record that names no command is BAD-NAME, one whose payload is too
long or out of frame DRAM is a PAYLOAD-FAULT, and one with no payload is ready to be carried out. -/
def Obligations.CommandsAreTaken : Prop :=
  ∀ s : State,
    let waits := s.reader.begun = false ∧ s.reader.taken ≠ s.reader.consumer ∧ s.port.initDone = true
    let used := (s.writer.producer - s.writer.consumer).toNat + (if s.writer.reserved then 1 else 0)
    let fetch := s.apertureBase + 4096 + s.reader.consumer.toNat % 256 * 64
    (waits → used < 1024 → s.scheduler.waiters = [] → s.scheduler.queue.length < 128 →
      ∃ t, Completes .commandTake [.reader, .writer, .scheduler] s t ∧ t.writer = { s.writer with reserved := true } ∧
        t.reader = { s.reader with begun := true, stage := .fetching, toEnter := [] } ∧
        t.queued = s.queued ++ [(false, fetch, 2, [], .recordFetch)]) ∧
    (waits → used < 1024 → .reader ∉ s.scheduler.waiters → s.scheduler.waiters ≠ [] ∨ 128 ≤ s.scheduler.queue.length →
      ∃ t op, Completes .commandTake [.reader, .writer, .scheduler] s t ∧ t.writer = { s.writer with reserved := true } ∧
        t.reader = { s.reader with begun := true, stage := .fetching, toEnter := [op] } ∧
        op.what = (false, fetch, 2, [], .recordFetch) ∧
        t.scheduler = { s.scheduler with waiters := s.scheduler.waiters ++ [.reader] }) ∧
    (¬ waits ∨ 1024 ≤ used → exec .commandTake s = .next s) ∧
    (∀ record, s.reader.stage = .fetched record →
      let stages := fun st : CommandStage =>
        ∃ t, Completes .commandFetchComplete [.reader] s t ∧ t.reader = { s.reader with stage := st }
      let length := recordPayloadLen record
      ((∀ row ∈ commandRows, nameBytes row.name ≠ recordName record) → stages (.ended (.refused .badName))) ∧
      (∀ cmd, decodeRecord record [] = some cmd →
        (length = 0 → stages (.carrying cmd)) ∧
        (0 < length → 4096 < length ∨ 34359738368 < recordPayloadAddr record + length →
          stages (.ended (.refused .payloadFault))) ∧
        (0 < length → length ≤ 4096 → recordPayloadAddr record + length ≤ 34359738368 → s.reader.toEnter = [] →
          s.scheduler.waiters = [] → s.scheduler.queue.length < 128 →
          recordPayloadAddr record / 8192 = (recordPayloadAddr record + length - 1) / 8192 →
          ∃ t, Completes .commandFetchComplete [.reader, .scheduler] s t ∧
            t.reader = { s.reader with stage := .payload record 1 [] } ∧
            t.queued = s.queued ++ [(false, recordPayloadAddr record / 32 * 32,
              (recordPayloadAddr record + length - 1) / 32 - recordPayloadAddr record / 32 + 1, [], .payloadFetch 0)]))) ∧
    (∀ record got cmd, s.reader.stage = .payload record 0 got → decodeRecord record (payloadOf record got) = some cmd →
      ∃ t, Completes .commandFetchComplete [.reader] s t ∧ t.reader = { s.reader with stage := .carrying cmd })

/-- Reports and the end of a command (R170, R172, R174, R175, R178, R182, R183): the command's own report takes its reserved place
at the producer count, with the lost count, the command is counted, and the next one is taken at the same arrival where it may be, as
COMMAND_TAKE states it; an own report that finds no place of the operation queue waits with its frame number; a report that arrives
is written at once, held, or lost and counted, with the frame number current at its arrival also where an earlier frame start made
it (DESIGN CHOICE: log 51); the head of the holding queue is written when it may be; and the status block is
written once every part has come, the oldest parts together (log 27). That the Report Writer joins the line of waiting units, or stays
in it, as long as it has something it may write but for a place of the operation queue is the model's choice (DESIGN CHOICE: log 15).
What the records and the block hold, byte for byte, is said by the last two clauses, as Tables 11-2 to 11-4 lay them out. -/
def Obligations.ReportsAreWritten : Prop :=
  ∀ s : State,
    let w := s.writer
    let ready := s.scheduler.waiters = [] ∧ s.scheduler.queue.length < 128 ∧ w.waiting = []
    let unread := (w.producer - w.consumer).toNat
    let after := (w.producer + 1 - w.consumer).toNat
    let room := unread + (if w.reserved then 1 else 0) < 1024
    let low := s.classifier.frame.setWidth 32
    let written := fun (t : State) (r : Report) (frame : BitVec 32) =>
      t.queued = s.queued ++ [(true, s.apertureBase + 32768 + w.producer.toNat % 1024 * 32, 1,
        [(toLe 4 w.producer.toNat ++ toLe 2 r.kind ++ toLe 2 w.lost ++ toLe 4 frame.toNat ++ padded 20 r.payload).map some],
        .reportWrite)]
    (∀ res, s.reader.stage = .ended res → s.transit.reports = [] → ready →
      let own : Report := match res with
        | .done a b => .done s.reader.consumer a b
        | .refused r => .refused s.reader.consumer r 0
      ∃ u, Frame [.reader, .writer, .scheduler] s u ∧ written u own low ∧
        u.writer = { w with producer := w.producer + 1, lost := 0, reserved := false } ∧
        u.reader = { s.reader with consumer := s.reader.consumer + 1, begun := false, stage := .idle } ∧
        (u.scheduler.waiters = if w.holding ≠ [] ∧ after < 1024 then [.writer] else []) ∧
        exec .commandEnd s = exec .commandTake u ∧
        (s.reader.taken = s.reader.consumer + 1 ∨ s.port.initDone = false ∨ 1024 ≤ after →
          exec .commandEnd s = .next u)) ∧
    (∀ res, s.reader.stage = .ended res → s.transit.reports = [] → w.waiting = [] → .writer ∉ s.scheduler.waiters →
      s.scheduler.waiters ≠ [] ∨ 128 ≤ s.scheduler.queue.length →
      ∃ t, Completes .commandEnd [.writer, .scheduler] s t ∧ t.writer = { w with waiting := [.own low] } ∧
        t.scheduler = { s.scheduler with waiters := s.scheduler.waiters ++ [.writer] }) ∧
    (∀ r rest, s.transit.reports = r :: rest →
      let arrived := fun t : State => t.transit = { s.transit with reports := rest }
      (w.holding = [] → room → ready →
        ∃ t, Completes .reportArrival [.writer, .scheduler, .transit] s t ∧ arrived t ∧ written t r low ∧
          t.writer = { w with producer := w.producer + 1, lost := 0 }) ∧
      (w.holding = [] → ¬ room → w.waiting = [] →
        ∃ t, Completes .reportArrival [.writer, .transit] s t ∧ arrived t ∧ t.writer = { w with holding := [⟨r, low⟩] }) ∧
      (w.holding ≠ [] ∨ (.writer ∉ s.scheduler.waiters ∧ (s.scheduler.waiters ≠ [] ∨ 128 ≤ s.scheduler.queue.length)) →
        w.holding.length < 48 →
        ∃ t, Completes .reportArrival [.writer, .scheduler, .transit] s t ∧ arrived t ∧
          t.writer = { w with holding := w.holding ++ [⟨r, low⟩] } ∧
          t.scheduler = { s.scheduler with waiters :=
            if .writer ∉ s.scheduler.waiters ∧ (w.waiting ≠ [] ∨ room) then s.scheduler.waiters ++ [.writer]
            else s.scheduler.waiters }) ∧
      (48 ≤ w.holding.length → w.lost < 65535 →
        ∃ t, Completes .reportArrival [.writer, .transit] s t ∧ arrived t ∧ t.writer = { w with lost := w.lost + 1 })) ∧
    (∀ h, w.holding = [h] → room → ready →
      ∃ t, Completes .heldReportWrite [.writer, .scheduler] s t ∧ written t h.report h.frame ∧
        t.writer = { w with holding := [], producer := w.producer + 1, lost := 0 }) ∧
    (w.holding ≠ [] → ¬ room → w.waiting = [] → exec .heldReportWrite s = .next s) ∧
    (∀ f fs z zs c cs k ks m ms, s.transit.due.status = f :: fs → w.sponsors = z :: zs → w.channels = c :: cs →
      w.captures = k :: ks → w.tickers = m :: ms → ready →
      ∃ t, Completes .statusBlockWrite [.writer, .scheduler, .transit] s t ∧
        t.transit = { s.transit with due := { s.transit.due with status := fs } } ∧
        t.writer = { w with sponsors := zs, channels := cs, captures := ks, tickers := ms } ∧
        t.queued = s.queued ++ [(true, s.apertureBase, 8, beatsOf 8 (statusBytes s ⟨f, z, c.1, c.2, k, m⟩), .statusWrite)] ∧
        t.scheduler.waiters = if w.holding ≠ [] ∧ room then [.writer] else []) ∧
    (s.transit.due.status = [] ∨ w.sponsors = [] ∨ w.channels = [] ∨ w.captures = [] ∨ w.tickers = [] →
      exec .statusBlockWrite s = .next s) ∧
    (∀ (r : Report) (sequence : Count) (lost : Nat) (frame : BitVec 32),
      let reason := fun x : Reason => 1 + [Reason.badName, .badArgument, .wrongState, .noRoom, .notFound, .inUse, .contactOwned,
        .payloadFault, .ringOverrun].idxOf x
      let payload : Nat × List (Nat × Nat × Nat) := match r with
        | .done n a b => (1, [(12, 4, n.toNat), (16, 4, a), (20, 4, b)])
        | .refused n x c => (2, [(12, 4, n.toNat), (16, 1, reason x), (20, 4, c.toNat)])
        | .exposure p k n e rc fc tn oc br => (3, [(12, 1, p + 128 * [SegmentKind.period, .break'].idxOf k), (13, 2, n), (15, 3, e),
            (18, 3, rc), (21, 3, fc), (24, 2, min tn 65535), (26, 3, oc), (29, 3, br)])
        | .runBegin src st f => (4, [(12, 1, 0), (13, 1, src), (14, 1, [EntryStatus.whole, .missing, .torn, .starved].idxOf st),
            (16, 6, f.toNat), (22, 4, 1)])
        | .runEnd src stopped f n => (4, [(12, 1, 1), (13, 1, src), (14, 1, stopped.toNat), (16, 6, f.toNat), (22, 4, n)])
        | .clipMarked c src n f l => (5, [(12, 1, 0), (13, 1, 0), (14, 1, c), (15, 1, src), (16, 2, n), (18, 6, f.toNat),
            (24, 6, l.toNat)])
        | .clipDropped released c src n => (5, [(12, 1, 1), (13, 1, released.toNat), (14, 1, c), (15, 1, src), (16, 2, n)])
        | .playout ch c act back p f => (6, [(12, 1, [ChannelId.a, .b].idxOf ch), (13, 1, c),
            (14, 1, [EndAction.hold, .loop, .release].idxOf act), (15, 1, back.toNat), (16, 2, p), (18, 6, f.toNat)])
        | .periodEnd p d f => (7, [(12, 1, 0), (13, 1, p), (14, 1, [Direction.down, .up].idxOf d), (16, 6, f.toNat)])
        | .playExpiry f => (7, [(12, 1, 1), (16, 6, f.toNat)])
        | .penaltyDone team player f => (7, [(12, 1, 2), (13, 1, team), (14, 1, player), (16, 6, f.toNat)])
        | .feature z e p l x => (8, [(12, 1, z), (13, 1, e), (14, 1, p), (15, 1, l),
            (16, 1, [DropReason.queueFull, .notShowable, .zoneClosed].idxOf x)])
        | .message i st n f => (9, [(12, 2, i), (14, 1, [FinalState.done, .rejected, .withdrawn, .expired].idxOf st), (15, 1, n),
            (16, 6, f.toNat)])
      LaidOut (reportBytes r sequence lost frame) 32
        ([(0, 4, sequence.toNat), (4, 2, payload.1), (6, 2, lost), (8, 4, frame.toNat)] ++ payload.2)) ∧
    (∀ p : StatusParts,
      let k := s.timing.clock
      let channel := fun x : ChannelState => [ChannelState.idle, .cued, .playing, .paused, .held].idxOf x
      LaidOut (statusBytes s p) 256
        ([(0, 8, p.frame.toNat), (8, 4, s.reader.consumer.toNat), (12, 4, s.writer.producer.toNat), (16, 4, k.value),
          (20, 1, [RunState.stopped, .running, .expired].idxOf k.run), (21, 1, [Direction.down, .up].idxOf k.direction),
          (22, 1, k.period), (24, 4, s.timing.play.value), (28, 2, s.timing.team0.score), (30, 2, s.timing.team1.score),
          (32, 1, s.timing.team0.timeouts), (33, 1, s.timing.team1.timeouts)] ++
        (List.range 8).map (fun z => (36 + z, 1, (p.sponsors.getD z none).getD 255)) ++
        [(44, 1, channel p.channelA.state), (46, 2, p.channelA.position), (48, 1, channel p.channelB.state),
          (50, 2, p.channelB.position)] ++
        (List.range 4).map (fun i =>
          (52 + i, 1, [SourceState.stopped, .armed, .capturing, .starved].idxOf (p.capture.sources.getD i .stopped))) ++
        [(56, 2, p.capture.free), (60, 4, p.ticker.getD 4294967295), (248, 8, p.frame.toNat)]))

/-- RESET_UNITS (R58, R102, R125, R141, R154, R172, R179): its five parts, the EXPOSURE reports of the close, the five units at their
power-on values, and all that a control reset keeps. A RESET_UNITS that the Command Reader carries out reaches each unit as an arrival
of its own, in R179's order: each row of the command makes the next one, and COMMAND_END those still to make (log 36); a row given
directly makes all five (log 3). The numbers the model gives to the next feature and render job go on (log 33). -/
def Obligations.ControlReset : Prop :=
  ∀ s : State,
    let begun := ∃ ps x y, s.reader.stage = .reaching .resetUnits ps x y
    let rotated := fun (t : State) (reports : List Report) =>
      t.rotation = { State.reset.rotation with nextArrival := s.rotation.nextArrival } ∧ ReportsSent s t reports ∧
      reports = (List.range 32).filterMap fun n =>
        let p := s.rotation.sponsor n
        if 1 ≤ p.level ∨ 0 < p.rotationCredit + p.featureCredit then
          some (.exposure n s.rotation.segment.kind s.rotation.segment.number s.rotation.segment.elapsed p.rotationCredit
            p.featureCredit p.turns p.occluded p.broken)
        else none
    let rendered := fun t : State =>
      t.render = { State.reset.render with overlay := s.render.overlay, nextJob := s.render.nextJob } ∧
      t.scheduler = { s.scheduler with waiters := t.scheduler.waiters } ∧
      ∀ u, u ≠ .render → (u ∈ t.scheduler.waiters ↔ u ∈ s.scheduler.waiters)
    let captured := fun t : State =>
      t.capture.pool = s.capture.pool ∧ (∀ n, t.capture.clip n = none) ∧
      t.capture.free = List.range s.capture.slots ∧ t.capture.refs = List.replicate s.capture.slots 0 ∧
      ∀ i, t.capture.source i = { State.reset.capture.source 0 with config := (s.capture.source i).config }
    let reaches := fun (part : CommandPart) (changed : List Part) (effect : State → Prop) =>
      ∀ ps x y, s.reader.stage = .reaching .resetUnits (part :: ps) x y →
        ∃ t, Completes .resetUnits (.reader :: changed) s t ∧ effect t ∧
          (ps ≠ [] → t.reader = { s.reader with stage := .reaching .resetUnits ps x y }) ∧
          (ps = [] → t.reader = { s.reader with stage := .ended (.done x y), lastResult := some (.done x y) })
    (¬ begun → s.reader.stage ≠ .carrying .resetUnits →
      ∃ t reports, Does .resetUnits s 0 0 t ∧
        Frame [.reader, .rotation, .render, .playout, .capture, .messages, .scheduler, .transit] s t ∧
        rotated t reports ∧ rendered t ∧ t.playout = State.reset.playout ∧ captured t ∧ t.messages = State.reset.messages) ∧
    (s.reader.stage = .carrying .resetUnits →
      ∃ t reports, Completes .resetUnits [.reader, .rotation, .transit] s t ∧ rotated t reports ∧
        t.reader = { s.reader with
          stage := .reaching .resetUnits [.resetRender, .resetPlayout, .resetCapture, .resetMessages] 0 0 }) ∧
    reaches .resetRender [.render, .scheduler] rendered ∧
    reaches .resetPlayout [.playout] (fun t => t.playout = State.reset.playout) ∧
    reaches .resetCapture [.capture] captured ∧
    reaches .resetMessages [.messages] (fun t => t.messages = State.reset.messages) ∧
    (∀ part ps x y t, s.reader.stage = .reaching .resetUnits (part :: ps) x y → exec .resetUnits s = .next t →
      exec .commandEnd s = exec .commandEnd t)
end

