-- ==== Sys2Proof/Laws/Areas.lean ====
section
/-! SUPPORT. Areas of frame DRAM: two areas overlap when they share a byte, and what the part owns (R6). -/

namespace Sys2Proof.Machine

open Sys2Proof

/-- Two areas overlap exactly when some byte lies in both. -/
theorem overlaps_iff (a n b m : Nat) : overlaps a n b m = true ↔ ∃ k, a ≤ k ∧ k < a + n ∧ b ≤ k ∧ k < b + m := by
  unfold overlaps
  simp only [Bool.and_eq_true, decide_eq_true_eq]
  constructor
  · rintro ⟨⟨⟨h1, h2⟩, h3⟩, h4⟩
    exact ⟨max a b, by omega, by omega, by omega, by omega⟩
  · rintro ⟨k, h1, h2, h3, h4⟩
    omega

/-- The overlay store is touched exactly when some byte of the area is in it (R40). -/
theorem hitsOverlay_iff (s : State) (a n : Nat) :
    s.hitsOverlay a n = true ↔
      ∃ k, a ≤ k ∧ k < a + n ∧ ∃ o, s.render.overlay = some o ∧ o ≤ k ∧ k < o + Config.overlayBytes := by
  unfold State.hitsOverlay
  cases ho : s.render.overlay with
  | none => simp
  | some o => simp only [overlaps_iff, Option.some.injEq, exists_eq_left']

/-- The replay store is touched exactly when some byte of the area is in it (R104). -/
theorem hitsPool_iff (s : State) (a n : Nat) :
    s.hitsPool a n = true ↔
      ∃ k, a ≤ k ∧ k < a + n ∧ ∃ p, s.capture.pool = some p ∧ p.base ≤ k ∧ k < p.base + p.bytes := by
  unfold State.hitsPool
  cases hp : s.capture.pool with
  | none => simp
  | some p => simp only [overlaps_iff, Option.some.injEq, exists_eq_left']

/-- A part-owned area is touched exactly when some byte of the area is the part's (R6). -/
theorem hitsOwned_iff (s : State) (a n : Nat) : s.hitsOwned a n = true ↔ ∃ k, a ≤ k ∧ k < a + n ∧ s.owns k := by
  have ho : Config.overlayBytes = 134217728 := rfl
  have hp : ∀ p : Pool, p.bytes = p.count * p.stride := fun _ => rfl
  have hr : s.apertureBase + 32768 + 32768 = s.apertureBase + 65536 := Nat.add_assoc _ _ _
  unfold State.hitsOwned State.owns
  simp only [Bool.or_eq_true, overlaps_iff, hitsOverlay_iff, hitsPool_iff, ho, hp, hr]
  constructor
  · rintro (((⟨k, h1, h2, h3, h4⟩ | ⟨k, h1, h2, h3, h4⟩) | ⟨k, h1, h2, h⟩) | ⟨k, h1, h2, h⟩)
    · exact ⟨k, h1, h2, .inl ⟨h3, h4⟩⟩
    · exact ⟨k, h1, h2, .inr (.inl ⟨h3, h4⟩)⟩
    · exact ⟨k, h1, h2, .inr (.inr (.inl h))⟩
    · exact ⟨k, h1, h2, .inr (.inr (.inr h))⟩
  · rintro ⟨k, h1, h2, h | h | h | h⟩
    · exact .inl (.inl (.inl ⟨k, h1, h2, h.1, h.2⟩))
    · exact .inl (.inl (.inr ⟨k, h1, h2, h.1, h.2⟩))
    · exact .inl (.inr ⟨k, h1, h2, h⟩)
    · exact .inr ⟨k, h1, h2, h⟩

/-- Two rectangles meet exactly when they share a pixel (R88). -/
theorem meets_iff (p q : Rect) :
    p.meets q = true ↔ ∃ line column, p.holds line column = true ∧ q.holds line column = true := by
  unfold Rect.meets Rect.holds
  simp only [Bool.and_eq_true, decide_eq_true_eq, overlaps_iff]
  constructor
  · rintro ⟨⟨c, h1, h2, h3, h4⟩, l, k1, k2, k3, k4⟩
    exact ⟨l, c, by omega, by omega⟩
  · rintro ⟨l, c, h, k⟩
    exact ⟨⟨c, by omega, by omega, by omega, by omega⟩, l, by omega, by omega, by omega, by omega⟩

end Sys2Proof.Machine
end

