-- ==== Sys2Proof/Laws/State.lean ====
section
/-! SUPPORT. What each update of a unit does to each field of the state: one lemma per field per update, true by unfolding
the update. -/

namespace Sys2Proof.Machine

open Sys2Proof

/-! ### setPort -/

@[simp] theorem State.setPort_lines (s : State) (v : FabricPort) : (s.setPort v).lines = s.lines := rfl
@[simp] theorem State.setPort_port (s : State) (v : FabricPort) : (s.setPort v).port = v := rfl
@[simp] theorem State.setPort_classifier (s : State) (v : FabricPort) : (s.setPort v).classifier = s.classifier := rfl
@[simp] theorem State.setPort_compositor (s : State) (v : FabricPort) : (s.setPort v).compositor = s.compositor := rfl
@[simp] theorem State.setPort_render (s : State) (v : FabricPort) : (s.setPort v).render = s.render := rfl
@[simp] theorem State.setPort_timing (s : State) (v : FabricPort) : (s.setPort v).timing = s.timing := rfl
@[simp] theorem State.setPort_rotation (s : State) (v : FabricPort) : (s.setPort v).rotation = s.rotation := rfl
@[simp] theorem State.setPort_capture (s : State) (v : FabricPort) : (s.setPort v).capture = s.capture := rfl
@[simp] theorem State.setPort_playout (s : State) (v : FabricPort) : (s.setPort v).playout = s.playout := rfl
@[simp] theorem State.setPort_messages (s : State) (v : FabricPort) : (s.setPort v).messages = s.messages := rfl
@[simp] theorem State.setPort_scheduler (s : State) (v : FabricPort) : (s.setPort v).scheduler = s.scheduler := rfl
@[simp] theorem State.setPort_reader (s : State) (v : FabricPort) : (s.setPort v).reader = s.reader := rfl
@[simp] theorem State.setPort_writer (s : State) (v : FabricPort) : (s.setPort v).writer = s.writer := rfl
@[simp] theorem State.setPort_transit (s : State) (v : FabricPort) : (s.setPort v).transit = s.transit := rfl
@[simp] theorem State.setPort_mem (s : State) (v : FabricPort) : (s.setPort v).mem = s.mem := rfl
@[simp] theorem State.setPort_powerOns (s : State) (v : FabricPort) : (s.setPort v).powerOns = s.powerOns := rfl
@[simp] theorem State.setPort_pending (s : State) (v : FabricPort) : (s.setPort v).pending = s.pending := rfl
@[simp] theorem State.setPort_byteAt (s : State) (v : FabricPort) (a : Nat) : (s.setPort v).byteAt a = s.byteAt a := rfl

/-! ### setClassifier -/

@[simp] theorem State.setClassifier_lines (s : State) (v : Classifier) : (s.setClassifier v).lines = s.lines := rfl
@[simp] theorem State.setClassifier_port (s : State) (v : Classifier) : (s.setClassifier v).port = s.port := rfl
@[simp] theorem State.setClassifier_classifier (s : State) (v : Classifier) : (s.setClassifier v).classifier = v := rfl
@[simp] theorem State.setClassifier_compositor (s : State) (v : Classifier) : (s.setClassifier v).compositor = s.compositor := rfl
@[simp] theorem State.setClassifier_render (s : State) (v : Classifier) : (s.setClassifier v).render = s.render := rfl
@[simp] theorem State.setClassifier_timing (s : State) (v : Classifier) : (s.setClassifier v).timing = s.timing := rfl
@[simp] theorem State.setClassifier_rotation (s : State) (v : Classifier) : (s.setClassifier v).rotation = s.rotation := rfl
@[simp] theorem State.setClassifier_capture (s : State) (v : Classifier) : (s.setClassifier v).capture = s.capture := rfl
@[simp] theorem State.setClassifier_playout (s : State) (v : Classifier) : (s.setClassifier v).playout = s.playout := rfl
@[simp] theorem State.setClassifier_messages (s : State) (v : Classifier) : (s.setClassifier v).messages = s.messages := rfl
@[simp] theorem State.setClassifier_scheduler (s : State) (v : Classifier) : (s.setClassifier v).scheduler = s.scheduler := rfl
@[simp] theorem State.setClassifier_reader (s : State) (v : Classifier) : (s.setClassifier v).reader = s.reader := rfl
@[simp] theorem State.setClassifier_writer (s : State) (v : Classifier) : (s.setClassifier v).writer = s.writer := rfl
@[simp] theorem State.setClassifier_transit (s : State) (v : Classifier) : (s.setClassifier v).transit = s.transit := rfl
@[simp] theorem State.setClassifier_mem (s : State) (v : Classifier) : (s.setClassifier v).mem = s.mem := rfl
@[simp] theorem State.setClassifier_powerOns (s : State) (v : Classifier) : (s.setClassifier v).powerOns = s.powerOns := rfl
@[simp] theorem State.setClassifier_pending (s : State) (v : Classifier) : (s.setClassifier v).pending = s.pending := rfl
@[simp] theorem State.setClassifier_byteAt (s : State) (v : Classifier) (a : Nat) : (s.setClassifier v).byteAt a = s.byteAt a := rfl

/-! ### setCompositor -/

@[simp] theorem State.setCompositor_lines (s : State) (v : Compositor) : (s.setCompositor v).lines = s.lines := rfl
@[simp] theorem State.setCompositor_port (s : State) (v : Compositor) : (s.setCompositor v).port = s.port := rfl
@[simp] theorem State.setCompositor_classifier (s : State) (v : Compositor) : (s.setCompositor v).classifier = s.classifier := rfl
@[simp] theorem State.setCompositor_compositor (s : State) (v : Compositor) : (s.setCompositor v).compositor = v := rfl
@[simp] theorem State.setCompositor_render (s : State) (v : Compositor) : (s.setCompositor v).render = s.render := rfl
@[simp] theorem State.setCompositor_timing (s : State) (v : Compositor) : (s.setCompositor v).timing = s.timing := rfl
@[simp] theorem State.setCompositor_rotation (s : State) (v : Compositor) : (s.setCompositor v).rotation = s.rotation := rfl
@[simp] theorem State.setCompositor_capture (s : State) (v : Compositor) : (s.setCompositor v).capture = s.capture := rfl
@[simp] theorem State.setCompositor_playout (s : State) (v : Compositor) : (s.setCompositor v).playout = s.playout := rfl
@[simp] theorem State.setCompositor_messages (s : State) (v : Compositor) : (s.setCompositor v).messages = s.messages := rfl
@[simp] theorem State.setCompositor_scheduler (s : State) (v : Compositor) : (s.setCompositor v).scheduler = s.scheduler := rfl
@[simp] theorem State.setCompositor_reader (s : State) (v : Compositor) : (s.setCompositor v).reader = s.reader := rfl
@[simp] theorem State.setCompositor_writer (s : State) (v : Compositor) : (s.setCompositor v).writer = s.writer := rfl
@[simp] theorem State.setCompositor_transit (s : State) (v : Compositor) : (s.setCompositor v).transit = s.transit := rfl
@[simp] theorem State.setCompositor_mem (s : State) (v : Compositor) : (s.setCompositor v).mem = s.mem := rfl
@[simp] theorem State.setCompositor_powerOns (s : State) (v : Compositor) : (s.setCompositor v).powerOns = s.powerOns := rfl
@[simp] theorem State.setCompositor_pending (s : State) (v : Compositor) : (s.setCompositor v).pending = s.pending := rfl
@[simp] theorem State.setCompositor_byteAt (s : State) (v : Compositor) (a : Nat) : (s.setCompositor v).byteAt a = s.byteAt a := rfl

/-! ### setRender -/

@[simp] theorem State.setRender_lines (s : State) (v : RenderEngine) : (s.setRender v).lines = s.lines := rfl
@[simp] theorem State.setRender_port (s : State) (v : RenderEngine) : (s.setRender v).port = s.port := rfl
@[simp] theorem State.setRender_classifier (s : State) (v : RenderEngine) : (s.setRender v).classifier = s.classifier := rfl
@[simp] theorem State.setRender_compositor (s : State) (v : RenderEngine) : (s.setRender v).compositor = s.compositor := rfl
@[simp] theorem State.setRender_render (s : State) (v : RenderEngine) : (s.setRender v).render = v := rfl
@[simp] theorem State.setRender_timing (s : State) (v : RenderEngine) : (s.setRender v).timing = s.timing := rfl
@[simp] theorem State.setRender_rotation (s : State) (v : RenderEngine) : (s.setRender v).rotation = s.rotation := rfl
@[simp] theorem State.setRender_capture (s : State) (v : RenderEngine) : (s.setRender v).capture = s.capture := rfl
@[simp] theorem State.setRender_playout (s : State) (v : RenderEngine) : (s.setRender v).playout = s.playout := rfl
@[simp] theorem State.setRender_messages (s : State) (v : RenderEngine) : (s.setRender v).messages = s.messages := rfl
@[simp] theorem State.setRender_scheduler (s : State) (v : RenderEngine) : (s.setRender v).scheduler = s.scheduler := rfl
@[simp] theorem State.setRender_reader (s : State) (v : RenderEngine) : (s.setRender v).reader = s.reader := rfl
@[simp] theorem State.setRender_writer (s : State) (v : RenderEngine) : (s.setRender v).writer = s.writer := rfl
@[simp] theorem State.setRender_transit (s : State) (v : RenderEngine) : (s.setRender v).transit = s.transit := rfl
@[simp] theorem State.setRender_mem (s : State) (v : RenderEngine) : (s.setRender v).mem = s.mem := rfl
@[simp] theorem State.setRender_powerOns (s : State) (v : RenderEngine) : (s.setRender v).powerOns = s.powerOns := rfl
@[simp] theorem State.setRender_pending (s : State) (v : RenderEngine) : (s.setRender v).pending = s.pending := rfl
@[simp] theorem State.setRender_byteAt (s : State) (v : RenderEngine) (a : Nat) : (s.setRender v).byteAt a = s.byteAt a := rfl

/-! ### setTiming -/

@[simp] theorem State.setTiming_lines (s : State) (v : TimingUnit) : (s.setTiming v).lines = s.lines := rfl
@[simp] theorem State.setTiming_port (s : State) (v : TimingUnit) : (s.setTiming v).port = s.port := rfl
@[simp] theorem State.setTiming_classifier (s : State) (v : TimingUnit) : (s.setTiming v).classifier = s.classifier := rfl
@[simp] theorem State.setTiming_compositor (s : State) (v : TimingUnit) : (s.setTiming v).compositor = s.compositor := rfl
@[simp] theorem State.setTiming_render (s : State) (v : TimingUnit) : (s.setTiming v).render = s.render := rfl
@[simp] theorem State.setTiming_timing (s : State) (v : TimingUnit) : (s.setTiming v).timing = v := rfl
@[simp] theorem State.setTiming_rotation (s : State) (v : TimingUnit) : (s.setTiming v).rotation = s.rotation := rfl
@[simp] theorem State.setTiming_capture (s : State) (v : TimingUnit) : (s.setTiming v).capture = s.capture := rfl
@[simp] theorem State.setTiming_playout (s : State) (v : TimingUnit) : (s.setTiming v).playout = s.playout := rfl
@[simp] theorem State.setTiming_messages (s : State) (v : TimingUnit) : (s.setTiming v).messages = s.messages := rfl
@[simp] theorem State.setTiming_scheduler (s : State) (v : TimingUnit) : (s.setTiming v).scheduler = s.scheduler := rfl
@[simp] theorem State.setTiming_reader (s : State) (v : TimingUnit) : (s.setTiming v).reader = s.reader := rfl
@[simp] theorem State.setTiming_writer (s : State) (v : TimingUnit) : (s.setTiming v).writer = s.writer := rfl
@[simp] theorem State.setTiming_transit (s : State) (v : TimingUnit) : (s.setTiming v).transit = s.transit := rfl
@[simp] theorem State.setTiming_mem (s : State) (v : TimingUnit) : (s.setTiming v).mem = s.mem := rfl
@[simp] theorem State.setTiming_powerOns (s : State) (v : TimingUnit) : (s.setTiming v).powerOns = s.powerOns := rfl
@[simp] theorem State.setTiming_pending (s : State) (v : TimingUnit) : (s.setTiming v).pending = s.pending := rfl
@[simp] theorem State.setTiming_byteAt (s : State) (v : TimingUnit) (a : Nat) : (s.setTiming v).byteAt a = s.byteAt a := rfl

/-! ### setRotation -/

@[simp] theorem State.setRotation_lines (s : State) (v : RotationUnit) : (s.setRotation v).lines = s.lines := rfl
@[simp] theorem State.setRotation_port (s : State) (v : RotationUnit) : (s.setRotation v).port = s.port := rfl
@[simp] theorem State.setRotation_classifier (s : State) (v : RotationUnit) : (s.setRotation v).classifier = s.classifier := rfl
@[simp] theorem State.setRotation_compositor (s : State) (v : RotationUnit) : (s.setRotation v).compositor = s.compositor := rfl
@[simp] theorem State.setRotation_render (s : State) (v : RotationUnit) : (s.setRotation v).render = s.render := rfl
@[simp] theorem State.setRotation_timing (s : State) (v : RotationUnit) : (s.setRotation v).timing = s.timing := rfl
@[simp] theorem State.setRotation_rotation (s : State) (v : RotationUnit) : (s.setRotation v).rotation = v := rfl
@[simp] theorem State.setRotation_capture (s : State) (v : RotationUnit) : (s.setRotation v).capture = s.capture := rfl
@[simp] theorem State.setRotation_playout (s : State) (v : RotationUnit) : (s.setRotation v).playout = s.playout := rfl
@[simp] theorem State.setRotation_messages (s : State) (v : RotationUnit) : (s.setRotation v).messages = s.messages := rfl
@[simp] theorem State.setRotation_scheduler (s : State) (v : RotationUnit) : (s.setRotation v).scheduler = s.scheduler := rfl
@[simp] theorem State.setRotation_reader (s : State) (v : RotationUnit) : (s.setRotation v).reader = s.reader := rfl
@[simp] theorem State.setRotation_writer (s : State) (v : RotationUnit) : (s.setRotation v).writer = s.writer := rfl
@[simp] theorem State.setRotation_transit (s : State) (v : RotationUnit) : (s.setRotation v).transit = s.transit := rfl
@[simp] theorem State.setRotation_mem (s : State) (v : RotationUnit) : (s.setRotation v).mem = s.mem := rfl
@[simp] theorem State.setRotation_powerOns (s : State) (v : RotationUnit) : (s.setRotation v).powerOns = s.powerOns := rfl
@[simp] theorem State.setRotation_pending (s : State) (v : RotationUnit) : (s.setRotation v).pending = s.pending := rfl
@[simp] theorem State.setRotation_byteAt (s : State) (v : RotationUnit) (a : Nat) : (s.setRotation v).byteAt a = s.byteAt a := rfl

/-! ### setCapture -/

@[simp] theorem State.setCapture_lines (s : State) (v : CaptureUnit) : (s.setCapture v).lines = s.lines := rfl
@[simp] theorem State.setCapture_port (s : State) (v : CaptureUnit) : (s.setCapture v).port = s.port := rfl
@[simp] theorem State.setCapture_classifier (s : State) (v : CaptureUnit) : (s.setCapture v).classifier = s.classifier := rfl
@[simp] theorem State.setCapture_compositor (s : State) (v : CaptureUnit) : (s.setCapture v).compositor = s.compositor := rfl
@[simp] theorem State.setCapture_render (s : State) (v : CaptureUnit) : (s.setCapture v).render = s.render := rfl
@[simp] theorem State.setCapture_timing (s : State) (v : CaptureUnit) : (s.setCapture v).timing = s.timing := rfl
@[simp] theorem State.setCapture_rotation (s : State) (v : CaptureUnit) : (s.setCapture v).rotation = s.rotation := rfl
@[simp] theorem State.setCapture_capture (s : State) (v : CaptureUnit) : (s.setCapture v).capture = v := rfl
@[simp] theorem State.setCapture_playout (s : State) (v : CaptureUnit) : (s.setCapture v).playout = s.playout := rfl
@[simp] theorem State.setCapture_messages (s : State) (v : CaptureUnit) : (s.setCapture v).messages = s.messages := rfl
@[simp] theorem State.setCapture_scheduler (s : State) (v : CaptureUnit) : (s.setCapture v).scheduler = s.scheduler := rfl
@[simp] theorem State.setCapture_reader (s : State) (v : CaptureUnit) : (s.setCapture v).reader = s.reader := rfl
@[simp] theorem State.setCapture_writer (s : State) (v : CaptureUnit) : (s.setCapture v).writer = s.writer := rfl
@[simp] theorem State.setCapture_transit (s : State) (v : CaptureUnit) : (s.setCapture v).transit = s.transit := rfl
@[simp] theorem State.setCapture_mem (s : State) (v : CaptureUnit) : (s.setCapture v).mem = s.mem := rfl
@[simp] theorem State.setCapture_powerOns (s : State) (v : CaptureUnit) : (s.setCapture v).powerOns = s.powerOns := rfl
@[simp] theorem State.setCapture_pending (s : State) (v : CaptureUnit) : (s.setCapture v).pending = s.pending := rfl
@[simp] theorem State.setCapture_byteAt (s : State) (v : CaptureUnit) (a : Nat) : (s.setCapture v).byteAt a = s.byteAt a := rfl

/-! ### setPlayout -/

@[simp] theorem State.setPlayout_lines (s : State) (v : PlayoutUnit) : (s.setPlayout v).lines = s.lines := rfl
@[simp] theorem State.setPlayout_port (s : State) (v : PlayoutUnit) : (s.setPlayout v).port = s.port := rfl
@[simp] theorem State.setPlayout_classifier (s : State) (v : PlayoutUnit) : (s.setPlayout v).classifier = s.classifier := rfl
@[simp] theorem State.setPlayout_compositor (s : State) (v : PlayoutUnit) : (s.setPlayout v).compositor = s.compositor := rfl
@[simp] theorem State.setPlayout_render (s : State) (v : PlayoutUnit) : (s.setPlayout v).render = s.render := rfl
@[simp] theorem State.setPlayout_timing (s : State) (v : PlayoutUnit) : (s.setPlayout v).timing = s.timing := rfl
@[simp] theorem State.setPlayout_rotation (s : State) (v : PlayoutUnit) : (s.setPlayout v).rotation = s.rotation := rfl
@[simp] theorem State.setPlayout_capture (s : State) (v : PlayoutUnit) : (s.setPlayout v).capture = s.capture := rfl
@[simp] theorem State.setPlayout_playout (s : State) (v : PlayoutUnit) : (s.setPlayout v).playout = v := rfl
@[simp] theorem State.setPlayout_messages (s : State) (v : PlayoutUnit) : (s.setPlayout v).messages = s.messages := rfl
@[simp] theorem State.setPlayout_scheduler (s : State) (v : PlayoutUnit) : (s.setPlayout v).scheduler = s.scheduler := rfl
@[simp] theorem State.setPlayout_reader (s : State) (v : PlayoutUnit) : (s.setPlayout v).reader = s.reader := rfl
@[simp] theorem State.setPlayout_writer (s : State) (v : PlayoutUnit) : (s.setPlayout v).writer = s.writer := rfl
@[simp] theorem State.setPlayout_transit (s : State) (v : PlayoutUnit) : (s.setPlayout v).transit = s.transit := rfl
@[simp] theorem State.setPlayout_mem (s : State) (v : PlayoutUnit) : (s.setPlayout v).mem = s.mem := rfl
@[simp] theorem State.setPlayout_powerOns (s : State) (v : PlayoutUnit) : (s.setPlayout v).powerOns = s.powerOns := rfl
@[simp] theorem State.setPlayout_pending (s : State) (v : PlayoutUnit) : (s.setPlayout v).pending = s.pending := rfl
@[simp] theorem State.setPlayout_byteAt (s : State) (v : PlayoutUnit) (a : Nat) : (s.setPlayout v).byteAt a = s.byteAt a := rfl

/-! ### setMessages -/

@[simp] theorem State.setMessages_lines (s : State) (v : MessageUnit) : (s.setMessages v).lines = s.lines := rfl
@[simp] theorem State.setMessages_port (s : State) (v : MessageUnit) : (s.setMessages v).port = s.port := rfl
@[simp] theorem State.setMessages_classifier (s : State) (v : MessageUnit) : (s.setMessages v).classifier = s.classifier := rfl
@[simp] theorem State.setMessages_compositor (s : State) (v : MessageUnit) : (s.setMessages v).compositor = s.compositor := rfl
@[simp] theorem State.setMessages_render (s : State) (v : MessageUnit) : (s.setMessages v).render = s.render := rfl
@[simp] theorem State.setMessages_timing (s : State) (v : MessageUnit) : (s.setMessages v).timing = s.timing := rfl
@[simp] theorem State.setMessages_rotation (s : State) (v : MessageUnit) : (s.setMessages v).rotation = s.rotation := rfl
@[simp] theorem State.setMessages_capture (s : State) (v : MessageUnit) : (s.setMessages v).capture = s.capture := rfl
@[simp] theorem State.setMessages_playout (s : State) (v : MessageUnit) : (s.setMessages v).playout = s.playout := rfl
@[simp] theorem State.setMessages_messages (s : State) (v : MessageUnit) : (s.setMessages v).messages = v := rfl
@[simp] theorem State.setMessages_scheduler (s : State) (v : MessageUnit) : (s.setMessages v).scheduler = s.scheduler := rfl
@[simp] theorem State.setMessages_reader (s : State) (v : MessageUnit) : (s.setMessages v).reader = s.reader := rfl
@[simp] theorem State.setMessages_writer (s : State) (v : MessageUnit) : (s.setMessages v).writer = s.writer := rfl
@[simp] theorem State.setMessages_transit (s : State) (v : MessageUnit) : (s.setMessages v).transit = s.transit := rfl
@[simp] theorem State.setMessages_mem (s : State) (v : MessageUnit) : (s.setMessages v).mem = s.mem := rfl
@[simp] theorem State.setMessages_powerOns (s : State) (v : MessageUnit) : (s.setMessages v).powerOns = s.powerOns := rfl
@[simp] theorem State.setMessages_pending (s : State) (v : MessageUnit) : (s.setMessages v).pending = s.pending := rfl
@[simp] theorem State.setMessages_byteAt (s : State) (v : MessageUnit) (a : Nat) : (s.setMessages v).byteAt a = s.byteAt a := rfl

/-! ### setScheduler -/

@[simp] theorem State.setScheduler_lines (s : State) (v : Scheduler) : (s.setScheduler v).lines = s.lines := rfl
@[simp] theorem State.setScheduler_port (s : State) (v : Scheduler) : (s.setScheduler v).port = s.port := rfl
@[simp] theorem State.setScheduler_classifier (s : State) (v : Scheduler) : (s.setScheduler v).classifier = s.classifier := rfl
@[simp] theorem State.setScheduler_compositor (s : State) (v : Scheduler) : (s.setScheduler v).compositor = s.compositor := rfl
@[simp] theorem State.setScheduler_render (s : State) (v : Scheduler) : (s.setScheduler v).render = s.render := rfl
@[simp] theorem State.setScheduler_timing (s : State) (v : Scheduler) : (s.setScheduler v).timing = s.timing := rfl
@[simp] theorem State.setScheduler_rotation (s : State) (v : Scheduler) : (s.setScheduler v).rotation = s.rotation := rfl
@[simp] theorem State.setScheduler_capture (s : State) (v : Scheduler) : (s.setScheduler v).capture = s.capture := rfl
@[simp] theorem State.setScheduler_playout (s : State) (v : Scheduler) : (s.setScheduler v).playout = s.playout := rfl
@[simp] theorem State.setScheduler_messages (s : State) (v : Scheduler) : (s.setScheduler v).messages = s.messages := rfl
@[simp] theorem State.setScheduler_scheduler (s : State) (v : Scheduler) : (s.setScheduler v).scheduler = v := rfl
@[simp] theorem State.setScheduler_reader (s : State) (v : Scheduler) : (s.setScheduler v).reader = s.reader := rfl
@[simp] theorem State.setScheduler_writer (s : State) (v : Scheduler) : (s.setScheduler v).writer = s.writer := rfl
@[simp] theorem State.setScheduler_transit (s : State) (v : Scheduler) : (s.setScheduler v).transit = s.transit := rfl
@[simp] theorem State.setScheduler_mem (s : State) (v : Scheduler) : (s.setScheduler v).mem = s.mem := rfl
@[simp] theorem State.setScheduler_powerOns (s : State) (v : Scheduler) : (s.setScheduler v).powerOns = s.powerOns := rfl
@[simp] theorem State.setScheduler_pending (s : State) (v : Scheduler) : (s.setScheduler v).pending = s.pending := rfl
@[simp] theorem State.setScheduler_byteAt (s : State) (v : Scheduler) (a : Nat) : (s.setScheduler v).byteAt a = s.byteAt a := rfl

/-! ### setReader -/

@[simp] theorem State.setReader_lines (s : State) (v : CommandReader) : (s.setReader v).lines = s.lines := rfl
@[simp] theorem State.setReader_port (s : State) (v : CommandReader) : (s.setReader v).port = s.port := rfl
@[simp] theorem State.setReader_classifier (s : State) (v : CommandReader) : (s.setReader v).classifier = s.classifier := rfl
@[simp] theorem State.setReader_compositor (s : State) (v : CommandReader) : (s.setReader v).compositor = s.compositor := rfl
@[simp] theorem State.setReader_render (s : State) (v : CommandReader) : (s.setReader v).render = s.render := rfl
@[simp] theorem State.setReader_timing (s : State) (v : CommandReader) : (s.setReader v).timing = s.timing := rfl
@[simp] theorem State.setReader_rotation (s : State) (v : CommandReader) : (s.setReader v).rotation = s.rotation := rfl
@[simp] theorem State.setReader_capture (s : State) (v : CommandReader) : (s.setReader v).capture = s.capture := rfl
@[simp] theorem State.setReader_playout (s : State) (v : CommandReader) : (s.setReader v).playout = s.playout := rfl
@[simp] theorem State.setReader_messages (s : State) (v : CommandReader) : (s.setReader v).messages = s.messages := rfl
@[simp] theorem State.setReader_scheduler (s : State) (v : CommandReader) : (s.setReader v).scheduler = s.scheduler := rfl
@[simp] theorem State.setReader_reader (s : State) (v : CommandReader) : (s.setReader v).reader = v := rfl
@[simp] theorem State.setReader_writer (s : State) (v : CommandReader) : (s.setReader v).writer = s.writer := rfl
@[simp] theorem State.setReader_transit (s : State) (v : CommandReader) : (s.setReader v).transit = s.transit := rfl
@[simp] theorem State.setReader_mem (s : State) (v : CommandReader) : (s.setReader v).mem = s.mem := rfl
@[simp] theorem State.setReader_powerOns (s : State) (v : CommandReader) : (s.setReader v).powerOns = s.powerOns := rfl
@[simp] theorem State.setReader_pending (s : State) (v : CommandReader) : (s.setReader v).pending = s.pending := rfl
@[simp] theorem State.setReader_byteAt (s : State) (v : CommandReader) (a : Nat) : (s.setReader v).byteAt a = s.byteAt a := rfl

/-! ### setWriter -/

@[simp] theorem State.setWriter_lines (s : State) (v : ReportWriter) : (s.setWriter v).lines = s.lines := rfl
@[simp] theorem State.setWriter_port (s : State) (v : ReportWriter) : (s.setWriter v).port = s.port := rfl
@[simp] theorem State.setWriter_classifier (s : State) (v : ReportWriter) : (s.setWriter v).classifier = s.classifier := rfl
@[simp] theorem State.setWriter_compositor (s : State) (v : ReportWriter) : (s.setWriter v).compositor = s.compositor := rfl
@[simp] theorem State.setWriter_render (s : State) (v : ReportWriter) : (s.setWriter v).render = s.render := rfl
@[simp] theorem State.setWriter_timing (s : State) (v : ReportWriter) : (s.setWriter v).timing = s.timing := rfl
@[simp] theorem State.setWriter_rotation (s : State) (v : ReportWriter) : (s.setWriter v).rotation = s.rotation := rfl
@[simp] theorem State.setWriter_capture (s : State) (v : ReportWriter) : (s.setWriter v).capture = s.capture := rfl
@[simp] theorem State.setWriter_playout (s : State) (v : ReportWriter) : (s.setWriter v).playout = s.playout := rfl
@[simp] theorem State.setWriter_messages (s : State) (v : ReportWriter) : (s.setWriter v).messages = s.messages := rfl
@[simp] theorem State.setWriter_scheduler (s : State) (v : ReportWriter) : (s.setWriter v).scheduler = s.scheduler := rfl
@[simp] theorem State.setWriter_reader (s : State) (v : ReportWriter) : (s.setWriter v).reader = s.reader := rfl
@[simp] theorem State.setWriter_writer (s : State) (v : ReportWriter) : (s.setWriter v).writer = v := rfl
@[simp] theorem State.setWriter_transit (s : State) (v : ReportWriter) : (s.setWriter v).transit = s.transit := rfl
@[simp] theorem State.setWriter_mem (s : State) (v : ReportWriter) : (s.setWriter v).mem = s.mem := rfl
@[simp] theorem State.setWriter_powerOns (s : State) (v : ReportWriter) : (s.setWriter v).powerOns = s.powerOns := rfl
@[simp] theorem State.setWriter_pending (s : State) (v : ReportWriter) : (s.setWriter v).pending = s.pending := rfl
@[simp] theorem State.setWriter_byteAt (s : State) (v : ReportWriter) (a : Nat) : (s.setWriter v).byteAt a = s.byteAt a := rfl

/-! ### setTransit -/

@[simp] theorem State.setTransit_lines (s : State) (v : Transit) : (s.setTransit v).lines = s.lines := rfl
@[simp] theorem State.setTransit_port (s : State) (v : Transit) : (s.setTransit v).port = s.port := rfl
@[simp] theorem State.setTransit_classifier (s : State) (v : Transit) : (s.setTransit v).classifier = s.classifier := rfl
@[simp] theorem State.setTransit_compositor (s : State) (v : Transit) : (s.setTransit v).compositor = s.compositor := rfl
@[simp] theorem State.setTransit_render (s : State) (v : Transit) : (s.setTransit v).render = s.render := rfl
@[simp] theorem State.setTransit_timing (s : State) (v : Transit) : (s.setTransit v).timing = s.timing := rfl
@[simp] theorem State.setTransit_rotation (s : State) (v : Transit) : (s.setTransit v).rotation = s.rotation := rfl
@[simp] theorem State.setTransit_capture (s : State) (v : Transit) : (s.setTransit v).capture = s.capture := rfl
@[simp] theorem State.setTransit_playout (s : State) (v : Transit) : (s.setTransit v).playout = s.playout := rfl
@[simp] theorem State.setTransit_messages (s : State) (v : Transit) : (s.setTransit v).messages = s.messages := rfl
@[simp] theorem State.setTransit_scheduler (s : State) (v : Transit) : (s.setTransit v).scheduler = s.scheduler := rfl
@[simp] theorem State.setTransit_reader (s : State) (v : Transit) : (s.setTransit v).reader = s.reader := rfl
@[simp] theorem State.setTransit_writer (s : State) (v : Transit) : (s.setTransit v).writer = s.writer := rfl
@[simp] theorem State.setTransit_transit (s : State) (v : Transit) : (s.setTransit v).transit = v := rfl
@[simp] theorem State.setTransit_mem (s : State) (v : Transit) : (s.setTransit v).mem = s.mem := rfl
@[simp] theorem State.setTransit_powerOns (s : State) (v : Transit) : (s.setTransit v).powerOns = s.powerOns := rfl
@[simp] theorem State.setTransit_pending (s : State) (v : Transit) : (s.setTransit v).pending = s.pending := rfl
@[simp] theorem State.setTransit_byteAt (s : State) (v : Transit) (a : Nat) : (s.setTransit v).byteAt a = s.byteAt a := rfl

/-! ### setMem -/

@[simp] theorem State.setMem_lines (s : State) (v : Memory) : (s.setMem v).lines = s.lines := rfl
@[simp] theorem State.setMem_port (s : State) (v : Memory) : (s.setMem v).port = s.port := rfl
@[simp] theorem State.setMem_classifier (s : State) (v : Memory) : (s.setMem v).classifier = s.classifier := rfl
@[simp] theorem State.setMem_compositor (s : State) (v : Memory) : (s.setMem v).compositor = s.compositor := rfl
@[simp] theorem State.setMem_render (s : State) (v : Memory) : (s.setMem v).render = s.render := rfl
@[simp] theorem State.setMem_timing (s : State) (v : Memory) : (s.setMem v).timing = s.timing := rfl
@[simp] theorem State.setMem_rotation (s : State) (v : Memory) : (s.setMem v).rotation = s.rotation := rfl
@[simp] theorem State.setMem_capture (s : State) (v : Memory) : (s.setMem v).capture = s.capture := rfl
@[simp] theorem State.setMem_playout (s : State) (v : Memory) : (s.setMem v).playout = s.playout := rfl
@[simp] theorem State.setMem_messages (s : State) (v : Memory) : (s.setMem v).messages = s.messages := rfl
@[simp] theorem State.setMem_scheduler (s : State) (v : Memory) : (s.setMem v).scheduler = s.scheduler := rfl
@[simp] theorem State.setMem_reader (s : State) (v : Memory) : (s.setMem v).reader = s.reader := rfl
@[simp] theorem State.setMem_writer (s : State) (v : Memory) : (s.setMem v).writer = s.writer := rfl
@[simp] theorem State.setMem_transit (s : State) (v : Memory) : (s.setMem v).transit = s.transit := rfl
@[simp] theorem State.setMem_mem (s : State) (v : Memory) : (s.setMem v).mem = v := rfl
@[simp] theorem State.setMem_powerOns (s : State) (v : Memory) : (s.setMem v).powerOns = s.powerOns := rfl
@[simp] theorem State.setMem_pending (s : State) (v : Memory) : (s.setMem v).pending = s.pending := rfl

/-! ### sendReports -/

@[simp] theorem State.sendReports_lines (s : State) (rs : List Report) : (s.sendReports rs).lines = s.lines := rfl
@[simp] theorem State.sendReports_port (s : State) (rs : List Report) : (s.sendReports rs).port = s.port := rfl
@[simp] theorem State.sendReports_classifier (s : State) (rs : List Report) : (s.sendReports rs).classifier = s.classifier := rfl
@[simp] theorem State.sendReports_compositor (s : State) (rs : List Report) : (s.sendReports rs).compositor = s.compositor := rfl
@[simp] theorem State.sendReports_render (s : State) (rs : List Report) : (s.sendReports rs).render = s.render := rfl
@[simp] theorem State.sendReports_timing (s : State) (rs : List Report) : (s.sendReports rs).timing = s.timing := rfl
@[simp] theorem State.sendReports_rotation (s : State) (rs : List Report) : (s.sendReports rs).rotation = s.rotation := rfl
@[simp] theorem State.sendReports_capture (s : State) (rs : List Report) : (s.sendReports rs).capture = s.capture := rfl
@[simp] theorem State.sendReports_playout (s : State) (rs : List Report) : (s.sendReports rs).playout = s.playout := rfl
@[simp] theorem State.sendReports_messages (s : State) (rs : List Report) : (s.sendReports rs).messages = s.messages := rfl
@[simp] theorem State.sendReports_scheduler (s : State) (rs : List Report) : (s.sendReports rs).scheduler = s.scheduler := rfl
@[simp] theorem State.sendReports_reader (s : State) (rs : List Report) : (s.sendReports rs).reader = s.reader := rfl
@[simp] theorem State.sendReports_writer (s : State) (rs : List Report) : (s.sendReports rs).writer = s.writer := rfl
@[simp] theorem State.sendReports_transit (s : State) (rs : List Report) : (s.sendReports rs).transit = { s.transit with reports := s.transit.reports ++ rs } := rfl
@[simp] theorem State.sendReports_mem (s : State) (rs : List Report) : (s.sendReports rs).mem = s.mem := rfl
@[simp] theorem State.sendReports_powerOns (s : State) (rs : List Report) : (s.sendReports rs).powerOns = s.powerOns := rfl
@[simp] theorem State.sendReports_pending (s : State) (rs : List Report) : (s.sendReports rs).pending = s.pending := rfl
@[simp] theorem State.sendReports_byteAt (s : State) (rs : List Report) (a : Nat) : (s.sendReports rs).byteAt a = s.byteAt a := rfl

/-! ### sendReplay -/

@[simp] theorem State.sendReplay_lines (s : State) (c : ChannelId) : (s.sendReplay c).lines = s.lines := rfl
@[simp] theorem State.sendReplay_port (s : State) (c : ChannelId) : (s.sendReplay c).port = s.port := rfl
@[simp] theorem State.sendReplay_classifier (s : State) (c : ChannelId) : (s.sendReplay c).classifier = s.classifier := rfl
@[simp] theorem State.sendReplay_compositor (s : State) (c : ChannelId) : (s.sendReplay c).compositor = s.compositor := rfl
@[simp] theorem State.sendReplay_render (s : State) (c : ChannelId) : (s.sendReplay c).render = s.render := rfl
@[simp] theorem State.sendReplay_timing (s : State) (c : ChannelId) : (s.sendReplay c).timing = s.timing := rfl
@[simp] theorem State.sendReplay_rotation (s : State) (c : ChannelId) : (s.sendReplay c).rotation = s.rotation := rfl
@[simp] theorem State.sendReplay_capture (s : State) (c : ChannelId) : (s.sendReplay c).capture = s.capture := rfl
@[simp] theorem State.sendReplay_playout (s : State) (c : ChannelId) : (s.sendReplay c).playout = s.playout := rfl
@[simp] theorem State.sendReplay_messages (s : State) (c : ChannelId) : (s.sendReplay c).messages = s.messages := rfl
@[simp] theorem State.sendReplay_scheduler (s : State) (c : ChannelId) : (s.sendReplay c).scheduler = s.scheduler := rfl
@[simp] theorem State.sendReplay_reader (s : State) (c : ChannelId) : (s.sendReplay c).reader = s.reader := rfl
@[simp] theorem State.sendReplay_writer (s : State) (c : ChannelId) : (s.sendReplay c).writer = s.writer := rfl
@[simp] theorem State.sendReplay_transit (s : State) (c : ChannelId) : (s.sendReplay c).transit = { s.transit with replays := s.transit.replays ++ [c] } := rfl
@[simp] theorem State.sendReplay_mem (s : State) (c : ChannelId) : (s.sendReplay c).mem = s.mem := rfl
@[simp] theorem State.sendReplay_powerOns (s : State) (c : ChannelId) : (s.sendReplay c).powerOns = s.powerOns := rfl
@[simp] theorem State.sendReplay_pending (s : State) (c : ChannelId) : (s.sendReplay c).pending = s.pending := rfl
@[simp] theorem State.sendReplay_byteAt (s : State) (c : ChannelId) (a : Nat) : (s.sendReplay c).byteAt a = s.byteAt a := rfl

/-! ### sendDeliveries -/

@[simp] theorem State.sendDeliveries_lines (s : State) (ds : List Delivery) : (s.sendDeliveries ds).lines = s.lines := rfl
@[simp] theorem State.sendDeliveries_port (s : State) (ds : List Delivery) : (s.sendDeliveries ds).port = s.port := rfl
@[simp] theorem State.sendDeliveries_classifier (s : State) (ds : List Delivery) : (s.sendDeliveries ds).classifier = s.classifier := rfl
@[simp] theorem State.sendDeliveries_compositor (s : State) (ds : List Delivery) : (s.sendDeliveries ds).compositor = s.compositor := rfl
@[simp] theorem State.sendDeliveries_render (s : State) (ds : List Delivery) : (s.sendDeliveries ds).render = s.render := rfl
@[simp] theorem State.sendDeliveries_timing (s : State) (ds : List Delivery) : (s.sendDeliveries ds).timing = s.timing := rfl
@[simp] theorem State.sendDeliveries_rotation (s : State) (ds : List Delivery) : (s.sendDeliveries ds).rotation = s.rotation := rfl
@[simp] theorem State.sendDeliveries_capture (s : State) (ds : List Delivery) : (s.sendDeliveries ds).capture = s.capture := rfl
@[simp] theorem State.sendDeliveries_playout (s : State) (ds : List Delivery) : (s.sendDeliveries ds).playout = s.playout := rfl
@[simp] theorem State.sendDeliveries_messages (s : State) (ds : List Delivery) : (s.sendDeliveries ds).messages = s.messages := rfl
@[simp] theorem State.sendDeliveries_scheduler (s : State) (ds : List Delivery) : (s.sendDeliveries ds).scheduler = s.scheduler := rfl
@[simp] theorem State.sendDeliveries_reader (s : State) (ds : List Delivery) : (s.sendDeliveries ds).reader = s.reader := rfl
@[simp] theorem State.sendDeliveries_writer (s : State) (ds : List Delivery) : (s.sendDeliveries ds).writer = s.writer := rfl
@[simp] theorem State.sendDeliveries_transit (s : State) (ds : List Delivery) : (s.sendDeliveries ds).transit = { s.transit with deliveries := s.transit.deliveries ++ ds } := rfl
@[simp] theorem State.sendDeliveries_mem (s : State) (ds : List Delivery) : (s.sendDeliveries ds).mem = s.mem := rfl
@[simp] theorem State.sendDeliveries_powerOns (s : State) (ds : List Delivery) : (s.sendDeliveries ds).powerOns = s.powerOns := rfl
@[simp] theorem State.sendDeliveries_pending (s : State) (ds : List Delivery) : (s.sendDeliveries ds).pending = s.pending := rfl
@[simp] theorem State.sendDeliveries_byteAt (s : State) (ds : List Delivery) (a : Nat) : (s.sendDeliveries ds).byteAt a = s.byteAt a := rfl

end Sys2Proof.Machine
end

