-- ==== Sys2Proof/Laws/Frames.lean ====
section
/-! SUPPORT. How a control command ends, and frames: what leaves every part but some as it was. -/

namespace Sys2Proof.Machine

open Sys2Proof

/-! ### How a control command ends (R172, R173) -/

@[simp] theorem CommandReader.answer_lastResult (r : CommandReader) (cmd : Instr) (res : CommandResult) :
    (r.answer cmd res).lastResult = some res := rfl
@[simp] theorem CommandReader.answer_taken (r : CommandReader) (cmd : Instr) (res : CommandResult) :
    (r.answer cmd res).taken = r.taken := rfl
@[simp] theorem CommandReader.answer_consumer (r : CommandReader) (cmd : Instr) (res : CommandResult) :
    (r.answer cmd res).consumer = r.consumer := rfl
@[simp] theorem CommandReader.answer_begun (r : CommandReader) (cmd : Instr) (res : CommandResult) :
    (r.answer cmd res).begun = r.begun := rfl
@[simp] theorem CommandReader.answer_toEnter (r : CommandReader) (cmd : Instr) (res : CommandResult) :
    (r.answer cmd res).toEnter = r.toEnter := rfl

/-- An answer leaves an idle reader idle: it ends only a command that is being carried out. -/
theorem CommandReader.answer_stage_idle (r : CommandReader) (cmd : Instr) (res : CommandResult) :
    (r.answer cmd res).stage = .idle ↔ r.stage = .idle := by
  unfold CommandReader.answer
  split <;> simp_all

/-- Everything a command can come to: refused with one change, done with two results, or still in progress. -/
theorem carryOut_cases {cmd : Instr} {s t : State} {x : Taken} (h : carryOut cmd s x = .next t) :
    (∃ r, x = .refused r ∧ t = s.setReader (s.reader.answer cmd (.refused r))) ∨
      (∃ u a b, x = .done u a b ∧ t = u.setReader (u.reader.answer cmd (.done a b))) ∨ (x = .held t) := by
  cases x with
  | refused r => exact .inl ⟨r, rfl, by simpa [carryOut] using h.symm⟩
  | done u a b => exact .inr (.inl ⟨u, a, b, rfl, by simpa [carryOut] using h.symm⟩)
  | held u => exact .inr (.inr (by simpa [carryOut] using h))

/-- A command always answers a next state. -/
theorem carryOut_next (cmd : Instr) (s : State) (x : Taken) : ∃ t, carryOut cmd s x = .next t := by
  cases x <;> exact ⟨_, rfl⟩

/-! ### Frames -/

theorem Frame.refl (ps : List Part) (s : State) : Frame ps s s := by
  intro p _
  cases p <;> simp [State.agrees]

theorem Frame.trans {ps : List Part} {s t u : State} (h : Frame ps s t) (k : Frame ps t u) : Frame ps s u := by
  intro p hp
  have h1 := h p hp
  have h2 := k p hp
  cases p <;> simp only [State.agrees] at * <;> first
    | rw [h2, h1]
    | (intro a; rw [h2 a, h1 a])

theorem Frame.mono {ps qs : List Part} {s t : State} (h : Frame ps s t) (k : ∀ p ∈ ps, p ∈ qs) : Frame qs s t :=
  fun p hp => h p fun hm => hp (k p hm)

/-- A frame, from what each part outside it reads. -/
theorem Frame.of {ps : List Part} {s t : State} (hl : Part.lines ∈ ps ∨ t.lines = s.lines)
    (hp : Part.port ∈ ps ∨ t.port = s.port) (hc : Part.classifier ∈ ps ∨ t.classifier = s.classifier)
    (hm : Part.compositor ∈ ps ∨ t.compositor = s.compositor) (hr : Part.render ∈ ps ∨ t.render = s.render)
    (ht : Part.timing ∈ ps ∨ t.timing = s.timing) (ho : Part.rotation ∈ ps ∨ t.rotation = s.rotation)
    (ha : Part.capture ∈ ps ∨ t.capture = s.capture) (hy : Part.playout ∈ ps ∨ t.playout = s.playout)
    (hg : Part.messages ∈ ps ∨ t.messages = s.messages) (hd : Part.scheduler ∈ ps ∨ t.scheduler = s.scheduler)
    (he : Part.reader ∈ ps ∨ t.reader = s.reader) (hw : Part.writer ∈ ps ∨ t.writer = s.writer)
    (hx : Part.transit ∈ ps ∨ t.transit = s.transit) (hb : Part.memory ∈ ps ∨ ∀ a, t.byteAt a = s.byteAt a)
    (hq : Part.pending ∈ ps ∨ t.pending = s.pending) : Frame ps s t := by
  intro p hn
  cases p <;> simp_all [State.agrees]

/-- An update of one unit leaves every other part as it was. -/
theorem frame_setPort (s : State) (v : FabricPort) : Frame [.port] s (s.setPort v) := by
  apply Frame.of <;> simp
theorem frame_setClassifier (s : State) (v : Classifier) : Frame [.classifier] s (s.setClassifier v) := by
  apply Frame.of <;> simp
theorem frame_setCompositor (s : State) (v : Compositor) : Frame [.compositor] s (s.setCompositor v) := by
  apply Frame.of <;> simp
theorem frame_setRender (s : State) (v : RenderEngine) : Frame [.render] s (s.setRender v) := by
  apply Frame.of <;> simp
theorem frame_setTiming (s : State) (v : TimingUnit) : Frame [.timing] s (s.setTiming v) := by
  apply Frame.of <;> simp
theorem frame_setRotation (s : State) (v : RotationUnit) : Frame [.rotation] s (s.setRotation v) := by
  apply Frame.of <;> simp
theorem frame_setCapture (s : State) (v : CaptureUnit) : Frame [.capture] s (s.setCapture v) := by
  apply Frame.of <;> simp
theorem frame_setPlayout (s : State) (v : PlayoutUnit) : Frame [.playout] s (s.setPlayout v) := by
  apply Frame.of <;> simp
theorem frame_setMessages (s : State) (v : MessageUnit) : Frame [.messages] s (s.setMessages v) := by
  apply Frame.of <;> simp
theorem frame_setScheduler (s : State) (v : Scheduler) : Frame [.scheduler] s (s.setScheduler v) := by
  apply Frame.of <;> simp
theorem frame_setReader (s : State) (v : CommandReader) : Frame [.reader] s (s.setReader v) := by
  apply Frame.of <;> simp
theorem frame_setWriter (s : State) (v : ReportWriter) : Frame [.writer] s (s.setWriter v) := by
  apply Frame.of <;> simp
theorem frame_setTransit (s : State) (v : Transit) : Frame [.transit] s (s.setTransit v) := by
  apply Frame.of <;> simp
theorem frame_setMem (s : State) (v : Memory) : Frame [.memory] s (s.setMem v) := by
  apply Frame.of <;> simp

/-! ### Reports on their way -/

@[simp] theorem State.sendReports_nil (s : State) : s.sendReports [] = s := by
  simp [State.sendReports, State.setTransit]

theorem State.sendReports_append (s : State) (p q : List Report) :
    (s.sendReports p).sendReports q = s.sendReports (p ++ q) := by
  simp [State.sendReports, State.setTransit]

theorem reportsSent_sendReports (s : State) (rs : List Report) : ReportsSent s (s.sendReports rs) rs := rfl

theorem frame_sendReports (s : State) (rs : List Report) : Frame [.transit] s (s.sendReports rs) := frame_setTransit s _

end Sys2Proof.Machine
end

