-- ==== Sys2Proof/Laws/Tables.lean ====
section
/-! SUPPORT. The fixed-size tables: what an entry reads after a write, after a change of every entry, and outside the table. -/

namespace Sys2Proof

theorem tget_of_le {α : Type} {n : Nat} (v : Vector α n) (i : Nat) (d : α) (h : n ≤ i) : tget v i d = d := by
  have : v.toList.length ≤ i := by simpa using h
  rw [tget, List.getD_eq_getElem?_getD, List.getElem?_eq_none this, Option.getD_none]

theorem tget_tset_same {α : Type} {n : Nat} (v : Vector α n) (i : Nat) (x d : α) (h : i < n) :
    tget (tset v i x) i d = x := by
  simp [tget, tset, List.getD_eq_getElem?_getD, h]

theorem tget_tset_other {α : Type} {n : Nat} (v : Vector α n) (i j : Nat) (x d : α) (h : j ≠ i) :
    tget (tset v i x) j d = tget v j d := by
  simp [tget, tset, List.getD_eq_getElem?_getD, List.getElem?_set_ne (Ne.symm h)]

theorem tset_of_le {α : Type} {n : Nat} (v : Vector α n) (i : Nat) (x : α) (h : n ≤ i) : tset v i x = v := by
  have h1 : v.toList.length ≤ i := by simpa using h
  apply Vector.toArray_inj.1
  simp only [tset, List.set_eq_of_length_le h1]
  simp [Vector.toList]

/-- An entry read after a write: the value written at its own number inside the table, what was there at every other. -/
theorem tget_tset {α : Type} {n : Nat} (v : Vector α n) (i j : Nat) (x d : α) :
    tget (tset v i x) j d = if j = i ∧ i < n then x else tget v j d := by
  by_cases h : j = i
  · subst h
    by_cases hn : j < n
    · simp [hn, tget_tset_same]
    · simp [hn, tset_of_le _ _ _ (Nat.le_of_not_lt hn)]
  · simp [h, tget_tset_other _ _ _ _ _ h]

theorem tset_tset {α : Type} {n : Nat} (v : Vector α n) (i : Nat) (x y : α) : tset (tset v i x) i y = tset v i y := by
  apply Vector.toArray_inj.1
  simp [tset]

theorem tget_tmap {α β : Type} {n : Nat} (f : α → β) (v : Vector α n) (i : Nat) (d : α) (e : β) (h : i < n) :
    tget (tmap f v) i e = f (tget v i d) := by
  simp [tget, tmap, List.getD_eq_getElem?_getD, h]

theorem tget_replicate {α : Type} (n : Nat) (x : α) (i : Nat) (d : α) :
    tget (Vector.replicate n x) i d = if i < n then x else d := by
  by_cases h : i < n
  · simp [tget, List.getD_eq_getElem?_getD, h]
  · simp [h, tget_of_le _ _ _ (Nat.le_of_not_lt h)]

/-- The default of an empty table reads everywhere. -/
theorem tget_replicate_self {α : Type} (n : Nat) (x : α) (i : Nat) : tget (Vector.replicate n x) i x = x := by
  rw [tget_replicate]; split <;> rfl

/-- Two tables that read alike at every number are the same. -/
theorem tget_ext {α : Type} {n : Nat} (v w : Vector α n) (d : α) (h : ∀ i, i < n → tget v i d = tget w i d) : v = w := by
  apply Vector.ext
  intro i hi
  have := h i hi
  simpa [tget, List.getD_eq_getElem?_getD, hi] using this

theorem mem_toList_of_tget {α : Type} {n : Nat} (v : Vector α n) (i : Nat) (d : α) (h : i < n) :
    tget v i d ∈ v.toList := by
  simp [tget, List.getD_eq_getElem?_getD, h]

theorem exists_tget_of_mem {α : Type} {n : Nat} (v : Vector α n) (x d : α) (h : x ∈ v.toList) :
    ∃ i, i < n ∧ tget v i d = x := by
  obtain ⟨i, hi, rfl⟩ := List.getElem_of_mem h
  exact ⟨i, by simpa using hi, by
    rw [tget, List.getD_eq_getElem?_getD, List.getElem?_eq_getElem hi, Option.getD_some]⟩

/-! ### Clamped quantities -/

theorem clamp_eq (lo hi x : Nat) (h : lo ≤ hi) : clamp lo hi x = max lo (min hi x) := by
  unfold clamp; split <;> (try split) <;> omega

theorem clampInt_eq (lo hi x : Int) (h : lo ≤ hi) : clampInt lo hi x = max lo (min hi x) := by
  unfold clampInt; split <;> (try split) <;> omega

theorem countUp_eq (top n : Nat) (h : n ≤ top) : countUp top n = min top (n + 1) := by
  unfold countUp; split <;> omega

theorem countUp_le (top n : Nat) : countUp top n ≤ max top n := by
  unfold countUp; split <;> omega

end Sys2Proof
end

