-- ==== Sys2Proof/Laws/Capture.lean ====
section
/-! SUPPORT. The Capture Unit: slots and their references, the records of sources and clips, and the user requests. -/

namespace Sys2Proof.Machine

open Sys2Proof

/-! ### Records -/

theorem source_setSource (u : CaptureUnit) (i j : Nat) (x : Source) :
    (u.setSource i x).source j = if j = i ∧ i < 4 then x else u.source j := tget_tset _ _ _ _ _

theorem clip_setClip (u : CaptureUnit) (i j : Nat) (c : Option Clip) :
    (u.setClip i c).clip j = if j = i ∧ i < 32 then c else u.clip j := tget_tset _ _ _ _ _

theorem source_of_le (u : CaptureUnit) (i : Nat) (h : 4 ≤ i) : u.source i = Source.unset := tget_of_le _ _ _ h

theorem clip_of_le (u : CaptureUnit) (i : Nat) (h : 32 ≤ i) : u.clip i = none := tget_of_le _ _ _ h

/-! ### References (R105) -/

theorem refs_set_getD (refs : List Nat) (slot k n : Nat) (h : slot < refs.length) :
    (refs.set slot n).getD k 0 = if k = slot then n else refs.getD k 0 := by
  by_cases hk : k = slot
  · subst hk
    simp [List.getD_eq_getElem?_getD, h]
  · simp [List.getD_eq_getElem?_getD, List.getElem?_set_ne (Ne.symm hk), hk]

theorem lt_of_refCount_ne (u : CaptureUnit) (slot : Nat) (h : u.refCount slot ≠ 0) : slot < u.refs.length := by
  rcases Nat.lt_or_ge slot u.refs.length with hlt | hge
  · exact hlt
  · exact absurd (by simp [CaptureUnit.refCount, List.getD_eq_getElem?_getD, List.getElem?_eq_none hge]) h

/-- A reference released: its slot's count falls by 1, from 0 it stays. -/
theorem refCount_releaseRef (u : CaptureUnit) (slot k : Nat) :
    (u.releaseRef slot).refCount k = if k = slot then u.refCount k - 1 else u.refCount k := by
  unfold CaptureUnit.releaseRef
  split
  · rename_i h
    split
    · rename_i hk; subst hk; omega
    · rfl
  · rename_i h
    have key : (u.refs.set slot (u.refCount slot - 1)).getD k 0 = if k = slot then u.refCount slot - 1 else u.refCount k :=
      refs_set_getD _ _ _ _ (lt_of_refCount_ne u slot h)
    dsimp only
    have : ∀ v : CaptureUnit, v.refs = u.refs.set slot (u.refCount slot - 1) →
        v.refCount k = if k = slot then u.refCount k - 1 else u.refCount k := by
      intro v hv
      rw [CaptureUnit.refCount, hv, key]
      split
      · rename_i hk; subst hk; rfl
      · rfl
    split
    · exact this _ rfl
    · exact this _ rfl

/-- The slot whose last reference is released joins the free list's tail at once. -/
theorem free_releaseRef (u : CaptureUnit) (slot : Nat) :
    (u.releaseRef slot).free = if u.refCount slot = 1 then u.free ++ [slot] else u.free := by
  unfold CaptureUnit.releaseRef
  split
  · rename_i h
    rw [if_neg (by omega)]
  · rename_i h
    have key : (u.refs.set slot (u.refCount slot - 1)).getD slot 0 = u.refCount slot - 1 := by
      rw [refs_set_getD _ _ _ _ (lt_of_refCount_ne u slot h), if_pos rfl]
    have h2 : ({ u with refs := u.refs.set slot (u.refCount slot - 1) } : CaptureUnit).refCount slot = u.refCount slot - 1 := key
    dsimp only
    rw [h2]
    by_cases h1 : u.refCount slot = 1
    · simp [h1, CaptureUnit.giveBack]
    · have : ¬ u.refCount slot - 1 = 0 := by omega
      simp [this, h1]

/-- Releasing references leaves the pool, the sources and the clips. -/
theorem releaseRef_fields (u : CaptureUnit) (slot : Nat) :
    u.releaseRef slot = { u with refs := (u.releaseRef slot).refs, free := (u.releaseRef slot).free } := by
  unfold CaptureUnit.releaseRef
  split
  · rfl
  · dsimp only
    split <;> rfl

theorem releaseAll_fields (u : CaptureUnit) (es : List TimelineEntry) :
    u.releaseAll es = { u with refs := (u.releaseAll es).refs, free := (u.releaseAll es).free } := by
  unfold CaptureUnit.releaseAll
  induction es generalizing u with
  | nil => rfl
  | cons e es ih =>
    simp only [List.foldl_cons]
    rw [ih, releaseRef_fields]

/-- References released entry by entry (R105). -/
theorem released_releaseAll (u : CaptureUnit) (es : List TimelineEntry) : Released u (u.releaseAll es) es := by
  induction es generalizing u with
  | nil => exact ⟨fun _ => rfl, [], by simp [CaptureUnit.releaseAll], List.Pairwise.nil, by simp [namedBy]; omega⟩
  | cons e es ih =>
    obtain ⟨h1, back, h2, h3, h4⟩ := ih (u.releaseRef e.slot)
    have hn : ∀ slot, namedBy (e :: es) slot = namedBy es slot + if slot = e.slot then 1 else 0 := by
      intro slot
      unfold namedBy
      by_cases h : e.slot = slot
      · simp [h]
      · simp [h, Ne.symm h]
    have hv : u.releaseAll (e :: es) = (u.releaseRef e.slot).releaseAll es := rfl
    rw [hv]
    refine ⟨fun slot => ?_, ?_⟩
    · rw [h1, refCount_releaseRef, hn]
      split <;> omega
    · rw [h2, free_releaseRef]
      by_cases hc : u.refCount e.slot = 1
      · refine ⟨e.slot :: back, by simp [hc], ?_, fun slot => ?_⟩
        · refine List.Pairwise.cons (fun k hk => ?_) h3
          intro heq
          subst heq
          have := (h4 e.slot).1 hk
          rw [refCount_releaseRef, if_pos rfl] at this
          omega
        · rw [List.mem_cons, h4, refCount_releaseRef, hn]
          by_cases hs : slot = e.slot
          · subst hs; simp; omega
          · simp [hs]
      · refine ⟨back, by simp [hc], h3, fun slot => ?_⟩
        rw [h4, refCount_releaseRef, hn]
        by_cases hs : slot = e.slot
        · subst hs; simp; omega
        · simp [hs]

/-- A reference added to a slot of the pool. -/
theorem refCount_addRef (u : CaptureUnit) (slot k : Nat) (h : slot < u.refs.length) :
    (u.addRef slot).refCount k = if k = slot then u.refCount k + 1 else u.refCount k := by
  have := refs_set_getD u.refs slot k (u.refCount slot + 1) h
  show (u.refs.set slot (u.refCount slot + 1)).getD k 0 = _
  rw [this]
  split
  · rename_i hk; subst hk; rfl
  · rfl

theorem referAll_fields (u : CaptureUnit) (es : List TimelineEntry) :
    u.referAll es = { u with refs := (u.referAll es).refs } := by
  unfold CaptureUnit.referAll
  induction es generalizing u with
  | nil => rfl
  | cons e es ih =>
    simp only [List.foldl_cons]
    rw [ih]
    rfl

/-- References added for entries: a slot of the pool gains one for each entry that names it. -/
theorem refCount_referAll (u : CaptureUnit) (es : List TimelineEntry) (slot : Nat) (h : slot < u.refs.length) :
    (u.referAll es).refCount slot = u.refCount slot + namedBy es slot := by
  induction es generalizing u with
  | nil => rfl
  | cons e es ih =>
    have hv : u.referAll (e :: es) = (u.addRef e.slot).referAll es := rfl
    have hl : (u.addRef e.slot).refs.length = u.refs.length := by simp [CaptureUnit.addRef]
    rw [hv, ih _ (by omega)]
    unfold namedBy
    by_cases hs : e.slot = slot
    · subst hs
      rw [refCount_addRef _ _ _ h]
      simp
      omega
    · have : (u.addRef e.slot).refCount slot = u.refCount slot := by
        show (u.refs.set e.slot _).getD slot 0 = u.refs.getD slot 0
        simp [List.getD_eq_getElem?_getD, List.getElem?_set_ne hs]
      simp [this, hs]

/-! ### Dropping clips and user requests (R122, R123) -/

/-- A clip dropped. -/
theorem clipDropped_dropClip (s : State) (clip : Nat) (c : Clip) (released : Bool) (h : s.capture.clip clip = some c) :
    ClipDropped s (s.dropClip clip released) clip c released := by
  have hlt : clip < 32 := by
    rcases Nat.lt_or_ge clip 32 with hl | hg
    · exact hl
    · rw [clip_of_le _ _ hg] at h; cases h
  unfold State.dropClip
  rw [h]
  dsimp only
  have hf := releaseAll_fields (s.capture.setClip clip none) c.entries
  have hr := released_releaseAll (s.capture.setClip clip none) c.entries
  have hc : ∀ k, ((s.capture.setClip clip none).releaseAll c.entries).clip k =
      if k = clip ∧ clip < 32 then none else s.capture.clip k := by
    intro k
    rw [← clip_setClip s.capture clip k none, hf]
    rfl
  refine ⟨?_, ?_, fun k hk => ?_, ?_, rfl⟩
  · have hcl : ((s.capture.setClip clip none).releaseAll c.entries).clips = (s.capture.setClip clip none).clips := by
      rw [hf]
    show (s.capture.setClip clip none).releaseAll c.entries = { s.capture with
      clips := ((s.capture.setClip clip none).releaseAll c.entries).clips
      refs := ((s.capture.setClip clip none).releaseAll c.entries).refs
      free := ((s.capture.setClip clip none).releaseAll c.entries).free }
    rw [hcl]
    exact hf
  · show ((s.capture.setClip clip none).releaseAll c.entries).clip clip = none
    rw [hc, if_pos ⟨rfl, hlt⟩]
  · show ((s.capture.setClip clip none).releaseAll c.entries).clip k = _
    rw [hc, if_neg (fun h => hk h.1)]
  · exact hr

theorem frame_dropClip (s : State) (clip : Nat) (released : Bool) :
    Frame [.capture, .transit] s (s.dropClip clip released) := by
  unfold State.dropClip
  split
  · exact .refl _ _
  · exact (Frame.mono (frame_setCapture s _) (by simp)).trans (Frame.mono (frame_sendReports _ _) (by simp))

/-- A user request: nothing for an empty record; else the record changed, and dropped where it is release-pending with no user. -/
theorem userRequest_cases (s : State) (clip : Nat) (f : Clip → Clip) :
    (s.capture.clip clip = none ∧ s.userRequest clip f = s) ∨
      ∃ c, s.capture.clip clip = some c ∧
        ((((f c).releasePending = false ∨ (f c).users ≠ 0) ∧
            s.userRequest clip f = s.setCapture (s.capture.setClip clip (some (f c)))) ∨
          ((f c).releasePending = true ∧ (f c).users = 0 ∧
            s.userRequest clip f = (s.setCapture (s.capture.setClip clip (some (f c)))).dropClip clip true)) := by
  unfold State.userRequest
  cases h : s.capture.clip clip with
  | none => exact .inl ⟨rfl, rfl⟩
  | some c =>
    refine .inr ⟨c, rfl, ?_⟩
    have hlt : clip < 32 := by
      rcases Nat.lt_or_ge clip 32 with hl | hg
      · exact hl
      · rw [clip_of_le _ _ hg] at h; cases h
    have hc : (s.setCapture (s.capture.setClip clip (some (f c)))).capture.clip clip = some (f c) := by
      show (s.capture.setClip clip (some (f c))).clip clip = _
      rw [clip_setClip, if_pos ⟨rfl, hlt⟩]
    dsimp only
    unfold State.settleClip
    rw [hc]
    dsimp only
    by_cases hp : (f c).releasePending = true
    · by_cases hu : (f c).users = 0
      · exact .inr ⟨hp, hu, by simp [hp, hu]⟩
      · exact .inl ⟨.inr hu, by simp [hu]⟩
    · exact .inl ⟨.inl (by simpa using hp), by simp [hp]⟩

theorem frame_userRequest (s : State) (clip : Nat) (f : Clip → Clip) :
    Frame [.capture, .transit] s (s.userRequest clip f) := by
  rcases userRequest_cases s clip f with ⟨_, h⟩ | ⟨c, _, ⟨_, h⟩ | ⟨_, _, h⟩⟩ <;> rw [h]
  · exact .refl _ _
  · exact Frame.mono (frame_setCapture s _) (by simp)
  · exact (Frame.mono (frame_setCapture s _) (by simp)).trans (frame_dropClip _ _ _)

end Sys2Proof.Machine
end

