-- ==== Sys2Proof/Laws/Codec.lean ====
section
/-! SUPPORT. Command records (R181): little-endian numbers, the fields of a record, and the operand forms that share a word. -/

namespace Sys2Proof

/-! ### Little-endian numbers -/

@[simp] theorem toLe_length (k n : Nat) : (toLe k n).length = k := by
  induction k generalizing n with
  | zero => rfl
  | succ k ih => simp [toLe, ih]

/-- The bytes of a number, one by one. -/
theorem toLe_get (k n i : Nat) (h : i < k) : (toLe k n)[i]? = some (BitVec.ofNat 8 (n / 256 ^ i)) := by
  induction k generalizing n i with
  | zero => omega
  | succ k ih =>
    cases i with
    | zero => simp [toLe]
    | succ i =>
      simp only [toLe, List.getElem?_cons_succ]
      rw [ih _ _ (by omega), Nat.div_div_eq_div_mul, Nat.pow_succ']

/-- Bytes of zeros are the number 0. -/
theorem replicate_zero (n : Nat) : List.replicate n (0 : Byte) = toLe n 0 := by
  induction n with
  | zero => rfl
  | succ n ih => rw [List.replicate_succ, ih]; simp [toLe]

/-- The number read back from its bytes. -/
theorem ofLe_toLe (k n : Nat) (h : n < 256 ^ k) : ofLe (toLe k n) = n := by
  induction k generalizing n with
  | zero => simp at h; simp [toLe, ofLe, h]
  | succ k ih =>
    have hd : n / 256 < 256 ^ k := by rw [Nat.pow_succ] at h; omega
    simp [toLe, ofLe, ih _ hd]
    omega

/-! ### Slices -/

/-- A slice that begins behind the first part lies in the second. -/
theorem slice_append_right (a b : List Byte) (n m : Nat) : slice (a ++ b) (a.length + n) m = slice b n m := by
  simp [slice, List.drop_append, List.drop_eq_nil_of_le]

/-- A slice that ends within the first part lies in it. -/
theorem slice_append_left (a b : List Byte) (n m : Nat) (h : n + m ≤ a.length) : slice (a ++ b) n m = slice a n m := by
  simp only [slice, List.drop_append, List.take_append]
  have h1 : m - (a.drop n).length = 0 := by rw [List.length_drop]; omega
  rw [h1, List.take_zero, List.append_nil]

theorem slice_all (a : List Byte) (n : Nat) (h : a.length = n) : slice a 0 n = a := by
  subst h
  simp [slice]

/-! ### The fields of a record -/

@[simp] theorem nameBytes_length (name : String) : (nameBytes name).length = 16 := by
  unfold nameBytes
  simp only [List.length_append, List.length_replicate, List.length_take]
  omega

theorem words_length (f : Nat → Nat) : ((List.range 8).flatMap fun k => toLe 4 (f k)).length = 32 := by
  have : List.range 8 = [0, 1, 2, 3, 4, 5, 6, 7] := rfl
  rw [this]
  simp

theorem words_slice (f : Nat → Nat) (k : Nat) (hk : k < 8) :
    slice ((List.range 8).flatMap fun k => toLe 4 (f k)) (4 * k) 4 = toLe 4 (f k) := by
  have : List.range 8 = [0, 1, 2, 3, 4, 5, 6, 7] := rfl
  rw [this]
  match k, hk with
  | 0, _ | 1, _ | 2, _ | 3, _ | 4, _ | 5, _ | 6, _ | 7, _ => simp [slice, toLe]

/-- The name field of a written record (R181). -/
theorem recordName_bytes (sp : Spelling) (a : Nat) : recordName (sp.bytes a) = nameBytes sp.name := by
  unfold recordName Spelling.bytes
  rw [List.append_assoc, List.append_assoc, List.append_assoc, slice_append_left _ _ _ _ (by simp)]
  exact slice_all _ _ (by simp)

/-- An argument word of a written record (R181). -/
theorem recordWord_bytes (sp : Spelling) (a k : Nat) (hk : k < 8) (h : sp.words.getD k 0 < 4294967296) :
    recordWord (sp.bytes a) k = sp.words.getD k 0 := by
  unfold recordWord field Spelling.bytes
  have hn := nameBytes_length sp.name
  rw [List.append_assoc, List.append_assoc, List.append_assoc]
  rw [← hn, slice_append_right, slice_append_left _ _ _ _ (by rw [words_length]; omega),
    words_slice (fun k => sp.words.getD k 0) k hk]
  exact ofLe_toLe 4 _ (by simpa using h)

/-- The payload address of a written record (R181). -/
theorem recordPayloadAddr_bytes (sp : Spelling) (a : Nat) (h : a < 18446744073709551616) :
    recordPayloadAddr (sp.bytes a) = a := by
  unfold recordPayloadAddr field Spelling.bytes
  have h1 : (nameBytes sp.name ++ (List.range 8).flatMap fun k => toLe 4 (sp.words.getD k 0)).length = 48 := by
    rw [List.length_append, words_length, nameBytes_length]
  rw [List.append_assoc, List.append_assoc,
    show 48 = (nameBytes sp.name ++ (List.range 8).flatMap fun k => toLe 4 (sp.words.getD k 0)).length + 0 by rw [h1]]
  rw [slice_append_right, slice_append_left _ _ _ _ (by simp)]
  have h2 : slice (toLe 8 a) 0 8 = toLe 8 a := slice_all _ _ (by simp)
  rw [h2]
  exact ofLe_toLe 8 _ (by simpa using h)

/-- The payload length of a written record (R181). -/
theorem recordPayloadLen_bytes (sp : Spelling) (a : Nat) (h : sp.payload.length < 4294967296) :
    recordPayloadLen (sp.bytes a) = sp.payload.length := by
  unfold recordPayloadLen field Spelling.bytes
  have h1 : (nameBytes sp.name ++ ((List.range 8).flatMap fun k => toLe 4 (sp.words.getD k 0)) ++ toLe 8 a).length = 56 := by
    rw [List.length_append, List.length_append, words_length, nameBytes_length, toLe_length]
  rw [List.append_assoc, show 56 =
    (nameBytes sp.name ++ ((List.range 8).flatMap fun k => toLe 4 (sp.words.getD k 0)) ++ toLe 8 a).length + 0 by rw [h1]]
  rw [slice_append_right, slice_append_left _ _ _ _ (by simp)]
  have h2 : slice (toLe 4 sp.payload.length) 0 4 = toLe 4 sp.payload.length := slice_all _ _ (by simp)
  rw [h2]
  exact ofLe_toLe 4 _ (by simpa using h)

/-- A written record has 64 bytes (R181). -/
theorem spelling_bytes_length (sp : Spelling) (a : Nat) : (sp.bytes a).length = 64 := by
  unfold Spelling.bytes
  simp only [List.length_append, words_length, nameBytes_length, toLe_length]

/-! ### Operand forms -/

theorem signedOf_signedWord (d : Int) (h : isSigned d = true) : signedOf (signedWord d) = d := by
  simp [isSigned] at h
  unfold signedOf signedWord
  split <;> split <;> omega

theorem signedWord_lt (d : Int) (h : isSigned d = true) : signedWord d < 4294967296 := by
  simp [isSigned] at h
  unfold signedWord
  split <;> omega

theorem flagOf_flagWord (b : Bool) : flagOf (flagWord b) = b := by cases b <;> rfl

theorem firstOf_pairWord (a b : Nat) (ha : isHalf a = true) : firstOf (pairWord a b) = a := by
  simp [isHalf] at ha
  unfold firstOf pairWord
  omega

theorem secondOf_pairWord (a b : Nat) (ha : isHalf a = true) (hb : isHalf b = true) : secondOf (pairWord a b) = b := by
  simp [isHalf] at ha hb
  unfold secondOf pairWord
  omega

theorem pairWord_lt (a b : Nat) (ha : isHalf a = true) (hb : isHalf b = true) : pairWord a b < 4294967296 := by
  simp [isHalf] at ha hb
  unfold pairWord
  omega

theorem longOf_words (n : Nat) : longOf (lowWord n) (highWord n) = n := by
  unfold longOf lowWord highWord
  omega

theorem lowWord_lt (n : Nat) : lowWord n < 4294967296 := by
  unfold lowWord
  omega

theorem highWord_lt (n : Nat) (h : isLong n = true) : highWord n < 4294967296 := by
  simp [isLong] at h
  unfold highWord
  omega

end Sys2Proof
end

