-- ==== Sys2Proof/Laws/Compositing.lean ====
section
/-! SUPPORT. The Compositor: the zone that gives a beat and where the beat comes from (R25 to R29). -/

namespace Sys2Proof.Machine

open Sys2Proof

/-- Of two zones at most one is above the other. -/
theorem above_asymm (s : State) (p q : Nat) (h : s.above p q = true) : s.above q p = false := by
  simp only [State.above, Bool.or_eq_true, decide_eq_true_eq, Bool.and_eq_true, beq_iff_eq] at h
  simp only [State.above, Bool.or_eq_false_iff, decide_eq_false_iff_not, Bool.and_eq_false_imp, beq_iff_eq]
  exact ⟨by omega, by omega⟩

theorem topmost_mem (s : State) (zs : List Nat) (z : Nat) (h : s.topmost zs = some z) : z ∈ zs := by
  induction zs generalizing z with
  | nil => simp [State.topmost] at h
  | cons x xs ih =>
    simp only [State.topmost] at h
    split at h
    · simp_all
    · rename_i y hy
      split at h
      · simp_all
      · exact List.mem_cons_of_mem _ (ih z (by simp_all))

/-- A zone above every other zone of a list is the topmost. -/
theorem topmost_of_above (s : State) (zs : List Nat) (z : Nat) (hz : z ∈ zs)
    (h : ∀ y ∈ zs, y ≠ z → s.above z y = true) : s.topmost zs = some z := by
  induction zs with
  | nil => simp at hz
  | cons x xs ih =>
    simp only [State.topmost]
    by_cases hx : x = z
    · subst hx
      cases ht : s.topmost xs with
      | none => rfl
      | some y =>
        by_cases hy : y = x
        · simp [hy]
        · simp [h y (List.mem_cons_of_mem _ (topmost_mem s xs y ht)) hy]
    · have hm : z ∈ xs := by simpa [Ne.symm hx] using hz
      rw [ih hm fun y hy hn => h y (List.mem_cons_of_mem _ hy) hn]
      simp [above_asymm s z x (h x List.mem_cons_self hx)]

theorem covers_iff (s : State) (q : CompositeRequest) (z : Nat) (hz : z < 8) :
    (zoneAt s.compositor.zones z).covers q.line q.column = true ↔ ∃ c, CoversBeat s q z c := by
  simp only [Zone.covers, CoversBeat, Rect.holds, Bool.and_eq_true]
  cases (zoneAt s.compositor.zones z).config with
  | none => simp
  | some c =>
    simp only [Bool.and_eq_true, decide_eq_true_eq, Option.some.injEq]
    exact ⟨fun ⟨h1, ⟨⟨h2, h3⟩, h4⟩, h5⟩ => ⟨c, hz, h1, rfl, h2, h3, h4, h5⟩,
      fun ⟨_, _, h1, e, h2, h3, h4, h5⟩ => e ▸ ⟨h1, ⟨⟨h2, h3⟩, h4⟩, h5⟩⟩

/-- A zone that shows something is active. -/
theorem active_of_zoneShows (s : State) (z : Nat) (c : ZoneConfig) (hc : (zoneAt s.compositor.zones z).config = some c)
    (h : (s.zoneShows z).isSome = true) : ZoneActive s z c := by
  simp only [State.zoneShows, hc, Option.map_some] at h
  unfold ZoneActive
  cases hk : c.kind with
  | replay =>
    simp only [hk] at h ⊢
    cases hb : (zoneAt s.compositor.zones z).bound with
    | none => simp [hb] at h
    | some ch =>
      simp only [hb] at h
      exact ⟨ch, rfl, fun e => by simp [e] at h⟩
  | sponsor =>
    simp only [hk] at h ⊢
    intro e
    simp [e, Showing.sponsor] at h

/-- The topmost covering zone that shows something gives the beat. -/
theorem giver_of_top (s : State) (q : CompositeRequest) (z : Nat) (c : ZoneConfig) (h : TopOfBeat s q z c)
    (hs : (s.zoneShows z).isSome = true) : s.giver q.line q.column = some z := by
  obtain ⟨hc, top⟩ := h
  refine topmost_of_above s _ z ?_ ?_
  · simp only [List.mem_filter, List.mem_range, Bool.and_eq_true]
    exact ⟨hc.1, (covers_iff s q z hc.1).mpr ⟨c, hc⟩, hs⟩
  · intro y hy hn
    simp only [List.mem_filter, List.mem_range, Bool.and_eq_true] at hy
    obtain ⟨d, hd⟩ := (covers_iff s q y hy.1).mp hy.2.1
    have := top y d hn hd (active_of_zoneShows s y d hd.2.2.1 hy.2.2)
    simp only [State.above, hc.2.2.1, hd.2.2.1, Option.map_some, Option.getD_some, Bool.or_eq_true, decide_eq_true_eq,
      Bool.and_eq_true, beq_iff_eq]
    omega

/-- A SPONSOR zone with a sponsor in TURN or FEATURE shows that sponsor's art. -/
theorem zoneShows_art (s : State) (z : Nat) (c : ZoneConfig) (n shown : Nat) (a : Art)
    (hc : (zoneAt s.compositor.zones z).config = some c) (hk : c.kind = .sponsor) (h : ShowsSponsor s z n shown)
    (ha : (s.rotation.sponsor n).art = some a) : s.zoneShows z = some (.sponsor a (shown % a.frames)) := by
  rcases h with ⟨dwell, h⟩ | ⟨f, h, rfl, rfl⟩ <;> simp [State.zoneShows, hc, hk, h, Showing.sponsor, Showing.shown, ha]

theorem zoneShows_entry (s : State) (z : Nat) (c : ZoneConfig) (x : Channel) (k : Clip) (pool : Pool) (slot : Nat)
    (hc : (zoneAt s.compositor.zones z).config = some c) (hk : c.kind = .replay) (h : ShowsEntry s z x k pool slot) :
    s.zoneShows z = some (.replay x) := by
  obtain ⟨ch, clip, e, hb, rfl, hi, _⟩ := h
  simp [State.zoneShows, hc, hk, hb, hi]

/-- Where the model takes a beat from is where R25 to R29 say it comes from. -/
theorem beatSource_of_beatFrom (s : State) (q : CompositeRequest) (base : Option Nat) (delivered : Option (Nat × Nat))
    (h : BeatFrom s q base delivered) : s.beatSource q = ⟨base, delivered⟩ := by
  cases h with
  | canvas unzoned =>
    have : s.giver q.line q.column = none := by
      unfold State.giver
      rw [List.filter_eq_nil_iff.mpr]
      · rfl
      · intro z hz hb
        simp only [List.mem_range, Bool.and_eq_true] at hz hb
        obtain ⟨c, hc⟩ := (covers_iff s q z hz).mp hb.1
        exact unzoned z c hc (active_of_zoneShows s z c hc.2.2.1 hb.2)
    rw [State.beatSource, this]
  | art z c n shown a top kind shows set lines columns dram =>
    have hs := zoneShows_art s z c n shown a top.1.2.2.1 kind shows set
    simp only [State.beatSource, giver_of_top s q z c top (by simp [hs]), hs, top.1.2.2.1, Option.map_some, Option.getD_some,
      artSource, Config.dramBytes]
    unfold artBeatAddr at dram ⊢
    rw [if_neg (by omega)]
  | artBlack z c n shown a top kind shows set past =>
    have hs := zoneShows_art s z c n shown a top.1.2.2.1 kind shows set
    simp only [State.beatSource, giver_of_top s q z c top (by simp [hs]), hs, top.1.2.2.1, Option.map_some, Option.getD_some,
      artSource, Config.dramBytes]
    unfold artBeatAddr at past
    rw [if_pos past]
  | slot z c x k pool slot top kind shows lines columns =>
    have hs := zoneShows_entry s z c x k pool slot top.1.2.2.1 kind shows
    obtain ⟨ch, clip, e, _, _, _, hx, hk, hp, he, rfl⟩ := shows
    simp only [State.beatSource, giver_of_top s q z c top (by simp [hs]), hs, top.1.2.2.1, Option.map_some, Option.getD_some,
      State.replaySource, hx, Option.bind_some, hk, hp, he]
    rw [if_neg (by omega)]
  | slotBlack z c x k pool slot top kind shows past =>
    have hs := zoneShows_entry s z c x k pool slot top.1.2.2.1 kind shows
    obtain ⟨ch, clip, e, _, _, _, hx, hk, hp, he, rfl⟩ := shows
    simp only [State.beatSource, giver_of_top s q z c top (by simp [hs]), hs, top.1.2.2.1, Option.map_some, Option.getD_some,
      State.replaySource, hx, Option.bind_some, hk, hp, he]
    rw [if_pos past]

end Sys2Proof.Machine
end

