-- ==== Sys2Proof/Laws/Drawing.lean ====
section
/-! SUPPORT. What a render job draws: glyph streams (R48), the bytes a job has read, and the pixels of its image (R49, R50, R53). -/

namespace Sys2Proof.Machine

open Sys2Proof

/-! ### Glyph streams (R48) -/

/-- Repeat nibbles paint the last coverage as often as their digits spell. -/
theorem paint_repeats (ds ns : List Nat) (left last k : Nat) (h : ∀ d ∈ ds, d < 8) :
    paint (ds.map (8 + ·) ++ ns) left last k =
      (List.replicate (8 ^ k * octal ds) last).take left ++ paint ns (left - 8 ^ k * octal ds) last (k + ds.length) := by
  induction ds generalizing left k with
  | nil => simp [octal]
  | cons d ds ih =>
    have hd : d < 8 := h d List.mem_cons_self
    have e : 8 ^ k * octal (d :: ds) = d * 8 ^ k + 8 ^ (k + 1) * octal ds := by
      simp only [octal, List.foldr_cons, Nat.pow_succ]
      rw [Nat.mul_add, Nat.mul_comm d, Nat.mul_assoc]
    rw [List.map_cons, List.cons_append, paint]
    by_cases hl : left = 0
    · subst hl
      cases ns <;> simp [paint]
    · rw [if_neg hl, if_neg (by omega), Nat.add_sub_cancel_left]
      dsimp only
      rw [ih _ _ fun x hx => h x (List.mem_cons_of_mem _ hx), e]
      simp only [List.take_replicate, ← List.append_assoc, List.replicate_append_replicate]
      have h1 : min left (d * 8 ^ k) + min (left - min left (d * 8 ^ k)) (8 ^ (k + 1) * octal ds) =
          min left (d * 8 ^ k + 8 ^ (k + 1) * octal ds) := by omega
      have h2 : left - min left (d * 8 ^ k) - 8 ^ (k + 1) * octal ds = left - (d * 8 ^ k + 8 ^ (k + 1) * octal ds) := by omega
      rw [h1, h2, List.length_cons, Nat.add_assoc, Nat.add_comm 1]

/-- A stream of coverage nibbles, each with its repeat digits, paints each coverage once and as often again as its digits spell. -/
theorem paint_groups (groups : List (Nat × List Nat)) (left last k : Nat)
    (h : ∀ p ∈ groups, p.1 < 8 ∧ ∀ d ∈ p.2, d < 8) :
    paint (groups.flatMap fun p : Nat × List Nat => p.1 :: p.2.map (8 + ·)) left last k =
      ((groups.flatMap fun p : Nat × List Nat => List.replicate (1 + octal p.2) p.1) ++ List.replicate left 0).take left := by
  induction groups generalizing left last k with
  | nil => simp [paint]
  | cons p ps ih =>
    obtain ⟨h1, h2⟩ := h p List.mem_cons_self
    rw [List.flatMap_cons, List.flatMap_cons, List.cons_append, paint]
    cases left with
    | zero => simp
    | succ left =>
      rw [if_neg (Nat.succ_ne_zero _), if_pos h1, Nat.add_sub_cancel, paint_repeats _ _ _ _ _ h2,
        ih _ _ _ fun q hq => h q (List.mem_cons_of_mem _ hq)]
      simp only [Nat.pow_zero, Nat.one_mul, Nat.add_comm 1, List.replicate_succ, List.cons_append, List.take_succ_cons]
      congr 1
      simp only [← List.replicate_succ, List.take_append, List.length_replicate, List.append_assoc, List.take_replicate]
      congr 3
      omega

/-- The coverage of a glyph whose stream spells repeats of coverage 0 and then coverages with their repeats. -/
theorem decodeGlyph_groups (g : Glyph) (stream : List Byte) (first : List Nat) (groups : List (Nat × List Nat))
    (h1 : ∀ d ∈ first, d < 8) (h2 : ∀ p ∈ groups, p.1 < 8 ∧ ∀ d ∈ p.2, d < 8)
    (h : nibbles stream = first.map (8 + ·) ++ groups.flatMap fun p : Nat × List Nat => p.1 :: p.2.map (8 + ·)) :
    decodeGlyph g stream = (List.replicate (octal first) 0 ++
      (groups.flatMap fun p : Nat × List Nat => List.replicate (1 + octal p.2) p.1) ++
      List.replicate (g.width * g.height) 0).take (g.width * g.height) := by
  rw [decodeGlyph, h, paint_repeats _ _ _ _ _ h1, paint_groups _ _ _ _ h2]
  simp only [Nat.pow_zero, Nat.one_mul, List.append_assoc, List.take_append, List.length_replicate, List.take_replicate]
  congr 3
  omega

/-! ### The bytes a job has read (R53) -/

/-- The pieces of a transfer hold its bytes in order. -/
theorem rowPieces_bytes (m : Nat → Byte) (fuel a beats : Nat) (h : beats ≤ fuel) :
    ((rowPieces fuel a beats).flatMap fun p => (List.range (32 * p.2)).map fun k => m (p.1 + k)) =
      (List.range (32 * beats)).map fun k => m (a + k) := by
  induction fuel generalizing a beats with
  | zero => simp [rowPieces, Nat.le_zero.mp h]
  | succ fuel ih =>
    unfold rowPieces
    by_cases hb : beats = 0
    · simp [hb]
    · have hc : columnOf a < 256 := by unfold columnOf; omega
      generalize hk : min beats (256 - columnOf a) = k
      have hk1 : 0 < k ∧ k ≤ beats := by omega
      rw [if_neg hb]
      simp only [List.flatMap_cons]
      rw [ih _ _ (by omega), show 32 * beats = 32 * k + 32 * (beats - k) by omega, List.range_add, List.map_append, List.map_map]
      simp [Function.comp_def, Nat.add_assoc]

theorem bytes_slice (m : Nat → Byte) (a b start len : Nat) (h : start + len ≤ b) :
    slice ((List.range b).map fun k => m (a + k)) start len = (List.range len).map fun k => m (a + start + k) := by
  apply List.ext_getElem?
  intro i
  simp only [slice, List.getElem?_take, List.getElem?_drop, List.getElem?_map]
  by_cases hi : i < len
  · simp [hi, List.getElem?_range (show start + i < b by omega), Nat.add_assoc]
  · simp [hi]

/-- The bytes of an item are those of the memory it was read from. -/
theorem itemBytes_of_reads (j : Job) (m : Nat → Byte) (item : ReadItem) (a len : Nat)
    (got : ∀ (n : Nat) (p : ReadPiece), j.pieces[n]? = some p →
      j.got.lookup n = some ((List.range (32 * p.beats)).map fun k => m (p.addr + k)))
    (h : j.pieces.filter (·.item == item) = readsFor item a len) :
    j.itemBytes item a len = (List.range len).map fun k => m (a + k) := by
  have all : (j.pieces.zipIdx.flatMap fun p => if p.1.item == item then (j.got.lookup p.2).getD [] else []) =
      (j.pieces.filter (·.item == item)).flatMap fun p => (List.range (32 * p.beats)).map fun k => m (p.addr + k) := by
    have key : ∀ (ps : List ReadPiece) (o : Nat), (∀ n p, ps[n]? = some p →
        j.got.lookup (o + n) = some ((List.range (32 * p.beats)).map fun k => m (p.addr + k))) →
        ((ps.zipIdx o).flatMap fun p => if p.1.item == item then (j.got.lookup p.2).getD [] else []) =
          (ps.filter (·.item == item)).flatMap fun p => (List.range (32 * p.beats)).map fun k => m (p.addr + k) := by
      intro ps
      induction ps with
      | nil => intros; rfl
      | cons p ps ih =>
        intro o hg
        have h0 := hg 0 p rfl
        rw [List.zipIdx_cons, List.flatMap_cons, ih (o + 1) fun n q hq => by
          have := hg (n + 1) q (by simpa using hq)
          rwa [← Nat.add_assoc, Nat.add_right_comm] at this]
        by_cases hi : p.item == item
        · simp only [hi, if_true, List.filter_cons, List.flatMap_cons, Nat.add_zero] at h0 ⊢
          rw [h0]
          rfl
        · simp [hi]
    exact key j.pieces 0 fun n p hp => by simpa using got n p hp
  unfold Job.itemBytes
  simp only [all, h, readsFor, List.flatMap_map]
  have : ∀ b, ((transferPieces (coveringBeats a len).1 b).flatMap fun p => (List.range (32 * p.2)).map fun k => m (p.1 + k)) =
      (List.range (32 * b)).map fun k => m (a / 32 * 32 + k) := fun b => by
    rw [show (coveringBeats a len).1 = a / 32 * 32 by unfold coveringBeats; split <;> rfl]
    exact rowPieces_bytes m b _ b (Nat.le_refl _)
  rw [this]
  by_cases hl : len = 0
  · simp [hl, slice]
  · rw [bytes_slice _ _ _ _ _ (by simp only [coveringBeats, if_neg hl]; omega)]
    simp only [show a / 32 * 32 + a % 32 = a by omega]

theorem filter_flatMap_one {α : Type} (f : α → List ReadPiece) (key : α → ReadItem) (l : List α) (x : α)
    (items : ∀ a, ∀ p ∈ f a, p.item = key a) (distinct : l.Pairwise fun a b => key a ≠ key b) (hx : x ∈ l) :
    (l.flatMap f).filter (·.item == key x) = f x := by
  induction l with
  | nil => simp at hx
  | cons y ys ih =>
    obtain ⟨h1, h2⟩ := List.pairwise_cons.mp distinct
    rw [List.flatMap_cons, List.filter_append]
    have none' : ∀ a, key a ≠ key x → (f a).filter (·.item == key x) = [] := fun a ha =>
      List.filter_eq_nil_iff.mpr fun p hp => by simpa [items a p hp] using ha
    rcases List.mem_cons.mp hx with rfl | hm
    · rw [List.filter_eq_self.mpr fun p hp => by simp [items x p hp], List.filter_eq_nil_iff.mpr fun p hp => ?_, List.append_nil]
      obtain ⟨a, ha, hp⟩ := List.mem_flatMap.mp hp
      simpa [items a p hp] using Ne.symm (h1 a ha)
    · rw [none' y (h1 x hm), ih h2 hm, List.nil_append]

theorem readsFor_item (item : ReadItem) (a len : Nat) : ∀ p ∈ readsFor item a len, p.item = item := by
  intro p hp
  obtain ⟨q, _, rfl⟩ := List.mem_map.mp hp
  rfl

theorem glyphOf_code (glyphs : List Glyph) (c : Nat) (g : Glyph) (h : glyphOf glyphs c = some g) : g.code = c := by
  simpa using List.find?_some h

theorem distinctGlyphs_mem (glyphs : List Glyph) (codes : List Nat) (c : Nat) (g : Glyph) (hc : c ∈ codes)
    (h : glyphOf glyphs c = some g) : g ∈ distinctGlyphs glyphs codes := by
  induction codes with
  | nil => simp at hc
  | cons d ds ih =>
    unfold distinctGlyphs
    by_cases hd : c = d
    · subst hd
      simp [h]
    · have hm := ih (by simpa [hd] using hc)
      cases hg : glyphOf glyphs d with
      | none => exact hm
      | some q =>
        refine List.mem_cons_of_mem _ (List.mem_filter.mpr ⟨hm, ?_⟩)
        simpa [glyphOf_code glyphs c g h] using hd

theorem distinctGlyphs_distinct (glyphs : List Glyph) (codes : List Nat) :
    (distinctGlyphs glyphs codes).Pairwise fun a b => a.code ≠ b.code := by
  induction codes with
  | nil => exact List.Pairwise.nil
  | cons d ds ih =>
    unfold distinctGlyphs
    cases hg : glyphOf glyphs d with
    | none => exact ih
    | some q =>
      refine List.pairwise_cons.mpr ⟨fun b hb => ?_, ih.filter _⟩
      have := (List.mem_filter.mp hb).2
      rw [glyphOf_code glyphs d q hg]
      simpa using Ne.symm (by simpa using this)

/-- The coverage of a glyph that a job draws is decoded from the stream in the memory it was read from (R48, R53). -/
theorem coverageOf_reads (j : Job) (m : Nat → Byte) (h : ReadsGave j m) (hk : j.config.kind ≠ .image) (r : DrawnRun)
    (hr : r ∈ j.runs) (c : Nat) (hc : c ∈ r.codes) (g : Glyph) (hg : glyphOf j.glyphs c = some g) :
    j.coverageOf g = decodeGlyph g ((List.range g.length).map fun k => m (j.fontBase + g.offset + k)) := by
  unfold Job.coverageOf
  rw [itemBytes_of_reads j m (.glyph g.code) _ _ h.2]
  have e : j.pieces = (distinctGlyphs j.glyphs (j.runs.flatMap (·.codes))).flatMap fun g =>
      readsFor (.glyph g.code) (j.fontBase + g.offset) g.length := by
    rw [h.1]
    unfold planReads
    split
    · rename_i heq; exact absurd heq hk
    · rfl
  rw [e]
  exact filter_flatMap_one (fun g : Glyph => readsFor (.glyph g.code) (j.fontBase + g.offset) g.length) (fun g => .glyph g.code) _ g
    (fun a => readsFor_item _ _ _) ((distinctGlyphs_distinct _ _).imp fun hne he => hne (by simpa using he))
    (distinctGlyphs_mem _ _ c g (List.mem_flatMap.mpr ⟨r, hr, hc⟩) hg)

/-- The bytes of a line of the referenced image are those of the memory it was read from (R53). -/
theorem imageLine_reads (j : Job) (m : Nat → Byte) (h : ReadsGave j m) (hk : j.config.kind = .image) (i : ImageRef)
    (hi : j.image = some i) (v : Nat) (hv : v < min i.height j.config.rect.height) :
    j.itemBytes (.imageLine v) (i.addr + v * i.pitch) (min i.width j.config.rect.width * 4) =
      (List.range (min i.width j.config.rect.width * 4)).map fun k => m (i.addr + v * i.pitch + k) := by
  refine itemBytes_of_reads j m (.imageLine v) _ _ h.2 ?_
  rw [h.1, hk, hi]
  exact filter_flatMap_one (fun v => readsFor (.imageLine v) (i.addr + v * i.pitch) (min i.width j.config.rect.width * 4))
    (fun v => .imageLine v) _ v (fun a => readsFor_item _ _ _)
    (List.nodup_range.imp fun hne he => hne (by simpa using he)) (List.mem_range.mpr hv)

/-! ### The pixels of the image (R49, R53) -/

theorem textWidth_sum (j : Job) (codes : List Nat) : textWidth j.glyphs j.advance codes = (codes.map (advanceIn j)).sum := by
  have key : ∀ (cs : List Nat) (w : Nat), cs.foldl (fun w c => w + advanceOf j.glyphs j.advance c) w =
      w + (cs.map (advanceIn j)).sum := by
    intro cs
    induction cs with
    | nil => simp
    | cons c cs ih =>
      intro w
      rw [List.foldl_cons, ih, List.map_cons, List.sum_cons, ← Nat.add_assoc]
      rfl
  rw [textWidth, key, Nat.zero_add]

/-- A run's glyphs drawn over a pixel are its codes drawn one after another. -/
theorem placeCodes_fold (j : Job) (m : Nat → Byte) (u v : Nat) (r : DrawnRun)
    (cov : ∀ c ∈ r.codes, ∀ g, glyphOf j.glyphs c = some g →
      j.coverageOf g = decodeGlyph g ((List.range g.length).map fun k => m (j.fontBase + g.offset + k))) (px : Pixel) :
    (placeCodes j.glyphs j.advance j.coverageOf r (penStart r (textWidth j.glyphs j.advance r.codes)) r.codes).foldl
      (drawGlyph u v) px = (List.range r.codes.length).foldl (drawCode j m u v r) px := by
  have key : ∀ (after before : List Nat) (px : Pixel), before ++ after = r.codes →
      (placeCodes j.glyphs j.advance j.coverageOf r (penAt j r before.length) after).foldl (drawGlyph u v) px =
        ((List.range after.length).map (before.length + ·)).foldl (drawCode j m u v r) px := by
    intro after
    induction after with
    | nil => intros; rfl
    | cons c cs ih =>
      intro before px hb
      have next : penAt j r (before.length + 1) = penAt j r before.length + advanceOf j.glyphs j.advance c := by
        unfold penAt
        have take1 : r.codes.take (before.length + 1) = r.codes.take before.length ++ [c] := by
          rw [List.take_add_one, ← hb]; simp
        simp only [take1, List.map_append, List.sum_append, List.map_cons, List.map_nil, List.sum_cons, List.sum_nil, Nat.add_zero,
          Nat.add_assoc]
        rfl
      have tail := fun px => ih (before ++ [c]) px (by simpa using hb)
      simp only [List.length_append, List.length_cons, List.length_nil, Nat.zero_add] at tail
      rw [List.length_cons, List.range_succ_eq_map, List.map_cons, List.foldl_cons, List.map_map]
      have shift : (List.map ((fun x => before.length + x) ∘ Nat.succ) (List.range cs.length)) =
          (List.range cs.length).map (before.length + 1 + ·) := by
        apply List.map_congr_left
        intro x _
        simp only [Function.comp_apply]
        omega
      rw [shift, ← tail, next, placeCodes]
      have at' : r.codes[before.length]? = some c := by rw [← hb]; simp
      cases hg : glyphOf j.glyphs c with
      | none =>
        have : drawCode j m u v r px (before.length + 0) = px := by
          unfold drawCode
          rw [Nat.add_zero, at', Option.bind_some, show List.find? (fun g => g.code == c) j.glyphs = none from hg]
        rw [this]
      | some g =>
        have hc : c ∈ r.codes := by rw [← hb]; simp
        have : drawCode j m u v r px (before.length + 0) = drawGlyph u v px
            ⟨penAt j r before.length, r.y + g.top, g.width, g.height, j.coverageOf g, r.colour, r.opacity, r.x, r.x + r.box⟩ := by
          unfold drawCode drawGlyph coverageWeight
          rw [Nat.add_zero, at', Option.bind_some, show List.find? (fun g => g.code == c) j.glyphs = some g from hg, cov c hc g hg]
        rw [this]
        rfl
  have := key r.codes [] px rfl
  simp only [List.length_nil, Nat.zero_add, List.map_id'] at this
  rw [← this]
  have start : penStart r (textWidth j.glyphs j.advance r.codes) = penAt j r 0 := by
    rw [textWidth_sum]
    rfl
  rw [start]

theorem pixelAt_bytes (m : Nat → Byte) (a n i : Nat) (h : i + 4 ≤ n) :
    pixelAt ((List.range n).map fun k => m (a + k)) i = ⟨m (a + i), m (a + (i + 1)), m (a + (i + 2)), m (a + (i + 3))⟩ := by
  have e : ∀ k, k < n → ((List.range n).map fun k => m (a + k)).getD k 0 = m (a + k) := fun k hk => by
    simp [List.getD_eq_getElem?_getD, List.getElem?_range hk]
  simp only [pixelAt, e i (by omega), e (i + 1) (by omega), e (i + 2) (by omega), e (i + 3) (by omega)]

/-- The glyphs of all runs over a pixel. -/
theorem placed_fold (j : Job) (m : Nat → Byte) (h : ReadsGave j m) (text : j.config.kind = .image → j.runs = []) (u v : Nat) :
    j.placed.foldl (drawGlyph u v) j.config.background = textPixel j m u v := by
  unfold Job.placed textPixel
  have key : ∀ (rs : List DrawnRun) (px : Pixel), (∀ r ∈ rs, r ∈ j.runs) →
      (rs.flatMap fun r => placeCodes j.glyphs j.advance j.coverageOf r (penStart r (textWidth j.glyphs j.advance r.codes))
        r.codes).foldl (drawGlyph u v) px =
      rs.foldl (fun px r => (List.range r.codes.length).foldl (drawCode j m u v r) px) px := by
    intro rs
    induction rs with
    | nil => intros; rfl
    | cons r rs ih =>
      intro px hm
      rw [List.flatMap_cons, List.foldl_append, List.foldl_cons, ih _ fun x hx => hm x (List.mem_cons_of_mem _ hx)]
      rw [placeCodes_fold j m u v r fun c hc g hg => coverageOf_reads j m h
        (fun hk => by have := hm r List.mem_cons_self; rw [text hk] at this; simp at this) r (hm r List.mem_cons_self) c hc g hg]
  exact key j.runs _ fun r hr => hr

/-- A line of the image, pixel by pixel (R53). -/
theorem imageLine_pixels (j : Job) (m : Nat → Byte) (h : ReadsGave j m) (text : j.config.kind = .image → j.runs = []) (v : Nat) :
    j.imageLine j.placed v = (List.range j.imageWidth).map fun u => imagePixel j m u v := by
  unfold Job.imageLine
  apply List.map_congr_left
  intro u _
  unfold imagePixel
  cases hk : j.config.kind with
  | image =>
    cases hi : j.image with
    | none => simp only; exact placed_fold j m h text u v
    | some i =>
      simp only
      by_cases hin : u < min i.width j.config.rect.width ∧ v < min i.height j.config.rect.height
      · rw [if_pos hin, if_pos hin, imageLine_reads j m h hk i hi v hin.2, pixelAt_bytes _ _ _ _ (by omega)]
        simp only [Nat.add_assoc]
      · rw [if_neg hin, if_neg hin]
        exact placed_fold j m h text u v
  | text => exact placed_fold j m h text u v
  | ticker => exact placed_fold j m h text u v

/-- With pieces of one length joined, the piece of an element stands at its place. -/
theorem flatMap_slice {α β : Type} (l : List α) (f : α → List β) (n i : Nat) (x : α) (h : ∀ a ∈ l, (f a).length = n) (hx : l[i]? = some x) :
    ((l.flatMap f).drop (n * i)).take n = f x := by
  induction l generalizing i with
  | nil => simp at hx
  | cons y ys ih =>
    have hy := h y List.mem_cons_self
    cases i with
    | zero =>
      simp only [List.getElem?_cons_zero, Option.some.injEq] at hx
      subst hx
      simp [hy]
    | succ i =>
      rw [List.flatMap_cons, Nat.mul_succ, Nat.add_comm, ← hy, ← List.drop_drop, List.drop_left, hy]
      exact ih i (fun a ha => h a (List.mem_cons_of_mem _ ha)) (by simpa using hx)

theorem imageBytes_length (j : Job) : j.imageBytes.length = j.imageWidth * j.config.rect.height * 4 := by
  have pixels : ∀ ps : List Pixel, (ps.flatMap Pixel.bytes).length = ps.length * 4 := fun ps => by
    induction ps with
    | nil => rfl
    | cons p ps ih => rw [List.flatMap_cons, List.length_append, ih, List.length_cons]; simp [Pixel.bytes]; omega
  have line : ∀ v, ((j.imageLine j.placed v).flatMap Pixel.bytes).length = j.imageWidth * 4 := fun v => by
    rw [pixels]; simp [Job.imageLine]
  simp [Job.imageBytes, List.length_flatMap, line, List.map_const', Nat.mul_comm, Nat.mul_assoc]

/-- The four bytes of a pixel of the image (R30, R53). -/
theorem imageBytes_pixel (j : Job) (m : Nat → Byte) (h : ReadsGave j m) (text : j.config.kind = .image → j.runs = []) (u v : Nat)
    (hu : u < j.imageWidth) (hv : v < j.config.rect.height) :
    (j.imageBytes.drop (4 * (v * j.imageWidth + u))).take 4 = (imagePixel j m u v).bytes := by
  have e : j.imageBytes = ((List.range j.config.rect.height).flatMap fun v =>
      (List.range j.imageWidth).map fun u => imagePixel j m u v).flatMap Pixel.bytes := by
    simp only [Job.imageBytes, imageLine_pixels j m h text, List.flatMap_assoc]
  rw [e]
  refine flatMap_slice _ _ _ _ _ (fun _ _ => rfl) ?_
  have row := flatMap_slice (List.range j.config.rect.height) (fun v => (List.range j.imageWidth).map fun u => imagePixel j m u v)
    j.imageWidth v v (fun _ _ => by simp) (List.getElem?_range hv)
  have := congrArg (·[u]?) row
  simp only [List.getElem?_take, List.getElem?_drop, List.getElem?_map, List.getElem?_range hu, if_pos hu, Option.map_some] at this
  rwa [Nat.mul_comm]

/-! ### The writes of a job (R53, R155) -/

/-- The pieces of a transfer follow one another, each within a row. -/
theorem rowPieces_spec (fuel a beats : Nat) (h : beats ≤ fuel) (before : List (Nat × Nat)) (p : Nat × Nat) (after : List (Nat × Nat))
    (hp : rowPieces fuel a beats = before ++ p :: after) :
    p.1 = a + 32 * (before.map (·.2)).sum ∧ 0 < p.2 ∧ columnOf p.1 + p.2 ≤ 256 ∧ (before.map (·.2)).sum + p.2 ≤ beats := by
  induction fuel generalizing a beats before with
  | zero => simp [rowPieces] at hp
  | succ fuel ih =>
    unfold rowPieces at hp
    by_cases hb : beats = 0
    · simp [hb] at hp
    · have hc : columnOf a < 256 := by unfold columnOf; omega
      rw [if_neg hb] at hp
      dsimp only at hp
      generalize hk : min beats (256 - columnOf a) = k at hp
      cases before with
      | nil =>
        obtain ⟨rfl, -⟩ := List.cons.inj hp
        simp only [List.map_nil, List.sum_nil]
        omega
      | cons q qs =>
        obtain ⟨rfl, hr⟩ := List.cons.inj hp
        obtain ⟨h1, h2, h3, h4⟩ := ih _ _ (by omega) qs hr
        simp only [List.map_cons, List.sum_cons]
        refine ⟨by omega, h2, h3, by omega⟩

theorem rowPieces_cover {β : Type} (g : Nat → List β) (fuel o a beats : Nat) (h : beats ≤ fuel) :
    ((rowPieces fuel (o + a) beats).flatMap fun p => (List.range p.2).flatMap fun k => g (p.1 - o + 32 * k)) =
      (List.range beats).flatMap fun k => g (a + 32 * k) := by
  induction fuel generalizing a beats with
  | zero => simp [rowPieces, Nat.le_zero.mp h]
  | succ fuel ih =>
    unfold rowPieces
    by_cases hb : beats = 0
    · simp [hb]
    · have hc : columnOf (o + a) < 256 := by unfold columnOf; omega
      generalize hk : min beats (256 - columnOf (o + a)) = k
      have hk1 : 0 < k ∧ k ≤ beats := by omega
      rw [if_neg hb]
      simp only [List.flatMap_cons]
      rw [Nat.add_assoc, ih _ _ (by omega), show beats = k + (beats - k) by omega, List.range_add, List.flatMap_append, List.flatMap_map]
      simp [Nat.mul_add, Nat.add_assoc]

theorem partialBeats (bs : List Byte) (n : Nat) (h : bs.length ≤ 32 * n) :
    ((List.range n).flatMap fun k => partialBeat (bs.drop (0 + 32 * k))) =
      bs.map some ++ List.replicate (32 * n - bs.length) none := by
  induction n generalizing bs with
  | zero => simp [List.length_eq_zero_iff.mp (Nat.le_zero.mp (by simpa using h))]
  | succ n ih =>
    have first : partialBeat bs = (bs.take 32).map some ++ List.replicate (32 - bs.length) none := by
      apply List.ext_getElem?
      intro i
      unfold partialBeat
      by_cases hi : i < 32
      · rw [List.getElem?_map, List.getElem?_range hi, Option.map_some]
        by_cases hl : i < bs.length
        · rw [List.getElem?_append_left (by simp; omega)]
          simp [hi, hl]
        · rw [List.getElem?_append_right (by simp; omega), List.getElem?_eq_none (Nat.le_of_not_lt hl), List.getElem?_replicate,
            if_pos (by simp; omega)]
      · rw [List.getElem?_eq_none (by simp; omega), List.getElem?_eq_none (by simp; omega)]
    have rest := ih (bs.drop 32) (by simp; omega)
    rw [List.range_succ_eq_map, List.flatMap_cons, List.flatMap_map]
    simp only [Nat.zero_add, List.drop_drop] at rest ⊢
    have shift : (fun k => partialBeat (bs.drop (32 * Nat.succ k))) = fun k => partialBeat (bs.drop (32 + 32 * k)) := by
      funext k
      rw [Nat.mul_succ, Nat.add_comm]
    rw [shift, rest, Nat.mul_zero, List.drop_zero, first]
    by_cases hl : 32 ≤ bs.length
    · rw [show 32 - bs.length = 0 by omega, List.replicate_zero, List.append_nil, ← List.append_assoc, ← List.map_append,
        List.take_append_drop, List.length_drop]
      congr 2
      omega
    · rw [List.drop_of_length_le (by omega), List.take_of_length_le (by omega)]
      simp only [List.map_nil, List.nil_append, List.append_assoc, List.length_nil, List.replicate_append_replicate]
      congr 2
      omega

/-- A job's writes hold its image, and nothing is enabled past its end (log 20). -/
theorem writes_data (j : Job) : (j.writes.flatMap (·.data)).flatten =
    j.imageBytes.map some ++ List.replicate (32 * ((j.imageBytes.length + 31) / 32) - j.imageBytes.length) none := by
  rw [← partialBeats j.imageBytes _ (by omega), ← rowPieces_cover (fun b => partialBeat (j.imageBytes.drop b)) _ j.bufferBase 0 _
    (Nat.le_refl _)]
  have flat : ∀ l : List (List (List (Option Byte))), l.flatten.flatten = (l.map List.flatten).flatten := fun l => by
    induction l with
    | nil => rfl
    | cons x xs ih => simp [ih]
  simp [Job.writes, newWrite, transferPieces, List.flatMap_def, flat, Function.comp_def]

/-- Each write of a job stands behind the ones before it, within one row. -/
theorem writes_pieces (j : Job) (ha : j.bufferBase % 32 = 0) (before : List Operation) (op : Operation) (after : List Operation)
    (h : j.writes = before ++ op :: after) :
    op.write = true ∧ op.owner = .renderWrite j.number ∧ op.addr = j.bufferBase + 32 * (before.map (·.beats)).sum ∧
      op.beats = op.data.length ∧ 0 < op.beats ∧ op.addr / 8192 = (op.addr + 32 * op.beats - 1) / 8192 ∧
      ∀ beat ∈ op.data, beat.length = 32 := by
  obtain ⟨ps, qs, hps, rfl, hq⟩ := List.map_eq_append_iff.mp h
  obtain ⟨p, ps', rfl, rfl, -⟩ := List.map_eq_cons_iff.mp hq
  obtain ⟨h1, h2, h3, -⟩ := rowPieces_spec _ _ _ (Nat.le_refl _) _ _ _ hps
  have beats : ∀ p : Nat × Nat, (newWrite (.renderWrite j.number) p.1
      ((List.range p.2).map fun k => partialBeat (j.imageBytes.drop (p.1 - j.bufferBase + 32 * k)))).beats = p.2 := fun p => by
    simp [newWrite]
  refine ⟨rfl, rfl, ?_, rfl, ?_, ?_, ?_⟩
  · simp only [List.map_map, Function.comp_def, beats]
    exact h1
  · rw [beats]; exact h2
  · rw [beats]
    show p.1 / 8192 = (p.1 + 32 * p.2 - 1) / 8192
    unfold columnOf at h3
    omega
  · intro beat hb
    obtain ⟨k, _, rfl⟩ := List.mem_map.mp hb
    simp [partialBeat]

end Sys2Proof.Machine
end

