-- ==== Sys2Proof/Laws/Rotation.lean ====
section
/-! SUPPORT. The Rotation Unit and the Playout Unit: their records, what serves sponsors, verdicts, the queue of features,
and the delivery events that a frame start takes first. -/

namespace Sys2Proof.Machine

open Sys2Proof

/-! ### Records -/

theorem zone_setZone (u : RotationUnit) (y z : Nat) (x : ZoneRotation) :
    (u.setZone y x).zone z = if z = y ∧ y < 8 then x else u.zone z := tget_tset _ _ _ _ _

theorem zone_of_le (u : RotationUnit) (z : Nat) (h : 8 ≤ z) : u.zone z = ZoneRotation.powerOn := tget_of_le _ _ _ h

theorem sponsor_setSponsor (u : RotationUnit) (n m : Nat) (p : Sponsor) :
    (u.setSponsor n p).sponsor m = if m = n ∧ n < 32 then p else u.sponsor m := tget_tset _ _ _ _ _

theorem sponsor_of_le (u : RotationUnit) (n : Nat) (h : 32 ≤ n) : u.sponsor n = Sponsor.unset := tget_of_le _ _ _ h

@[simp] theorem zone_setSponsor (u : RotationUnit) (n z : Nat) (p : Sponsor) : (u.setSponsor n p).zone z = u.zone z := rfl
@[simp] theorem sponsor_setZone (u : RotationUnit) (z n : Nat) (x : ZoneRotation) : (u.setZone z x).sponsor n = u.sponsor n := rfl

/-- A count of Table 5-1 below its top rises by 1. -/
theorem raise_of_lt (n : Nat) (h : n < 16777215) : raise n = n + 1 := by
  simp [raise, countUp, Config.topCount, h]

theorem raise_eq (n : Nat) : raise n = min 16777215 (n + 1) := by
  unfold raise countUp Config.topCount
  split <;> omega

/-! ### Sponsor zones (R81, R84) -/

theorem isSponsor_iff (s : State) (z : Nat) :
    (zoneAt s.compositor.zones z).isSponsor = true ↔ ∃ r, ServesSponsors s z r := by
  unfold Zone.isSponsor ServesSponsors
  constructor
  · intro h
    simp only [Bool.and_eq_true, beq_iff_eq, Option.map_eq_some_iff] at h
    obtain ⟨h1, c, h2, h3⟩ := h
    exact ⟨c.rect, h1, c, h2, h3, rfl⟩
  · rintro ⟨r, h1, c, h2, h3, -⟩
    simp [h1, h2, h3]

theorem fits_iff (s : State) (z n : Nat) (r : Rect) (h : ServesSponsors s z r) :
    (s.rotation.sponsor n).fits (zoneAt s.compositor.zones z) = true ↔ ArtFits s n r := by
  obtain ⟨-, c, h2, -, h3⟩ := h
  unfold Sponsor.fits ArtFits
  rw [h2, ← h3]
  cases (s.rotation.sponsor n).art with
  | none => simp
  | some a => simp

/-! ### Features (R97) -/

theorem insertFeature_length (f : Feature) (q : List Feature) : (insertFeature f q).length = q.length + 1 := by
  induction q with
  | nil => rfl
  | cons g q ih =>
    unfold insertFeature
    split <;> simp [ih]

theorem mem_insertFeature (f g : Feature) (q : List Feature) : g ∈ insertFeature f q ↔ g = f ∨ g ∈ q := by
  induction q with
  | nil => simp [insertFeature]
  | cons h q ih =>
    unfold insertFeature
    split
    · simp
    · simp only [List.mem_cons, ih]
      constructor
      · rintro (h | h | h) <;> simp [h]
      · rintro (h | h | h) <;> simp [h]

/-- In a queue ordered by level, a feature that arrived last goes behind the features of its level and above. -/
theorem insertFeature_last (f : Feature) (q : List Feature) (ha : ∀ g ∈ q, g.arrival < f.arrival)
    (ho : q.Pairwise fun p g => g.level ≤ p.level) :
    insertFeature f q = q.filter (fun g => f.level ≤ g.level) ++ f :: q.filter (fun g => g.level < f.level) := by
  induction q with
  | nil => rfl
  | cons g q ih =>
    have hq := ih (fun x hx => ha x (by simp [hx])) (List.Pairwise.of_cons ho)
    have hg := ha g (by simp)
    have hl := (List.pairwise_cons.1 ho).1
    unfold insertFeature
    by_cases h : g.level < f.level
    · have h1 : q.filter (fun x => decide (f.level ≤ x.level)) = [] := by
        apply List.filter_eq_nil_iff.2
        intro x hx
        have := hl x hx
        simp only [decide_eq_true_eq]; omega
      have h2 : q.filter (fun x => decide (x.level < f.level)) = q := by
        apply List.filter_eq_self.2
        intro x hx
        have := hl x hx
        simp only [decide_eq_true_eq]; omega
      have h3 : ¬ f.level ≤ g.level := by omega
      simp [Feature.before, h, h1, h2, h3]
    · have h3 : f.level ≤ g.level := by omega
      have h4 : ¬ f.arrival < g.arrival := by omega
      simp [Feature.before, h, h3, h4, hq]

/-! ### Events that fire entries (R96) -/

theorem setZone_triggers (u : RotationUnit) (z : Nat) (x : ZoneRotation) : (u.setZone z x).triggers = u.triggers := rfl

theorem fire_triggers (u : RotationUnit) (zs : Vector Zone 8) (n : Nat) (k : Trigger) : (u.fire zs n k).1.triggers = u.triggers := by
  unfold RotationUnit.fire RotationUnit.enqueue
  dsimp only
  repeat' split
  all_goals rfl

/-- A used entry fires as FIRE_FEATURE fires it, and no other unit but the Command Reader changes. -/
theorem fireFeature_used (s : State) (n : Nat) (k : Trigger) (h : n < 16) (hk : tget s.rotation.triggers n none = some k) :
    ∃ u, exec (.fireFeature n) s = .next u ∧ u.rotation = (s.rotation.fire s.compositor.zones n k).1 ∧
      u.compositor = s.compositor ∧
      u.transit = { s.transit with reports := s.transit.reports ++ (s.rotation.fire s.compositor.zones n k).2 } := by
  have e : exec (.fireFeature n) s = carryOut (.fireFeature n) s (s.rotated (s.rotation.fire s.compositor.zones n k).1
      (s.rotation.fire s.compositor.zones n k).2) := by
    simp only [exec, execFireFeature, hk]
    rw [if_neg (by omega)]
  exact ⟨_, e, rfl, rfl, rfl⟩

/-- What arrives fires the entries it matches as FIRE_FEATURE fires each, in ascending entry number. -/
theorem fireAll_fires (s : State) (e : Arrived) :
    ∃ entries u, entries.Pairwise (· < ·) ∧
      (∀ n, n ∈ entries ↔ ∃ k, tget s.rotation.triggers n none = some k ∧ k.event.matches e = true) ∧ FiresInTurn entries s u ∧
      u.rotation = (s.rotation.fireAll s.compositor.zones e).1 ∧
      u.transit = { s.transit with reports := s.transit.reports ++ (s.rotation.fireAll s.compositor.zones e).2 } := by
  let fires := fun n : Nat => match tget s.rotation.triggers n none with
    | some k => k.event.matches e
    | none => false
  let go := fun (acc : RotationUnit × List Report) (n : Nat) => match tget acc.1.triggers n none with
    | some k => if k.event.matches e then ((acc.1.fire s.compositor.zones n k).1, acc.2 ++ (acc.1.fire s.compositor.zones n k).2) else acc
    | none => acc
  have key : ∀ (ns : List Nat) (v : State) (rs : List Report), (∀ n ∈ ns, n < 16) → v.rotation.triggers = s.rotation.triggers →
      v.compositor = s.compositor → v.transit = { s.transit with reports := s.transit.reports ++ rs } →
      ∃ u, FiresInTurn (ns.filter fires) v u ∧ u.rotation = (ns.foldl go (v.rotation, rs)).1 ∧
        u.transit = { s.transit with reports := s.transit.reports ++ (ns.foldl go (v.rotation, rs)).2 } := by
    intro ns
    induction ns with
    | nil => intro v rs _ _ _ hv; exact ⟨v, .nil v, rfl, hv⟩
    | cons n ns ih =>
      intro v rs hn ht hc hv
      have hs : ∀ m ∈ ns, m < 16 := fun m hm => hn m (List.mem_cons_of_mem _ hm)
      rw [List.foldl_cons]
      cases hk : tget s.rotation.triggers n none with
      | none =>
        rw [List.filter_cons_of_neg (by simp only [fires, hk]; decide), show go (v.rotation, rs) n = (v.rotation, rs) by simp only [go, ht, hk]]
        exact ih v rs hs ht hc hv
      | some k =>
        cases hm : k.event.matches e with
        | false =>
          rw [List.filter_cons_of_neg (by simp [fires, hk, hm]), show go (v.rotation, rs) n = (v.rotation, rs) by simp only [go, ht, hk, hm]; rfl]
          exact ih v rs hs ht hc hv
        | true =>
          obtain ⟨w, h1, h2, h3, h4⟩ := fireFeature_used v n k (hn n List.mem_cons_self) (by rw [ht, hk])
          rw [List.filter_cons_of_pos (by simp [fires, hk, hm]), show go (v.rotation, rs) n =
            (w.rotation, rs ++ (v.rotation.fire s.compositor.zones n k).2) by simp only [go, ht, hk, hm, h2, hc, if_true]]
          obtain ⟨u, g1, g2⟩ := ih w _ hs (by rw [h2, fire_triggers, ht]) (h3.trans hc)
            (by rw [h4, hv, hc, List.append_assoc])
          exact ⟨u, .cons n _ v w u h1 g1, g2⟩
  obtain ⟨u, h1, h2, h3⟩ := key (List.range 16) s [] (fun n hn => List.mem_range.mp hn) rfl rfl (by simp)
  refine ⟨_, u, (List.pairwise_lt_range).filter _, fun n => ?_, h1, h2, h3⟩
  simp only [List.mem_filter, List.mem_range, fires]
  constructor
  · rintro ⟨-, h⟩
    split at h
    · rename_i k hk; exact ⟨k, hk, h⟩
    · cases h
  · rintro ⟨k, hk, h⟩
    refine ⟨?_, by rw [hk]; exact h⟩
    by_cases hn : n < 16
    · exact hn
    · rw [tget_of_le _ _ _ (Nat.le_of_not_lt hn)] at hk; cases hk

/-- A game event matches an entry as Table R95 reads. -/
theorem matches_game (k : TriggerEvent) (e : GameEvent) : k.matches (.game e) = true ↔ WaitsFor k e := by
  cases k <;> cases e <;> simp [TriggerEvent.matches, WaitsFor]

theorem matches_replay (k : TriggerEvent) (c : ChannelId) : k.matches (.replayStart c) = true ↔ k = .replayStart c := by
  cases k <;> simp [TriggerEvent.matches]

/-! ### Channels -/

theorem channel_setChannel (s : State) (c d : ChannelId) (x : Channel) :
    (s.setChannel c x).channel d = if d = c then x else s.channel d := by
  cases c <;> cases d <;> rfl

theorem frame_setChannel (s : State) (c : ChannelId) (x : Channel) : Frame [.playout] s (s.setChannel c x) :=
  frame_setPlayout s _

theorem rechanneled_setChannel (s : State) (c : ChannelId) (x : Channel) : Rechanneled s (s.setChannel c x) c x := by
  refine ⟨by simp [channel_setChannel], fun d hd => ?_⟩
  simp [channel_setChannel, hd]

/-! ### Delivery events on their way (R36, R85) -/

theorem frame_takeDelivery (s : State) : Frame [.rotation, .transit] s s.takeDelivery := by
  unfold State.takeDelivery
  split
  · exact .refl _ _
  · exact (Frame.mono (frame_setRotation s _) (by simp)).trans (Frame.mono (frame_setTransit _ _) (by simp))

/-- With no delivery event sent before a frame start, none is taken for it. -/
theorem takeDeliveriesBefore_late (f : FrameNo) (ds : List Delivery) (s : State)
    (h : ∀ d rest, ds = d :: rest → d.precedes f = false) : State.takeDeliveriesBefore f ds s = s := by
  cases ds with
  | nil => rfl
  | cons d rest => simp [State.takeDeliveriesBefore, h d rest rfl]

/-- The oldest delivery event, sent before a frame start, is taken first. -/
theorem takeDeliveriesBefore_early (f : FrameNo) (d : Delivery) (rest : List Delivery) (s : State) (h : d.precedes f = true) :
    State.takeDeliveriesBefore f (d :: rest) s = State.takeDeliveriesBefore f rest s.takeDelivery := by
  simp [State.takeDeliveriesBefore, h]

theorem frame_takeDeliveriesBefore (f : FrameNo) (ds : List Delivery) (s : State) :
    Frame [.rotation, .transit] s (State.takeDeliveriesBefore f ds s) := by
  induction ds generalizing s with
  | nil => exact .refl _ _
  | cons d rest ih =>
    unfold State.takeDeliveriesBefore
    split
    · exact (frame_takeDelivery s).trans (ih _)
    · exact .refl _ _

/-- A frame start at the Rotation Unit reaches that unit, the part it hands the status block, and what is on its way. -/
theorem frame_rotationFrame (s : State) (f : FrameNo) (rest : List FrameNo) :
    Frame [.rotation, .writer, .transit] s (s.rotationFrame f rest) := by
  unfold State.rotationFrame
  apply Frame.of <;> simp

end Sys2Proof.Machine
end

