-- ==== Sys2Proof/Laws/Parts.lean ====
section
/-! SUPPORT. The arrivals of a command that reaches more than one unit (R172): what each one leaves, and that the Command Reader's
record neither changes them nor is changed by them. -/

namespace Sys2Proof.Machine

open Sys2Proof

/-! ### Arrivals and the Command Reader -/

theorem setReader_userRequest (s : State) (r : CommandReader) (clip : Nat) (f : Clip → Clip) :
    (s.setReader r).userRequest clip f = (s.userRequest clip f).setReader r := by
  unfold State.userRequest
  dsimp only [State.setReader]
  cases s.capture.clip clip with
  | none => rfl
  | some c =>
    unfold State.settleClip
    dsimp only [State.setCapture]
    split
    · split
      · unfold State.dropClip
        dsimp only
        split <;> rfl
      · rfl
    · rfl

theorem setReader_giveUp (s : State) (r : CommandReader) (x : Channel) :
    (s.setReader r).giveUp x = (s.giveUp x).setReader r := by
  unfold State.giveUp
  split
  · rfl
  · split <;> simp only [State.markRelease, State.removeUser, setReader_userRequest]

theorem setReader_cueOn (s : State) (r : CommandReader) (c : ChannelId) (clip position : Nat) (a : EndAction) :
    (s.setReader r).cueOn c clip position a = (s.cueOn c clip position a).setReader r := by
  unfold State.cueOn
  dsimp only
  rw [show (s.setReader r).channel c = s.channel c from rfl, show (s.setReader r).capture = s.capture from rfl]
  split
  · rfl
  · rw [setReader_giveUp, State.addUser, setReader_userRequest]
    rfl

theorem setReader_playOn (s : State) (r : CommandReader) (c : ChannelId) :
    (s.setReader r).playOn c = (s.playOn c).setReader r := by
  unfold State.playOn
  dsimp only
  rw [show (s.setReader r).channel c = s.channel c from rfl]
  cases (s.channel c).state <;> rfl

/-- An arrival neither reads nor changes the Command Reader's record. -/
theorem setReader_reach (s : State) (r : CommandReader) (p : CommandPart) :
    (s.setReader r).reach p = (s.reach p).setReader r := by
  cases p with
  | cueMarked c clip play =>
    unfold State.reach
    dsimp only
    cases play
    · exact setReader_cueOn s r c clip 0 .release
    · simp only [if_true, setReader_cueOn, setReader_playOn]
  | _ => rfl

theorem setReader_reachAll (s : State) (r : CommandReader) (ps : List CommandPart) :
    (s.setReader r).reachAll ps = (s.reachAll ps).setReader r := by
  induction ps generalizing s with
  | nil => rfl
  | cons p ps ih => rw [State.reachAll, List.foldl_cons, setReader_reach]; exact ih (s.reach p)

theorem reach_reader (s : State) (p : CommandPart) : (s.reach p).reader = s.reader := by
  rw [show s.reach p = (s.setReader s.reader).reach p from rfl, setReader_reach]
  rfl

theorem reachAll_reader (s : State) (ps : List CommandPart) : (s.reachAll ps).reader = s.reader := by
  rw [show s.reachAll ps = (s.setReader s.reader).reachAll ps from rfl, setReader_reachAll]
  rfl

theorem reachAll_cons (s : State) (p : CommandPart) (ps : List CommandPart) : s.reachAll (p :: ps) = (s.reach p).reachAll ps := rfl

/-! ### The rows of a command in progress -/

/-- A row of the command in progress makes its next arrival. -/
theorem carryNext_reaching (cmd : Instr) (s : State) (first : Host.Outcome State Fault Refusal) (ps : List CommandPart) (a b : Nat)
    (h : s.reader.stage = .reaching cmd ps a b) : carryNext cmd s first = .next (s.reachNext cmd ps a b) := by
  simp [carryNext, CommandReader.partsOf, h]

/-- The row of a command that has not begun to reach its units. -/
theorem carryNext_other (cmd : Instr) (s : State) (first : Host.Outcome State Fault Refusal)
    (h : ¬ ∃ ps a b, s.reader.stage = .reaching cmd ps a b) : carryNext cmd s first = first := by
  unfold carryNext CommandReader.partsOf
  cases hs : s.reader.stage with
  | reaching c ps a b =>
    have : c ≠ cmd := fun e => h ⟨ps, a, b, e ▸ hs⟩
    simp [this]
  | _ => rfl

/-- One arrival with others still to make. -/
theorem reachNext_reader (s : State) (cmd : Instr) (p : CommandPart) (ps : List CommandPart) (a b : Nat) :
    (s.reachNext cmd (p :: ps) a b).reader = s.reader.withParts cmd ps a b := by
  simp only [State.reachNext, State.setReader, List.take_succ_cons, List.take_zero, List.drop_succ_cons, List.drop_zero,
    reachAll_reader]

theorem reachNext_eq (s : State) (cmd : Instr) (p : CommandPart) (ps : List CommandPart) (a b : Nat) :
    s.reachNext cmd (p :: ps) a b = (s.reach p).setReader (s.reader.withParts cmd ps a b) := by
  simp only [State.reachNext, List.take_succ_cons, List.take_zero, List.drop_succ_cons, List.drop_zero, State.reachAll,
    List.foldl_cons, List.foldl_nil, reach_reader]

/-- The arrivals left are the same whether the next one has been made by its row or not. -/
theorem partsReached_reachNext (s : State) (cmd : Instr) (p : CommandPart) (ps : List CommandPart) (a b : Nat)
    (h : s.reader.stage = .reaching cmd (p :: ps) a b) : (s.reachNext cmd (p :: ps) a b).partsReached = s.partsReached := by
  have left : s.partsReached = (s.reachAll (p :: ps)).setReader (s.reader.withParts cmd [] a b) := by
    simp only [State.partsReached, h, reachAll_reader]
  rw [left, reachNext_eq, reachAll_cons]
  cases ps with
  | nil => rfl
  | cons q qs =>
    have after : ∀ (u : State), u.reader.stage = .reaching cmd (q :: qs) a b →
        u.partsReached = (u.reachAll (q :: qs)).setReader (u.reader.withParts cmd [] a b) := fun u hu => by
      simp only [State.partsReached, hu, reachAll_reader]
    rw [after _ rfl, setReader_reachAll]
    rfl

/-! ### Frames -/

theorem frame_giveUp (s : State) (x : Channel) : Frame [.capture, .transit] s (s.giveUp x) := by
  unfold State.giveUp
  split
  · exact .refl _ _
  · split
    · exact (frame_userRequest _ _ _).trans (frame_userRequest _ _ _)
    · exact frame_userRequest _ _ _

theorem frame_cueOn (s : State) (c : ChannelId) (clip position : Nat) (a : EndAction) :
    Frame [.playout, .capture, .transit] s (s.cueOn c clip position a) := by
  unfold State.cueOn
  dsimp only
  split
  · exact (frame_setChannel s c _).mono (by simp)
  · exact ((frame_giveUp s _).mono (by simp)).trans
      (((frame_userRequest _ _ _).mono (by simp)).trans ((frame_setChannel _ c _).mono (by simp)))

theorem frame_playOn (s : State) (c : ChannelId) : Frame [.playout, .transit] s (s.playOn c) := by
  unfold State.playOn
  dsimp only
  split
  · exact ((frame_setChannel s c _).mono (by simp)).trans ((frame_setTransit _ _).mono (by simp))
  · exact (frame_setChannel s c _).mono (by simp)
  all_goals exact .refl _ _

/-- What each arrival may change. -/
theorem frame_reach (s : State) (p : CommandPart) : Frame (match p with
    | .resetRotation => [.rotation, .transit]
    | .resetRender => [.render, .scheduler]
    | .resetPlayout => [.playout]
    | .resetCapture => [.capture]
    | .resetMessages => [.messages]
    | .cueMarked _ _ _ => [.playout, .capture, .transit]) s (s.reach p) := by
  cases p with
  | resetRotation => exact ((frame_setRotation s _).mono (by simp)).trans ((frame_sendReports _ _).mono (by simp))
  | resetRender => exact ((frame_setRender s _).mono (by simp)).trans ((frame_setScheduler _ _).mono (by simp))
  | resetPlayout => exact frame_setPlayout s _
  | resetCapture => exact frame_setCapture s _
  | resetMessages => exact frame_setMessages s _
  | cueMarked c clip play =>
    unfold State.reach
    dsimp only
    split
    · exact (frame_cueOn s c clip 0 .release).trans ((frame_playOn _ c).mono (by simp))
    · exact frame_cueOn s c clip 0 .release

end Sys2Proof.Machine
end

