-- ==== Sys2Proof/Laws/Scheduler.lean ====
section
/-! SUPPORT. The Memory Scheduler: what each of its operations can do to its record. -/

namespace Sys2Proof.Machine

open Sys2Proof

/-! ### Operations keep what they were entered for -/

theorem atBurstStart_what (n : Nat) (e : Operation) : (e.atBurstStart n).what = e.what := by
  unfold Operation.atBurstStart
  split
  · rfl
  · split
    · dsimp only; split <;> rfl
    · rfl

theorem atBurstStart_order (n : Nat) (e : Operation) : (e.atBurstStart n).order = e.order := by
  unfold Operation.atBurstStart
  split
  · rfl
  · split
    · dsimp only; split <;> rfl
    · rfl

theorem atBurstStart_inBurst (n : Nat) (e : Operation) :
    (e.atBurstStart n).inBurst = (e.inBurst || e.order == n) := by
  unfold Operation.atBurstStart
  split
  · rename_i h; simp [h]
  · rename_i h
    have : (e.order == n) = false := by simpa using h
    split
    · dsimp only; split <;> simp [this]
    · simp [this]

theorem numberFrom_length (n : Nat) (ops : List Operation) : (numberFrom n ops).length = ops.length := by
  induction ops generalizing n with
  | nil => rfl
  | cons op ops ih => simp [numberFrom, ih]

theorem numberFrom_what (n : Nat) (ops : List Operation) :
    (numberFrom n ops).map Operation.what = ops.map Operation.what := by
  induction ops generalizing n with
  | nil => rfl
  | cons op ops ih => simp only [numberFrom, List.map_cons, ih]; rfl

/-- Entered operations have places in the order of entry, from the first one on, and none is in its burst. -/
theorem mem_numberFrom {n : Nat} {ops : List Operation} {e : Operation} (h : e ∈ numberFrom n ops) :
    n ≤ e.order ∧ e.order < n + ops.length ∧ e.inBurst = false := by
  induction ops generalizing n with
  | nil => simp [numberFrom] at h
  | cons op ops ih =>
    simp only [numberFrom, List.mem_cons] at h
    rcases h with rfl | h
    · exact ⟨Nat.le_refl _, by simp, rfl⟩
    · obtain ⟨h1, h2, h3⟩ := ih h
      refine ⟨by omega, ?_, h3⟩
      rw [List.length_cons]
      omega

theorem numberFrom_rising (n : Nat) (ops : List Operation) :
    (numberFrom n ops).Pairwise fun e f => e.order < f.order := by
  induction ops generalizing n with
  | nil => exact .nil
  | cons op ops ih =>
    refine .cons (fun f hf => ?_) (ih (n + 1))
    have h := (mem_numberFrom hf).1
    show n < f.order
    omega

/-! ### The bank rule (R159) -/

@[simp] theorem setBank_queue (d : Scheduler) (b : Nat) (x : Bank) : (d.setBank b x).queue = d.queue := rfl

/-- The bank rule changes at most the state of its bank. -/
theorem bankRule_cases (d : Scheduler) (b : Nat) : d.bankRule b = d ∨ ∃ x, d.bankRule b = d.setBank b x := by
  unfold Scheduler.bankRule
  repeat' split
  all_goals first
    | exact .inl rfl
    | exact .inr ⟨_, rfl⟩

/-- Two scheduler records differ in their banks alone. -/
def SameButBanks (d e : Scheduler) : Prop := e = { d with banks := e.banks }

theorem SameButBanks.refl (d : Scheduler) : SameButBanks d d := rfl

theorem SameButBanks.trans {d e f : Scheduler} (h : SameButBanks d e) (k : SameButBanks e f) : SameButBanks d f := by
  unfold SameButBanks at *
  rw [k, h]

theorem setBank_same (d : Scheduler) (b : Nat) (x : Bank) : SameButBanks d (d.setBank b x) := rfl

theorem bankRule_same (d : Scheduler) (b : Nat) : SameButBanks d (d.bankRule b) := by
  rcases bankRule_cases d b with h | ⟨x, h⟩ <;> rw [h]
  · exact .refl d
  · exact setBank_same d b x

/-- A step over a list that changes the banks alone changes the banks alone. -/
theorem foldl_same {α : Type} (f : Scheduler → α → Scheduler) (hf : ∀ d x, SameButBanks d (f d x)) (xs : List α)
    (d : Scheduler) : SameButBanks d (xs.foldl f d) := by
  induction xs generalizing d with
  | nil => exact .refl d
  | cons x xs ih => exact (hf d x).trans (ih _)

theorem allBankRules_same (d : Scheduler) : SameButBanks d d.allBankRules := foldl_same _ bankRule_same _ d

theorem closeBank_same (d : Scheduler) (b : Nat) : SameButBanks d (d.closeBank b) := by
  unfold Scheduler.closeBank
  repeat' split
  all_goals first
    | exact .refl d
    | exact setBank_same d b _

/-! ### Bursts (R160, R161) -/

/-- The queue as it was entered: directions, addresses, data and owners in the order of entry, with places and banks apart. -/
structure SameQueue (d e : Scheduler) : Prop where
  what : e.queue.map Operation.what = d.queue.map Operation.what
  orders : e.queue.map (·.order) = d.queue.map (·.order)
  next : e.nextOrder = d.nextOrder
  waiters : e.waiters = d.waiters

theorem SameQueue.refl (d : Scheduler) : SameQueue d d := ⟨rfl, rfl, rfl, rfl⟩

theorem SameQueue.trans {d e f : Scheduler} (h : SameQueue d e) (k : SameQueue e f) : SameQueue d f :=
  ⟨k.what.trans h.what, k.orders.trans h.orders, k.next.trans h.next, k.waiters.trans h.waiters⟩

theorem SameButBanks.queue {d e : Scheduler} (h : SameButBanks d e) : SameQueue d e := by
  unfold SameButBanks at h
  rw [h]
  exact ⟨rfl, rfl, rfl, rfl⟩

/-- The start of a burst: the operation named goes IN-BURST, older GENERAL ones are passed over, and nothing else of the record
changes but the promotions it brings. -/
theorem startBurst_fields (d : Scheduler) (n : Nat) :
    d.startBurst n = { d with queue := d.queue.map (Operation.atBurstStart n), promotions := (d.startBurst n).promotions } :=
  rfl

theorem startBurst_queue (d : Scheduler) (n : Nat) : SameQueue d (d.startBurst n) := by
  refine ⟨?_, ?_, rfl, rfl⟩
  · rw [startBurst_fields]
    simp only [List.map_map]
    exact List.map_congr_left fun e _ => atBurstStart_what n e
  · rw [startBurst_fields]
    simp only [List.map_map]
    exact List.map_congr_left fun e _ => atBurstStart_order n e

/-- The choice of a burst: none, or the burst of a ready operation of the queue, with the data path FREE. -/
theorem chooseBurst_cases (d : Scheduler) :
    d.chooseBurst = d ∨ ∃ e ∈ d.queue, d.ready e = true ∧ d.busy = false ∧ d.chooseBurst = d.startBurst e.order := by
  unfold Scheduler.chooseBurst
  split
  · exact .inl rfl
  · rename_i hb
    have hb : d.busy = false := by
      cases h : d.busy <;> simp_all
    split
    · rename_i e he
      have h1 := List.find?_some he
      exact .inr ⟨e, List.mem_of_find?_eq_some he, by simp only [Bool.and_eq_true] at h1; exact h1.1, hb, rfl⟩
    · split
      · rename_i e he
        have h1 := List.find?_some he
        exact .inr ⟨e, List.mem_of_find?_eq_some he, by simp only [Bool.and_eq_true] at h1; exact h1.1, hb, rfl⟩
      · exact .inl rfl

theorem chooseBurst_queue (d : Scheduler) : SameQueue d d.chooseBurst := by
  rcases chooseBurst_cases d with h | ⟨e, _, _, _, h⟩ <;> rw [h]
  · exact .refl d
  · exact startBurst_queue d _

/-- The choice of a burst leaves the banks, the refresh and initialisation as they were. -/
theorem chooseBurst_fields (d : Scheduler) :
    d.chooseBurst = { d with queue := d.chooseBurst.queue, promotions := d.chooseBurst.promotions } := by
  rcases chooseBurst_cases d with h | ⟨e, _, _, _, h⟩ <;> rw [h]
  exact startBurst_fields d _

/-! ### What is blocked, what is ready, and the choice among it (R157, R160) -/

/-- Two operations conflict where they share a beat and are not both READs. -/
theorem conflicts_iff (p q : Operation) : (p.sharesBeat q && (p.write || q.write)) = true ↔ Conflicts p q := by
  unfold Operation.sharesBeat Conflicts bankOf rowOf columnOf overlaps
  simp only [Bool.and_eq_true, Bool.or_eq_true, beq_iff_eq, decide_eq_true_eq]
  constructor
  · rintro ⟨⟨⟨h1, h2⟩, h3⟩, h4⟩
    exact ⟨h4, by omega, max (p.addr % 8192 / 32) (q.addr % 8192 / 32), by omega⟩
  · rintro ⟨h4, h1, c, h2⟩
    exact ⟨⟨⟨by omega, by omega⟩, by omega⟩, h4⟩

theorem blocked_iff (d : Scheduler) (op : Operation) : d.blocked op = true ↔ Blocked d op := by
  simp only [Scheduler.blocked, List.any_eq_true, Bool.and_assoc, Bool.and_eq_true, decide_eq_true_eq, Blocked,
    ← conflicts_iff]

theorem ready_iff (d : Scheduler) (op : Operation) (h : op ∈ d.queue) (hs : d.standsStill = false) :
    d.ready op = true ↔ ReadyIn d op := by
  have := blocked_iff d op
  simp only [Scheduler.ready, hs, Bool.and_eq_true, Bool.not_eq_true', beq_iff_eq, ReadyIn, h, true_and, bankOf, rowOf, and_true,
    Bool.not_false, ← this, Bool.not_eq_true, and_assoc]

theorem atBurstStart_passedBy (n : Nat) (e : Operation) : e.atBurstStart n = passedBy n e := by
  unfold Operation.atBurstStart passedBy
  simp only [Bool.and_eq_true, Bool.not_eq_true', beq_iff_eq, decide_eq_true_eq, and_assoc]
  split
  · rfl
  · split
    · rename_i h
      have hp : (e.passes + 1 = Config.ageingPasses) ↔ e.passes = 31 := by unfold Config.ageingPasses; omega
      simp only [hp]
      split
      · rename_i h31; rw [h31]
      · rw [← h.2.1]
    · rfl

/-- In a queue in order of entry the first operation found is the oldest. -/
theorem find?_oldest (l : List Operation) (p : Operation → Bool) (op : Operation) (order : l.Pairwise fun e f => e.order < f.order)
    (hm : op ∈ l) (hp : p op = true) (oldest : ∀ q ∈ l, p q = true → op.order ≤ q.order) : l.find? p = some op := by
  induction l with
  | nil => simp at hm
  | cons x xs ih =>
    obtain ⟨h1, h2⟩ := List.pairwise_cons.mp order
    rcases List.mem_cons.mp hm with rfl | hm'
    · simp [hp]
    · have hx : p x = false := by
        rw [Bool.eq_false_iff]
        intro hx
        have := oldest x List.mem_cons_self hx
        have := h1 op hm'
        omega
      rw [List.find?_cons, hx]
      exact ih h2 hm' fun q hq => oldest q (List.mem_cons_of_mem _ hq)

/-- The choice of a burst with the data path FREE (R160). -/
theorem chooseBurst_chosen (d : Scheduler) (b : Vector Bank 16) (h : d.standsStill = false) (free : ∀ e ∈ d.queue, e.inBurst = false)
    (order : d.queue.Pairwise fun e f => e.order < f.order) : BurstChosen { d with banks := b } d.chooseBurst := by
  have busy : d.busy = false := by
    rw [Bool.eq_false_iff]
    intro hb
    obtain ⟨e, he, h1⟩ := List.any_eq_true.mp hb
    rw [free e he] at h1
    cases h1
  have banks : d.chooseBurst.banks = d.banks := by rw [chooseBurst_fields]
  have same : ∀ q, ReadyIn { ({ d with banks := b } : Scheduler) with banks := d.chooseBurst.banks } q ↔ ReadyIn d q := fun q => by
    rw [banks]
  have ready : ∀ q, ReadyIn d q ↔ q ∈ d.queue ∧ d.ready q = true := fun q =>
    ⟨fun x => ⟨x.1, (ready_iff d q x.1 h).mpr x⟩, fun x => (ready_iff d q x.1 h).mp x.2⟩
  have started : ∀ op : Operation, (d.startBurst op.order).queue = d.queue.map (passedBy op.order) := fun op =>
    List.map_congr_left fun e _ => atBurstStart_passedBy _ e
  have cls : ∀ q : Operation, q.cls = .scanout ∨ q.cls = .general := fun q => by cases q.cls <;> simp
  refine ⟨fun op h1 h2 h3 => ?_, fun op h1 h2 => ?_, fun h1 => ?_⟩
  · rw [same] at h1
    have := find?_oldest d.queue (fun e => d.ready e && e.cls == .scanout) op order h1.1
      (by simp [((ready op).mp h1).2, h2]) fun q hq hr => h3 q ((same q).mpr ((ready q).mpr ⟨hq, by simp_all⟩)) (by simp_all)
    simp only [Scheduler.chooseBurst, h, busy, Bool.or_self, Bool.false_eq_true, if_false, this]
    exact started op
  · rw [same] at h1
    have none' : d.queue.find? (fun e => d.ready e && e.cls == .scanout) = none := List.find?_eq_none.mpr fun q hq hr => by
      simp only [Bool.and_eq_true, beq_iff_eq] at hr
      have := (h2 q ((same q).mpr ((ready q).mpr ⟨hq, hr.1⟩))).1
      rw [this] at hr
      exact absurd hr.2 (by decide)
    have := find?_oldest d.queue (fun e => d.ready e && e.cls == .general) op order h1.1
      (by simp [((ready op).mp h1).2, (h2 op ((same op).mpr h1)).1]) fun q hq hr =>
        (h2 q ((same q).mpr ((ready q).mpr ⟨hq, by simp_all⟩))).2
    simp only [Scheduler.chooseBurst, h, busy, Bool.or_self, Bool.false_eq_true, if_false, none', this]
    exact started op
  · have none' : ∀ c : OpClass, d.queue.find? (fun e => d.ready e && e.cls == c) = none := fun c =>
      List.find?_eq_none.mpr fun q hq hr => by
        simp only [Bool.and_eq_true] at hr
        exact h1 q ((same q).mpr ((ready q).mpr ⟨hq, hr.1⟩))
    simp only [Scheduler.chooseBurst, h, busy, Bool.or_self, Bool.false_eq_true, if_false, none']

/-- In a queue in order of entry an entry order names one operation. -/
theorem eq_of_order (l : List Operation) (order : l.Pairwise fun e f => e.order < f.order) (p q : Operation) (hp : p ∈ l) (hq : q ∈ l)
    (h : p.order = q.order) : p = q := by
  obtain ⟨i, hi, rfl⟩ := List.getElem_of_mem hp
  obtain ⟨j, hj, rfl⟩ := List.getElem_of_mem hq
  rcases Nat.lt_trichotomy i j with hij | hij | hij
  · have := List.pairwise_iff_getElem.mp order i j hi hj hij; omega
  · subst hij; rfl
  · have := List.pairwise_iff_getElem.mp order j i hj hi hij; omega

/-- The start of the burst of an operation that nothing blocks keeps R19. -/
theorem chooseBurst_inTurn (d : Scheduler) (order : d.queue.Pairwise fun e f => e.order < f.order)
    (h : ∀ op ∈ d.queue, op.inBurst = true → ¬ Blocked d op) :
    ∀ op ∈ d.chooseBurst.queue, op.inBurst = true → ¬ Blocked d.chooseBurst op := by
  rcases chooseBurst_cases d with e | ⟨n, hn, hr, hb, e⟩ <;> rw [e]
  · exact h
  · have same : ∀ p q : Operation, Conflicts (p.atBurstStart n.order) (q.atBurstStart n.order) → Conflicts p q := fun p q hc => by
      have hp := atBurstStart_what n.order p
      have hq := atBurstStart_what n.order q
      simp only [Operation.what, Prod.mk.injEq] at hp hq
      simpa only [Conflicts, hp.1, hp.2.1, hp.2.2.1, hq.1, hq.2.1, hq.2.2.1] using hc
    intro op hop hi hbl
    obtain ⟨q, hq, rfl⟩ := List.mem_map.mp hop
    obtain ⟨f, hf, ho, hc⟩ := hbl
    obtain ⟨p, hp, rfl⟩ := List.mem_map.mp hf
    rw [atBurstStart_order, atBurstStart_order] at ho
    rw [atBurstStart_inBurst] at hi
    have notBusy : q.inBurst = false := by
      rw [Bool.eq_false_iff]
      intro hx
      have : d.busy = true := List.any_eq_true.mpr ⟨q, hq, hx⟩
      rw [hb] at this
      cases this
    have hqn : q.order = n.order := by simpa [notBusy] using hi
    have hqe : q = n := eq_of_order d.queue order q n hq hn hqn
    subst hqe
    have : d.blocked q = false := by
      simp only [Scheduler.ready, Bool.and_eq_true, Bool.not_eq_true'] at hr
      exact hr.1.1.2
    have hnb := mt (blocked_iff d q).mpr (by rw [this]; decide)
    exact hnb ⟨p, hp, ho, same p q hc⟩

/-- The bank's claim (R159), with its oldest operation first. -/
theorem claim_iff (d : Scheduler) (bank : Nat) (order : d.queue.Pairwise fun e f => e.order < f.order) (op : Operation) :
    op ∈ d.claim bank ↔ Claims d bank op := by
  have waits : ∀ q, q ∈ d.queue.filter (fun e => !e.inBurst && bankOf e.addr == bank && !d.blocked e) ↔
      q ∈ d.queue ∧ q.inBurst = false ∧ q.addr / 8192 % 16 = bank ∧ ¬ Blocked d q := fun q => by
    rw [List.mem_filter, ← blocked_iff]
    simp only [Bool.and_eq_true, Bool.not_eq_true', beq_iff_eq, bankOf, Bool.not_eq_true, and_assoc]
  have sorted := order.filter fun e => !e.inBurst && bankOf e.addr == bank && !d.blocked e
  have aged : ∀ q : Operation, q.aged = true ↔ q.passes = 32 := fun q => by simp [Operation.aged, Config.ageingPasses]
  unfold Claims Scheduler.claim
  simp only [← waits]
  generalize d.queue.filter (fun e => !e.inBurst && bankOf e.addr == bank && !d.blocked e) = ops at sorted
  cases hf : ops.find? Operation.aged with
  | some e =>
    have he := List.mem_of_find?_eq_some hf
    have ha := (aged e).mp (List.find?_some hf)
    have first : ∀ q ∈ ops, q.passes = 32 → e.order ≤ q.order := by
      intro q hq hp
      obtain ⟨_, before, after, rfl, hb⟩ := List.find?_eq_some_iff_append.mp hf
      rcases List.mem_append.mp hq with h | h
      · have := hb q h
        rw [(aged q).mpr hp] at this
        cases this
      · rcases List.mem_cons.mp h with rfl | h
        · exact Nat.le_refl _
        · exact Nat.le_of_lt ((List.pairwise_cons.mp (List.pairwise_append.mp sorted).2.1).1 q h)
    simp only [List.mem_singleton]
    constructor
    · rintro rfl
      exact ⟨he, .inl ⟨ha, first⟩⟩
    · rintro ⟨h1, ⟨h2, h3⟩ | ⟨h2, -⟩⟩
      · exact eq_of_order ops sorted op e h1 he (Nat.le_antisymm (h3 e he ha) (first op h1 h2))
      · exact absurd ha (h2 e he)
  | none =>
    have noAged : ∀ q ∈ ops, q.passes ≠ 32 := fun q hq hp => by
      have := List.find?_eq_none.mp hf q hq
      exact this ((aged q).mpr hp)
    have cls : ∀ q : Operation, (q.cls == .scanout) = true ↔ q.cls = .scanout := fun q => beq_iff_eq
    dsimp only
    split
    · rename_i hs
      have none' : ∀ q ∈ ops, q.cls ≠ .scanout := fun q hq hc => by
        have := List.filter_eq_nil_iff.mp (List.isEmpty_iff.mp hs) q hq
        exact this ((cls q).mpr hc)
      exact ⟨fun h => ⟨h, .inr ⟨noAged, .inr none'⟩⟩, fun h => h.1⟩
    · rename_i hs
      rw [List.mem_filter, cls]
      constructor
      · rintro ⟨h1, h2⟩
        exact ⟨h1, .inr ⟨noAged, .inl h2⟩⟩
      · rintro ⟨h1, ⟨h2, -⟩ | ⟨-, h2 | h2⟩⟩
        · exact absurd h2 (noAged op h1)
        · exact ⟨h1, h2⟩
        · exact absurd (List.isEmpty_iff.mpr (List.filter_eq_nil_iff.mpr fun q hq hc => h2 q hq ((cls q).mp hc))) hs

/-- The claim stands in order of entry. -/
theorem claim_sorted (d : Scheduler) (bank : Nat) (order : d.queue.Pairwise fun e f => e.order < f.order) :
    (d.claim bank).Pairwise fun e f => e.order < f.order := by
  unfold Scheduler.claim
  dsimp only
  split
  · exact List.pairwise_singleton _ _
  · split
    · exact order.filter _
    · exact (order.filter _).filter _

/-! ### Entering operations (R156) -/

/-- Operations entered at once: they take the last places of the queue in their order; no unit waits more or less for it. -/
theorem enterAll_queue (d : Scheduler) (ops : List Operation) :
    (d.enterAll ops).queue.map Operation.what = d.queue.map Operation.what ++ ops.map Operation.what ∧
      (d.enterAll ops).queue.map (·.order) = d.queue.map (·.order) ++ (numberFrom d.nextOrder ops).map (·.order) ∧
      (d.enterAll ops).nextOrder = d.nextOrder + ops.length ∧ (d.enterAll ops).waiters = d.waiters := by
  unfold Scheduler.enterAll
  split
  · rename_i h
    have h : ops = [] := by simpa using h
    subst h
    simp [numberFrom]
  · dsimp only
    have h1 := (foldl_same (fun e (op : Operation) => Scheduler.bankRule e (bankOf op.addr)) (fun e op => bankRule_same e _) ops
      { d with queue := d.queue ++ numberFrom d.nextOrder ops, nextOrder := d.nextOrder + ops.length }).queue
    have h2 := h1.trans (chooseBurst_queue _)
    refine ⟨?_, ?_, h2.next, h2.waiters⟩
    · rw [h2.what]; simp [numberFrom_what]
    · rw [h2.orders]; simp

theorem enterAll_length (d : Scheduler) (ops : List Operation) :
    (d.enterAll ops).queue.length = d.queue.length + ops.length := by
  have h := congrArg List.length (enterAll_queue d ops).1
  simpa using h

/-- Entering leaves initialisation, the refresh and the debt as they were. -/
theorem enterAll_fields (d : Scheduler) (ops : List Operation) :
    (d.enterAll ops).init = d.init ∧ (d.enterAll ops).phase = d.phase ∧ (d.enterAll ops).debt = d.debt ∧
      (d.enterAll ops).forced = d.forced := by
  unfold Scheduler.enterAll
  split
  · exact ⟨rfl, rfl, rfl, rfl⟩
  · dsimp only
    have h1 := foldl_same (fun e (op : Operation) => Scheduler.bankRule e (bankOf op.addr)) (fun e op => bankRule_same e _) ops
      { d with queue := d.queue ++ numberFrom d.nextOrder ops, nextOrder := d.nextOrder + ops.length }
    unfold SameButBanks at h1
    generalize List.foldl _ _ ops = x at h1 ⊢
    rw [chooseBurst_fields x, h1]
    exact ⟨rfl, rfl, rfl, rfl⟩

/-- A unit that enters an operation with the queue not full and no other unit waiting has entered it and does not wait. -/
theorem mayEnter_of_room (d : Scheduler) (u : WaitingUnit) (n : Nat) (hw : d.waiters = []) (hn : d.queue.length + n ≤ 128) :
    d.mayEnter u n = true := by
  have h : n ≤ 128 - d.queue.length := by omega
  simp [Scheduler.mayEnter, hw, Scheduler.freePlaces, Config.queuePlaces, h]

theorem enterFor_queue (d : Scheduler) (u : WaitingUnit) (ops : List Operation) :
    (d.enterFor u ops).queue.map Operation.what = d.queue.map Operation.what ++ ops.map Operation.what ∧
      (d.enterFor u ops).waiters = d.waiters.erase u := by
  have h := enterAll_queue (d.leaveWait u) ops
  exact ⟨h.1, h.2.2.2⟩

/-- One operation entered where it may be: nothing is left, and the unit waits no more. -/
theorem enterMany_one (d : Scheduler) (u : WaitingUnit) (op : Operation) (h : d.mayEnter u 1 = true) :
    (d.enterMany u [op]).1 = [] ∧ (d.enterMany u [op]).2 = (d.enterFor u [op]).leaveWait u := by
  simp [Scheduler.enterMany, h]

/-- Entering one after another enters the first of them and leaves the last, in their order. -/
theorem enterMany_split (d : Scheduler) (u : WaitingUnit) (ops : List Operation) :
    ∃ entered, ops = entered ++ (d.enterMany u ops).1 ∧
      (d.enterMany u ops).2.queue.map Operation.what = d.queue.map Operation.what ++ entered.map Operation.what := by
  induction ops generalizing d with
  | nil => exact ⟨[], rfl, by simp [Scheduler.enterMany, Scheduler.leaveWait]⟩
  | cons op ops ih =>
    simp only [Scheduler.enterMany]
    split
    · obtain ⟨es, h1, h2⟩ := ih (d.enterFor u [op])
      refine ⟨op :: es, by rw [List.cons_append, ← h1], ?_⟩
      rw [h2, (enterFor_queue d u [op]).1]
      simp
    · refine ⟨[], rfl, ?_⟩
      unfold Scheduler.joinWait
      split <;> simp

/-! ### What the bank rule leaves (R159) -/

/-- The bank rule leaves every other bank as it was. -/
theorem bankRule_other (d : Scheduler) (b k : Nat) (h : k ≠ b) : tget (d.bankRule b).banks k .idle = tget d.banks k .idle := by
  rcases bankRule_cases d b with e | ⟨x, e⟩ <;> rw [e]
  exact tget_tset_other _ _ _ _ _ h

/-- What the bank rule makes of a bank follows from the queue and that bank's state alone. -/
theorem bankRule_local (d : Scheduler) (b : Nat) (v : Vector Bank 16) (h : tget v b .idle = tget d.banks b .idle) :
    tget (({ d with banks := v } : Scheduler).bankRule b).banks b .idle = tget (d.bankRule b).banks b .idle := by
  unfold Scheduler.bankRule
  have hc : ({ d with banks := v } : Scheduler).claim b = d.claim b := rfl
  have hb : ({ d with banks := v } : Scheduler).bankBusy b = d.bankBusy b := rfl
  have hs : ({ d with banks := v } : Scheduler).standsStill = d.standsStill := rfl
  rw [hs, hc, hb, h]
  repeat' split
  all_goals first
    | exact h
    | (simp only [Scheduler.setBank, tget_tset, h])

/-- A second application of the bank rule finds nothing more to do. -/
theorem bankRule_twice (d : Scheduler) (b : Nat) : (d.bankRule b).bankRule b = d.bankRule b := by
  by_cases hb : b < 16
  · unfold Scheduler.bankRule
    by_cases hs : d.standsStill = true
    · simp [hs]
    · simp only [hs]
      cases hx : tget d.banks b .idle with
      | idle =>
        cases hc : d.claim b with
        | nil => simp [hs, hx, hc]
        | cons e es =>
          simp [Scheduler.setBank, tget_tset, hb]
      | active r =>
        by_cases h : ((d.claim b).any (fun e => rowOf e.addr == r) || d.bankBusy b) = true
        · simp [h, hs, hx]
        · simp [h, Scheduler.setBank, tget_tset, hb]
      | activating r => simp [hs, hx]
      | precharging => simp [hs, hx]
  · rcases bankRule_cases d b with e | ⟨x, e⟩
    · rw [e, e]
    · have : d.setBank b x = d := by unfold Scheduler.setBank; rw [tset_of_le _ _ _ (by omega)]
      rw [e, this, e, this]

/-- The bank rule applied to the banks of a list: each of them is as the rule alone makes it, every other one stands. -/
theorem bankRules_tget (f : α → Nat) (ops : List α) (d : Scheduler) (b : Nat) :
    ((∃ op ∈ ops, f op = b) →
      tget (ops.foldl (fun e op => Scheduler.bankRule e (f op)) d).banks b .idle = tget (d.bankRule b).banks b .idle) ∧
    ((∀ op ∈ ops, f op ≠ b) → tget (ops.foldl (fun e op => Scheduler.bankRule e (f op)) d).banks b .idle = tget d.banks b .idle) := by
  induction ops generalizing d with
  | nil => simp
  | cons op ops ih =>
    obtain ⟨h1, h2⟩ := ih (d.bankRule (f op))
    have same : tget ((d.bankRule (f op)).bankRule b).banks b .idle = tget (d.bankRule b).banks b .idle := by
      by_cases hb : f op = b
      · rw [hb, bankRule_twice]
      · have k := bankRule_same d (f op)
        unfold SameButBanks at k
        rw [k]
        exact bankRule_local d b _ (bankRule_other d _ _ fun h => hb h.symm)
    rw [List.foldl_cons]
    refine ⟨fun h => ?_, fun h => ?_⟩
    · by_cases hm : ∃ x ∈ ops, f x = b
      · rw [h1 hm, same]
      · rw [h2 fun x hx hf => hm ⟨x, hx, hf⟩]
        obtain ⟨x, hx, hf⟩ := h
        rcases List.mem_cons.mp hx with rfl | hx
        · rw [hf]
        · exact absurd ⟨x, hx, hf⟩ hm
    · rw [h2 fun x hx => h x (List.mem_cons_of_mem _ hx)]
      exact bankRule_other d _ _ (h op List.mem_cons_self).symm

/-- The oldest operation of a claim stands first in it. -/
theorem claim_head (d : Scheduler) (b : Nat) (order : d.queue.Pairwise fun e f => e.order < f.order) (e : Operation)
    (h : Claims d b e) (oldest : ∀ q, Claims d b q → e.order ≤ q.order) : ∃ es, d.claim b = e :: es := by
  have hm := (claim_iff d b order e).mpr h
  have sorted := claim_sorted d b order
  cases hc : d.claim b with
  | nil => rw [hc] at hm; simp at hm
  | cons x xs =>
    rw [hc] at hm sorted
    rcases List.mem_cons.mp hm with rfl | hx
    · exact ⟨xs, rfl⟩
    · have h1 := (List.pairwise_cons.mp sorted).1 e hx
      have h2 := oldest x ((claim_iff d b order x).mp (by rw [hc]; exact List.mem_cons_self))
      omega

/-- What the bank rule leaves at its bank (R159). -/
theorem bankRule_ruled (d : Scheduler) (b : Nat) (hb : b < 16) (hs : d.standsStill = false)
    (order : d.queue.Pairwise fun e f => e.order < f.order) : BankRuled d b (tget (d.bankRule b).banks b .idle) := by
  have at' : ∀ x, tget (d.setBank b x).banks b .idle = x := fun x => tget_tset_same _ _ _ _ hb
  have busy : d.bankBusy b = true ↔ ∃ e ∈ d.queue, e.inBurst = true ∧ e.addr / 8192 % 16 = b := by
    simp [Scheduler.bankBusy, bankOf]
  have wants : ∀ r, (d.claim b).any (fun e => rowOf e.addr == r) = true ↔ ∃ e, Claims d b e ∧ e.addr / 131072 = r := fun r => by
    simp [rowOf, claim_iff d b order]
  have active : ∀ r, tget d.banks b .idle = .active r → tget (d.bankRule b).banks b .idle =
      if (d.claim b).any (fun e => rowOf e.addr == r) || d.bankBusy b then .active r else .precharging := fun r hr => by
    simp only [Scheduler.bankRule, hs, hr, Bool.false_eq_true, if_false]
    split
    · exact hr
    · exact at' _
  refine ⟨fun hi e he ho => ?_, fun hi hn => ?_, fun r e hr he h1 => ?_, fun r e he hr h1 h2 => ?_, fun r hr hn hq => ?_,
    fun r hr => ?_, fun hr => ?_⟩
  · obtain ⟨es, hc⟩ := claim_head d b order e he ho
    simp only [Scheduler.bankRule, hs, hi, hc, Bool.false_eq_true, if_false]
    exact at' _
  · have hc : d.claim b = [] := List.eq_nil_iff_forall_not_mem.mpr fun e he => hn e ((claim_iff d b order e).mp he)
    simp only [Scheduler.bankRule, hs, hi, hc, Bool.false_eq_true, if_false]
  · rw [active r hr, (wants r).mpr ⟨e, he, h1⟩, Bool.true_or, if_pos rfl]
  · rw [active r hr, busy.mpr ⟨e, he, h1, h2⟩, Bool.or_true, if_pos rfl]
  · have h1 := mt (wants r).mp fun ⟨e, he, h⟩ => hn e he h
    have h2 := mt busy.mp fun ⟨e, he, h⟩ => hq e he h.1 h.2
    rw [active r hr, if_neg (by simp [h1, h2])]
  · simp only [Scheduler.bankRule, hs, hr, Bool.false_eq_true, if_false]
  · simp only [Scheduler.bankRule, hs, hr, Bool.false_eq_true, if_false]

/-- The data path at an arrival, with the banks as the arrival has left them (R160). -/
theorem chooseBurst_path (d : Scheduler) (v : Vector Bank 16) (hs : d.standsStill = false)
    (order : d.queue.Pairwise fun e f => e.order < f.order) : DataPath { d with banks := v } d.chooseBurst := by
  refine ⟨fun free => chooseBurst_chosen d v hs free order, fun ⟨q, hq, hi⟩ => ?_⟩
  have : d.busy = true := List.any_eq_true.mpr ⟨q, hq, hi⟩
  simp [Scheduler.chooseBurst, this]

/-- The data path's choice is one among the operations of the queue before, with the banks as they are after. -/
theorem DataPath.of_queue {p q e : Scheduler} (h : DataPath p e) (hq : p.queue = q.queue) : DataPath q e := by
  have ready : ∀ op, ReadyIn { q with banks := e.banks } op ↔ ReadyIn { p with banks := e.banks } op := fun op => by
    simp only [ReadyIn, Blocked, hq]
  refine ⟨fun free => ?_, fun busy => ?_⟩
  · have k := h.free (by rw [hq]; exact free)
    refine ⟨fun op a b c => ?_, fun op a b => ?_, fun a => ?_⟩
    · rw [← hq]
      exact k.scanout op ((ready op).mp a) b fun x hx => c x ((ready x).mpr hx)
    · rw [← hq]
      exact k.general op ((ready op).mp a) fun x hx => b x ((ready x).mpr hx)
    · rw [← hq]
      exact k.free fun op hx => a op ((ready op).mpr hx)
  · rw [← hq]
    exact h.busy (by rw [hq]; exact busy)

/-- Operations entered at once, with no refresh and initialisation completed (R156, R159, R160). -/
theorem enterAll_entered (d : Scheduler) (ops : List Operation) (hn : ops ≠ []) (hs : d.standsStill = false)
    (order : d.queue.Pairwise fun e f => e.order < f.order) (fresh : ∀ e ∈ d.queue, e.order < d.nextOrder) :
    Entered d (d.enterAll ops) (numberFrom d.nextOrder ops) := by
  have h0 : ops.isEmpty = false := by cases ops <;> simp_all
  have sorted : (d.queue ++ numberFrom d.nextOrder ops).Pairwise fun e f => e.order < f.order :=
    List.pairwise_append.mpr ⟨order, numberFrom_rising _ _, fun e he f hf => by
      have := fresh e he; have := (mem_numberFrom hf).1; omega⟩
  have banksOf : ∀ b, (∃ op ∈ ops, bankOf op.addr = b) ↔ ∃ op ∈ numberFrom d.nextOrder ops, op.addr / 8192 % 16 = b := fun b => by
    have h := congrArg (List.map fun w => w.2.1 / 8192 % 16) (numberFrom_what d.nextOrder ops)
    simp only [List.map_map] at h
    have h1 : b ∈ ops.map (fun op => op.addr / 8192 % 16) ↔ b ∈ (numberFrom d.nextOrder ops).map (fun op => op.addr / 8192 % 16) := by
      have : (numberFrom d.nextOrder ops).map (fun op => op.addr / 8192 % 16) = ops.map (fun op => op.addr / 8192 % 16) := h
      rw [this]
    simpa [bankOf] using h1
  unfold Scheduler.enterAll
  simp only [h0, Bool.false_eq_true, if_false]
  have same := foldl_same (fun e (op : Operation) => Scheduler.bankRule e (bankOf op.addr)) (fun e op => bankRule_same e _) ops
    { d with queue := d.queue ++ numberFrom d.nextOrder ops, nextOrder := d.nextOrder + ops.length }
  have rules := bankRules_tget (fun op : Operation => bankOf op.addr) ops
    { d with queue := d.queue ++ numberFrom d.nextOrder ops, nextOrder := d.nextOrder + ops.length }
  unfold SameButBanks at same
  generalize List.foldl _ _ ops = x at same rules ⊢
  have hx : x.standsStill = false := by rw [same]; exact hs
  have hq : x.queue = d.queue ++ numberFrom d.nextOrder ops := by rw [same]
  have banks : x.chooseBurst.banks = x.banks := by rw [chooseBurst_fields]
  refine ⟨fun k op hk => ?_, fun b hb ho => ?_, fun b ho => ?_, ?_⟩
  · clear rules same
    have : ∀ (m : Nat) (os : List Operation) (k : Nat), (numberFrom m os)[k]? = some op →
        op.order = m + k ∧ op.passes = 0 ∧ op.inBurst = false := by
      intro m os
      induction os generalizing m with
      | nil => intro k h; simp [numberFrom] at h
      | cons o os ih =>
        intro k h
        cases k with
        | zero =>
          simp only [numberFrom, List.getElem?_cons_zero, Option.some.injEq] at h
          subst h; exact ⟨rfl, rfl, rfl⟩
        | succ k =>
          simp only [numberFrom, List.getElem?_cons_succ] at h
          obtain ⟨h1, h2⟩ := ih _ _ h
          exact ⟨by omega, h2⟩
    exact this _ _ _ hk
  · rw [banks, (rules b).1 ((banksOf b).mpr ho)]
    have h := bankRule_ruled { d with queue := d.queue ++ numberFrom d.nextOrder ops, nextOrder := d.nextOrder + ops.length } b hb hs
      sorted
    exact ⟨h.opens, h.idles, h.keeps, h.carries, h.closes, h.activates, h.precharges⟩
  · rw [banks, (rules b).2 fun op hop hf => ?_]
    obtain ⟨op', h1, h2⟩ := (banksOf b).mp ⟨op, hop, hf⟩
    exact ho op' h1 h2
  · exact (chooseBurst_path x d.banks hx (by rw [hq]; exact sorted)).of_queue hq

/-! ### Refresh and initialisation (R162-R166) -/

/-- The closing of the banks changes the banks and may begin the refresh. -/
theorem closeForRefresh_fields (d : Scheduler) :
    d.closeForRefresh = { d with banks := d.closeForRefresh.banks, phase := d.closeForRefresh.phase } := by
  unfold Scheduler.closeForRefresh
  split
  · dsimp only
    have h := foldl_same Scheduler.closeBank closeBank_same (List.range 16) d
    unfold SameButBanks at h
    split <;> rw [h]
  · rfl

/-- The bank rule applied to every bank leaves at each what the rule leaves there (R165, R166). -/
theorem allBankRules_ruled (d : Scheduler) (hs : d.standsStill = false) (order : d.queue.Pairwise fun e f => e.order < f.order)
    (b : Nat) (hb : b < 16) : BankRuled d b (tget d.allBankRules.banks b .idle) := by
  have h := (bankRules_tget id (List.range 16) d b).1 ⟨b, List.mem_range.mpr hb, rfl⟩
  have k : d.allBankRules = (List.range 16).foldl (fun e op => Scheduler.bankRule e (id op)) d := rfl
  rw [k, h]
  exact bankRule_ruled d b hb hs order

/-- A bank closed for a refresh stands as its own state and the queue have it; the other banks stand. -/
theorem closeBank_tget (d : Scheduler) (b k : Nat) (hb : b < 16) : tget (d.closeBank b).banks k .idle =
    if k = b then (match tget d.banks b .idle with
      | .active r => if d.bankBusy b then .active r else .precharging
      | x => x)
    else tget d.banks k .idle := by
  unfold Scheduler.closeBank
  by_cases hk : k = b
  · subst hk
    cases hx : tget d.banks k .idle <;> simp only [if_true]
    case active r =>
      by_cases hq : d.bankBusy k = true
      · simp [hq, hx]
      · simp [hq, Scheduler.setBank, tget_tset, hb]
    all_goals exact hx
  · simp only [hk, if_false]
    cases hx : tget d.banks b .idle <;> dsimp only
    case active r =>
      split
      · rfl
      · exact tget_tset_other _ _ _ _ _ hk

/-- The banks of a list closed for a refresh, each at most once. -/
theorem closeBanks_tget (bs : List Nat) (d : Scheduler) (hn : bs.Nodup) (hb : ∀ b ∈ bs, b < 16) (k : Nat) :
    tget (bs.foldl Scheduler.closeBank d).banks k .idle =
      if k ∈ bs then (match tget d.banks k .idle with
        | .active r => if d.bankBusy k then .active r else .precharging
        | x => x)
      else tget d.banks k .idle := by
  induction bs generalizing d with
  | nil => simp
  | cons b bs ih =>
    obtain ⟨h1, h2⟩ := List.nodup_cons.mp hn
    have q := closeBank_same d b
    have hq : (d.closeBank b).queue = d.queue := by unfold SameButBanks at q; rw [q]
    have hbusy : (d.closeBank b).bankBusy k = d.bankBusy k := by unfold Scheduler.bankBusy; rw [hq]
    rw [List.foldl_cons, ih _ h2 fun x hx => hb x (List.mem_cons_of_mem _ hx), hbusy, closeBank_tget d b k (hb b List.mem_cons_self)]
    by_cases hk : k = b
    · subst hk; simp [h1]
    · simp [hk]

/-- The closing of the banks taken as far as it goes (R163, R164): every ACTIVE bank with no burst of its own is PRECHARGING, and the
refresh begins where every bank was IDLE. -/
theorem closeForRefresh_closed (d : Scheduler) (h : d.phase = .closing) :
    (∀ b, b < 16 → tget d.closeForRefresh.banks b .idle = match tget d.banks b .idle with
      | .active r => if d.bankBusy b then .active r else .precharging
      | x => x) ∧
    ((∀ b, b < 16 → tget d.banks b .idle = .idle) → d.closeForRefresh.phase = .refreshing) ∧
    (¬ (∀ b, b < 16 → tget d.banks b .idle = .idle) → d.closeForRefresh.phase = .closing) := by
  have banks := closeBanks_tget (List.range 16) d List.nodup_range (fun b hb => List.mem_range.mp hb)
  have same := foldl_same Scheduler.closeBank closeBank_same (List.range 16) d
  unfold SameButBanks at same
  unfold Scheduler.closeForRefresh
  simp only [h, if_true]
  generalize (List.range 16).foldl Scheduler.closeBank d = x at banks same
  have hp : x.phase = .closing := by rw [same]; exact h
  have idle : x.allIdle = true ↔ ∀ b, b < 16 → tget d.banks b .idle = .idle := by
    unfold Scheduler.allIdle
    rw [List.all_eq_true]
    constructor
    · intro hx b hb
      have := hx _ (mem_toList_of_tget x.banks b .idle hb)
      rw [banks, if_pos (List.mem_range.mpr hb)] at this
      have this := beq_iff_eq.mp this
      cases hc : tget d.banks b .idle <;> simp only [hc] at this
      case idle => rfl
      case active r => split at this <;> cases this
      all_goals exact this
    · intro hx y hy
      obtain ⟨b, hb, rfl⟩ := exists_tget_of_mem x.banks y .idle hy
      rw [banks, if_pos (List.mem_range.mpr hb), hx b hb]
      rfl
  refine ⟨fun b hb => ?_, fun hi => ?_, fun hi => ?_⟩
  · have := banks b
    rw [if_pos (List.mem_range.mpr hb)] at this
    split <;> exact this
  · rw [if_pos (idle.mpr hi)]
  · rw [if_neg fun hx => hi (idle.mp hx)]
    exact hp

theorem closeForRefresh_queue (d : Scheduler) : SameQueue d d.closeForRefresh := by
  rw [closeForRefresh_fields]
  exact ⟨rfl, rfl, rfl, rfl⟩

theorem beginRefresh_queue (d : Scheduler) : SameQueue d d.beginRefresh := by
  have h := closeForRefresh_queue { d with phase := .closing }
  exact ⟨h.what, h.orders, h.next, h.waiters⟩

theorem afterBurst_queue (d : Scheduler) (b : Nat) : SameQueue d (d.afterBurst b) := by
  unfold Scheduler.afterBurst
  split
  · exact (bankRule_same d b).queue
  · exact closeForRefresh_queue d

/-- No arrival of the scheduler but a burst's completion takes an operation from the queue, and none enters one. -/
theorem activateDone_queue (d : Scheduler) (b : Nat) : SameQueue d (d.activateDone b) := by
  unfold Scheduler.activateDone
  split
  · rename_i r _
    dsimp only
    have h := (setBank_same d b (.active r)).queue
    split
    · exact (h.trans (bankRule_same _ _).queue).trans (chooseBurst_queue _)
    · exact h.trans (closeForRefresh_queue _)
  · exact .refl d

theorem prechargeDone_queue (d : Scheduler) (b : Nat) : SameQueue d (d.prechargeDone b) := by
  unfold Scheduler.prechargeDone
  split
  · dsimp only
    have h := (setBank_same d b .idle).queue
    split
    · exact h.trans (bankRule_same _ _).queue
    · exact h.trans (closeForRefresh_queue _)
  · exact .refl d

theorem promotionDone_queue (d : Scheduler) : SameQueue d d.promotionDone := by
  unfold Scheduler.promotionDone
  split
  · exact .refl d
  · rename_i n rest _
    dsimp only
    have h : SameQueue d { d with promotions := rest } := ⟨rfl, rfl, rfl, rfl⟩
    split
    · exact h
    · exact (h.trans (bankRule_same _ _).queue).trans (chooseBurst_queue _)

theorem intervalEvent_queue (d : Scheduler) : SameQueue d d.intervalEvent := by
  unfold Scheduler.intervalEvent
  split
  · exact .refl d
  · dsimp only
    split
    · split
      · have h := beginRefresh_queue { d with debt := countUp Config.topDebt d.debt, forced := true }
        exact ⟨h.what, h.orders, h.next, h.waiters⟩
      · exact ⟨rfl, rfl, rfl, rfl⟩
    · exact ⟨rfl, rfl, rfl, rfl⟩

theorem idleRefresh_queue (d : Scheduler) : SameQueue d d.idleRefresh := by
  unfold Scheduler.idleRefresh
  split
  · exact beginRefresh_queue d
  · exact .refl d

theorem refreshDone_queue (d : Scheduler) : SameQueue d d.refreshDone := by
  unfold Scheduler.refreshDone
  split
  · dsimp only
    have h : SameQueue d { d with debt := d.debt - 1, forced := false, phase := .quiet } := ⟨rfl, rfl, rfl, rfl⟩
    split
    · exact ⟨rfl, rfl, rfl, rfl⟩
    · split
      · exact h.trans (beginRefresh_queue _)
      · exact (h.trans (allBankRules_same _).queue).trans (chooseBurst_queue _)
  · exact .refl d

theorem initStepDone_queue (d : Scheduler) : SameQueue d d.initStepDone := by
  unfold Scheduler.initStepDone
  split
  · exact .refl d
  · exact ⟨rfl, rfl, rfl, rfl⟩
  · exact ⟨rfl, rfl, rfl, rfl⟩
  · exact ⟨rfl, rfl, rfl, rfl⟩
  · dsimp only
    have h : SameQueue d
        { d with init := .done, banks := Vector.replicate 16 .idle, debt := 0, phase := .quiet, forced := false } :=
      ⟨rfl, rfl, rfl, rfl⟩
    exact (h.trans (allBankRules_same _).queue).trans (chooseBurst_queue _)
  · exact .refl d

end Sys2Proof.Machine
end

