-- ==== Sys2Proof/Laws/Entry.lean ====
section
/-! SUPPORT. The rows that enter operations: the groups in which they enter them, and what the groups leave at the scheduler. -/

namespace Sys2Proof.Machine

open Sys2Proof

/-! ### Groups of operations entered one after another -/

/-- A scheduler record after groups of operations have been entered, one group at once after another; units may have begun or ended
their waits in between. -/
inductive Enters : Scheduler → List (List Operation) → Scheduler → Prop where
  | none (d : Scheduler) : Enters d [] d
  | waits (d e : Scheduler) (w : List WaitingUnit) (gs : List (List Operation)) (rest : Enters { d with waiters := w } gs e) : Enters d gs e
  | group (d e : Scheduler) (ops : List Operation) (gs : List (List Operation)) (some : ops ≠ []) (rest : Enters (d.enterAll ops) gs e) :
      Enters d (ops :: gs) e

theorem Enters.trans {d e f : Scheduler} {gs hs : List (List Operation)} (h : Enters d gs e) (k : Enters e hs f) :
    Enters d (gs ++ hs) f := by
  induction h with
  | none => exact k
  | waits d e w gs _ ih => exact .waits _ _ w _ (ih k)
  | group d e ops gs hn _ ih => exact .group _ _ ops _ hn (ih k)

theorem Enters.ofWaiters (d : Scheduler) (w : List WaitingUnit) : Enters d [] { d with waiters := w } := .waits _ _ w _ (.none _)

theorem enters_enterAll (d : Scheduler) (ops : List Operation) (h : ops ≠ []) : Enters d [ops] (d.enterAll ops) :=
  .group _ _ ops _ h (.none _)

theorem enters_enterFor (d : Scheduler) (u : WaitingUnit) (ops : List Operation) (h : ops ≠ []) : Enters d [ops] (d.enterFor u ops) :=
  .waits _ _ (d.waiters.erase u) _ (enters_enterAll _ _ h)

theorem enters_joinWait (d : Scheduler) (u : WaitingUnit) : Enters d [] (d.joinWait u) := by
  unfold Scheduler.joinWait
  split
  · exact .none d
  · exact .ofWaiters d _

/-- What the groups enter joins the queue in their order, none of the groups is empty, and the refresh and initialisation stand. -/
theorem Enters.queue {d e : Scheduler} {gs : List (List Operation)} (h : Enters d gs e) :
    e.queue.map Operation.what = d.queue.map Operation.what ++ gs.flatten.map Operation.what ∧ (∀ g ∈ gs, g ≠ []) ∧
      e.init = d.init ∧ e.phase = d.phase := by
  induction h with
  | none => simp
  | waits d e w gs _ ih => exact ih
  | group d e ops gs hn _ ih =>
    obtain ⟨h1, h2, h3, h4⟩ := ih
    have hf := enterAll_fields d ops
    rw [(enterAll_queue d ops).1] at h1
    refine ⟨by rw [h1]; simp, ?_, h3.trans hf.1, h4.trans hf.2.1⟩
    intro g hg
    rcases List.mem_cons.mp hg with rfl | hg
    · exact hn
    · exact h2 g hg

/-- Nothing entered leaves all but the waits. -/
theorem Enters.empty {d e : Scheduler} {gs : List (List Operation)} (h : Enters d gs e) (hg : gs = []) :
    e = { d with waiters := e.waiters } := by
  induction h with
  | none => rfl
  | waits d e w gs _ ih => exact ih hg
  | group => cases hg

/-- What has been entered does not depend on which units wait. -/
theorem Entered.of_waiters {d e : Scheduler} {w : List WaitingUnit} {ops : List Operation} (h : Entered { d with waiters := w } e ops) :
    Entered d e ops :=
  ⟨h.placed, fun b hb ho => ⟨(h.ruled b hb ho).opens, (h.ruled b hb ho).idles, (h.ruled b hb ho).keeps, (h.ruled b hb ho).carries,
    (h.ruled b hb ho).closes, (h.ruled b hb ho).activates, (h.ruled b hb ho).precharges⟩, h.others, h.path.of_queue rfl⟩

/-- One group entered, with no refresh and initialisation completed. -/
theorem Enters.entered {d e : Scheduler} {gs : List (List Operation)} (h : Enters d gs e) (ops : List Operation) (hg : gs = [ops])
    (hs : d.standsStill = false) (order : d.queue.Pairwise fun e f => e.order < f.order) (fresh : ∀ e ∈ d.queue, e.order < d.nextOrder) :
    Entered d e (numberFrom d.nextOrder ops) := by
  induction h with
  | none => cases hg
  | waits d e w gs _ ih =>
    exact (ih hg hs order fresh).of_waiters
  | group d e ops' gs hn rest _ =>
    obtain ⟨rfl, rfl⟩ := List.cons.inj hg
    have k := enterAll_entered d ops' hn hs order fresh
    have he := rest.empty rfl
    have hb : e.banks = (d.enterAll ops').banks := by rw [he]
    have hq : e.queue = (d.enterAll ops').queue := by rw [he]
    refine ⟨k.placed, fun b h1 h2 => by rw [hb]; exact k.ruled b h1 h2, fun b h1 => by rw [hb]; exact k.others b h1,
      fun free => ?_, fun busy => by rw [hq]; exact k.path.busy busy⟩
    obtain ⟨h1, h2, h3⟩ := k.path.free free
    rw [← hb, ← hq] at h1 h2 h3
    exact ⟨h1, h2, h3⟩

theorem EnteredInTurn.of_waiters {d e : Scheduler} {w : List WaitingUnit} {ops : List Operation}
    (h : EnteredInTurn { d with waiters := w } e ops) : EnteredInTurn d e ops := by
  cases h with
  | none _ _ hb hq => exact .none _ _ hb hq
  | one _ m _ op ops first next rest => exact .one _ m _ op ops first.of_waiters next rest

/-- Operations entered at once keep the queue in order of entry, below the next place. -/
theorem enterAll_kept (d : Scheduler) (ops : List Operation) (order : d.queue.Pairwise fun e f => e.order < f.order)
    (fresh : ∀ e ∈ d.queue, e.order < d.nextOrder) :
    ((d.enterAll ops).queue.Pairwise fun e f => e.order < f.order) ∧ ∀ q ∈ (d.enterAll ops).queue, q.order < (d.enterAll ops).nextOrder := by
  obtain ⟨-, h2, h3, -⟩ := enterAll_queue d ops
  rw [h3]
  constructor
  · suffices k : ((d.enterAll ops).queue.map (·.order)).Pairwise (· < ·) from List.pairwise_map.mp k
    rw [h2]
    refine List.pairwise_append.mpr ⟨List.pairwise_map.mpr order, List.pairwise_map.mpr (numberFrom_rising _ _), fun x hx y hy => ?_⟩
    obtain ⟨q, hq, rfl⟩ := List.mem_map.mp hx
    obtain ⟨r, hr, rfl⟩ := List.mem_map.mp hy
    exact Nat.lt_of_lt_of_le (fresh q hq) (mem_numberFrom hr).1
  · intro q hq
    have : q.order ∈ (d.enterAll ops).queue.map (·.order) := List.mem_map_of_mem hq
    rw [h2] at this
    rcases List.mem_append.mp this with h | h
    · obtain ⟨r, hr, hro⟩ := List.mem_map.mp h
      have := fresh r hr
      have : r.order = q.order := hro
      omega
    · obtain ⟨r, hr, hro⟩ := List.mem_map.mp h
      have := (mem_numberFrom hr).2.1
      have : r.order = q.order := hro
      omega

/-- So do groups entered one after another. -/
theorem Enters.kept {d e : Scheduler} {gs : List (List Operation)} (h : Enters d gs e)
    (order : d.queue.Pairwise fun e f => e.order < f.order) (fresh : ∀ e ∈ d.queue, e.order < d.nextOrder) :
    (e.queue.Pairwise fun e f => e.order < f.order) ∧ ∀ q ∈ e.queue, q.order < e.nextOrder := by
  induction h with
  | none => exact ⟨order, fresh⟩
  | waits d e w gs _ ih => exact ih order fresh
  | group d e ops gs hn _ ih =>
    obtain ⟨h1, h2⟩ := enterAll_kept d ops order fresh
    exact ih h1 h2

/-- Operations entered one by one, with no refresh and initialisation completed. -/
theorem Enters.inTurn {d e : Scheduler} {gs : List (List Operation)} (h : Enters d gs e) (hg : ∀ g ∈ gs, g.length = 1)
    (hs : d.standsStill = false) (order : d.queue.Pairwise fun e f => e.order < f.order) (fresh : ∀ e ∈ d.queue, e.order < d.nextOrder) :
    EnteredInTurn d e (numberFrom d.nextOrder gs.flatten) := by
  induction h with
  | none d => exact .none _ _ rfl rfl
  | waits d e w gs _ ih => exact (ih hg hs order fresh).of_waiters
  | group d e ops gs hn _ ih =>
    obtain ⟨op, rfl⟩ := List.length_eq_one_iff.mp (hg ops (.head _))
    have h3 := (enterAll_queue d [op]).2.2.1
    have hf := enterAll_fields d [op]
    have hs' : (d.enterAll [op]).standsStill = false := by
      rw [← hs]; simp only [Scheduler.standsStill, hf.1, hf.2.1]
    obtain ⟨order', fresh'⟩ := enterAll_kept d [op] order fresh
    have k := ih (fun g hm => hg g (.tail _ hm)) hs' order' fresh'
    rw [h3] at k
    exact .one _ _ _ _ _ (enterAll_entered d [op] (by simp) hs order fresh) h3 k

/-- Groups entered while a refresh is forced or under way, or before initialisation has completed, wait in the queue (R163, R166). -/
theorem Enters.stand {d e : Scheduler} {gs : List (List Operation)} (h : Enters d gs e) (hs : d.standsStill = true) :
    e.banks = d.banks ∧ e.queue = d.queue ++ numberFrom d.nextOrder gs.flatten := by
  induction h with
  | none => simp [numberFrom]
  | waits d e w gs _ ih => exact ih hs
  | group d e ops gs hn _ ih =>
    have rule : ∀ (os : List Operation) (x : Scheduler), x.standsStill = true →
        os.foldl (fun e op => Scheduler.bankRule e (bankOf op.addr)) x = x := by
      intro os
      induction os with
      | nil => exact fun _ _ => rfl
      | cons o os ih =>
        intro x hx
        have : x.bankRule (bankOf o.addr) = x := by simp [Scheduler.bankRule, hx]
        rw [List.foldl_cons, this, ih x hx]
    have e0 : d.enterAll ops = { d with queue := d.queue ++ numberFrom d.nextOrder ops, nextOrder := d.nextOrder + ops.length } := by
      unfold Scheduler.enterAll
      rw [if_neg (by simpa using hn)]
      dsimp only
      rw [rule ops { d with queue := d.queue ++ numberFrom d.nextOrder ops, nextOrder := d.nextOrder + ops.length } hs]
      have hx : ({ d with queue := d.queue ++ numberFrom d.nextOrder ops, nextOrder := d.nextOrder + ops.length } : Scheduler).standsStill =
          true := hs
      simp [Scheduler.chooseBurst, hx]
    have split : ∀ (xs ys : List Operation) (n : Nat), numberFrom n (xs ++ ys) = numberFrom n xs ++ numberFrom (n + xs.length) ys := by
      intro xs ys
      induction xs with
      | nil => simp [numberFrom]
      | cons x xs ih =>
        intro n
        simp only [List.cons_append, numberFrom, ih, List.length_cons]
        rw [show n + 1 + xs.length = n + (xs.length + 1) by omega]
    rw [e0] at ih
    obtain ⟨h1, h2⟩ := ih hs
    refine ⟨h1, ?_⟩
    rw [h2, List.flatten_cons, split, List.append_assoc]

/-! ### The units that enter (R156) -/

/-- A state after operations have been entered one after another. -/
structure EntersSingly (s t : State) : Prop where
  groups : ∃ gs, Enters s.scheduler gs t.scheduler ∧ ∀ g ∈ gs, g.length = 1

theorem EntersSingly.refl {s t : State} (h : t.scheduler = s.scheduler) : EntersSingly s t := ⟨[], by rw [h]; exact .none _, by simp⟩

theorem EntersSingly.trans {s t u : State} (h : EntersSingly s t) (k : EntersSingly t u) : EntersSingly s u := by
  obtain ⟨gs, h1, h2⟩ := h
  obtain ⟨hs, k1, k2⟩ := k
  exact ⟨gs ++ hs, h1.trans k1, fun g hg => (List.mem_append.mp hg).elim (h2 g) (k2 g)⟩

theorem EntersSingly.after {s t u : State} (k : EntersSingly t u) (h : t.scheduler = s.scheduler) : EntersSingly s u :=
  EntersSingly.trans (.refl h) k

theorem EntersSingly.before {s t u : State} (k : EntersSingly s t) (h : u.scheduler = t.scheduler) : EntersSingly s u :=
  k.trans (.refl h)

theorem entersSingly_setScheduler (s : State) (d : Scheduler) (w : List WaitingUnit) (h : d = { s.scheduler with waiters := w }) :
    EntersSingly s (s.setScheduler d) := ⟨[], by rw [h]; exact .ofWaiters _ _, by simp⟩

theorem enters_enterMany (d : Scheduler) (u : WaitingUnit) (ops : List Operation) :
    ∃ gs, Enters d gs (d.enterMany u ops).2 ∧ ∀ g ∈ gs, g.length = 1 := by
  induction ops generalizing d with
  | nil => exact ⟨[], .ofWaiters _ _, by simp⟩
  | cons op ops ih =>
    simp only [Scheduler.enterMany]
    split
    · obtain ⟨gs, h1, h2⟩ := ih (d.enterFor u [op])
      exact ⟨[op] :: gs, (enters_enterFor d u [op] (by simp)).trans h1, by simpa using h2⟩
    · exact ⟨[], enters_joinWait _ _, by simp⟩

theorem entersSingly_renderEnter (s : State) : EntersSingly s s.renderEnter := by
  unfold State.renderEnter
  split
  · exact .refl rfl
  · exact ⟨enters_enterMany _ _ _⟩

theorem entersSingly_readerEnter (s : State) : EntersSingly s s.readerEnter := by
  unfold State.readerEnter
  split
  · exact .refl rfl
  · exact ⟨enters_enterMany _ _ _⟩

theorem entersSingly_takeNext (s : State) : EntersSingly s s.takeNext := by
  unfold State.takeNext
  split
  · dsimp only
    exact (entersSingly_readerEnter _).after rfl
  · exact .refl rfl

theorem entersSingly_ringWrite (s : State) (r : Report) (frame : BitVec 32) : EntersSingly s (s.ringWrite r frame) :=
  ⟨[[_]], enters_enterFor _ _ _ (by simp), by simp⟩

theorem entersSingly_writerRest (s : State) : EntersSingly s s.writerRest := by
  unfold State.writerRest
  split
  · exact ⟨[], enters_joinWait _ _, by simp⟩
  · exact .refl rfl

theorem entersSingly_arriveReport (s : State) (r : Report) : EntersSingly s (s.arriveReport r) := by
  unfold State.arriveReport
  dsimp only
  split
  · exact entersSingly_ringWrite _ _ _
  · split
    · exact (entersSingly_writerRest _).after rfl
    · exact .refl rfl

theorem entersSingly_arriveAll (s : State) : EntersSingly s s.arriveAll := by
  have : ∀ (rs : List Report) (t : State), EntersSingly t (rs.foldl State.arriveReport t) := by
    intro rs
    induction rs with
    | nil => exact fun t => .refl rfl
    | cons r rs ih => exact fun t => (entersSingly_arriveReport t r).trans (ih _)
  unfold State.arriveAll
  exact (this _ _).after rfl

theorem entersSingly_writeHeld (s : State) : EntersSingly s s.writeHeld := by
  unfold State.writeHeld
  split
  · exact .refl rfl
  · split
    · exact ((entersSingly_ringWrite _ _ _).trans (entersSingly_writerRest _)).after rfl
    · exact entersSingly_writerRest _

theorem entersSingly_drainHeld (n : Nat) (s : State) : EntersSingly s (State.drainHeld n s) := by
  induction n generalizing s with
  | zero => exact .refl rfl
  | succ n ih => exact (entersSingly_writeHeld s).trans (ih _)

theorem entersSingly_finishCommand (s : State) (res : CommandResult) (frame : BitVec 32) : EntersSingly s (s.finishCommand res frame) := by
  have h : EntersSingly s (s.writeOwn res frame) := (entersSingly_ringWrite s _ _).before rfl
  exact (h.trans (entersSingly_writerRest _)).trans (entersSingly_takeNext _)

theorem entersSingly_writeStatus (s : State) (p : StatusParts) : EntersSingly s (s.writeStatus p) :=
  ⟨[[_]], enters_enterFor _ _ _ (by simp), by simp⟩

theorem entersSingly_writerEnter (s : State) : EntersSingly s s.writerEnter := by
  unfold State.writerEnter
  split
  · split
    · exact entersSingly_writeHeld s
    · exact entersSingly_setScheduler s _ _ rfl
  · split
    · dsimp only
      split
      · exact (entersSingly_finishCommand _ _ _).after rfl
      · exact (entersSingly_writerRest _).after rfl
    · exact .refl rfl
  · split
    · exact ((entersSingly_writeStatus _ _).trans (entersSingly_writerRest _)).after rfl
    · exact .refl rfl

theorem entersSingly_fontBegin (s : State) : EntersSingly s s.fontBegin := by
  unfold State.fontBegin
  split
  · exact .refl rfl
  · split
    · exact .refl rfl
    · dsimp only
      exact (entersSingly_renderEnter _).after rfl

/-- The reach of a command's further parts leaves all of the scheduler but the waits. -/
theorem entersSingly_reachAll (ps : List CommandPart) (s : State) : EntersSingly s (s.reachAll ps) := by
  have one : ∀ (s : State) (p : CommandPart), EntersSingly s (s.reach p) := by
    intro s p
    cases p with
    | resetRender => exact ⟨[], .ofWaiters _ _, by simp⟩
    | resetRotation => exact .refl rfl
    | resetPlayout => exact .refl rfl
    | resetCapture => exact .refl rfl
    | resetMessages => exact .refl rfl
    | cueMarked c clip playFlag => exact .refl (frame_reach s (.cueMarked c clip playFlag) .scheduler (by simp))
  unfold State.reachAll
  induction ps generalizing s with
  | nil => exact .refl rfl
  | cons p ps ih => exact (one s p).trans (ih _)

theorem entersSingly_endCommand (s : State) : EntersSingly s s.endCommand := by
  unfold State.endCommand
  split
  · split
    · exact .refl rfl
    · dsimp only
      split
      · exact (entersSingly_arriveAll s).trans (entersSingly_finishCommand _ _ _)
      · exact (entersSingly_arriveAll s).trans ((entersSingly_writerRest _).after rfl)
  all_goals exact .refl rfl

/-- What the Compositor enters for a composite request, and what the Fabric Port enters for a request, is one group. -/
theorem enters_compositorWork (s : State) : ∃ gs, Enters s.scheduler gs s.compositorWork.scheduler ∧ gs.length ≤ 1 := by
  unfold State.compositorWork
  split
  · exact ⟨[], .ofWaiters _ _, by simp⟩
  · dsimp only
    split
    · split
      · refine ⟨[], ?_, by simp⟩
        have : ∀ (u : State) (w : Working), (u.compositeComplete w).scheduler = u.scheduler := fun u w => by
          simp only [State.compositeComplete, State.noteDone]
          split
          · rfl
          · split <;> rfl
        rw [this]
        exact .ofWaiters _ _
      · rename_i q _ _ _ hf
        exact ⟨[_], enters_enterFor _ _ _ (by simpa using hf), by simp⟩
    · exact ⟨[], enters_joinWait _ _, by simp⟩

theorem enters_accept (s : State) : ∃ gs, Enters s.scheduler gs s.accept.scheduler ∧ gs.length ≤ 1 := by
  unfold State.accept
  split
  · exact ⟨[], .none _, by simp⟩
  · split
    · exact ⟨[], .ofWaiters _ _, by simp⟩
    · split
      · exact ⟨[], .none _, by simp⟩
      · split
        · unfold State.acceptEntry
          dsimp only
          rw [State.setScheduler_scheduler]
          generalize plainOps _ _ _ _ ++ _ = ops
          cases ops with
          | nil => exact ⟨[], .ofWaiters s.scheduler (s.scheduler.waiters.erase .port), by simp⟩
          | cons op ops => exact ⟨[_], enters_enterFor _ _ _ (by simp), by simp⟩
        · exact ⟨[], enters_joinWait _ _, by simp⟩

/-- What a row that enters operations enters: one group at once, or one operation after another. -/
theorem exec_enters (c : Instr) (s t : State) (hc : entersOperations c = true) (h : exec c s = .next t) :
    ∃ gs, Enters s.scheduler gs t.scheduler ∧ if entersTogether c s then gs.length ≤ 1 else ∀ g ∈ gs, g.length = 1 := by
  have done : ∀ {x : State}, (Host.Outcome.next x : Host.Outcome State Fault Refusal) = .next t → x = t := fun k => Host.Outcome.next.inj k
  have single : entersTogether c s = false → EntersSingly s t →
      ∃ gs, Enters s.scheduler gs t.scheduler ∧ if entersTogether c s then gs.length ≤ 1 else ∀ g ∈ gs, g.length = 1 := fun hf k => by
    rw [hf]
    exact k.groups
  cases c <;> first
    | exact absurd hc Bool.false_ne_true
    | skip
  case requestAccept presented =>
    rw [← done h]
    exact enters_accept (s.setPort (presented.foldl FabricPort.present s.port))
  case compositeWorkOut =>
    rw [← done h]
    exact enters_compositorWork s
  case renderJobStart =>
    refine single rfl ?_
    simp only [exec, execRenderJobStart] at h
    split at h
    · split at h
      · rw [← done h]; exact .refl rfl
      · split at h
        · rw [← done h]; exact .refl rfl
        · rw [← done h]; exact (entersSingly_renderEnter _).after rfl
    · rw [← done h]; exact .refl rfl
  case renderJobComplete =>
    refine single rfl ?_
    simp only [exec, execRenderJobComplete] at h
    split at h
    · rw [← done h]; exact .refl rfl
    · split at h
      · rw [← done h]; exact (entersSingly_fontBegin _).after rfl
      · rw [← done h]; exact .refl rfl
  case loadFont base count advance =>
    refine single rfl ?_
    simp only [exec, execLoadFont] at h
    split at h
    · rw [← done h]; exact .refl rfl
    · rw [← done h]; exact (entersSingly_fontBegin _).after rfl
  case waitingUnitEntry =>
    simp only [exec, execWaitingUnitEntry] at h
    split at h <;> rename_i hw <;> rw [← done h] <;> simp only [entersTogether, hw, if_true]
    · exact ⟨[], .none _, by simp⟩
    · exact enters_accept s
    · exact enters_compositorWork s
    · exact (entersSingly_renderEnter s).groups
    · exact (entersSingly_readerEnter s).groups
    · exact (entersSingly_writerEnter s).groups
  case commandIndexWrite =>
    refine single rfl ?_
    simp only [exec, execCommandIndexWrite] at h
    split at h
    · rw [← done h]; exact .refl rfl
    · split at h <;> rw [← done h]
      · exact (entersSingly_takeNext _).after rfl
      · exact .refl rfl
  case reportConsumerWrite =>
    refine single rfl ?_
    simp only [exec, execReportConsumerWrite] at h
    split at h
    · rw [← done h]; exact .refl rfl
    · split at h <;> rw [← done h]
      · exact ((entersSingly_drainHeld _ _).trans (entersSingly_takeNext _)).after rfl
      · exact .refl rfl
  case commandTake =>
    exact single rfl (done h ▸ entersSingly_takeNext s)
  case commandFetchComplete =>
    refine single rfl ?_
    simp only [exec, execCommandFetchComplete] at h
    split at h
    · rw [← done h]
      unfold State.decodeFetched
      split
      · exact .refl rfl
      · split
        · exact .refl rfl
        · split
          · exact .refl rfl
          · dsimp only
            exact (entersSingly_readerEnter _).after rfl
    · split at h <;> rw [← done h] <;> exact .refl rfl
    all_goals (rw [← done h]; exact .refl rfl)
  case commandEnd =>
    refine single rfl ?_
    have k : t = s.partsReached.endCommand := (done h).symm
    rw [k]
    refine EntersSingly.trans ?_ (entersSingly_endCommand _)
    unfold State.partsReached
    split
    · dsimp only
      exact (entersSingly_reachAll _ _).before rfl
    all_goals exact .refl rfl
  case reportArrival =>
    refine single rfl ?_
    simp only [exec, execReportArrival] at h
    split at h <;> rw [← done h]
    · exact .refl rfl
    · exact (entersSingly_arriveReport _ _).after rfl
  case heldReportWrite =>
    exact single rfl (done h ▸ entersSingly_writeHeld s)
  case statusBlockWrite =>
    refine single rfl ?_
    simp only [exec, execStatusBlockWrite, State.statusReady] at h
    split at h
    · rw [← done h]; exact .refl rfl
    · rename_i p s1 hp
      have hs : s1.scheduler = s.scheduler := by
        split at hp
        · obtain ⟨-, rfl⟩ := Prod.mk.inj (Option.some.inj hp); rfl
        · cases hp
      split at h <;> rw [← done h]
      · exact ((entersSingly_writeStatus _ _).trans (entersSingly_writerRest _)).after hs
      · exact (entersSingly_writerRest _).after hs

/-! ### The completion of a burst (R160) -/

/-- A completion handed to its owner leaves the scheduler. -/
theorem complete_scheduler (s : State) (op : Operation) (bs : List Byte) : (s.complete op bs).scheduler = s.scheduler := by
  have composite : ∀ (u : State) (w : Working), (u.compositeComplete w).scheduler = u.scheduler := fun u w => by
    simp only [State.compositeComplete, State.noteDone]
    split
    · rfl
    · split <;> rfl
  unfold State.complete
  split
  case h_4 =>
    simp only [State.compositorFetched]
    split
    · rfl
    · split
      · exact composite _ _
      · rfl
  case h_8 =>
    unfold State.recordFetched
    split <;> rfl
  case h_9 =>
    unfold State.payloadFetched
    split <;> rfl
  all_goals rfl

/-- What the completion of a burst leaves at the scheduler: the operation gone, the bank rule or the closing at its bank, what the Render
Engine then enters, and the choice of the next burst. -/
theorem burstComplete_scheduler (s t : State) (op : Operation) (hb : s.scheduler.bursting = some op) (h : exec .burstComplete s = .next t) :
    ∃ gs u, Enters ((s.scheduler.removeOp op.order).afterBurst (bankOf op.addr)) gs u ∧ (∀ g ∈ gs, g.length = 1) ∧
      t.scheduler = u.chooseBurst := by
  simp only [exec, execBurstComplete, hb, State.scheduled] at h
  rw [← Host.Outcome.next.inj h]
  obtain ⟨gs, k1, k2⟩ := (entersSingly_renderEnter
    ((((s.storeOp op).setScheduler (s.scheduler.removeOp op.order)).complete op (s.readOp op)).setScheduler
      ((((s.storeOp op).setScheduler (s.scheduler.removeOp op.order)).complete op (s.readOp op)).scheduler.afterBurst
        (bankOf op.addr)))).groups
  have e : (((s.storeOp op).setScheduler (s.scheduler.removeOp op.order)).complete op (s.readOp op)).scheduler =
      s.scheduler.removeOp op.order := by rw [complete_scheduler, State.setScheduler_scheduler]
  rw [State.setScheduler_scheduler, e] at k1
  rw [e]
  exact ⟨gs, _, k1, k2, rfl⟩

end Sys2Proof.Machine
end

