-- ==== Sys2Proof/Laws/FramePath.lean ====
section
/-! SUPPORT. The Fabric Port and the Path Classifier: roles, runs of beats, the transfers of one row, and which initiator is
offered the next place. -/

namespace Sys2Proof.Machine

open Sys2Proof

/-! ### Roles (R3) -/

theorem role_of_le (c : Classifier) (i : Nat) (h : 16 ≤ i) : c.role i = .none := tget_of_le _ _ _ h

/-- The role of every initiator after one is given a role. -/
theorem role_giveRole (c : Classifier) (i : Nat) (given : Role) (j : Nat) (hj : j < 16) :
    (c.giveRole i given).role j = if j = i then given else if c.displaced i given j then Role.none else c.role j := by
  simp [Classifier.giveRole, Classifier.role, tget, hj]

/-! ### Runs and transfers (R14, R155) -/

/-- Places that are all marked are one run. -/
theorem runsOf_all (n at' : Nat) : runsOf (List.replicate (n + 1) true) at' = [(at', n + 1)] := by
  induction n generalizing at' with
  | zero => rfl
  | succ n ih =>
    rw [List.replicate_succ, runsOf, ih]
    simp

/-- Places none of which is marked have no run. -/
theorem runsOf_none (n at' : Nat) : runsOf (List.replicate n false) at' = [] := by
  induction n generalizing at' with
  | zero => rfl
  | succ n ih => simp [List.replicate_succ, runsOf, ih]

/-- A transfer within one row is one piece. -/
theorem transferPieces_one (a beats : Nat) (ha : a % 32 = 0) (hb : 0 < beats)
    (hr : a / 8192 = (a + 32 * beats - 1) / 8192) : transferPieces a beats = [(a, beats)] := by
  obtain ⟨n, rfl⟩ : ∃ n, beats = n + 1 := ⟨beats - 1, by omega⟩
  have hk : min (n + 1) (256 - columnOf a) = n + 1 := by
    unfold columnOf
    omega
  unfold transferPieces rowPieces
  rw [if_neg (by omega)]
  simp only [hk]
  have : rowPieces n (a + 32 * (n + 1)) (n + 1 - (n + 1)) = [] := by
    cases n <;> simp [rowPieces]
  rw [this]

/-! ### The initiator offered the next place (R15) -/

/-- Where one request alone is presented, by an initiator below its limit, that initiator is offered the place. -/
theorem nextOffered_alone (p : FabricPort) (i : Nat) (hi : i < 16) (ho : p.offered = none) (hc : p.considered i = true)
    (hn : ∀ j, j ≠ i → p.considered j = false) : p.nextOffered = some i := by
  unfold FabricPort.nextOffered
  rw [ho]
  have hm : i ∈ (List.range 16).map fun k => (p.pointer + 1 + k) % 16 := by
    rw [List.mem_map]
    refine ⟨(i + 16 - (p.pointer + 1) % 16) % 16, List.mem_range.2 (by omega), by omega⟩
  simp only
  cases h : (List.map (fun k => (p.pointer + 1 + k) % 16) (List.range 16)).find? p.considered with
  | none =>
    have := List.find?_eq_none.1 h i hm
    simp [hc] at this
  | some j =>
    have hj := List.find?_some h
    by_cases hij : j = i
    · rw [hij]
    · rw [hn j hij] at hj
      cases hj

end Sys2Proof.Machine
end

