-- ==== Sys2Proof/Laws/Memory.lean ====
section
/-! SUPPORT. Frame DRAM: what is read after a write, and that every memory operation keeps the canonical form. -/

namespace Sys2Proof.Machine

open Sys2Proof

/-! ### Reading after writing -/

theorem memGet_memSet (m : Memory) (a a' : Nat) (b : Byte) :
    memGet (memSet m a b) a' = if a = a' then some b else memGet m a' := by
  induction m with
  | nil => simp [memSet, memGet]
  | cons p m ih =>
    obtain ⟨k, c⟩ := p
    simp only [memSet]
    split
    · simp only [memGet]
    · split
      · rename_i _ heq
        subst heq
        simp only [memGet]
        split <;> rfl
      · rename_i _ hne
        simp only [memGet, ih]
        by_cases hk : k = a'
        · subst hk
          simp [hne]
        · simp [hk]

/-! ### The canonical form -/

/-- Every listed address is at least `a`. -/
def startsAt (a : Nat) : Memory → Prop
  | [] => True
  | (k, _) :: _ => a ≤ k

theorem wf_cons (a : Nat) (b : Byte) (m : Memory) :
    Memory.wf ((a, b) :: m) = true ↔ startsAt (a + 1) m ∧ Memory.wf m = true := by
  cases m with
  | nil => simp [Memory.wf, startsAt]
  | cons p m =>
    obtain ⟨k, c⟩ := p
    simp [Memory.wf, startsAt, Nat.succ_le_iff]

theorem startsAt_memSet (m : Memory) (n a : Nat) (b : Byte) (hn : n ≤ a) (h : startsAt n m) :
    startsAt n (memSet m a b) := by
  cases m with
  | nil => exact hn
  | cons p m =>
    obtain ⟨k, c⟩ := p
    simp only [memSet]
    split
    · exact hn
    · split
      · exact hn
      · exact h

theorem wf_memSet (m : Memory) (a : Nat) (b : Byte) (h : Memory.wf m = true) : Memory.wf (memSet m a b) = true := by
  induction m with
  | nil => rfl
  | cons p m ih =>
    obtain ⟨k, c⟩ := p
    simp only [memSet]
    split
    · rename_i hlt
      exact (wf_cons _ _ _).2 ⟨hlt, h⟩
    · rename_i hge
      have h' := (wf_cons _ _ _).1 h
      split
      · rename_i heq
        subst heq
        exact (wf_cons _ _ _).2 h'
      · rename_i hne
        exact (wf_cons _ _ _).2 ⟨startsAt_memSet _ _ _ _ (by omega) h'.1, ih h'.2⟩

theorem wf_memWrite (m : Memory) (a : Nat) (bs : List (Option Byte)) (h : Memory.wf m = true) :
    Memory.wf (memWrite m a bs) = true := by
  induction bs generalizing m a with
  | nil => exact h
  | cons b bs ih =>
    cases b with
    | none => exact ih _ _ h
    | some b => exact ih _ _ (wf_memSet _ _ _ h)

theorem wf_memWriteBeats (m : Memory) (a : Nat) (beats : List (List (Option Byte))) (h : Memory.wf m = true) :
    Memory.wf (memWriteBeats m a beats) = true := by
  induction beats generalizing m a with
  | nil => exact h
  | cons b bs ih => exact ih _ _ (wf_memWrite _ _ _ h)

/-! ### What a write of several bytes leaves -/

theorem memGet_memWrite (m : Memory) (a a' : Nat) (bs : List (Option Byte)) :
    memGet (memWrite m a bs) a' =
      if a ≤ a' then
        match bs[a' - a]? with
        | some (some b) => some b
        | _ => memGet m a'
      else memGet m a' := by
  induction bs generalizing m a with
  | nil => simp [memWrite]
  | cons b bs ih =>
    have key : ∀ m' : Memory, (∀ x, x ≠ a → memGet m' x = memGet m x) → (b = none → memGet m' a = memGet m a) →
        (∀ v, b = some v → memGet m' a = some v) →
        memGet (memWrite m' (a + 1) bs) a' =
          if a ≤ a' then
            match (b :: bs)[a' - a]? with
            | some (some v) => some v
            | _ => memGet m a'
          else memGet m a' := by
      intro m' hother hnone hsome
      rw [ih m' (a + 1)]
      by_cases h1 : a + 1 ≤ a'
      · have h2 : a ≤ a' := by omega
        have h3 : a' - a = (a' - (a + 1)) + 1 := by omega
        simp only [h1, h2, if_true, h3, List.getElem?_cons_succ]
        rw [hother a' (by omega)]
      · by_cases h2 : a ≤ a'
        · have h3 : a' = a := by omega
          subst h3
          simp only [Nat.sub_self, List.getElem?_cons_zero, Nat.le_refl, if_true, h1, if_false]
          cases b with
          | none => exact hnone rfl
          | some v => exact hsome v rfl
        · simp only [h1, h2, if_false]
          exact hother a' (by omega)
    cases b with
    | none => exact key m (fun _ _ => rfl) (fun _ => rfl) (fun v hv => by cases hv)
    | some v =>
      refine key _ (fun x hx => ?_) (fun hv => by cases hv) (fun w hw => ?_)
      · rw [memGet_memSet, if_neg (Ne.symm hx)]
      · cases hw; rw [memGet_memSet, if_pos rfl]

theorem memWrite_append (m : Memory) (a : Nat) (xs ys : List (Option Byte)) :
    memWrite m a (xs ++ ys) = memWrite (memWrite m a xs) (a + xs.length) ys := by
  induction xs generalizing m a with
  | nil => rfl
  | cons x xs ih =>
    cases x with
    | none =>
      show memWrite m (a + 1) (xs ++ ys) = _
      rw [ih, List.length_cons, Nat.add_assoc, Nat.add_comm 1]; rfl
    | some v =>
      show memWrite (memSet m a v) (a + 1) (xs ++ ys) = _
      rw [ih, List.length_cons, Nat.add_assoc, Nat.add_comm 1]; rfl

/-- Whole beats are written as one run of bytes. -/
theorem memWriteBeats_flatten (m : Memory) (a : Nat) (beats : List (List (Option Byte))) (h : ∀ b ∈ beats, b.length = 32) :
    memWriteBeats m a beats = memWrite m a beats.flatten := by
  induction beats generalizing m a with
  | nil => rfl
  | cons b bs ih =>
    show memWriteBeats (memWrite m a b) (a + 32) bs = _
    rw [ih _ _ fun x hx => h x (List.mem_cons_of_mem _ hx), List.flatten_cons, memWrite_append,
      h b (List.mem_cons_self ..)]

/-- The bytes that whole beats leave: those enabled hold the data, every other reads as before. -/
theorem byteAt_memWriteBeats (s : State) (a a' : Nat) (beats : List (List (Option Byte))) (h : ∀ b ∈ beats, b.length = 32) :
    (s.setMem (memWriteBeats s.mem a beats)).byteAt a' =
      if a ≤ a' then ((beats.flatten[a' - a]?).join).getD (s.byteAt a') else s.byteAt a' := by
  simp only [State.byteAt, State.setMem, memWriteBeats_flatten _ _ _ h, memGet_memWrite]
  split
  · rcases beats.flatten[a' - a]? with _ | _ | v <;> rfl
  · rfl

end Sys2Proof.Machine
end

