-- ==== Sys2Proof/Laws/Render.lean ====
section
/-! SUPPORT. The Render Engine: window records, render requests, and the entry of its operations. -/

namespace Sys2Proof.Machine

open Sys2Proof

/-! ### Records -/

theorem window_setWindow (r : RenderEngine) (n m : Nat) (w : Window) :
    (r.setWindow n w).window m = if m = n ∧ n < 16 then w else r.window m := tget_tset _ _ _ _ _

theorem window_of_le (r : RenderEngine) (n : Nat) (h : 16 ≤ n) : r.window n = Window.blank := tget_of_le _ _ _ h

/-- A configured window is one of the 16. -/
theorem lt_of_configured (r : RenderEngine) (n : Nat) (h : (r.window n).config ≠ none) : n < 16 := by
  rcases Nat.lt_or_ge n 16 with hl | hg
  · exact hl
  · rw [window_of_le r n hg] at h
    exact absurd rfl h

theorem rendering_iff (s : State) (n : Nat) : s.render.rendering n = true ↔ InJob s n := by
  unfold RenderEngine.rendering InJob
  cases s.render.job with
  | none => simp
  | some j => simp

/-! ### Requests (R51) -/

/-- Everything a request can do: nothing for an unconfigured or a queued window, the dirty flag of the window being rendered, or a
place at the queue's tail. -/
theorem request_cases (r : RenderEngine) (n : Nat) :
    ((r.window n).config = none ∧ r.request n = r) ∨
      ((r.window n).config ≠ none ∧
        ((n ∈ r.queue ∧ r.request n = r) ∨
          (n ∉ r.queue ∧ r.rendering n = true ∧ r.request n = r.setWindow n { r.window n with dirty := true }) ∨
          (n ∉ r.queue ∧ r.rendering n = false ∧ r.request n = { r with queue := r.queue ++ [n] }))) := by
  unfold RenderEngine.request
  cases hc : (r.window n).config with
  | none => exact .inl ⟨rfl, by simp⟩
  | some c =>
    refine .inr ⟨by simp, ?_⟩
    by_cases hq : n ∈ r.queue
    · exact .inl ⟨hq, by simp [hq]⟩
    · by_cases hr : r.rendering n = true
      · exact .inr (.inl ⟨hq, hr, by simp [hq, hr]⟩)
      · exact .inr (.inr ⟨hq, by simpa using hr, by simp [hq, hr]⟩)

/-- Requests change only the windows and the queue. -/
theorem request_fields (r : RenderEngine) (n : Nat) :
    r.request n = { r with windows := (r.request n).windows, queue := (r.request n).queue } := by
  rcases request_cases r n with ⟨_, h⟩ | ⟨_, ⟨_, h⟩ | ⟨_, _, h⟩ | ⟨_, _, h⟩⟩ <;> rw [h] <;> rfl

/-- A configured window given a new record and then requested. -/
theorem requested_setWindow (s : State) (n : Nat) (w : Window) (hn : n < 16) (hw : w.config ≠ none) :
    Requested s (s.setRender ((s.render.setWindow n w).request n)) n w := by
  have hw1 : (s.render.setWindow n w).window n = w := by rw [window_setWindow, if_pos ⟨rfl, hn⟩]
  have hother : ∀ m, m ≠ n → (s.render.setWindow n w).window m = s.render.window m := fun m hm => by
    rw [window_setWindow, if_neg (fun h => hm h.1)]
  have hj : (s.render.setWindow n w).rendering n = true ↔ InJob s n := rendering_iff s n
  show Requested s (s.setRender _) n w
  rcases request_cases (s.render.setWindow n w) n with ⟨h, _⟩ | ⟨_, h⟩
  · rw [hw1] at h; exact absurd h hw
  · rcases h with ⟨hq, h⟩ | ⟨hq, hr, h⟩ | ⟨hq, hr, h⟩ <;> rw [h]
    · have hq : n ∈ s.render.queue := hq
      exact ⟨rfl, hother, fun _ => ⟨rfl, hw1⟩, fun k => absurd hq k, fun k => absurd hq k⟩
    · have hq : n ∉ s.render.queue := hq
      rw [hw1]
      refine ⟨rfl, fun m hm => ?_, fun k => absurd k hq, fun _ _ => ⟨rfl, ?_⟩, fun _ k => absurd (hj.1 hr) k⟩
      · show ((s.render.setWindow n w).setWindow n _).window m = _
        rw [window_setWindow, if_neg (fun h => hm h.1)]
        exact hother m hm
      · show ((s.render.setWindow n w).setWindow n _).window n = _
        rw [window_setWindow, if_pos ⟨rfl, hn⟩]
    · have hq : n ∉ s.render.queue := hq
      exact ⟨rfl, hother, fun k => absurd k hq, fun _ k => absurd (hj.2 k) (by simp [hr]), fun _ _ => ⟨rfl, hw1⟩⟩

/-- Requests for several windows change only the windows and the queue. -/
theorem requestAll_fields (r : RenderEngine) (f : Window → Bool) :
    r.requestAll f = { r with windows := (r.requestAll f).windows, queue := (r.requestAll f).queue } := by
  unfold RenderEngine.requestAll
  generalize List.range 16 = ns
  induction ns generalizing r with
  | nil => rfl
  | cons n ns ih =>
    simp only [List.foldl_cons]
    split
    · rw [ih, request_fields]
    · exact ih r

/-! ### Entering operations (R53, R156) -/

/-- The engine's entries change what it has still to enter and the scheduler alone. -/
theorem frame_renderEnter (s : State) : Frame [.render, .scheduler] s s.renderEnter := by
  unfold State.renderEnter
  split
  · exact .refl _ _
  · exact (Frame.mono (frame_setRender s _) (by simp)).trans (Frame.mono (frame_setScheduler _ _) (by simp))

theorem renderEnter_fields (s : State) : s.renderEnter.render = { s.render with toEnter := s.renderEnter.render.toEnter } := by
  unfold State.renderEnter
  split <;> rfl

/-- The operations entered join the queue in the engine's order; those left stay to be entered. -/
theorem renderEnter_queue (s : State) : ∃ entered, s.render.toEnter = entered ++ s.renderEnter.render.toEnter ∧
    s.renderEnter.queued = s.queued ++ entered.map Operation.what := by
  unfold State.renderEnter
  split
  · exact ⟨[], by simp, by simp⟩
  · obtain ⟨es, h1, h2⟩ := enterMany_split s.scheduler .render s.render.toEnter
    exact ⟨es, h1, h2⟩

end Sys2Proof.Machine
end

