-- ==== Sys2Proof/Laws/Messages.lean ====
section
/-! SUPPORT. The Message Unit: the message a selection chooses, and what a selection does. -/

namespace Sys2Proof.Machine

open Sys2Proof

/-! ### The choice (R148) -/

/-- The preference over a list of APPROVED messages: the first of the highest priority. -/
theorem foldl_preferred (ms : List Message) (b : Message) :
    ∃ m, ms.foldl preferred (some b) = some m ∧
      ((m = b ∧ ∀ q ∈ ms, q.priority ≤ b.priority) ∨
        ∃ older younger, ms = older ++ m :: younger ∧ b.priority < m.priority ∧
          (∀ q ∈ older, q.priority < m.priority) ∧ ∀ q ∈ younger, q.priority ≤ m.priority) := by
  induction ms generalizing b with
  | nil => exact ⟨b, rfl, .inl ⟨rfl, by simp⟩⟩
  | cons a ms ih =>
    simp only [List.foldl_cons, preferred]
    split
    · rename_i hlt
      obtain ⟨m, h1, h2⟩ := ih a
      refine ⟨m, h1, .inr ?_⟩
      rcases h2 with ⟨rfl, h3⟩ | ⟨older, younger, h3, h4, h5, h6⟩
      · exact ⟨[], ms, rfl, hlt, by simp, h3⟩
      · refine ⟨a :: older, younger, by rw [h3]; rfl, by omega, fun q hq => ?_, h6⟩
        rcases List.mem_cons.1 hq with rfl | hq
        · exact h4
        · exact h5 q hq
    · rename_i hge
      obtain ⟨m, h1, h2⟩ := ih b
      refine ⟨m, h1, ?_⟩
      rcases h2 with ⟨rfl, h3⟩ | ⟨older, younger, h3, h4, h5, h6⟩
      · refine .inl ⟨rfl, fun q hq => ?_⟩
        rcases List.mem_cons.1 hq with rfl | hq
        · omega
        · exact h3 q hq
      · refine .inr ⟨a :: older, younger, by rw [h3]; rfl, h4, fun q hq => ?_, h6⟩
        rcases List.mem_cons.1 hq with rfl | hq
        · omega
        · exact h5 q hq

/-- With no APPROVED message a selection chooses none. -/
theorem best_none (u : MessageUnit) (h : ∀ q ∈ u.queue, q.state ≠ .approved) : u.best = none := by
  have : u.queue.filter (fun m => m.state == .approved) = [] := by
    apply List.filter_eq_nil_iff.2
    intro q hq
    simpa using h q hq
  simp [MessageUnit.best, this]

/-- The message a selection chooses is the oldest APPROVED one of the highest priority. -/
theorem best_of_chooses (u : MessageUnit) (m : Message) (h : Chooses u.queue m) : u.best = some m := by
  obtain ⟨older, younger, hq, hm, ho, hy⟩ := h
  have hsplit : u.queue.filter (fun q => q.state == .approved) =
      older.filter (fun q => q.state == .approved) ++ m :: younger.filter (fun q => q.state == .approved) := by
    rw [hq, List.filter_append, List.filter_cons]
    simp [hm]
  unfold MessageUnit.best
  rw [hsplit]
  have hold : ∀ q ∈ older.filter (fun q => q.state == .approved), q.priority < m.priority := by
    intro q hq
    rw [List.mem_filter] at hq
    exact ho q hq.1 (by simpa using hq.2)
  have hyoung : ∀ q ∈ younger.filter (fun q => q.state == .approved), q.priority ≤ m.priority := by
    intro q hq
    rw [List.mem_filter] at hq
    exact hy q hq.1 (by simpa using hq.2)
  generalize older.filter (fun q => q.state == .approved) = xs at *
  generalize younger.filter (fun q => q.state == .approved) = ys at *
  have hys : ∀ zs : List Message, (∀ q ∈ zs, q.priority ≤ m.priority) → zs.foldl preferred (some m) = some m := by
    intro zs
    induction zs with
    | nil => intro _; rfl
    | cons z zs ih =>
      intro hz
      have hz1 : ¬ m.priority < z.priority := by
        have := hz z (by simp)
        omega
      simp only [List.foldl_cons, preferred, hz1, if_false]
      exact ih fun q hq => hz q (by simp [hq])
  rw [List.foldl_append, List.foldl_cons]
  cases xs with
  | nil => exact hys ys hyoung
  | cons a xs =>
    obtain ⟨b, h1, h2⟩ := foldl_preferred xs a
    have hb : b.priority < m.priority := by
      rcases h2 with ⟨rfl, _⟩ | ⟨o, y, h3, _⟩
      · exact hold b (by simp)
      · exact hold b (by rw [h3]; simp)
    have ha : (a :: xs).foldl preferred none = some b := by
      simp only [List.foldl_cons, preferred]
      exact h1
    rw [ha]
    simp only [preferred, hb, if_true]
    exact hys ys hyoung

/-! ### A selection -/

/-- With the phase not FREE a selection does nothing. -/
theorem select_of_not_free (s : State) (h : s.messages.phase ≠ .free) : s.select = s := by
  unfold State.select
  split <;> first
    | rfl
    | contradiction

/-- A selection changes the Message Unit and the Render Engine alone. -/
theorem frame_select (s : State) : Frame [.messages, .render] s s.select := by
  have hand : ∀ c, Frame [.messages, .render] s (s.handTicker c) := by
    intro c
    unfold State.handTicker
    split
    · exact .refl _ _
    · exact (Frame.mono (frame_setRender s _) (by simp)).trans (Frame.mono (frame_setMessages _ _) (by simp))
  unfold State.select
  split
  · split
    · exact (hand _).trans (Frame.mono (frame_setMessages _ _) (by simp))
    · split
      · exact hand _
      · exact .refl _ _
  all_goals exact .refl _ _

/-- A selection with the ticker FREE in its window: the message chosen is prepared and handed over, or with none to choose the
window's last content is taken away. -/
theorem selected_select (s : State) (n : Nat) (h : Ticking s n) (hf : s.messages.phase = .free) :
    Selected s s.select n s.messages.queue := by
  obtain ⟨hn, hw, c, hc, _⟩ := h
  have hconf : (s.render.window n).config ≠ none := by rw [hc]; simp
  have hreq : ∀ c', Requested s (s.setRender (s.render.handContent n c')) n { s.render.window n with content := c' } :=
    fun c' => requested_setWindow s n _ hn hconf
  have hsel : ∀ c' : Option Content, s.handTicker c' =
      (s.setRender (s.render.handContent n c')).setMessages { s.messages with lastContent := c'.map (·.id) } := by
    intro c'
    unfold State.handTicker
    rw [hw]
  refine ⟨?_, ?_, fun m hm => ?_, fun hnone => ?_⟩
  · unfold State.select
    rw [hf]
    dsimp only
    split
    · rw [hsel]; rfl
    · split
      · rw [hsel]; rfl
      · rfl
  · unfold State.select
    rw [hf]
    dsimp only
    split
    · rw [hsel]; exact hw
    · split
      · rw [hsel]; exact hw
      · exact hw
  · have hb := best_of_chooses s.messages m hm
    have : s.select = (s.handTicker (some ⟨m.id, m.text⟩)).setPhase (.preparing m.id) := by
      unfold State.select
      rw [hf]
      dsimp only
      rw [hb]
    rw [this, hsel]
    exact ⟨rfl, rfl, hreq _⟩
  · have hb := best_none s.messages hnone
    have : s.select = if s.messages.lastContent.isSome then s.handTicker none else s := by
      unfold State.select
      rw [hf]
      dsimp only
      rw [hb]
    rw [this]
    cases hl : s.messages.lastContent with
    | none => exact ⟨hf, hl, fun _ => rfl, fun k => absurd rfl k⟩
    | some x =>
      simp only [Option.isSome_some, if_true]
      rw [hsel]
      exact ⟨hf, rfl, fun k => absurd k (by simp), fun _ => hreq _⟩

/-! ### The ticker's window (R147) -/

theorem isTicker_iff (s : State) (n : Nat) : s.isTicker n = true ↔ ∃ c, (s.render.window n).config = some c ∧ c.kind = .ticker := by
  unfold State.isTicker Window.kind
  cases (s.render.window n).config <;> simp

/-- A message on show goes back to APPROVED in its place; nothing else changes. -/
theorem interrupt_eq (s : State) : s.interrupt = s.setMessages { s.messages with queue := match s.messages.phase with
    | .showing k _ _ => changed s.messages.queue k fun q => { q with state := .approved }
    | _ => s.messages.queue } := by
  unfold State.interrupt
  cases s.messages.phase <;> rfl

theorem rewindowed_setSpeed (s : State) (w v : Nat) (hw : w < 16) :
    Rewindowed s (s.setSpeed w v) w { s.render.window w with speed := v } := by
  refine ⟨rfl, fun m hm => ?_, ?_⟩
  · show (s.render.setWindow _ _).window m = _
    rw [window_setWindow, if_neg (fun h => hm h.1)]
  · show (s.render.setWindow _ _).window w = _
    rw [window_setWindow, if_pos ⟨rfl, hw⟩]

/-- The old ticker given up, where none is named or the window named is no TICKER any more: its message on show alone goes back. -/
theorem giveUpTicker_lost (s : State) (h : s.messages.window = none ∧ s.messages.phase = .detached ∨
    ∃ n, s.messages.window = some n ∧ s.isTicker n = false) : s.giveUpTicker = s.interrupt := by
  unfold State.giveUpTicker
  rcases h with ⟨h, hp⟩ | ⟨n, h, ht⟩ <;> rw [h]
  · unfold State.interrupt; rw [hp]
  · have : s.interrupt.isTicker n = false := by rw [interrupt_eq]; exact ht
    simp only [this]; rfl

/-- The old ticker given up, where its window is a TICKER still: content NONE is handed to the window too. -/
theorem giveUpTicker_ticking (s : State) (n : Nat) (h : Ticking s n) :
    s.giveUpTicker = s.interrupt.setRender (s.render.handContent n none) := by
  unfold State.giveUpTicker
  rw [h.2.1]
  have ht : s.interrupt.isTicker n = true := by rw [interrupt_eq]; exact (isTicker_iff s n).mpr h.2.2
  have hr : s.interrupt.render = s.render := by rw [interrupt_eq]; rfl
  simp only [ht, if_true, hr]

end Sys2Proof.Machine
end

