-- ==== Sys2Proof/Laws/PerInstr.lean ====
section
/-! SUPPORT. Per constructor of `Instr`: a well-formed control command fits the record of R181, and the other rows have none. -/

namespace Sys2Proof.Laws.FitsRecord

open Sys2Proof

/-- What a host writes for a well-formed command fits the record of R181: the name is one of the command names, there are at
    most
eight argument words of 32 bits, and the payload has at most 4096 bytes (R171). -/
def Statement (i : Instr) : Prop :=
  ∀ sp, spell i = some sp → WellFormed i = true →
    (commandRows.map CommandRow.name).contains sp.name = true ∧ sp.words.length ≤ 8 ∧ (∀ w ∈ sp.words, w < 4294967296) ∧
      sp.payload.length ≤ 4096

theorem wordFits (n : Nat) (h : isWord n = true) : n < 4294967296 := by simpa [isWord] using h

theorem lowFits (n : Nat) : lowWord n < 4294967296 := by unfold lowWord; omega

theorem highFits (n : Nat) (h : isLong n = true) : highWord n < 4294967296 := by
  simp only [isLong, decide_eq_true_eq] at h
  unfold highWord
  omega

theorem halvesFits (a b : Nat) (ha : isHalf a = true) (hb : isHalf b = true) : pairWord a b < 4294967296 := by
  simp only [isHalf, decide_eq_true_eq] at ha hb
  unfold pairWord
  omega

theorem flagFits (b : Bool) : flagWord b < 4294967296 := by cases b <;> decide

theorem signedFits (n : Int) (h : isSigned n = true) : signedWord n < 4294967296 := by
  simp only [isSigned, Bool.and_eq_true, decide_eq_true_eq] at h
  unfold signedWord
  split <;> omega

theorem sourceBytesFits (k t l : Nat) (hk : isByte k = true) (ht : isByte t = true) (hl : isByte l = true) :
    k + 256 * t + 65536 * l < 4294967296 := by
  simp only [isByte, decide_eq_true_eq] at hk ht hl
  omega

/-- A command that spells as given, with its words and its payload in range. -/
theorem fits (i : Instr) (name : String) (words : List Nat) (payload : List Byte) (hs : spell i = some ⟨name, words, payload⟩)
    (hn : (commandRows.map CommandRow.name).contains name = true) (hl : words.length ≤ 8)
    (hw : WellFormed i = true → (∀ w ∈ words, w < 4294967296) ∧ payload.length ≤ 4096) : Statement i := by
  intro sp h k
  rw [hs] at h
  cases h
  exact ⟨hn, hl, hw k⟩

/-- A row that is no control command has no record. -/
theorem noRecord (i : Instr) (h : spell i = none) : Statement i := by
  intro sp hs
  rw [h] at hs
  cases hs

theorem frameStart : Statement (.frameStart) := noRecord _ rfl
theorem resetRelease (aperture : BitVec 5) (control : BitVec 4) : Statement (.resetRelease aperture control) := noRecord _ rfl
theorem powerOnReset : Statement (.powerOnReset) := noRecord _ rfl
theorem msTick (run : Level) (play : Level) : Statement (.msTick run play) := noRecord _ rfl
theorem contactAccept (contact : Contact) (level : Level) : Statement (.contactAccept contact level) := noRecord _ rfl
theorem periodEnd : Statement (.periodEnd) := noRecord _ rfl
theorem playExpiry : Statement (.playExpiry) := noRecord _ rfl
theorem penaltyDone (team : Nat) : Statement (.penaltyDone team) := noRecord _ rfl
theorem fieldNotice : Statement (.fieldNotice) := noRecord _ rfl
theorem gameEvent : Statement (.gameEvent) := noRecord _ rfl
theorem replayStartEvent : Statement (.replayStartEvent) := noRecord _ rfl
theorem requestAccept (presented : List Request) : Statement (.requestAccept presented) := noRecord _ rfl
theorem responseReturn (initiator : Nat) : Statement (.responseReturn initiator) := noRecord _ rfl
theorem mirrorNotice (source : Nat) (offset : Nat) (beats : Nat) : Statement (.mirrorNotice source offset beats) := noRecord _
    rfl
theorem compositeWorkOut : Statement (.compositeWorkOut) := noRecord _ rfl
theorem deliveryEvent : Statement (.deliveryEvent) := noRecord _ rfl
theorem renderFrameStart : Statement (.renderFrameStart) := noRecord _ rfl
theorem stripPassed (window : Nat) : Statement (.stripPassed window) := noRecord _ rfl
theorem renderJobStart : Statement (.renderJobStart) := noRecord _ rfl
theorem renderJobComplete : Statement (.renderJobComplete) := noRecord _ rfl
theorem fontLoadFinish : Statement (.fontLoadFinish) := noRecord _ rfl
theorem rotationFrameStart : Statement (.rotationFrameStart) := noRecord _ rfl
theorem holdEnd : Statement (.holdEnd) := noRecord _ rfl
theorem turnEnd (zone : Nat) : Statement (.turnEnd zone) := noRecord _ rfl
theorem featureEnd (zone : Nat) : Statement (.featureEnd zone) := noRecord _ rfl
theorem captureTick : Statement (.captureTick) := noRecord _ rfl
theorem addUser (clip : Nat) : Statement (.addUser clip) := noRecord _ rfl
theorem removeUser (clip : Nat) : Statement (.removeUser clip) := noRecord _ rfl
theorem markRelease (clip : Nat) : Statement (.markRelease clip) := noRecord _ rfl
theorem playoutFrameStart : Statement (.playoutFrameStart) := noRecord _ rfl
theorem channelMove (channel : Nat) : Statement (.channelMove channel) := noRecord _ rfl
theorem messageFrameStart : Statement (.messageFrameStart) := noRecord _ rfl
theorem messageExpiry : Statement (.messageExpiry) := noRecord _ rfl
theorem staticShowEnd : Statement (.staticShowEnd) := noRecord _ rfl
theorem flipNotice : Statement (.flipNotice) := noRecord _ rfl
theorem stripPassedNotice : Statement (.stripPassedNotice) := noRecord _ rfl
theorem waitingUnitEntry : Statement (.waitingUnitEntry) := noRecord _ rfl
theorem activateComplete (bank : Nat) : Statement (.activateComplete bank) := noRecord _ rfl
theorem prechargeComplete (bank : Nat) : Statement (.prechargeComplete bank) := noRecord _ rfl
theorem burstComplete : Statement (.burstComplete) := noRecord _ rfl
theorem ageingPromotion : Statement (.ageingPromotion) := noRecord _ rfl
theorem refreshInterval : Statement (.refreshInterval) := noRecord _ rfl
theorem idleRefreshStart : Statement (.idleRefreshStart) := noRecord _ rfl
theorem refreshComplete : Statement (.refreshComplete) := noRecord _ rfl
theorem dramInitStepComplete : Statement (.dramInitStepComplete) := noRecord _ rfl
theorem commandIndexWrite : Statement (.commandIndexWrite) := noRecord _ rfl
theorem reportConsumerWrite : Statement (.reportConsumerWrite) := noRecord _ rfl
theorem commandTake : Statement (.commandTake) := noRecord _ rfl
theorem commandFetchComplete : Statement (.commandFetchComplete) := noRecord _ rfl
theorem commandEnd : Statement (.commandEnd) := noRecord _ rfl
theorem reportArrival : Statement (.reportArrival) := noRecord _ rfl
theorem heldReportWrite : Statement (.heldReportWrite) := noRecord _ rfl
theorem statusBlockWrite : Statement (.statusBlockWrite) := noRecord _ rfl

theorem setRole (initiator : Nat) (role : Nat) (source : Nat) : Statement (.setRole initiator role source) := by
  refine fits _ "SET-ROLE" [initiator, role, source] [] rfl (by decide) (by simp) fun h => ?_
  replace h : (isWord initiator && isWord role && isWord source) = true := h
  simp only [Bool.and_eq_true] at h
  obtain ⟨⟨h0, h1⟩, h2⟩ := h
  simp only [List.forall_mem_cons, List.not_mem_nil, false_implies, implies_true, and_true]
  exact ⟨⟨wordFits initiator h0, wordFits role h1, wordFits source h2⟩, by simp⟩
theorem setCanvas (base : Nat) (width : Nat) (height : Nat) (pitch : Nat) : Statement (.setCanvas base width height pitch) := by
  refine fits _ "SET-CANVAS" [lowWord base, highWord base, pairWord width height, pitch] [] rfl (by decide) (by simp) fun h
      => ?_
  replace h : (isLong base && isHalf width && isHalf height && isWord pitch) = true := h
  simp only [Bool.and_eq_true] at h
  obtain ⟨⟨⟨h0, h1⟩, h2⟩, h3⟩ := h
  simp only [List.forall_mem_cons, List.not_mem_nil, false_implies, implies_true, and_true]
  exact ⟨⟨lowFits base, highFits base h0, halvesFits width height h1 h2, wordFits pitch h3⟩, by simp⟩
theorem setOverlayStore (base : Nat) : Statement (.setOverlayStore base) := by
  refine fits _ "SET-OVERLAY-STORE" [lowWord base, highWord base] [] rfl (by decide) (by simp) fun h => ?_
  have h0 := h
  simp only [List.forall_mem_cons, List.not_mem_nil, false_implies, implies_true, and_true]
  exact ⟨⟨lowFits base, highFits base h0⟩, by simp⟩
theorem setPool (base : Nat) (count : Nat) (stride : Nat) : Statement (.setPool base count stride) := by
  refine fits _ "SET-POOL" [lowWord base, highWord base, count, stride] [] rfl (by decide) (by simp) fun h => ?_
  replace h : (isLong base && isWord count && isWord stride) = true := h
  simp only [Bool.and_eq_true] at h
  obtain ⟨⟨h0, h1⟩, h2⟩ := h
  simp only [List.forall_mem_cons, List.not_mem_nil, false_implies, implies_true, and_true]
  exact ⟨⟨lowFits base, highFits base h0, wordFits count h1, wordFits stride h2⟩, by simp⟩
theorem setZone (zone : Nat) (x : Nat) (y : Nat) (width : Nat) (height : Nat) (rank : Nat) (kind : Nat) : Statement (.setZone
    zone x y width height rank kind) := by
  refine fits _ "SET-ZONE" [zone, pairWord x y, pairWord width height, rank, kind] [] rfl (by decide) (by simp) fun h => ?_
  replace h : (isWord zone && isHalf x && isHalf y && isHalf width && isHalf height && isWord rank && isWord kind) = true := h
  simp only [Bool.and_eq_true] at h
  obtain ⟨⟨⟨⟨⟨⟨h0, h1⟩, h2⟩, h3⟩, h4⟩, h5⟩, h6⟩ := h
  simp only [List.forall_mem_cons, List.not_mem_nil, false_implies, implies_true, and_true]
  exact ⟨⟨wordFits zone h0, halvesFits x y h1 h2, halvesFits width height h3 h4, wordFits rank h5, wordFits kind h6⟩, by simp⟩
theorem zoneOff (zone : Nat) : Statement (.zoneOff zone) := by
  refine fits _ "ZONE-OFF" [zone] [] rfl (by decide) (by simp) fun h => ?_
  have h0 := h
  simp only [List.forall_mem_cons, List.not_mem_nil, false_implies, implies_true, and_true]
  exact ⟨wordFits zone h0, by simp⟩
theorem setWindow (window : Nat) (x : Nat) (y : Nat) (width : Nat) (height : Nat) (z : Nat) (fade : Nat) (occluding : Bool)
    (background : Nat) (kind : Nat) : Statement (.setWindow window x y width height z fade occluding background kind) := by
  refine fits _ "SET-WINDOW" [window, pairWord x y, pairWord width height, z, fade, flagWord occluding, background, kind] []
      rfl (by decide) (by simp) fun h => ?_
  replace h : (isWord window && isHalf x && isHalf y && isHalf width && isHalf height && isWord z && isWord fade && isWord
      background && isWord kind) = true := h
  simp only [Bool.and_eq_true] at h
  obtain ⟨⟨⟨⟨⟨⟨⟨⟨h0, h1⟩, h2⟩, h3⟩, h4⟩, h5⟩, h6⟩, h7⟩, h8⟩ := h
  simp only [List.forall_mem_cons, List.not_mem_nil, false_implies, implies_true, and_true]
  exact ⟨⟨wordFits window h0, halvesFits x y h1 h2, halvesFits width height h3 h4, wordFits z h5, wordFits fade h6, flagFits
      occluding, wordFits background h7, wordFits kind h8⟩, by simp⟩
theorem showWindow (window : Nat) : Statement (.showWindow window) := by
  refine fits _ "SHOW-WINDOW" [window] [] rfl (by decide) (by simp) fun h => ?_
  have h0 := h
  simp only [List.forall_mem_cons, List.not_mem_nil, false_implies, implies_true, and_true]
  exact ⟨wordFits window h0, by simp⟩
theorem hideWindow (window : Nat) : Statement (.hideWindow window) := by
  refine fits _ "HIDE-WINDOW" [window] [] rfl (by decide) (by simp) fun h => ?_
  have h0 := h
  simp only [List.forall_mem_cons, List.not_mem_nil, false_implies, implies_true, and_true]
  exact ⟨wordFits window h0, by simp⟩
theorem setFade (window : Nat) (fade : Nat) : Statement (.setFade window fade) := by
  refine fits _ "SET-FADE" [window, fade] [] rfl (by decide) (by simp) fun h => ?_
  replace h : (isWord window && isWord fade) = true := h
  simp only [Bool.and_eq_true] at h
  obtain ⟨h0, h1⟩ := h
  simp only [List.forall_mem_cons, List.not_mem_nil, false_implies, implies_true, and_true]
  exact ⟨⟨wordFits window h0, wordFits fade h1⟩, by simp⟩
theorem setRun (window : Nat) (run : Nat) (x : Nat) (y : Nat) (box : Nat) (align : Nat) (colour : Nat) (opacity : Nat) (kind :
    Nat) (team : Nat) (line : Nat) (payload : List Byte) : Statement (.setRun window run x y box align colour opacity kind
    team line payload) := by
  refine fits _ "SET-RUN" [window, run, pairWord x y, box, align, colour, opacity, kind + 256 * team + 65536 * line] payload
      rfl (by decide) (by simp) fun h => ?_
  replace h : (isWord window && isWord run && isHalf x && isHalf y && isWord box && isWord align && isWord colour && isWord
      opacity && isByte kind && isByte team && isByte line && isPayload payload) = true := h
  simp only [Bool.and_eq_true] at h
  obtain ⟨⟨⟨⟨⟨⟨⟨⟨⟨⟨⟨h0, h1⟩, h2⟩, h3⟩, h4⟩, h5⟩, h6⟩, h7⟩, h8⟩, h9⟩, h10⟩, h11⟩ := h
  simp only [List.forall_mem_cons, List.not_mem_nil, false_implies, implies_true, and_true]
  exact ⟨⟨wordFits window h0, wordFits run h1, halvesFits x y h2 h3, wordFits box h4, wordFits align h5, wordFits colour h6,
      wordFits opacity h7, sourceBytesFits kind team line h8 h9 h10⟩, by simpa [isPayload] using h11⟩
theorem clearRun (window : Nat) (run : Nat) : Statement (.clearRun window run) := by
  refine fits _ "CLEAR-RUN" [window, run] [] rfl (by decide) (by simp) fun h => ?_
  replace h : (isWord window && isWord run) = true := h
  simp only [Bool.and_eq_true] at h
  obtain ⟨h0, h1⟩ := h
  simp only [List.forall_mem_cons, List.not_mem_nil, false_implies, implies_true, and_true]
  exact ⟨⟨wordFits window h0, wordFits run h1⟩, by simp⟩
theorem setImage (window : Nat) (addr : Nat) (pitch : Nat) (width : Nat) (height : Nat) : Statement (.setImage window addr
    pitch width height) := by
  refine fits _ "SET-IMAGE" [window, lowWord addr, highWord addr, pitch, pairWord width height] [] rfl (by decide) (by simp)
      fun h => ?_
  replace h : (isWord window && isLong addr && isWord pitch && isHalf width && isHalf height) = true := h
  simp only [Bool.and_eq_true] at h
  obtain ⟨⟨⟨⟨h0, h1⟩, h2⟩, h3⟩, h4⟩ := h
  simp only [List.forall_mem_cons, List.not_mem_nil, false_implies, implies_true, and_true]
  exact ⟨⟨wordFits window h0, lowFits addr, highFits addr h1, wordFits pitch h2, halvesFits width height h3 h4⟩, by simp⟩
theorem loadFont (base : Nat) (count : Nat) (advance : Nat) : Statement (.loadFont base count advance) := by
  refine fits _ "LOAD-FONT" [lowWord base, highWord base, count, advance] [] rfl (by decide) (by simp) fun h => ?_
  replace h : (isLong base && isWord count && isWord advance) = true := h
  simp only [Bool.and_eq_true] at h
  obtain ⟨⟨h0, h1⟩, h2⟩ := h
  simp only [List.forall_mem_cons, List.not_mem_nil, false_implies, implies_true, and_true]
  exact ⟨⟨lowFits base, highFits base h0, wordFits count h1, wordFits advance h2⟩, by simp⟩
theorem clockStart : Statement (.clockStart) := by
  exact fits _ "CLOCK-START" [] [] rfl (by decide) (by simp) fun _ => by simp
theorem clockStop : Statement (.clockStop) := by
  exact fits _ "CLOCK-STOP" [] [] rfl (by decide) (by simp) fun _ => by simp
theorem clockSet (value : Nat) : Statement (.clockSet value) := by
  refine fits _ "CLOCK-SET" [value] [] rfl (by decide) (by simp) fun h => ?_
  have h0 := h
  simp only [List.forall_mem_cons, List.not_mem_nil, false_implies, implies_true, and_true]
  exact ⟨wordFits value h0, by simp⟩
theorem clockMode (mode : Nat) (direction : Nat) (threshold : Nat) : Statement (.clockMode mode direction threshold) := by
  refine fits _ "CLOCK-MODE" [mode, direction, threshold] [] rfl (by decide) (by simp) fun h => ?_
  replace h : (isWord mode && isWord direction && isWord threshold) = true := h
  simp only [Bool.and_eq_true] at h
  obtain ⟨⟨h0, h1⟩, h2⟩ := h
  simp only [List.forall_mem_cons, List.not_mem_nil, false_implies, implies_true, and_true]
  exact ⟨⟨wordFits mode h0, wordFits direction h1, wordFits threshold h2⟩, by simp⟩
theorem setPreset (preset : Nat) : Statement (.setPreset preset) := by
  refine fits _ "SET-PRESET" [preset] [] rfl (by decide) (by simp) fun h => ?_
  have h0 := h
  simp only [List.forall_mem_cons, List.not_mem_nil, false_implies, implies_true, and_true]
  exact ⟨wordFits preset h0, by simp⟩
theorem nextPeriod : Statement (.nextPeriod) := by
  exact fits _ "NEXT-PERIOD" [] [] rfl (by decide) (by simp) fun _ => by simp
theorem setContact (contact : Nat) (polarity : Nat) : Statement (.setContact contact polarity) := by
  refine fits _ "SET-CONTACT" [contact, polarity] [] rfl (by decide) (by simp) fun h => ?_
  replace h : (isWord contact && isWord polarity) = true := h
  simp only [Bool.and_eq_true] at h
  obtain ⟨h0, h1⟩ := h
  simp only [List.forall_mem_cons, List.not_mem_nil, false_implies, implies_true, and_true]
  exact ⟨⟨wordFits contact h0, wordFits polarity h1⟩, by simp⟩
theorem playMode (mode : Nat) (preset : Nat) : Statement (.playMode mode preset) := by
  refine fits _ "PLAY-MODE" [mode, preset] [] rfl (by decide) (by simp) fun h => ?_
  replace h : (isWord mode && isWord preset) = true := h
  simp only [Bool.and_eq_true] at h
  obtain ⟨h0, h1⟩ := h
  simp only [List.forall_mem_cons, List.not_mem_nil, false_implies, implies_true, and_true]
  exact ⟨⟨wordFits mode h0, wordFits preset h1⟩, by simp⟩
theorem playStart : Statement (.playStart) := by
  exact fits _ "PLAY-START" [] [] rfl (by decide) (by simp) fun _ => by simp
theorem playStop : Statement (.playStop) := by
  exact fits _ "PLAY-STOP" [] [] rfl (by decide) (by simp) fun _ => by simp
theorem playSet (value : Nat) : Statement (.playSet value) := by
  refine fits _ "PLAY-SET" [value] [] rfl (by decide) (by simp) fun h => ?_
  have h0 := h
  simp only [List.forall_mem_cons, List.not_mem_nil, false_implies, implies_true, and_true]
  exact ⟨wordFits value h0, by simp⟩
theorem playReset : Statement (.playReset) := by
  exact fits _ "PLAY-RESET" [] [] rfl (by decide) (by simp) fun _ => by simp
theorem penaltyAdd (team : Nat) (player : Nat) (time : Nat) : Statement (.penaltyAdd team player time) := by
  refine fits _ "PENALTY-ADD" [team, player, time] [] rfl (by decide) (by simp) fun h => ?_
  replace h : (isWord team && isWord player && isWord time) = true := h
  simp only [Bool.and_eq_true] at h
  obtain ⟨⟨h0, h1⟩, h2⟩ := h
  simp only [List.forall_mem_cons, List.not_mem_nil, false_implies, implies_true, and_true]
  exact ⟨⟨wordFits team h0, wordFits player h1, wordFits time h2⟩, by simp⟩
theorem penaltyCancel (team : Nat) (player : Nat) : Statement (.penaltyCancel team player) := by
  refine fits _ "PENALTY-CANCEL" [team, player] [] rfl (by decide) (by simp) fun h => ?_
  replace h : (isWord team && isWord player) = true := h
  simp only [Bool.and_eq_true] at h
  obtain ⟨h0, h1⟩ := h
  simp only [List.forall_mem_cons, List.not_mem_nil, false_implies, implies_true, and_true]
  exact ⟨⟨wordFits team h0, wordFits player h1⟩, by simp⟩
theorem penaltyClear (team : Nat) : Statement (.penaltyClear team) := by
  refine fits _ "PENALTY-CLEAR" [team] [] rfl (by decide) (by simp) fun h => ?_
  have h0 := h
  simp only [List.forall_mem_cons, List.not_mem_nil, false_implies, implies_true, and_true]
  exact ⟨wordFits team h0, by simp⟩
theorem setConcurrency (team : Nat) (limit : Nat) : Statement (.setConcurrency team limit) := by
  refine fits _ "SET-CONCURRENCY" [team, limit] [] rfl (by decide) (by simp) fun h => ?_
  replace h : (isWord team && isWord limit) = true := h
  simp only [Bool.and_eq_true] at h
  obtain ⟨h0, h1⟩ := h
  simp only [List.forall_mem_cons, List.not_mem_nil, false_implies, implies_true, and_true]
  exact ⟨⟨wordFits team h0, wordFits limit h1⟩, by simp⟩
theorem scoreSet (team : Nat) (score : Nat) : Statement (.scoreSet team score) := by
  refine fits _ "SCORE-SET" [team, score] [] rfl (by decide) (by simp) fun h => ?_
  replace h : (isWord team && isWord score) = true := h
  simp only [Bool.and_eq_true] at h
  obtain ⟨h0, h1⟩ := h
  simp only [List.forall_mem_cons, List.not_mem_nil, false_implies, implies_true, and_true]
  exact ⟨⟨wordFits team h0, wordFits score h1⟩, by simp⟩
theorem scoreAdd (team : Nat) (delta : Int) : Statement (.scoreAdd team delta) := by
  refine fits _ "SCORE-ADD" [team, signedWord delta] [] rfl (by decide) (by simp) fun h => ?_
  replace h : (isWord team && isSigned delta) = true := h
  simp only [Bool.and_eq_true] at h
  obtain ⟨h0, h1⟩ := h
  simp only [List.forall_mem_cons, List.not_mem_nil, false_implies, implies_true, and_true]
  exact ⟨⟨wordFits team h0, signedFits delta h1⟩, by simp⟩
theorem setTimeouts (team : Nat) (count : Nat) : Statement (.setTimeouts team count) := by
  refine fits _ "SET-TIMEOUTS" [team, count] [] rfl (by decide) (by simp) fun h => ?_
  replace h : (isWord team && isWord count) = true := h
  simp only [Bool.and_eq_true] at h
  obtain ⟨h0, h1⟩ := h
  simp only [List.forall_mem_cons, List.not_mem_nil, false_implies, implies_true, and_true]
  exact ⟨⟨wordFits team h0, wordFits count h1⟩, by simp⟩
theorem timeout (team : Nat) : Statement (.timeout team) := by
  refine fits _ "TIMEOUT" [team] [] rfl (by decide) (by simp) fun h => ?_
  have h0 := h
  simp only [List.forall_mem_cons, List.not_mem_nil, false_implies, implies_true, and_true]
  exact ⟨wordFits team h0, by simp⟩
theorem setSponsor (sponsor : Nat) (mask : Nat) (dwell : Nat) (periodTarget : Nat) (breakTarget : Nat) (cap : Bool) (payload :
    List Byte) : Statement (.setSponsor sponsor mask dwell periodTarget breakTarget cap payload) := by
  refine fits _ "SET-SPONSOR" [sponsor, mask, dwell, periodTarget, breakTarget, flagWord cap] payload rfl (by decide) (by
      simp) fun h => ?_
  replace h : (isWord sponsor && isWord mask && isWord dwell && isWord periodTarget && isWord breakTarget && isPayload
      payload) = true := h
  simp only [Bool.and_eq_true] at h
  obtain ⟨⟨⟨⟨⟨h0, h1⟩, h2⟩, h3⟩, h4⟩, h5⟩ := h
  simp only [List.forall_mem_cons, List.not_mem_nil, false_implies, implies_true, and_true]
  exact ⟨⟨wordFits sponsor h0, wordFits mask h1, wordFits dwell h2, wordFits periodTarget h3, wordFits breakTarget h4,
      flagFits cap⟩, by simpa [isPayload] using h5⟩
theorem setLevel (sponsor : Nat) (level : Nat) : Statement (.setLevel sponsor level) := by
  refine fits _ "SET-LEVEL" [sponsor, level] [] rfl (by decide) (by simp) fun h => ?_
  replace h : (isWord sponsor && isWord level) = true := h
  simp only [Bool.and_eq_true] at h
  obtain ⟨h0, h1⟩ := h
  simp only [List.forall_mem_cons, List.not_mem_nil, false_implies, implies_true, and_true]
  exact ⟨⟨wordFits sponsor h0, wordFits level h1⟩, by simp⟩
theorem holdRotation (frames : Nat) : Statement (.holdRotation frames) := by
  refine fits _ "HOLD-ROTATION" [frames] [] rfl (by decide) (by simp) fun h => ?_
  have h0 := h
  simp only [List.forall_mem_cons, List.not_mem_nil, false_implies, implies_true, and_true]
  exact ⟨wordFits frames h0, by simp⟩
theorem setTrigger (entry : Nat) (kind : Nat) (argument : Nat) (sponsor : Nat) (zone : Nat) (level : Nat) (dwell : Nat) :
    Statement (.setTrigger entry kind argument sponsor zone level dwell) := by
  refine fits _ "SET-TRIGGER" [entry, kind, argument, sponsor, zone, level, dwell] [] rfl (by decide) (by simp) fun h => ?_
  replace h : (isWord entry && isWord kind && isWord argument && isWord sponsor && isWord zone && isWord level && isWord
      dwell) = true := h
  simp only [Bool.and_eq_true] at h
  obtain ⟨⟨⟨⟨⟨⟨h0, h1⟩, h2⟩, h3⟩, h4⟩, h5⟩, h6⟩ := h
  simp only [List.forall_mem_cons, List.not_mem_nil, false_implies, implies_true, and_true]
  exact ⟨⟨wordFits entry h0, wordFits kind h1, wordFits argument h2, wordFits sponsor h3, wordFits zone h4, wordFits level
      h5, wordFits dwell h6⟩, by simp⟩
theorem clearTrigger (entry : Nat) : Statement (.clearTrigger entry) := by
  refine fits _ "CLEAR-TRIGGER" [entry] [] rfl (by decide) (by simp) fun h => ?_
  have h0 := h
  simp only [List.forall_mem_cons, List.not_mem_nil, false_implies, implies_true, and_true]
  exact ⟨wordFits entry h0, by simp⟩
theorem fireFeature (entry : Nat) : Statement (.fireFeature entry) := by
  refine fits _ "FIRE-FEATURE" [entry] [] rfl (by decide) (by simp) fun h => ?_
  have h0 := h
  simp only [List.forall_mem_cons, List.not_mem_nil, false_implies, implies_true, and_true]
  exact ⟨wordFits entry h0, by simp⟩
theorem setNesting (zone : Nat) (flag : Bool) : Statement (.setNesting zone flag) := by
  refine fits _ "SET-NESTING" [zone, flagWord flag] [] rfl (by decide) (by simp) fun h => ?_
  have h0 := h
  simp only [List.forall_mem_cons, List.not_mem_nil, false_implies, implies_true, and_true]
  exact ⟨⟨wordFits zone h0, flagFits flag⟩, by simp⟩
theorem setSegmentPlan (periodFrames : Nat) (breakFrames : Nat) : Statement (.setSegmentPlan periodFrames breakFrames) := by
  refine fits _ "SET-SEGMENT-PLAN" [periodFrames, breakFrames] [] rfl (by decide) (by simp) fun h => ?_
  replace h : (isWord periodFrames && isWord breakFrames) = true := h
  simp only [Bool.and_eq_true] at h
  obtain ⟨h0, h1⟩ := h
  simp only [List.forall_mem_cons, List.not_mem_nil, false_implies, implies_true, and_true]
  exact ⟨⟨wordFits periodFrames h0, wordFits breakFrames h1⟩, by simp⟩
theorem closeSegment : Statement (.closeSegment) := by
  exact fits _ "CLOSE-SEGMENT" [] [] rfl (by decide) (by simp) fun _ => by simp
theorem setSource (source : Nat) (base : Nat) (width : Nat) (height : Nat) (capacity : Nat) : Statement (.setSource source
    base width height capacity) := by
  refine fits _ "SET-SOURCE" [source, lowWord base, highWord base, pairWord width height, capacity] [] rfl (by decide) (by
      simp) fun h => ?_
  replace h : (isWord source && isLong base && isHalf width && isHalf height && isWord capacity) = true := h
  simp only [Bool.and_eq_true] at h
  obtain ⟨⟨⟨⟨h0, h1⟩, h2⟩, h3⟩, h4⟩ := h
  simp only [List.forall_mem_cons, List.not_mem_nil, false_implies, implies_true, and_true]
  exact ⟨⟨wordFits source h0, lowFits base, highFits base h1, halvesFits width height h2 h3, wordFits capacity h4⟩, by simp⟩
theorem captureStart (source : Nat) : Statement (.captureStart source) := by
  refine fits _ "CAPTURE-START" [source] [] rfl (by decide) (by simp) fun h => ?_
  have h0 := h
  simp only [List.forall_mem_cons, List.not_mem_nil, false_implies, implies_true, and_true]
  exact ⟨wordFits source h0, by simp⟩
theorem captureStop (source : Nat) : Statement (.captureStop source) := by
  refine fits _ "CAPTURE-STOP" [source] [] rfl (by decide) (by simp) fun h => ?_
  have h0 := h
  simp only [List.forall_mem_cons, List.not_mem_nil, false_implies, implies_true, and_true]
  exact ⟨wordFits source h0, by simp⟩
theorem markClip (clip : Nat) (source : Nat) (first : Nat) (last : Nat) : Statement (.markClip clip source first last) := by
  refine fits _ "MARK-CLIP" [clip, source, lowWord first, highWord first, lowWord last, highWord last] [] rfl (by decide)
      (by simp) fun h => ?_
  replace h : (isWord clip && isWord source && isLong first && isLong last) = true := h
  simp only [Bool.and_eq_true] at h
  obtain ⟨⟨⟨h0, h1⟩, h2⟩, h3⟩ := h
  simp only [List.forall_mem_cons, List.not_mem_nil, false_implies, implies_true, and_true]
  exact ⟨⟨wordFits clip h0, wordFits source h1, lowFits first, highFits first h2, lowFits last, highFits last h3⟩, by simp⟩
theorem dropClip (clip : Nat) : Statement (.dropClip clip) := by
  refine fits _ "DROP-CLIP" [clip] [] rfl (by decide) (by simp) fun h => ?_
  have h0 := h
  simp only [List.forall_mem_cons, List.not_mem_nil, false_implies, implies_true, and_true]
  exact ⟨wordFits clip h0, by simp⟩
theorem bindZone (zone : Nat) (channel : Nat) : Statement (.bindZone zone channel) := by
  refine fits _ "BIND-ZONE" [zone, channel] [] rfl (by decide) (by simp) fun h => ?_
  replace h : (isWord zone && isWord channel) = true := h
  simp only [Bool.and_eq_true] at h
  obtain ⟨h0, h1⟩ := h
  simp only [List.forall_mem_cons, List.not_mem_nil, false_implies, implies_true, and_true]
  exact ⟨⟨wordFits zone h0, wordFits channel h1⟩, by simp⟩
theorem setCrop (channel : Nat) (x : Nat) (y : Nat) : Statement (.setCrop channel x y) := by
  refine fits _ "SET-CROP" [channel, pairWord x y] [] rfl (by decide) (by simp) fun h => ?_
  replace h : (isWord channel && isHalf x && isHalf y) = true := h
  simp only [Bool.and_eq_true] at h
  obtain ⟨⟨h0, h1⟩, h2⟩ := h
  simp only [List.forall_mem_cons, List.not_mem_nil, false_implies, implies_true, and_true]
  exact ⟨⟨wordFits channel h0, halvesFits x y h1 h2⟩, by simp⟩
theorem cue (channel : Nat) (clip : Nat) (position : Nat) (endAction : Nat) : Statement (.cue channel clip position endAction)
    := by
  refine fits _ "CUE" [channel, clip, position, endAction] [] rfl (by decide) (by simp) fun h => ?_
  replace h : (isWord channel && isWord clip && isWord position && isWord endAction) = true := h
  simp only [Bool.and_eq_true] at h
  obtain ⟨⟨⟨h0, h1⟩, h2⟩, h3⟩ := h
  simp only [List.forall_mem_cons, List.not_mem_nil, false_implies, implies_true, and_true]
  exact ⟨⟨wordFits channel h0, wordFits clip h1, wordFits position h2, wordFits endAction h3⟩, by simp⟩
theorem markAndCue (channel : Nat) (source : Nat) (back : Nat) (playFlag : Bool) : Statement (.markAndCue channel source back
    playFlag) := by
  refine fits _ "MARK-AND-CUE" [channel, source, back, flagWord playFlag] [] rfl (by decide) (by simp) fun h => ?_
  replace h : (isWord channel && isWord source && isWord back) = true := h
  simp only [Bool.and_eq_true] at h
  obtain ⟨⟨h0, h1⟩, h2⟩ := h
  simp only [List.forall_mem_cons, List.not_mem_nil, false_implies, implies_true, and_true]
  exact ⟨⟨wordFits channel h0, wordFits source h1, wordFits back h2, flagFits playFlag⟩, by simp⟩
theorem play (channel : Nat) : Statement (.play channel) := by
  refine fits _ "PLAY" [channel] [] rfl (by decide) (by simp) fun h => ?_
  have h0 := h
  simp only [List.forall_mem_cons, List.not_mem_nil, false_implies, implies_true, and_true]
  exact ⟨wordFits channel h0, by simp⟩
theorem pause (channel : Nat) : Statement (.pause channel) := by
  refine fits _ "PAUSE" [channel] [] rfl (by decide) (by simp) fun h => ?_
  have h0 := h
  simp only [List.forall_mem_cons, List.not_mem_nil, false_implies, implies_true, and_true]
  exact ⟨wordFits channel h0, by simp⟩
theorem step (channel : Nat) (count : Int) : Statement (.step channel count) := by
  refine fits _ "STEP" [channel, signedWord count] [] rfl (by decide) (by simp) fun h => ?_
  replace h : (isWord channel && isSigned count) = true := h
  simp only [Bool.and_eq_true] at h
  obtain ⟨h0, h1⟩ := h
  simp only [List.forall_mem_cons, List.not_mem_nil, false_implies, implies_true, and_true]
  exact ⟨⟨wordFits channel h0, signedFits count h1⟩, by simp⟩
theorem setSpeed (channel : Nat) (step : Int) (reps : Nat) : Statement (.setSpeed channel step reps) := by
  refine fits _ "SET-SPEED" [channel, signedWord step, reps] [] rfl (by decide) (by simp) fun h => ?_
  replace h : (isWord channel && isSigned step && isWord reps) = true := h
  simp only [Bool.and_eq_true] at h
  obtain ⟨⟨h0, h1⟩, h2⟩ := h
  simp only [List.forall_mem_cons, List.not_mem_nil, false_implies, implies_true, and_true]
  exact ⟨⟨wordFits channel h0, signedFits step h1, wordFits reps h2⟩, by simp⟩
theorem stop (channel : Nat) : Statement (.stop channel) := by
  refine fits _ "STOP" [channel] [] rfl (by decide) (by simp) fun h => ?_
  have h0 := h
  simp only [List.forall_mem_cons, List.not_mem_nil, false_implies, implies_true, and_true]
  exact ⟨wordFits channel h0, by simp⟩
theorem postMessage (id : Nat) (priority : Nat) (reps : Nat) (minShow : Nat) (expiry : Nat) (payload : List Byte) : Statement
    (.postMessage id priority reps minShow expiry payload) := by
  refine fits _ "POST-MESSAGE" [id, priority, reps, minShow, expiry] payload rfl (by decide) (by simp) fun h => ?_
  replace h : (isWord id && isWord priority && isWord reps && isWord minShow && isWord expiry && isPayload payload) = true := h
  simp only [Bool.and_eq_true] at h
  obtain ⟨⟨⟨⟨⟨h0, h1⟩, h2⟩, h3⟩, h4⟩, h5⟩ := h
  simp only [List.forall_mem_cons, List.not_mem_nil, false_implies, implies_true, and_true]
  exact ⟨⟨wordFits id h0, wordFits priority h1, wordFits reps h2, wordFits minShow h3, wordFits expiry h4⟩, by simpa
      [isPayload] using h5⟩
theorem approveMessage (id : Nat) : Statement (.approveMessage id) := by
  refine fits _ "APPROVE-MESSAGE" [id] [] rfl (by decide) (by simp) fun h => ?_
  have h0 := h
  simp only [List.forall_mem_cons, List.not_mem_nil, false_implies, implies_true, and_true]
  exact ⟨wordFits id h0, by simp⟩
theorem rejectMessage (id : Nat) : Statement (.rejectMessage id) := by
  refine fits _ "REJECT-MESSAGE" [id] [] rfl (by decide) (by simp) fun h => ?_
  have h0 := h
  simp only [List.forall_mem_cons, List.not_mem_nil, false_implies, implies_true, and_true]
  exact ⟨wordFits id h0, by simp⟩
theorem withdrawMessage (id : Nat) : Statement (.withdrawMessage id) := by
  refine fits _ "WITHDRAW-MESSAGE" [id] [] rfl (by decide) (by simp) fun h => ?_
  have h0 := h
  simp only [List.forall_mem_cons, List.not_mem_nil, false_implies, implies_true, and_true]
  exact ⟨wordFits id h0, by simp⟩
theorem setTicker (window : Nat) (speed : Nat) : Statement (.setTicker window speed) := by
  refine fits _ "SET-TICKER" [window, speed] [] rfl (by decide) (by simp) fun h => ?_
  replace h : (isWord window && isWord speed) = true := h
  simp only [Bool.and_eq_true] at h
  obtain ⟨h0, h1⟩ := h
  simp only [List.forall_mem_cons, List.not_mem_nil, false_implies, implies_true, and_true]
  exact ⟨⟨wordFits window h0, wordFits speed h1⟩, by simp⟩
theorem resetUnits : Statement (.resetUnits) := by
  exact fits _ "RESET-UNITS" [] [] rfl (by decide) (by simp) fun _ => by simp

end Sys2Proof.Laws.FitsRecord
end

