-- ==== Sys2Proof/Laws/Reports.lean ====
section
/-! SUPPORT. The Report Writer: how a record is laid out; what writing, holding and losing a report do; and what the taking of a command can do. -/

namespace Sys2Proof.Machine

open Sys2Proof

/-! ### Records laid out (R182, R183) -/

/-- Pieces laid one after another from an offset on, each a length, a value, and whether a field holds it. -/
def fieldsAt : Nat → List (Nat × Nat × Bool) → List (Nat × Nat × Nat)
  | _, [] => []
  | o, (l, v, b) :: ps => if b then (o, l, v) :: fieldsAt (o + l) ps else fieldsAt (o + l) ps

/-- Every field of pieces laid one after another holds its value, and the bytes in no field are 0. -/
theorem laidOut_pieces (ps : List (Nat × Nat × Bool)) (o : Nat) (h : ∀ p ∈ ps, p.2.2 = false → p.2.1 = 0) :
    (∀ f ∈ fieldsAt o ps, o ≤ f.1 ∧ ∀ k < f.2.1,
      (ps.flatMap fun p => toLe p.1 p.2.1)[f.1 - o + k]? = some (BitVec.ofNat 8 (f.2.2 / 256 ^ k))) ∧
    ∀ k < (ps.flatMap fun p => toLe p.1 p.2.1).length, (∀ f ∈ fieldsAt o ps, o + k < f.1 ∨ f.1 + f.2.1 ≤ o + k) →
      (ps.flatMap fun p => toLe p.1 p.2.1)[k]? = some 0 := by
  induction ps generalizing o with
  | nil => simp [fieldsAt]
  | cons p ps ih =>
    obtain ⟨l, v, b⟩ := p
    have ih := ih (o + l) (fun p hp => h p (List.mem_cons_of_mem _ hp))
    simp only [List.flatMap_cons]
    constructor
    · intro f hf
      have tail : f ∈ fieldsAt (o + l) ps → o ≤ f.1 ∧ ∀ k < f.2.1,
          (toLe l v ++ ps.flatMap fun p => toLe p.1 p.2.1)[f.1 - o + k]? = some (BitVec.ofNat 8 (f.2.2 / 256 ^ k)) := by
        intro hf
        obtain ⟨ho, hk⟩ := ih.1 f hf
        refine ⟨by omega, fun k hlt => ?_⟩
        rw [List.getElem?_append_right (by simp; omega), ← hk k hlt]
        congr 1; simp; omega
      cases b with
      | false => exact tail (by simpa [fieldsAt] using hf)
      | true =>
        simp only [fieldsAt, if_true, List.mem_cons] at hf
        obtain rfl | hf := hf
        · refine ⟨Nat.le_refl _, fun k hk => ?_⟩
          simp only [Nat.sub_self, Nat.zero_add]
          simp only at hk
          rw [List.getElem?_append_left (by simpa using hk), toLe_get _ _ _ hk]
        · exact tail hf
    · intro k hk hf
      by_cases hl : k < l
      · cases b with
        | true =>
          have := hf (o, l, v) (by simp [fieldsAt])
          simp at this; omega
        | false =>
          have : v = 0 := h _ (List.mem_cons_self ..) rfl
          rw [List.getElem?_append_left (by simpa using hl), toLe_get _ _ _ hl, this]; simp
      · rw [List.getElem?_append_right (by simp; omega)]
        simp only [toLe_length]
        refine ih.2 (k - l) (by simp at hk ⊢; omega) fun f hfm => ?_
        have := hf f (by cases b <;> simp [fieldsAt, hfm])
        omega

/-- Bytes that are pieces laid one after another are laid out by the table of those pieces that are fields. -/
theorem LaidOut.of_pieces {bs : List Byte} {n : Nat} {fs : List (Nat × Nat × Nat)} (ps : List (Nat × Nat × Bool))
    (hb : bs = ps.flatMap fun p => toLe p.1 p.2.1) (hn : (ps.map (·.1)).sum = n) (hf : fs = fieldsAt 0 ps)
    (hz : ∀ p ∈ ps, p.2.2 = false → p.2.1 = 0) : LaidOut bs n fs := by
  have hlen : bs.length = n := by subst hb hn; simp [List.length_flatMap]
  obtain ⟨h1, h2⟩ := laidOut_pieces ps 0 hz
  subst hb hf
  refine ⟨hlen, fun f hf k hk => ?_, fun k hk hf => h2 k (by omega) (by simpa using hf)⟩
  simpa using (h1 f hf).2 k hk

/-! ### The record written (R174, R182) -/

/-- One beat of bytes. -/
theorem beatsOf_one (bs : List Byte) (h : bs.length = 32) : beatsOf 1 bs = [bs.map some] := by
  have hs : slice bs 0 32 = bs := by simp [slice, ← h]
  show [(slice bs (32 * 0) 32).map some] = _
  rw [Nat.mul_zero, hs]

/-- A report written: the producer count rises, the lost count returns to 0, and the record's write joins the queue. -/
theorem ringWrite_writer (s : State) (r : Report) (frame : BitVec 32) :
    (s.ringWrite r frame).writer = { s.writer with producer := s.writer.producer + 1, lost := 0 } := rfl

theorem ringWrite_queue (s : State) (r : Report) (frame : BitVec 32) :
    (s.ringWrite r frame).queued = s.queued ++ [(true, s.recordAddr s.writer.producer, 1,
      beatsOf 1 (reportBytes r s.writer.producer s.writer.lost frame), .reportWrite)] := by
  have h := (enterFor_queue s.scheduler .writer [newWrite .reportWrite (s.recordAddr s.writer.producer)
    (beatsOf 1 (reportBytes r s.writer.producer s.writer.lost frame))]).1
  exact h

theorem frame_ringWrite (s : State) (r : Report) (frame : BitVec 32) :
    Frame [.writer, .scheduler] s (s.ringWrite r frame) :=
  (Frame.mono (frame_setWriter s _) (by simp)).trans (Frame.mono (frame_setScheduler _ _) (by simp))

/-! ### Waiting for a place -/

theorem frame_writerRest (s : State) : Frame [.scheduler] s s.writerRest := by
  unfold State.writerRest
  split
  · exact frame_setScheduler s _
  · exact .refl _ _

theorem writerRest_queue (s : State) : s.writerRest.queued = s.queued := by
  unfold State.writerRest Scheduler.joinWait
  split
  · split <;> rfl
  · rfl

@[simp] theorem writerRest_writer (s : State) : s.writerRest.writer = s.writer := by
  unfold State.writerRest
  split <;> rfl

/-- With nothing waiting and nothing held, the Report Writer waits for nothing. -/
theorem writerRest_of_empty (s : State) (h : s.writer.waiting = []) (k : s.writer.holding = []) : s.writerRest = s := by
  simp [State.writerRest, State.writerPending, h, k]

/-! ### Arrival and the holding queue (R175) -/

/-- Everything the arrival of a report can do: written at once, held, or lost and counted. -/
theorem arriveReport_cases (s : State) (r : Report) :
    (s.writer.holding = [] ∧ 0 < s.writer.usable ∧ s.writer.waiting = [] ∧ s.writerMay = true ∧
        s.arriveReport r = s.ringWrite r s.frameLow) ∨
      (s.writer.holding.length < 48 ∧
        s.arriveReport r = (s.setWriter { s.writer with holding := s.writer.holding ++ [⟨r, s.frameLow⟩] }).writerRest) ∨
      (48 ≤ s.writer.holding.length ∧ s.arriveReport r = s.setWriter { s.writer with lost := countUp 65535 s.writer.lost }) := by
  unfold State.arriveReport
  dsimp only
  split
  · rename_i h
    simp only [Bool.and_eq_true, decide_eq_true_eq, List.isEmpty_iff] at h
    exact .inl ⟨h.1.1.1, h.1.1.2, h.1.2, h.2, rfl⟩
  · split
    · rename_i h
      exact .inr (.inl ⟨h, rfl⟩)
    · rename_i h
      exact .inr (.inr ⟨Nat.le_of_not_lt h, rfl⟩)

theorem frame_arriveReport (s : State) (r : Report) : Frame [.writer, .scheduler] s (s.arriveReport r) := by
  rcases arriveReport_cases s r with ⟨_, _, _, _, h⟩ | ⟨_, h⟩ | ⟨_, h⟩ <;> rw [h]
  · exact frame_ringWrite s _ _
  · exact (Frame.mono (frame_setWriter s _) (by simp)).trans (Frame.mono (frame_writerRest _) (by simp))
  · exact Frame.mono (frame_setWriter s _) (by simp)

/-- Everything one attempt to write the head of the holding queue can do. -/
theorem writeHeld_cases (s : State) :
    (s.writer.holding = [] ∧ s.writeHeld = s) ∨
      ∃ h rest, s.writer.holding = h :: rest ∧
        ((0 < s.writer.usable ∧ s.writer.waiting = [] ∧ s.writerMay = true ∧
            s.writeHeld = ((s.setWriter { s.writer with holding := rest }).ringWrite h.report h.frame).writerRest) ∨
          s.writeHeld = s.writerRest) := by
  unfold State.writeHeld
  split
  · rename_i h
    exact .inl ⟨h, rfl⟩
  · rename_i h rest hq
    refine .inr ⟨h, rest, hq, ?_⟩
    split
    · rename_i hc
      simp only [Bool.and_eq_true, decide_eq_true_eq, List.isEmpty_iff] at hc
      exact .inl ⟨hc.1.1, hc.1.2, hc.2, rfl⟩
    · exact .inr rfl

theorem frame_writeHeld (s : State) : Frame [.writer, .scheduler] s s.writeHeld := by
  rcases writeHeld_cases s with ⟨_, h⟩ | ⟨h, rest, _, ⟨_, _, _, k⟩ | k⟩
  · rw [h]; exact .refl _ _
  · rw [k]
    exact ((Frame.mono (frame_setWriter s _) (by simp)).trans (frame_ringWrite _ _ _)).trans
      (Frame.mono (frame_writerRest _) (by simp))
  · rw [k]; exact Frame.mono (frame_writerRest _) (by simp)

/-- The command's own report written: its place is no longer reserved, the command is counted, and the reader is idle. -/
theorem writeOwn_reader (s : State) (res : CommandResult) (frame : BitVec 32) :
    (s.writeOwn res frame).reader = { s.reader with consumer := s.reader.consumer + 1, begun := false, stage := .idle } := rfl

theorem writeOwn_writer (s : State) (res : CommandResult) (frame : BitVec 32) :
    (s.writeOwn res frame).writer = { s.writer with producer := s.writer.producer + 1, lost := 0, reserved := false } := rfl

theorem frame_writeOwn (s : State) (res : CommandResult) (frame : BitVec 32) :
    Frame [.writer, .scheduler, .reader] s (s.writeOwn res frame) :=
  ((Frame.mono (frame_ringWrite s _ _) (by simp)).trans (Frame.mono (frame_setWriter _ _) (by simp))).trans
    (Frame.mono (frame_setReader _ _) (by simp))

/-! ### Taking a command (R170) -/

/-- Everything the examination of the taking conditions can do: the next command is taken and its fetch entered or waiting, or
nothing. -/
theorem takeNext_cases (s : State) :
    (s.mayTake = true ∧ s.takeNext =
        ((s.setReader { s.reader with
          begun := true, stage := .fetching
          toEnter := [newRead .recordFetch .general (s.commandAddr s.reader.consumer) 2] }).setWriter
            { s.writer with reserved := true }).readerEnter) ∨
      (s.mayTake = false ∧ s.takeNext = s) := by
  unfold State.takeNext
  split
  · rename_i h
    exact .inl ⟨h, rfl⟩
  · rename_i h
    exact .inr ⟨by simpa using h, rfl⟩

/-- A command is not taken while one is in progress, while none is waiting, or before DRAM initialisation has completed. -/
theorem takeNext_of_stays (s : State)
    (h : s.reader.begun = true ∨ s.reader.taken = s.reader.consumer ∨ s.port.initDone = false) : s.takeNext = s := by
  rcases takeNext_cases s with ⟨h', _⟩ | ⟨_, h'⟩
  · rcases h with h | h | h <;> simp [State.mayTake, h] at h'
  · exact h'

theorem frame_readerEnter (s : State) : Frame [.reader, .scheduler] s s.readerEnter := by
  unfold State.readerEnter
  split
  · exact .refl _ _
  · exact (Frame.mono (frame_setReader s _) (by simp)).trans (Frame.mono (frame_setScheduler _ _) (by simp))

@[simp] theorem readerEnter_writer (s : State) : s.readerEnter.writer = s.writer := by
  unfold State.readerEnter
  split <;> rfl

theorem frame_takeNext (s : State) : Frame [.reader, .writer, .scheduler] s s.takeNext := by
  rcases takeNext_cases s with ⟨_, h⟩ | ⟨_, h⟩ <;> rw [h]
  · exact ((Frame.mono (frame_setReader s _) (by simp)).trans (Frame.mono (frame_setWriter _ _) (by simp))).trans
      (Frame.mono (frame_readerEnter _) (by simp))
  · exact .refl _ _

/-- Taking a command reserves its place and touches nothing else of the Report Writer (R170). -/
theorem takeNext_writer (s : State) :
    s.takeNext.writer = { s.writer with reserved := s.mayTake || s.writer.reserved } := by
  rcases takeNext_cases s with ⟨m, h⟩ | ⟨m, h⟩ <;> rw [h] <;> simp [m]

theorem frame_finishCommand (s : State) (res : CommandResult) (frame : BitVec 32) :
    Frame [.reader, .writer, .scheduler] s (s.finishCommand res frame) :=
  ((Frame.mono (frame_writeOwn s res frame) (by simp)).trans (Frame.mono (frame_writerRest _) (by simp))).trans (frame_takeNext _)

end Sys2Proof.Machine
end

