-- ==== Sys2Proof/Laws/Service.lean ====
section
/-! SUPPORT. A frame start at the Rotation Unit: the verdicts, the reports of a close, the service of the zones where one of them is an
enabled SPONSOR zone, and the choice of a turn (R86 to R93, R98, R101). -/

namespace Sys2Proof.Machine

open Sys2Proof

/-! ### Verdicts and the close (R87, R101) -/

/-- The verdict on a zone's sponsor. -/
def Verdict (zs : Vector Zone 8) (occ : List Rect) (p : Sponsor) (z : Nat) (x : ZoneRotation) : Sponsor :=
  p.judged x.coverage (zoneAt zs z) ((zoneAt zs z).crossed occ) (match x.showing with
    | .turn _ _ _ => true
    | _ => false)

/-- What a verdict leaves of the unit beside zones and sponsors. -/
structure SameTables (u v : RotationUnit) : Prop where
  segment : v.segment = u.segment
  hold : v.hold = u.hold
  inForce : v.holdInForce = u.holdInForce
  triggers : v.triggers = u.triggers
  arrival : v.nextArrival = u.nextArrival

theorem SameTables.rfl' (u : RotationUnit) : SameTables u u := ⟨rfl, rfl, rfl, rfl, rfl⟩

theorem SameTables.trans {u v w : RotationUnit} (a : SameTables u v) (b : SameTables v w) : SameTables u w :=
  ⟨b.1.trans a.1, b.2.trans a.2, b.3.trans a.3, b.4.trans a.4, b.5.trans a.5⟩

/-- A zone judged: its record awaits, and its sponsor alone has a verdict. -/
theorem judgeZone_spec (zs : Vector Zone 8) (occ : List Rect) (u : RotationUnit) (z : Nat) :
    SameTables u (u.judgeZone zs occ z) ∧
    (∀ y, (u.judgeZone zs occ z).zone y =
      if y = z ∧ z < 8 then { u.zone z with coverage := Coverage.awaiting } else u.zone y) ∧
    ∀ n, (u.judgeZone zs occ z).sponsor n =
      if (u.zone z).showing.sponsor = some n ∧ n < 32 then Verdict zs occ (u.sponsor n) z (u.zone z) else u.sponsor n := by
  have judge : ∀ (n : Nat) (t : Bool), (match (u.zone z).showing with | .turn _ _ _ => true | _ => false) = t →
      (u.zone z).showing.sponsor = some n →
      RotationUnit.judgeZone zs occ u z =
        (u.setSponsor n ((u.sponsor n).judged (u.zone z).coverage (zoneAt zs z) ((zoneAt zs z).crossed occ) t)).setZone z
          { u.zone z with coverage := Coverage.awaiting } →
      ∀ m, (RotationUnit.judgeZone zs occ u z).sponsor m =
        if (u.zone z).showing.sponsor = some m ∧ m < 32 then Verdict zs occ (u.sponsor m) z (u.zone z) else u.sponsor m := by
    intro n t ht hn e m
    rw [e, sponsor_setZone, sponsor_setSponsor, hn, Verdict, ht]
    by_cases hm : m = n
    · subst hm; simp
    · simp [hm, Ne.symm hm]
  cases hx : (u.zone z).showing with
  | idle =>
    have e : u.judgeZone zs occ z = u.setZone z { u.zone z with coverage := Coverage.awaiting } := by
      simp only [RotationUnit.judgeZone, hx]
    rw [e]
    exact ⟨⟨rfl, rfl, rfl, rfl, rfl⟩, fun y => zone_setZone _ _ _ _, fun n => by simp [Showing.sponsor]⟩
  | turn n d k =>
    have e : u.judgeZone zs occ z = (u.setSponsor n ((u.sponsor n).judged (u.zone z).coverage (zoneAt zs z)
        ((zoneAt zs z).crossed occ) true)).setZone z { u.zone z with coverage := Coverage.awaiting } := by
      simp only [RotationUnit.judgeZone, hx]
    have h := judge n true (by rw [hx]) (by rw [hx]; rfl) e
    rw [hx] at h
    refine ⟨?_, ?_, h⟩ <;> rw [e]
    · exact ⟨rfl, rfl, rfl, rfl, rfl⟩
    · exact fun y => zone_setZone _ _ _ _
  | feature g =>
    have e : u.judgeZone zs occ z = (u.setSponsor g.sponsor ((u.sponsor g.sponsor).judged (u.zone z).coverage (zoneAt zs z)
        ((zoneAt zs z).crossed occ) false)).setZone z { u.zone z with coverage := Coverage.awaiting } := by
      simp only [RotationUnit.judgeZone, hx]
    have h := judge g.sponsor false (by rw [hx]) (by rw [hx]; rfl) e
    rw [hx] at h
    refine ⟨?_, ?_, h⟩ <;> rw [e]
    · exact ⟨rfl, rfl, rfl, rfl, rfl⟩
    · exact fun y => zone_setZone _ _ _ _

/-- The zones of a list judged, where no two show one sponsor: every record awaits, and each sponsor has its zone's verdict. -/
theorem judgeZones_spec (zs : Vector Zone 8) (occ : List Rect) (L : List Nat) (u : RotationUnit) (hd : L.Nodup) (hL : ∀ z ∈ L, z < 8) :
    SameTables u (L.foldl (RotationUnit.judgeZone zs occ) u) ∧
    (∀ y, (L.foldl (RotationUnit.judgeZone zs occ) u).zone y =
      if y ∈ L then { u.zone y with coverage := Coverage.awaiting } else u.zone y) ∧
    (∀ n, (∀ z ∈ L, (u.zone z).showing.sponsor ≠ some n) → (L.foldl (RotationUnit.judgeZone zs occ) u).sponsor n = u.sponsor n) ∧
    ∀ n z, n < 32 → z ∈ L → (u.zone z).showing.sponsor = some n →
      (∀ y ∈ L, y ≠ z → (u.zone y).showing.sponsor ≠ some n) →
      (L.foldl (RotationUnit.judgeZone zs occ) u).sponsor n = Verdict zs occ (u.sponsor n) z (u.zone z) := by
  induction L generalizing u with
  | nil => exact ⟨.rfl' u, fun y => by simp, fun _ _ => rfl, fun _ _ _ h => by simp at h⟩
  | cons x xs ih =>
    obtain ⟨hx, hxs⟩ := List.nodup_cons.mp hd
    obtain ⟨a1, a2, a3⟩ := judgeZone_spec zs occ u x
    obtain ⟨b1, b2, b3, b4⟩ := ih (u.judgeZone zs occ x) hxs fun z hz => hL z (List.mem_cons_of_mem _ hz)
    have hx8 := hL x List.mem_cons_self
    have other : ∀ y ∈ xs, (u.judgeZone zs occ x).zone y = u.zone y := fun y hy => by
      rw [a2, if_neg]
      rintro ⟨rfl, -⟩
      exact hx hy
    refine ⟨a1.trans b1, fun y => ?_, fun n hn => ?_, fun n z h32 hz hs ho => ?_⟩
    · rw [List.foldl_cons, b2]
      by_cases hy : y ∈ xs
      · rw [if_pos hy, if_pos (List.mem_cons_of_mem _ hy), other y hy]
      · rw [if_neg hy, a2]
        by_cases hyx : y = x
        · subst hyx; simp [hx8]
        · simp [hyx, hy]
    · rw [List.foldl_cons, b3 n fun z hz => by rw [other z hz]; exact hn z (List.mem_cons_of_mem _ hz), a3, if_neg]
      exact fun h => hn x List.mem_cons_self h.1
    · rw [List.foldl_cons]
      rcases List.mem_cons.mp hz with rfl | hz'
      · rw [b3 n fun y hy => by rw [other y hy]; exact ho y (List.mem_cons_of_mem _ hy) fun e => hx (e ▸ hy), a3, if_pos ⟨hs, h32⟩]
      · have hzx : x ≠ z := fun e => hx (e ▸ hz')
        rw [b4 n z h32 hz' (by rw [other z hz']; exact hs) fun y hy hyz => by
          rw [other y hy]; exact ho y (List.mem_cons_of_mem _ hy) hyz, other z hz', a3, if_neg]
        exact fun h => ho x List.mem_cons_self hzx h.1

/-- The verdicts of a frame start (R87). -/
theorem verdicts_spec (u : RotationUnit) (zs : Vector Zone 8) (occ : List Rect) :
    (u.verdicts zs occ).segment = { u.segment with elapsed := raise u.segment.elapsed } ∧ (u.verdicts zs occ).hold = u.hold ∧
    (u.verdicts zs occ).triggers = u.triggers ∧
    (∀ y, y < 8 → (u.verdicts zs occ).zone y = { u.zone y with coverage := Coverage.awaiting }) ∧
    (∀ n, (∀ z, z < 8 → (u.zone z).showing.sponsor ≠ some n) → (u.verdicts zs occ).sponsor n = u.sponsor n) ∧
    (ShowsOnce u → ∀ n z, n < 32 → z < 8 → (u.zone z).showing.sponsor = some n →
      (u.verdicts zs occ).sponsor n = Verdict zs occ (u.sponsor n) z (u.zone z)) := by
  obtain ⟨a1, a2, a3, a4⟩ := judgeZones_spec zs occ (List.range 8)
    { u with segment := { u.segment with elapsed := raise u.segment.elapsed } } List.nodup_range fun z hz => List.mem_range.mp hz
  refine ⟨a1.segment, a1.hold, a1.triggers, fun y hy => ?_, fun n hn => a3 n fun z hz => hn z (List.mem_range.mp hz),
    fun once n z hn hz hs => ?_⟩
  · exact (a2 y).trans (if_pos (List.mem_range.mpr hy))
  · exact a4 n z hn (List.mem_range.mpr hz) hs fun y hy hyz h => hyz (once y z n (List.mem_range.mp hy) hz h hs)

/-- What judging leaves of each sponsor: its contract, level, art and turns. -/
theorem verdict_rest (zs : Vector Zone 8) (occ : List Rect) (p : Sponsor) (z : Nat) (x : ZoneRotation) :
    Verdict zs occ p z x = { p with
      rotationCredit := (Verdict zs occ p z x).rotationCredit, featureCredit := (Verdict zs occ p z x).featureCredit
      occluded := (Verdict zs occ p z x).occluded, broken := (Verdict zs occ p z x).broken } := by
  unfold Verdict Sponsor.judged
  repeat' split
  all_goals rfl

/-- The EXPOSURE reports of a unit, by sponsor number (R101). -/
theorem exposures_range (u : RotationUnit) : u.exposures = (List.range 32).filterMap fun n =>
    let p := u.sponsor n
    if 1 ≤ p.level ∨ 0 < p.credit then
      some (.exposure n u.segment.kind u.segment.number u.segment.elapsed p.rotationCredit p.featureCredit p.turns p.occluded p.broken)
    else none := by
  have : u.sponsors.toList.zipIdx = (List.range 32).map fun n => (u.sponsor n, n) := by
    apply List.ext_getElem
    · simp
    · intro i h1 h2
      simp at h1
      simp [RotationUnit.sponsor, tget, h1]
  rw [RotationUnit.exposures, this, List.filterMap_map]
  rfl

/-! ### The service of a zone (R90, R98) -/

theorem dropped_isFeature (f : Feature) (z : Nat) (r : DropReason) : isFeatureReport (f.dropped z r) := trivial

theorem closeZone_spec (u : RotationUnit) (z : Nat) :
    SameTables u (u.closeZone z).1 ∧ (u.closeZone z).1.sponsors = u.sponsors ∧ (∀ q ∈ (u.closeZone z).2, isFeatureReport q) ∧
    ∀ y, (u.closeZone z).1.zone y = if y = z ∧ z < 8 then { u.zone z with showing := .idle, queue := [] } else u.zone y := by
  refine ⟨⟨rfl, rfl, rfl, rfl, rfl⟩, rfl, fun q hq => ?_, fun y => zone_setZone _ _ _ _⟩
  obtain ⟨f, -, rfl⟩ := List.mem_map.mp hq
  exact dropped_isFeature _ _ _

/-- One zone of the service. -/
def serveStep (zs : Vector Zone 8) (acc : RotationUnit × List Report) (z : Nat) : RotationUnit × List Report :=
  ((acc.1.serveZone zs z).1, acc.2 ++ (acc.1.serveZone zs z).2)

/-- Zones that serve no sponsors are closed one after another, and nothing else changes. -/
theorem serve_closed (zs : Vector Zone 8) (L : List Nat) (acc : RotationUnit × List Report) (hd : L.Nodup)
    (hL : ∀ y ∈ L, y < 8 ∧ (zoneAt zs y).isSponsor = false) :
    SameTables acc.1 (L.foldl (serveStep zs) acc).1 ∧ (L.foldl (serveStep zs) acc).1.sponsors = acc.1.sponsors ∧
    (∃ more, (L.foldl (serveStep zs) acc).2 = acc.2 ++ more ∧ ∀ q ∈ more, isFeatureReport q) ∧
    ∀ y, (L.foldl (serveStep zs) acc).1.zone y =
      if y ∈ L then { acc.1.zone y with showing := .idle, queue := [] } else acc.1.zone y := by
  induction L generalizing acc with
  | nil => exact ⟨.rfl' _, rfl, ⟨[], by simp, by simp⟩, fun y => by simp⟩
  | cons x xs ih =>
    obtain ⟨hx, hxs⟩ := List.nodup_cons.mp hd
    have e : serveStep zs acc x = ((acc.1.closeZone x).1, acc.2 ++ (acc.1.closeZone x).2) := by
      simp only [serveStep, RotationUnit.serveZone, (hL x List.mem_cons_self).2]
      rfl
    obtain ⟨a1, a2, a3, a4⟩ := closeZone_spec acc.1 x
    obtain ⟨b1, b2, ⟨more, b3, b4⟩, b5⟩ := ih (serveStep zs acc x) hxs fun y hy => hL y (List.mem_cons_of_mem _ hy)
    rw [List.foldl_cons]
    rw [e] at b1 b2 b3 b5 ⊢
    refine ⟨a1.trans b1, b2.trans a2, ⟨(acc.1.closeZone x).2 ++ more, by rw [b3, List.append_assoc], ?_⟩, fun y => ?_⟩
    · intro q hq
      exact (List.mem_append.mp hq).elim (a3 q) (b4 q)
    · rw [b5, a4]
      have h8 := (hL x List.mem_cons_self).1
      by_cases hy : y ∈ xs
      · have : y ≠ x := fun e => hx (e ▸ hy)
        simp [hy, this]
      · by_cases hyx : y = x
        · subst hyx; simp [hx, h8]
        · simp [hy, hyx]

/-- Where one zone alone is an enabled SPONSOR zone, the service of a frame start is that zone's own, with the others closed: the zones
below it before it, the zones above it behind it. -/
theorem service_one (u : RotationUnit) (zs : Vector Zone 8) (z : Nat) (hz : z < 8)
    (ho : ∀ y, y ≠ z → (zoneAt zs y).isSponsor = false) :
    ∃ v, SameTables u v ∧ v.sponsors = u.sponsors ∧ v.zone z = { u.zone z with begunNow := false } ∧
      (∀ y, y < 8 → y ≠ z → (v.zone y).showing = .idle ∨ (v.zone y).showing = (u.zone y).showing) ∧
      SameTables (v.serveZone zs z).1 (u.service zs).1 ∧ (u.service zs).1.sponsors = (v.serveZone zs z).1.sponsors ∧
      (u.service zs).1.zone z = (v.serveZone zs z).1.zone z := by
  let w : RotationUnit := { u with zones := tmap (fun x : ZoneRotation => { x with begunNow := false }) u.zones }
  have hw : ∀ y, y < 8 → w.zone y = { u.zone y with begunNow := false } := fun y hy => tget_tmap _ _ _ ZoneRotation.powerOn _ hy
  have split : List.range 8 = List.range z ++ z :: (List.range (7 - z)).map (z + 1 + ·) := by
    have : List.range 8 = List.range (z + (1 + (7 - z))) := by congr 1; omega
    rw [this, List.range_add, List.range_add]
    simp [Function.comp_def, Nat.add_assoc]
  have e : u.service zs = (List.range 8).foldl (serveStep zs) (w, []) := rfl
  have below := serve_closed zs (List.range z) (w, []) List.nodup_range fun y hy => by
    have := List.mem_range.mp hy
    exact ⟨by omega, ho y (by omega)⟩
  obtain ⟨a1, a2, -, a4⟩ := below
  rw [split, List.foldl_append, List.foldl_cons] at e
  generalize (List.range z).foldl (serveStep zs) (w, []) = b at e a1 a2 a4
  have above := serve_closed zs ((List.range (7 - z)).map (z + 1 + ·)) (serveStep zs b z)
    (List.Pairwise.map _ (fun _ _ h => by omega) List.nodup_range) fun y hy => by
      obtain ⟨k, hk, rfl⟩ := List.mem_map.mp hy
      have := List.mem_range.mp hk
      exact ⟨by omega, ho _ (by omega)⟩
  obtain ⟨b1, b2, -, b4⟩ := above
  refine ⟨b.1, ⟨a1.1, a1.2, a1.3, a1.4, a1.5⟩, a2, ?_, fun y hy hyz => ?_, by rw [e]; exact b1, by rw [e]; exact b2, ?_⟩
  · rw [a4, if_neg (by simp)]; exact hw z hz
  · rw [a4]
    split
    · exact .inl rfl
    · right; rw [hw y hy]
  · rw [e, b4, if_neg]
    · rfl
    · intro h
      obtain ⟨k, -, hk⟩ := List.mem_map.mp h
      omega

/-- Every report of a service is of a feature dropped. -/
theorem dropUnfit_feature (fits : Feature → Bool) (z : Nat) (q : List Feature) : ∀ r ∈ (dropUnfit fits z q).2, isFeatureReport r := by
  induction q with
  | nil => simp [dropUnfit]
  | cons f fs ih =>
    unfold dropUnfit
    split
    · simp
    · intro r hr
      rcases List.mem_cons.mp hr with rfl | hr
      · exact dropped_isFeature _ _ _
      · exact ih r hr

theorem trimQueue_feature (u : RotationUnit) (zs : Vector Zone 8) (z : Nat) : ∀ r ∈ (u.trimQueue zs z).2, isFeatureReport r :=
  dropUnfit_feature _ _ _

theorem preempt_reports (u : RotationUnit) (zs : Vector Zone 8) (z : Nat) : (u.preempt zs z).2 = (u.trimQueue zs z).2 := by
  unfold RotationUnit.preempt
  dsimp only
  repeat' split
  all_goals rfl

theorem fillZone_feature (u : RotationUnit) (zs : Vector Zone 8) (z : Nat) (ended : Option Nat) :
    ∀ r ∈ (u.fillZone zs z ended).2, isFeatureReport r := by
  unfold RotationUnit.fillZone
  dsimp only
  repeat' split
  all_goals first | exact trimQueue_feature u zs z | simp

theorem serveZone_feature (u : RotationUnit) (zs : Vector Zone 8) (z : Nat) : ∀ r ∈ (u.serveZone zs z).2, isFeatureReport r := by
  unfold RotationUnit.serveZone
  split
  · intro r hr
    rcases List.mem_append.mp hr with hr | hr
    · rw [preempt_reports] at hr; exact trimQueue_feature u zs z r hr
    · exact fillZone_feature _ _ _ _ r hr
  · exact (closeZone_spec u z).2.2.1

theorem service_feature (u : RotationUnit) (zs : Vector Zone 8) : ∀ r ∈ (u.service zs).2, isFeatureReport r := by
  have key : ∀ (L : List Nat) (acc : RotationUnit × List Report), (∀ r ∈ acc.2, isFeatureReport r) →
      ∀ r ∈ (L.foldl (serveStep zs) acc).2, isFeatureReport r := by
    intro L
    induction L with
    | nil => exact fun _ h => h
    | cons z zs' ih =>
      intro acc h
      refine ih _ fun r hr => ?_
      exact (List.mem_append.mp hr).elim (h r) (serveZone_feature _ _ _ r)
  exact key _ _ (by simp)

/-! ### The parts of a service -/

/-- An entry written back as it reads changes nothing. -/
theorem setZone_self (u : RotationUnit) (z : Nat) : u.setZone z (u.zone z) = u := by
  have : tset u.zones z (u.zone z) = u.zones := tget_ext _ _ ZoneRotation.powerOn fun i _ => by
    rw [tget_tset]; split
    · rename_i h; rw [h.1]; rfl
    · rfl
  simp [RotationUnit.setZone, this]

/-- Nothing is dropped from an empty queue, or from one whose head fits. -/
theorem trimQueue_nil (u : RotationUnit) (zs : Vector Zone 8) (z : Nat) (h : (u.zone z).queue = []) : u.trimQueue zs z = (u, []) := by
  have e : u.trimQueue zs z = (u.setZone z { u.zone z with queue := [] }, []) := by
    simp only [RotationUnit.trimQueue, h]; rfl
  rw [e, show ({ u.zone z with queue := [] } : ZoneRotation) = u.zone z by rw [← h], setZone_self]

theorem starter_nil (u : RotationUnit) (z : Nat) (h : (u.zone z).queue = []) : u.starter z = none := by
  simp [RotationUnit.starter, h]

theorem preempt_nil (u : RotationUnit) (zs : Vector Zone 8) (z : Nat) (h : (u.zone z).queue = []) : u.preempt zs z = (u, []) := by
  simp only [RotationUnit.preempt, trimQueue_nil u zs z h, starter_nil u z h]

theorem trimQueue_fit (u : RotationUnit) (zs : Vector Zone 8) (z : Nat)
    (h : ∀ g q, (u.zone z).queue = g :: q → (u.sponsor g.sponsor).fits (zoneAt zs z) = true) : u.trimQueue zs z = (u, []) := by
  cases hq : (u.zone z).queue with
  | nil => exact trimQueue_nil u zs z hq
  | cons g q =>
    have e : u.trimQueue zs z = (u.setZone z { u.zone z with queue := g :: q }, []) := by
      simp only [RotationUnit.trimQueue, hq, dropUnfit, h g q hq, if_true]
    rw [e, show ({ u.zone z with queue := g :: q } : ZoneRotation) = u.zone z by rw [← hq], setZone_self]

/-- The zone served keeps its record when turns end elsewhere. -/
theorem endTurns_zone (u : RotationUnit) (z n : Nat) : (u.endTurnsElsewhere z n).zone z = u.zone z := by
  have key : ∀ (L : List Nat) (v : RotationUnit), (L.foldl (fun (v : RotationUnit) y =>
      let x := v.zone y
      match x.showing with
      | .turn k _ _ => if y ≠ z ∧ k = n then v.setZone y { x with showing := .idle } else v
      | .idle => v
      | .feature _ => v) v).zone z = v.zone z := by
    intro L
    induction L with
    | nil => intro v; rfl
    | cons y ys ih =>
      intro v
      rw [List.foldl_cons, ih]
      dsimp only
      split
      · split
        · rename_i h; rw [zone_setZone, if_neg (fun e => h.1 e.1.symm)]
        · rfl
      · rfl
      · rfl
  exact key _ u

/-- A head takes its zone (R98). -/
theorem startFeature_zone (u : RotationUnit) (z : Nat) (hz : z < 8) (g : Feature) (q : List Feature) (h : (u.zone z).queue = g :: q) :
    (u.startFeature z g).zone z = { u.zone z with queue := q, showing := .feature g, begunNow := true } := by
  unfold RotationUnit.startFeature
  dsimp only
  rw [endTurns_zone]
  split <;> simp [zone_setZone, hz, h]

/-- A feature takes its place by level and arrival (R97). -/
theorem insertFeature_spec (f : Feature) (q : List Feature)
    (h : q.Pairwise (fun p q => q.level < p.level ∨ (q.level = p.level ∧ p.arrival ≤ q.arrival))) :
   ∃ front back, q = front ++ back ∧ insertFeature f q = front ++ f :: back ∧
            (∀ q ∈ front, f.level < q.level ∨ (f.level = q.level ∧ q.arrival ≤ f.arrival)) ∧
            ∀ q ∈ back, q.level < f.level ∨ (q.level = f.level ∧ f.arrival < q.arrival) := by
  induction q with
  | nil => exact ⟨[], [], rfl, rfl, by simp, by simp⟩
  | cons g q ih =>
    obtain ⟨h1, h2⟩ := List.pairwise_cons.mp h
    unfold insertFeature
    by_cases hb : f.before g
    · rw [if_pos hb]
      simp [Feature.before] at hb
      refine ⟨[], g :: q, rfl, rfl, by simp, fun x hx => ?_⟩
      rcases List.mem_cons.mp hx with rfl | hx
      · omega
      · have := h1 x hx; omega
    · rw [if_neg hb]
      simp [Feature.before] at hb
      obtain ⟨a, b, e1, e2, e3, e4⟩ := ih h2
      refine ⟨g :: a, b, by rw [e1]; rfl, by rw [e2]; rfl, fun x hx => ?_, e4⟩
      rcases List.mem_cons.mp hx with rfl | hx
      · have := hb.1; by_cases he : x.level = f.level
        · right; exact ⟨he.symm, hb.2 he.symm⟩
        · left; omega
      · exact e3 x hx

/-! ### Windows that cross a zone (R88) -/

theorem crossed_iff (s : State) (z : Nat) (c : ZoneConfig) (hz : (zoneAt s.compositor.zones z).config = some c) :
   (zoneAt s.compositor.zones z).crossed s.render.occluders = true ↔ ∃ w, w < 16 ∧ Occludes s w c.rect := by
  let occluder := fun n => match (s.render.window n).config with
    | some c => if (s.render.window n).shown && c.occluding && decide (0 < c.fade) then some c.rect else none
    | none => none
  unfold Zone.crossed RenderEngine.occluders
  simp only [hz, List.any_eq_true, List.mem_filterMap]
  have meets : ∀ p q : Rect, p.meets q = true ↔ ∃ line column, q.holds line column = true ∧ p.holds line column = true := by
    intro p q
    unfold Rect.meets overlaps Rect.holds
    simp only [Bool.and_eq_true, decide_eq_true_eq]
    constructor
    · intro h
      exact ⟨max p.y q.y, max p.x q.x, by omega, by omega⟩
    · rintro ⟨l, c, h1, h2⟩; omega
  constructor
  · rintro ⟨q, ⟨w, hw, hq⟩, hm⟩
    obtain ⟨i, hi, rfl⟩ := exists_tget_of_mem s.render.windows w Window.blank hw
    refine ⟨i, hi, ?_⟩
    change occluder i = some q at hq
    simp only [occluder] at hq
    split at hq
    · rename_i cc hcc
      split at hq
      · rename_i hx
        cases hq
        simp [Window.shown] at hx
        exact ⟨cc, hcc, by simp_all, by simp_all, by simp_all, by simp_all, by
          obtain ⟨l, c, h1, h2⟩ := (meets _ _).mp hm
          exact ⟨l, c, h1, h2⟩⟩
      · cases hq
    · cases hq
  · rintro ⟨w, hw, cc, h1, h2, h3, h4, h5, l, cl, h6, h7⟩
    refine ⟨cc.rect, ⟨_, mem_toList_of_tget s.render.windows w Window.blank hw, ?_⟩, (meets _ _).mpr ⟨l, cl, h6, h7⟩⟩
    change occluder w = some cc.rect
    simp only [occluder, h1]
    rw [if_pos]
    simp [Window.shown, h1, h2, h3, h4, h5]

/-! ### The choice of a turn (R93) -/

/-- The sponsor chosen is a candidate, and each other candidate does not beat it where beating is a strict order of all candidates. -/
theorem choose_mem (u : RotationUnit) (last : Option Nat) (ns : List Nat) (n : Nat) (h : u.choose last ns = some n) : n ∈ ns := by
  induction ns generalizing n with
  | nil => simp [RotationUnit.choose] at h
  | cons m ns ih =>
    unfold RotationUnit.choose at h
    split at h
    · simp_all
    · rename_i k hk
      split at h
      · cases h; exact List.mem_cons_of_mem _ (ih _ hk)
      · cases h; exact List.mem_cons_self

/-- A candidate that beats every other one, and is beaten by none, is chosen. -/
theorem choose_best (u : RotationUnit) (last : Option Nat) (ns : List Nat) (n : Nat) (hn : n ∈ ns)
    (beats : ∀ m ∈ ns, m ≠ n → u.beats last n m = true ∧ u.beats last m n = false) : u.choose last ns = some n := by
  induction ns with
  | nil => simp at hn
  | cons m ns ih =>
    unfold RotationUnit.choose
    by_cases hm : n ∈ ns
    · rw [ih hm fun k hk => beats k (List.mem_cons_of_mem _ hk)]
      dsimp only
      by_cases h : m = n
      · subst h; split <;> rfl
      · rw [if_pos (beats m List.mem_cons_self h).1]
    · obtain rfl : n = m := by simpa [hm] using hn
      split
      · rfl
      · rename_i k hk
        have hkn := choose_mem u last ns k hk
        rw [if_neg (by simp [(beats k (List.mem_cons_of_mem _ hkn) fun e => hm (e ▸ hkn)).2])]

/-- A sponsor that comes before another by R93 beats it, and is not beaten. -/
theorem beats_of_comesFirst (w : RotationUnit) (t : State) (level : ∀ n, (t.rotation.sponsor n).level = (w.sponsor n).level)
    (deficit : ∀ n, w.deficit n = deficitAt t.rotation t.rotation.segment.elapsed n) (last : Option Nat) (n m : Nat)
    (hc : ComesFirst t last n m) : w.beats last n m = true ∧ w.beats last m n = false := by
  unfold ComesFirst at hc
  simp only [level, ← deficit] at hc
  have place : ∀ l x : Nat, x + 64 - (l + 1) = x + 63 - l := fun l x => by omega
  unfold RotationUnit.beats
  cases last <;> (simp only [rotationPlace, place]; revert hc; simp only; intro hc)
  all_goals
    simp only [Bool.or_eq_true, Bool.and_eq_true, decide_eq_true_eq, beq_iff_eq, Bool.or_eq_false_iff,
      Bool.and_eq_false_iff, decide_eq_false_iff_not]
    refine ⟨?_, ?_⟩
    · rcases hc with h | ⟨h1, h2 | ⟨h2, h3⟩⟩
      · exact .inl h
      · exact .inr ⟨h1.symm, .inl h2⟩
      · exact .inr ⟨h1.symm, .inr ⟨h2.symm, by first | exact h3 | exact decide_eq_true h3⟩⟩
    · refine ⟨by omega, ?_⟩
      by_cases he : (w.sponsor m).level = (w.sponsor n).level
      · right
        refine ⟨by omega, ?_⟩
        by_cases hd : w.deficit m = w.deficit n
        · right; first | omega | exact decide_eq_false (by omega)
        · left; simp [hd]
      · left; simp [he]

end Sys2Proof.Machine
end

