-- ==== Sys2Proof/Laws/Timing.lean ====
section
/-! SUPPORT. The Timing Unit: what the end of a tick or command does, the fill of a penalty list, and what a lower limit takes back. -/

namespace Sys2Proof.Machine

open Sys2Proof

/-! ### Strings and notices (R73) -/

theorem string_withStrings (t : TimingUnit) (f : DisplayField) (h : f ∈ allFields) :
    t.withStrings.string f = t.freshString f := by
  simp only [allFields, List.mem_cons, List.not_mem_nil, or_false] at h
  rcases h with rfl | rfl | rfl | rfl | rfl | rfl | rfl | rfl | rfl | rfl | rfl | rfl | rfl <;> rfl

theorem freshString_withStrings (t : TimingUnit) (f : DisplayField) : t.withStrings.freshString f = t.freshString f := by
  cases f <;> rfl

/-- The end of a tick or command: the Timing Unit and the messages on their way change, and nothing else. -/
theorem settleTiming_frame (s : State) (t : TimingUnit) (r : Raised) : Frame [.timing, .transit] s (s.settleTiming t r) := by
  apply Frame.of <;> simp [State.settleTiming]

@[simp] theorem settleTiming_timing (s : State) (t : TimingUnit) (r : Raised) :
    (s.settleTiming t r).timing = t.withStrings := rfl

theorem settleTiming_sends (s : State) (t : TimingUnit) (r : Raised) :
    TimingSends s (s.settleTiming t r) r.events r.reports := rfl

/-- The notices of the end of a tick or command that kept the strings: one for each string that has changed. -/
theorem settleTiming_notices (s : State) (t : TimingUnit) (r : Raised) (h : t.strings = s.timing.strings) :
    (s.settleTiming t r).transit.notices = s.transit.notices ++
      allFields.filter fun f => (s.settleTiming t r).timing.string f != s.timing.string f := by
  show s.transit.notices ++ t.changedFields = _
  congr 1
  apply List.filter_congr
  intro f hf
  rw [settleTiming_timing, string_withStrings _ _ hf]
  simp [TimingUnit.string, h]

/-- A command of the Timing Unit that is carried out. -/
theorem timed_carried (cmd : Instr) (s : State) (tm : TimingUnit) (r : Raised) :
    ∃ t, carryOut cmd s (s.timed tm r) = .next t ∧ t.reader = s.reader.answer cmd (.done 0 0) ∧
      Frame [.timing, .transit, .reader] s t ∧ TimingSends s t r.events r.reports ∧
      t.timing = { tm with strings := t.timing.strings } := by
  refine ⟨_, rfl, rfl, ?_, rfl, rfl⟩
  refine Frame.trans (Frame.mono (settleTiming_frame s tm r) ?_) (Frame.mono (frame_setReader _ _) ?_) <;> simp

/-! ### The teams -/

theorem team_setTeam (t : TimingUnit) (n : Nat) (x : Team) (h : n ≤ 1) :
    (t.setTeam n x).team n = x ∧ (t.setTeam n x).team (1 - n) = t.team (1 - n) := by
  have : n = 0 ∨ n = 1 := by omega
  rcases this with rfl | rfl <;> exact ⟨rfl, rfl⟩

/-- A team's record replaced leaves the clocks, the filters and the strings. -/
theorem setTeam_fields (t : TimingUnit) (n : Nat) (x : Team) :
    t.setTeam n x = { t with team0 := (t.setTeam n x).team0, team1 := (t.setTeam n x).team1 } := by
  unfold TimingUnit.setTeam
  split <;> rfl

/-! ### Filling a penalty list (R74) -/

/-- The players and times of a list, without its starts. -/
def penaltyTimes (ps : List Penalty) : List (Nat × Nat) := ps.map fun q => (q.player, q.remaining)

theorem penaltyTimes_startFirst (f : Penalty → Bool) (n : Nat) (ps : List Penalty) :
    penaltyTimes (startFirst f n ps) = penaltyTimes ps := by
  unfold penaltyTimes
  induction ps with
  | nil => rfl
  | cons q qs ih => simp only [startFirst]; split <;> simp_all

theorem penaltyTimes_fill (n : Nat) (ps : List Penalty) : penaltyTimes (fill n ps) = penaltyTimes ps := by
  have h : ∀ qs, penaltyTimes (fillOne n qs) = penaltyTimes qs := by
    intro qs
    unfold fillOne
    split
    · exact penaltyTimes_startFirst _ _ _
    · rfl
  have k : ∀ m, penaltyTimes (Nat.repeat (fillOne n) m ps) = penaltyTimes ps := fun m => by
    induction m with
    | zero => rfl
    | succ m ih => rw [Nat.repeat, h, ih]
  exact k n

theorem startFirst_none (f : Penalty → Bool) (n : Nat) (ps : List Penalty) (h : ∀ q ∈ ps, f q = false) :
    startFirst f n ps = ps := by
  induction ps with
  | nil => rfl
  | cons q qs ih => simp_all [startFirst]

theorem runningCount_startFirst (f : Penalty → Bool) (hf : ∀ q, f q = true → q.running = false) (n : Nat) (ps : List Penalty)
    (h : ∃ q ∈ ps, f q = true) : runningCount (startFirst f n ps) = runningCount ps + 1 := by
  induction ps with
  | nil => simp at h
  | cons q qs ih =>
    simp only [startFirst]
    by_cases hq : f q = true
    · have := hf q hq
      simp only [hq, if_true, runningCount, Penalty.running, List.filter_cons] at *
      simp [this]
    · have hm : ∃ q ∈ qs, f q = true := by simpa [hq] using h
      have hi := ih hm
      simp only [hq, runningCount] at *
      by_cases hr : q.running = true <;> simp [hr, hi]

/-- A list is full: while it runs fewer than its limit, every WAITING entry's player is RUNNING. -/
def FullList (n : Nat) (ps : List Penalty) : Prop :=
  ∀ q ∈ ps, q.start = none → runningCount ps < n → playerRunning ps q.player = true

/-- A full list starts no entry. -/
theorem fillOne_of_full (limit : Nat) (ps : List Penalty) (h : FullList limit ps) : fillOne limit ps = ps := by
  unfold fillOne
  split
  · rename_i hl
    refine startFirst_none _ _ _ fun q hq => ?_
    by_cases hr : q.start = none
    · simp [h q hq hr hl]
    · cases hs : q.start <;> simp_all [Penalty.running]
  · rfl

theorem fillOne_cases (n : Nat) (ps : List Penalty) :
    (FullList n ps ∧ fillOne n ps = ps) ∨
      (runningCount ps < n ∧ runningCount (fillOne n ps) = runningCount ps + 1) := by
  unfold fillOne
  split
  · rename_i h
    by_cases hf : FullList n ps
    · refine .inl ⟨hf, startFirst_none _ _ _ fun q hq => ?_⟩
      by_cases hr : q.start = none
      · simp [hf q hq hr h]
      · cases hs : q.start <;> simp_all [Penalty.running]
    · refine .inr ⟨h, runningCount_startFirst _ (fun q => by simp only [Bool.and_eq_true, Bool.not_eq_true']; exact fun k => k.1) _ _ ?_⟩
      simp only [FullList, Classical.not_forall] at hf
      obtain ⟨q, h1, h2, _, h4⟩ := hf
      exact ⟨q, h1, by simp [Penalty.running, h2, h4]⟩
  · rename_i h
    exact .inl ⟨fun q _ _ k => absurd k h, rfl⟩

/-- After k starts of a fill the list is full or runs at least k entries. -/
theorem fullList_or_le_fillOne (n : Nat) (ps : List Penalty) (k : Nat) :
    FullList n (Nat.repeat (fillOne n) k ps) ∨ k ≤ runningCount (Nat.repeat (fillOne n) k ps) := by
  induction k with
  | zero => exact .inr (Nat.zero_le _)
  | succ k ih =>
    rw [Nat.repeat]
    rcases ih with h | h
    · exact .inl (by rwa [fillOne_of_full _ _ h])
    · rcases fillOne_cases n (Nat.repeat (fillOne n) k ps) with ⟨h1, h2⟩ | ⟨_, h2⟩
      · exact .inl (by rwa [h2])
      · exact .inr (by omega)

theorem fullList_fill (n : Nat) (ps : List Penalty) : FullList n (fill n ps) :=
  (fullList_or_le_fillOne n ps n).elim id fun h _ _ _ k => absurd k (Nat.not_lt.mpr h)

/-! ### What a fill keeps (R74) -/

theorem start_lt_lastStart (ps : List Penalty) : ∀ q ∈ ps, q.start.getD 0 < lastStart ps := by
  have grows : ∀ (l : List Penalty) (m : Nat), m ≤ l.foldl (fun m q => max m (q.start.getD 0)) m := by
    intro l
    induction l with
    | nil => intro m; exact Nat.le_refl m
    | cons q qs ih => intro m; exact Nat.le_trans (Nat.le_max_left _ _) (ih _)
  have bound : ∀ (l : List Penalty) (m : Nat), ∀ q ∈ l, q.start.getD 0 ≤ l.foldl (fun m q => max m (q.start.getD 0)) m := by
    intro l
    induction l with
    | nil => intro m q hq; simp at hq
    | cons p ps ih =>
      intro m q hq
      rcases List.mem_cons.mp hq with rfl | hq
      · exact Nat.le_trans (Nat.le_max_right _ _) (grows _ _)
      · exact ih _ q hq
  intro q hq
  exact Nat.lt_succ_of_le (bound ps 0 q hq)

/-- One start of a fill: the list stands but for one WAITING entry, whose player does not run, which is given the last start. -/
theorem startFirst_cases (f : Penalty → Bool) (n : Nat) (ps : List Penalty) :
    startFirst f n ps = ps ∨
      ∃ older q younger, ps = older ++ q :: younger ∧ f q = true ∧
        startFirst f n ps = older ++ { q with start := some n } :: younger ∧ ∀ o ∈ older, f o = false := by
  induction ps with
  | nil => exact .inl rfl
  | cons q qs ih =>
    by_cases h : f q = true
    · exact .inr ⟨[], q, qs, rfl, h, by simp [startFirst, h], by simp⟩
    · rcases ih with ih | ⟨older, p, younger, h1, h2, h3, h4⟩
      · exact .inl (by simp [startFirst, h, ih])
      · exact .inr ⟨q :: older, p, younger, by simp [h1], h2, by simp [startFirst, h, h3],
          fun o ho => (List.mem_cons.mp ho).elim (fun e => e ▸ by simpa using h) (h4 o)⟩

/-- What one start, and so a whole fill, keeps of the list it began with. -/
structure Refills (limit : Nat) (before after : List Penalty) : Prop where
  entries : penaltyTimes after = penaltyTimes before
  kept : ∀ (k : Nat) (q : Penalty), before[k]? = some q → q.start.isSome = true → after[k]? = some q
  last : ∀ (k : Nat) (p q : Penalty), before[k]? = some p → p.start = none → after[k]? = some q → q.start.isSome = true →
    ∀ o ∈ before, o.start.getD 0 < q.start.getD 0
  fresh : ∀ (k : Nat) (p q : Penalty), before[k]? = some p → p.start = none → after[k]? = some q → q.start.isSome = true →
    playerRunning before q.player = false
  oldest : ∀ (j k : Nat) (o p q : Penalty), j < k → after[j]? = some o → o.start = none → before[k]? = some p → p.start = none →
    after[k]? = some q → q.start.isSome = true →
    ∃ r ∈ after, r.start.isSome = true ∧ r.player = o.player ∧ r.start.getD 0 < q.start.getD 0
  rises : ∀ (j k : Nat) (p p' q q' : Penalty), j < k → before[j]? = some p → p.start = none → after[j]? = some p' →
    p'.start.isSome = true → before[k]? = some q → q.start = none → after[k]? = some q' → q'.start.isSome = true →
    p'.start.getD 0 < q'.start.getD 0
  bound : runningCount before ≤ limit → runningCount after ≤ limit
  once : RunsOnce before → RunsOnce after
  grown : ∀ o ∈ before, ∃ q ∈ after, o.start.getD 0 ≤ q.start.getD 0

theorem Refills.refl (limit : Nat) (ps : List Penalty) : Refills limit ps ps :=
  ⟨rfl, fun _ _ h _ => h, fun k p q h h' k' s => by simp_all, fun k p q h h' k' s => by simp_all,
    fun j k o p q _ _ _ h h' k' s => by simp_all, fun j k p p' q q' _ h h' k' s => by simp_all, id, id,
    fun o ho => ⟨o, ho, Nat.le_refl _⟩⟩

theorem Refills.at {limit : Nat} {a b : List Penalty} (h : Refills limit a b) {n : Nat} {q : Penalty} (hq : b[n]? = some q) :
    ∃ p, a[n]? = some p := by
  have l : n < b.length := (List.getElem?_eq_some_iff.mp hq).1
  have := congrArg List.length h.entries
  simp only [penaltyTimes, List.length_map] at this
  exact ⟨a[n], List.getElem?_eq_getElem (by omega)⟩

/-- An entry that waits after a fill waited before it. -/
theorem Refills.waited {limit : Nat} {a b : List Penalty} (h : Refills limit a b) {n : Nat} {p q : Penalty} (hp : a[n]? = some p)
    (hq : b[n]? = some q) (hn : q.start = none) : p.start = none := by
  cases hs : p.start with
  | none => rfl
  | some v =>
    have := h.kept n p hp (by simp [hs])
    rw [hq] at this
    rw [← Option.some.inj this, hn] at hs
    cases hs

theorem playerRunning_iff (ps : List Penalty) (n : Nat) :
    playerRunning ps n = true ↔ ∃ q ∈ ps, q.start.isSome = true ∧ q.player = n := by
  simp [playerRunning, Penalty.running]

/-- A fill stops no player. -/
theorem Refills.runs {limit : Nat} {a b : List Penalty} (h : Refills limit a b) (n : Nat) (hn : playerRunning b n = false) :
    playerRunning a n = false := by
  cases hp : playerRunning a n with
  | false => rfl
  | true =>
    obtain ⟨q, hq, hs, he⟩ := (playerRunning_iff a n).mp hp
    obtain ⟨k, hk⟩ := List.getElem?_of_mem hq
    rw [(playerRunning_iff b n).mpr ⟨q, List.mem_of_getElem? (h.kept k q hk hs), hs, he⟩] at hn
    cases hn

theorem Refills.trans {limit : Nat} {a b c : List Penalty} (h : Refills limit a b) (k : Refills limit b c) : Refills limit a c where
  entries := k.entries.trans h.entries
  kept := fun n q hq hs => k.kept n q (h.kept n q hq hs) hs
  last := by
    intro n p q hp hn hq hs o ho
    have lb : n < b.length := by
      have l1 : n < c.length := (List.getElem?_eq_some_iff.mp hq).1
      have := congrArg List.length k.entries
      simp only [penaltyTimes, List.length_map] at this
      omega
    have hb : b[n]? = some b[n] := List.getElem?_eq_getElem lb
    by_cases hr : b[n].start.isSome = true
    · have := k.kept n _ hb hr
      rw [hq] at this
      cases this
      exact h.last n p _ hp hn hb hr o ho
    · have hr' : b[n].start = none := by simpa using hr
      obtain ⟨r, hr1, hr2⟩ := h.grown o ho
      exact Nat.lt_of_le_of_lt hr2 (k.last n _ q hb hr' hq hs r hr1)
  fresh := by
    intro n p q hp hn hq hs
    obtain ⟨m, hm⟩ := k.at hq
    cases hr : m.start with
    | none => exact h.runs _ (k.fresh n m q hm hr hq hs)
    | some v =>
      have e := k.kept n m hm (by simp [hr])
      rw [hq] at e
      cases Option.some.inj e
      exact h.fresh n p q hp hn hm hs
  oldest := by
    intro i n o p q hi ho hno hp hn hq hs
    obtain ⟨m, hm⟩ := k.at hq
    obtain ⟨m', hm'⟩ := k.at ho
    have hw := k.waited hm' ho hno
    cases hr : m.start with
    | none => exact k.oldest i n o m q hi ho hno hm hr hq hs
    | some v =>
      have e := k.kept n m hm (by simp [hr])
      rw [hq] at e
      cases Option.some.inj e
      obtain ⟨r, h1, h2, h3, h4⟩ := h.oldest i n m' p q hi hm' hw hp hn hm hs
      obtain ⟨x, hx⟩ := List.getElem?_of_mem h1
      have same : m'.player = o.player := by
        have := congrArg (fun l : List (Nat × Nat) => l[i]?) k.entries
        simp only [penaltyTimes, List.getElem?_map, ho, hm', Option.map_some, Option.some.injEq, Prod.mk.injEq] at this
        exact this.1.symm
      exact ⟨r, List.mem_of_getElem? (k.kept x r hx h2), h2, h3.trans same, h4⟩
  rises := by
    intro i n p p' q q' hi hp hn hp' hs hq hm hq' ht
    obtain ⟨u, hu⟩ := k.at hp'
    obtain ⟨v, hv⟩ := k.at hq'
    cases ru : u.start with
    | none =>
      cases rv : v.start with
      | none => exact k.rises i n u p' v q' hi hu ru hp' hs hv rv hq' ht
      | some y =>
        have e := k.kept n v hv (by simp [rv])
        rw [hq'] at e
        cases Option.some.inj e
        obtain ⟨r, h1, h2, h3, _⟩ := h.oldest i n u q q' hi hu ru hq hm hv ht
        have := k.fresh i u p' hu ru hp' hs
        have same : u.player = p'.player := by
          have := congrArg (fun l : List (Nat × Nat) => l[i]?) k.entries
          simp only [penaltyTimes, List.getElem?_map, hp', hu, Option.map_some, Option.some.injEq, Prod.mk.injEq] at this
          exact this.1.symm
        rw [(playerRunning_iff b _).mpr ⟨r, h1, h2, h3.trans same⟩] at this
        cases this
    | some x =>
      have e := k.kept i u hu (by simp [ru])
      rw [hp'] at e
      cases Option.some.inj e
      cases rv : v.start with
      | none => exact k.last n v q' hv rv hq' ht p' (List.mem_of_getElem? hu)
      | some y =>
        have e := k.kept n v hv (by simp [rv])
        rw [hq'] at e
        cases Option.some.inj e
        exact h.rises i n p p' q q' hi hp hn hu hs hq hm hv ht
  bound := fun x => k.bound (h.bound x)
  once := fun x => k.once (h.once x)
  grown := by
    intro o ho
    obtain ⟨q, h1, h2⟩ := h.grown o ho
    obtain ⟨r, h3, h4⟩ := k.grown q h1
    exact ⟨r, h3, Nat.le_trans h2 h4⟩

theorem refills_fillOne (limit : Nat) (ps : List Penalty) : Refills limit ps (fillOne limit ps) := by
  rcases fillOne_cases limit ps with ⟨_, h⟩ | ⟨hl, hc⟩
  · rw [h]; exact .refl _ _
  · unfold fillOne at hc ⊢
    rw [if_pos hl] at hc ⊢
    rcases startFirst_cases (fun q => !q.running && !playerRunning ps q.player) (lastStart ps) ps with
      h | ⟨older, q, younger, h1, h2, h3, h4⟩
    · rw [h]; exact .refl _ _
    · simp only [Bool.and_eq_true, Bool.not_eq_true'] at h2
      obtain ⟨hw, hp⟩ := h2
      have hw' : q.start = none := by simpa [Penalty.running] using hw
      have alone : ∀ o ∈ ps, o.start.isSome = true → o.player ≠ q.player := by
        intro o ho hs he
        simp only [playerRunning, List.any_eq_false, Bool.and_eq_true, not_and] at hp
        exact absurd (by simp [he]) (hp o ho hs)
      have place : ∀ (k : Nat) (x y : Penalty), (older ++ q :: younger)[k]? = some x →
          (older ++ { q with start := some (lastStart ps) } :: younger)[k]? = some y →
          x = y ∨ (x = q ∧ y = { q with start := some (lastStart ps) }) := by
        intro k x y hx hy
        rcases Nat.lt_trichotomy k older.length with hk | hk | hk
        · rw [List.getElem?_append_left hk] at hx hy
          exact .inl (Option.some.inj (hx.symm.trans hy))
        · subst hk
          simp at hx hy
          exact .inr ⟨hx.symm, hy.symm⟩
        · have e1 : k - older.length = (k - older.length - 1) + 1 := by omega
          rw [List.getElem?_append_right (Nat.le_of_lt hk), e1, List.getElem?_cons_succ] at hx hy
          exact .inl (Option.some.inj (hx.symm.trans hy))
      have place' : ∀ (k : Nat) (x y : Penalty), (older ++ q :: younger)[k]? = some x → x.start = none →
          (older ++ { q with start := some (lastStart ps) } :: younger)[k]? = some y → y.start.isSome = true →
          k = older.length := by
        intro k x y hx hn hy hs
        rcases Nat.lt_trichotomy k older.length with hk | hk | hk
        · rw [List.getElem?_append_left hk] at hx hy
          rw [← Option.some.inj (hx.symm.trans hy), hn] at hs
          simp at hs
        · exact hk
        · have e1 : k - older.length = (k - older.length - 1) + 1 := by omega
          rw [List.getElem?_append_right (Nat.le_of_lt hk), e1, List.getElem?_cons_succ] at hx hy
          rw [← Option.some.inj (hx.symm.trans hy), hn] at hs
          simp at hs
      rw [h3]
      refine ⟨?_, ?_, ?_, ?_, ?_, ?_, ?_, ?_, ?_⟩
      · conv => rhs; rw [h1]
        simp [penaltyTimes]
      · intro k x hx hs
        rw [h1] at hx
        have hl : k < (older ++ { q with start := some (lastStart ps) } :: younger).length := by
          have := (List.getElem?_eq_some_iff.mp hx).1
          simpa using this
        rcases place k x _ hx (List.getElem?_eq_getElem hl) with e | ⟨e, _⟩
        · rw [e]; exact List.getElem?_eq_getElem hl
        · rw [e, hw'] at hs; simp at hs
      · intro k x y hx hn hy hs o ho
        rw [h1] at hx
        rcases place k x y hx hy with e | ⟨_, e⟩
        · rw [← e, hn] at hs; simp at hs
        · rw [e]; exact start_lt_lastStart ps o ho
      · intro k x y hx hn hy hs
        rw [h1] at hx
        rcases place k x y hx hy with e | ⟨_, e⟩
        · rw [← e, hn] at hs; simp at hs
        · rw [e]; exact hp
      · intro j k o x y hj ho hno hx hn hy hs
        rw [h1] at hx
        have at' : k = older.length := place' k x y hx hn hy hs
        have ho' : o ∈ older := by
          rw [List.getElem?_append_left (by omega)] at ho
          exact List.mem_of_getElem? ho
        have hr : playerRunning ps o.player = true := by simpa [Penalty.running, hno] using h4 o ho'
        obtain ⟨r, r1, r2, r3⟩ := (playerRunning_iff ps _).mp hr
        refine ⟨r, ?_, r2, r3, ?_⟩
        · rw [h1] at r1
          rcases List.mem_append.mp r1 with r1 | r1
          · exact List.mem_append_left _ r1
          · rcases List.mem_cons.mp r1 with rfl | r1
            · rw [hw'] at r2; simp at r2
            · exact List.mem_append_right _ (List.mem_cons_of_mem _ r1)
        · rcases place k x y hx hy with e | ⟨_, e⟩
          · rw [← e, hn] at hs; simp at hs
          · rw [e]; exact start_lt_lastStart ps r r1
      · intro j k x x' y y' hj hx hn hx' hs hy hm hy' ht
        rw [h1] at hx hy
        have := place' j x x' hx hn hx' hs
        have := place' k y y' hy hm hy' ht
        omega
      · intro _
        rw [h3] at hc
        omega
      · intro ho
        rw [h1] at ho alone
        unfold RunsOnce at ho ⊢
        rw [List.pairwise_append, List.pairwise_cons] at ho ⊢
        obtain ⟨o1, ⟨o2, o3⟩, o4⟩ := ho
        refine ⟨o1, ⟨?_, o3⟩, ?_⟩
        · intro z hz _ hs
          exact Ne.symm (alone z (by simp [hz]) hs)
        · intro z hz w hw2 hs ht
          rcases List.mem_cons.mp hw2 with rfl | hw2
          · exact alone z (by simp [hz]) hs
          · exact o4 z hz w (List.mem_cons_of_mem _ hw2) hs ht
      · intro o ho
        rw [h1] at ho
        rcases List.mem_append.mp ho with ho | ho
        · exact ⟨o, by simp [ho], Nat.le_refl _⟩
        · rcases List.mem_cons.mp ho with rfl | ho
          · exact ⟨{ o with start := some (lastStart ps) }, by simp, by simp [hw']⟩
          · exact ⟨o, by simp [ho], Nat.le_refl _⟩

/-- A fill fills the list (R74). -/
theorem filledFrom_fill (limit : Nat) (ps : List Penalty) : FilledFrom limit ps (fill limit ps) := by
  have r : ∀ k, Refills limit ps (Nat.repeat (fillOne limit) k ps) := fun k => by
    induction k with
    | zero => exact Refills.refl limit ps
    | succ k ih => exact ih.trans (refills_fillOne limit _)
  have r := r limit
  exact ⟨r.entries, r.kept, r.last, r.fresh, r.oldest, r.rises, r.bound, r.once, fullList_fill limit ps⟩

/-- A full list is left as it is. -/
theorem fill_of_full (limit : Nat) (ps : List Penalty) (h : FullList limit ps) : fill limit ps = ps := by
  have r : ∀ k, Nat.repeat (fillOne limit) k ps = ps := fun k => by
    induction k with
    | zero => rfl
    | succ k ih => rw [Nat.repeat, ih, fillOne_of_full limit ps h]
  exact r limit

/-! ### What SET_CONCURRENCY takes back (R77) -/

/-- What one demotion, and so a row of them, keeps of the list it began with. -/
structure Demotes (before after : List Penalty) : Prop where
  places : after.length = before.length
  entries : ∀ (k : Nat) (q : Penalty), before[k]? = some q →
    after[k]? = some q ∨ (q.start.isSome = true ∧ after[k]? = some { q with start := none })
  latest : ∀ (j k : Nat) (p q r : Penalty), before[j]? = some p → after[j]? = some p → p.start.isSome = true →
    before[k]? = some q → q.start.isSome = true → after[k]? = some r → r.start = none → p.start.getD 0 ≤ q.start.getD 0

theorem Demotes.refl (ps : List Penalty) : Demotes ps ps :=
  ⟨rfl, fun _ _ h => .inl h, fun _ _ _ q r _ _ _ h hs h' hn => by rw [h] at h'; cases h'; simp [hn] at hs⟩

theorem Demotes.trans {a b c : List Penalty} (h : Demotes a b) (k : Demotes b c) : Demotes a c where
  places := k.places.trans h.places
  entries := by
    intro n q hq
    rcases h.entries n q hq with e | ⟨s, e⟩
    · exact k.entries n q e
    · rcases k.entries n _ e with e' | ⟨s', _⟩
      · exact .inr ⟨s, e'⟩
      · simp at s'
  latest := by
    intro i n p q r hp hp' sp hq sq hr nr
    have bp : b[i]? = some p := by
      rcases h.entries i p hp with e | ⟨_, e⟩
      · exact e
      · rcases k.entries i _ e with e' | ⟨s', _⟩
        · rw [hp'] at e'
          rw [Option.some.inj e'] at sp
          simp at sp
        · simp at s'
    rcases h.entries n q hq with e | ⟨_, e⟩
    · exact k.latest i n p q r bp hp' sp e sq hr nr
    · exact h.latest i n p q _ hp bp sp hq sq e rfl

theorem stopFirst_split (m : Nat) (ps : List Penalty) (h : ∃ q ∈ ps, q.start = some m) :
    ∃ (us : List Penalty) (q : Penalty) (vs : List Penalty), ps = us ++ q :: vs ∧ q.start = some m ∧
      stopFirst m ps = us ++ { q with start := none } :: vs := by
  induction ps with
  | nil => simp at h
  | cons q qs ih =>
    by_cases hq : q.start = some m
    · exact ⟨[], q, qs, rfl, hq, by simp [stopFirst, hq]⟩
    · obtain ⟨us, p, vs, h1, h2, h3⟩ := ih (by simpa [hq] using h)
      exact ⟨q :: us, p, vs, by rw [h1]; rfl, h2, by simp [stopFirst, hq, h3]⟩

theorem latest_running (ps : List Penalty) (h : 0 < runningCount ps) : ∃ q ∈ ps, q.start = some (lastStart ps - 1) := by
  have top : ∀ (qs : List Penalty) (m : Nat), (qs.foldl (fun m q => max m (q.start.getD 0)) m = m) ∨
      ∃ q ∈ qs, q.start = some (qs.foldl (fun m q => max m (q.start.getD 0)) m) := by
    intro qs
    induction qs with
    | nil => exact fun m => .inl rfl
    | cons q qs ih =>
      intro m
      rw [List.foldl_cons]
      rcases ih (max m (q.start.getD 0)) with e | ⟨p, hp, e⟩
      · rw [e]
        cases hs : q.start with
        | none => exact .inl (Nat.max_zero m)
        | some v =>
          rcases Nat.le_total v m with hv | hv
          · exact .inl (Nat.max_eq_left hv)
          · exact .inr ⟨q, List.mem_cons_self, by rw [hs, Option.getD_some, Nat.max_eq_right hv]⟩
      · exact .inr ⟨p, List.mem_cons_of_mem q hp, e⟩
  have e : lastStart ps - 1 = ps.foldl (fun m q => max m (q.start.getD 0)) 0 := rfl
  rcases top ps 0 with z | x
  · obtain ⟨q, hq⟩ := List.exists_mem_of_length_pos h
    obtain ⟨hm, hs⟩ := List.mem_filter.mp hq
    obtain ⟨v, hv⟩ := Option.isSome_iff_exists.mp hs
    have := start_lt_lastStart ps q hm
    rw [hv, Option.getD_some] at this
    exact ⟨q, hm, by rw [hv]; congr 1; omega⟩
  · exact e ▸ x

/-- One demotion takes the latest start position and lowers the number of RUNNING entries by one. -/
theorem demotes_demoteOne (ps : List Penalty) (h : 0 < runningCount ps) :
    Demotes ps (demoteOne ps) ∧ runningCount (demoteOne ps) = runningCount ps - 1 := by
  obtain ⟨us, q, vs, h1, h2, h3⟩ := stopFirst_split _ ps (latest_running ps h)
  have at' : ∀ (k : Nat) (x : Penalty), ps[k]? = some x →
      (k ≠ us.length ∧ (demoteOne ps)[k]? = some x) ∨
        (k = us.length ∧ x = q ∧ (demoteOne ps)[k]? = some { q with start := none }) := by
    intro k x hx
    rw [demoteOne, h3]
    rw [h1] at hx
    rcases Nat.lt_trichotomy k us.length with hk | hk | hk
    · rw [List.getElem?_append_left hk] at hx ⊢
      exact .inl ⟨Nat.ne_of_lt hk, hx⟩
    · subst hk
      rw [List.getElem?_append_right (Nat.le_refl _), Nat.sub_self, List.getElem?_cons_zero] at hx ⊢
      exact .inr ⟨rfl, (Option.some.inj hx).symm, rfl⟩
    · obtain ⟨d, rfl⟩ := Nat.exists_eq_add_of_lt hk
      rw [List.getElem?_append_right (by omega), show us.length + d + 1 - us.length = d + 1 by omega,
        List.getElem?_cons_succ] at hx ⊢
      exact .inl ⟨by omega, hx⟩
  refine ⟨⟨?_, ?_, ?_⟩, ?_⟩
  · rw [demoteOne, h3]
    conv => rhs; rw [h1]
    simp
  · intro k x hx
    rcases at' k x hx with ⟨_, e⟩ | ⟨_, rfl, e⟩
    · exact .inl e
    · exact .inr ⟨by simp [h2], e⟩
  · intro i k p x r hp _ _ hx sx hr nr
    rcases at' k x hx with ⟨_, e⟩ | ⟨_, rfl, _⟩
    · rw [hr] at e
      rw [Option.some.inj e] at nr
      simp [nr] at sx
    · have := start_lt_lastStart ps p (List.mem_of_getElem? hp)
      rw [h2, Option.getD_some]
      omega
  · rw [demoteOne, h3]
    conv => rhs; rw [h1]
    simp [runningCount, Penalty.running, h2]

/-- SET_CONCURRENCY below the number of RUNNING entries takes the latest back (R77). -/
theorem demotedTo_demote (limit : Nat) (ps : List Penalty) (h : limit ≤ runningCount ps) :
    DemotedTo limit ps (demote limit ps) := by
  have r : ∀ k, k ≤ runningCount ps →
      Demotes ps (Nat.repeat demoteOne k ps) ∧ runningCount (Nat.repeat demoteOne k ps) = runningCount ps - k := fun k => by
    induction k with
    | zero => exact fun _ => ⟨Demotes.refl ps, rfl⟩
    | succ k ih =>
      intro hk
      obtain ⟨h1, h2⟩ := ih (by omega)
      obtain ⟨h3, h4⟩ := demotes_demoteOne (Nat.repeat demoteOne k ps) (by omega)
      exact ⟨h1.trans h3, by rw [Nat.repeat, h4, h2]; omega⟩
  obtain ⟨h1, h2⟩ := r (runningCount ps - limit) (Nat.sub_le _ _)
  exact ⟨h1.places, h1.entries, by rw [demote, h2]; omega, h1.latest⟩

/-! ### What the strings are made of (R71, R72) -/

/-- Enough fuel writes a number in decimal. -/
theorem decimalAux_spec (fuel n : Nat) (acc : List Nat) (h : n < fuel) :
    ∃ ds, decimalAux fuel n acc = ds ++ acc ∧ Decimal ds n := by
  induction fuel generalizing n acc with
  | zero => omega
  | succ fuel ih =>
    unfold decimalAux
    by_cases hz : n / 10 = 0
    · refine ⟨[48 + n % 10], by simp [hz], by simp, ?_, ?_, ?_⟩
      · intro c hc; simp at hc; omega
      · intro e; simp at e; simp; omega
      · simp; omega
    · obtain ⟨ds, h1, h2, h3, h4, h5⟩ := ih (n / 10) ((48 + n % 10) :: acc) (by omega)
      refine ⟨ds ++ [48 + n % 10], by simp [hz, h1], by simp, ?_, ?_, ?_⟩
      · intro c hc
        rcases List.mem_append.mp hc with hc | hc
        · exact h3 c hc
        · simp at hc; omega
      · intro e
        obtain ⟨d, rest, rfl⟩ := List.exists_cons_of_ne_nil h2
        have : (d :: rest) = [48] := h4 (by simpa using e)
        rw [this] at h5
        simp at h5
        omega
      · rw [List.foldl_append, h5]; simp; omega

theorem decimal_spec (n : Nat) : Decimal (decimal n) n := by
  obtain ⟨ds, h1, h2⟩ := decimalAux_spec (n + 1) n [] (Nat.lt_succ_self n)
  rw [decimal, h1, List.append_nil]
  exact h2

theorem insertByStart_perm (p : Penalty) (ps : List Penalty) : (insertByStart p ps).Perm (p :: ps) := by
  induction ps with
  | nil => exact .refl _
  | cons q qs ih =>
    unfold insertByStart
    split
    · exact .refl _
    · exact (ih.cons q).trans (.swap p q qs)

theorem insertByStart_sorted (p : Penalty) (ps : List Penalty) (h : ps.Pairwise fun a b => a.start.getD 0 ≤ b.start.getD 0) :
    (insertByStart p ps).Pairwise fun a b => a.start.getD 0 ≤ b.start.getD 0 := by
  induction ps with
  | nil => exact List.pairwise_singleton _ _
  | cons q qs ih =>
    unfold insertByStart
    obtain ⟨h1, h2⟩ := List.pairwise_cons.mp h
    split
    · rename_i hlt
      exact List.pairwise_cons.mpr ⟨fun x hx => by
        rcases List.mem_cons.mp hx with rfl | hx
        · omega
        · have := h1 x hx; omega, h⟩
    · rename_i hlt
      refine List.pairwise_cons.mpr ⟨fun x hx => ?_, ih h2⟩
      rcases List.mem_cons.mp ((insertByStart_perm p qs).mem_iff.mp hx) with rfl | hx
      · omega
      · exact h1 x hx

/-- The RUNNING entries in start order. -/
theorem runningInOrder_spec (ps : List Penalty) : (runningInOrder ps).Perm (ps.filter Penalty.running) ∧
    (runningInOrder ps).Pairwise fun a b => a.start.getD 0 ≤ b.start.getD 0 := by
  have key : ∀ (l acc : List Penalty), (acc.Pairwise fun a b => a.start.getD 0 ≤ b.start.getD 0) →
      (l.foldl (fun acc p => insertByStart p acc) acc).Perm (l ++ acc) ∧
        (l.foldl (fun acc p => insertByStart p acc) acc).Pairwise fun a b => a.start.getD 0 ≤ b.start.getD 0 := by
    intro l
    induction l with
    | nil => exact fun acc h => ⟨.refl _, h⟩
    | cons p l ih =>
      intro acc h
      obtain ⟨h1, h2⟩ := ih (insertByStart p acc) (insertByStart_sorted p acc h)
      exact ⟨h1.trans (((insertByStart_perm p acc).append_left l).trans List.perm_middle), h2⟩
  obtain ⟨h1, h2⟩ := key (ps.filter Penalty.running) [] List.Pairwise.nil
  exact ⟨by simpa [runningInOrder] using h1, h2⟩

end Sys2Proof.Machine
end

