-- ==== Sys2Proof/Laws/ZoneService.lean ====
section
/-! SUPPORT. What one zone's service can do (R90 to R93, R98): a feature that takes the zone, the turn that fills it, the countdown that
goes on, the zone that is closed; and a frame start's service as a chain of them. -/

namespace Sys2Proof.Machine

open Sys2Proof

/-! ### A feature takes a zone (R98) -/

/-- A sponsor's TURN ends in one zone, if it is not the zone served. -/
def endTurnAt (z n : Nat) (v : RotationUnit) (y : Nat) : RotationUnit :=
  match (v.zone y).showing with
  | .turn k _ _ => if y ≠ z ∧ k = n then v.setZone y { v.zone y with showing := .idle } else v
  | .idle => v
  | .feature _ => v

theorem endTurnAt_turn (z n : Nat) (v : RotationUnit) (y dwell shown : Nat) (hy : y ≠ z)
    (hs : (v.zone y).showing = .turn n dwell shown) : endTurnAt z n v y = v.setZone y { v.zone y with showing := .idle } := by
  simp only [endTurnAt, hs, ne_eq, hy, not_false_eq_true, and_self, if_true]

theorem endTurnAt_else (z n : Nat) (v : RotationUnit) (y : Nat)
    (h : y = z ∨ ∀ dwell shown, (v.zone y).showing ≠ .turn n dwell shown) : endTurnAt z n v y = v := by
  unfold endTurnAt
  split
  · rename_i k _ _ hs
    rw [if_neg]
    rintro ⟨h1, rfl⟩
    exact h.elim h1 fun h => h _ _ hs
  · rfl
  · rfl

/-- Turns end in the zones of a list that show a sponsor's TURN, but for the zone served. -/
theorem endTurns_fold (z n : Nat) (L : List Nat) (v : RotationUnit) (hd : L.Nodup) (hL : ∀ y ∈ L, y < 8) :
    SameTables v (L.foldl (endTurnAt z n) v) ∧ (L.foldl (endTurnAt z n) v).sponsors = v.sponsors ∧
    (∀ y dwell shown, y ∈ L → y ≠ z → (v.zone y).showing = .turn n dwell shown →
      (L.foldl (endTurnAt z n) v).zone y = { v.zone y with showing := .idle }) ∧
    ∀ y, (y ∉ L ∨ y = z ∨ ∀ dwell shown, (v.zone y).showing ≠ .turn n dwell shown) →
      (L.foldl (endTurnAt z n) v).zone y = v.zone y := by
  induction L generalizing v with
  | nil => exact ⟨.rfl' _, rfl, fun _ _ _ h => by simp at h, fun _ _ => rfl⟩
  | cons x xs ih =>
    obtain ⟨hx, hxs⟩ := List.nodup_cons.mp hd
    have hx8 := hL x List.mem_cons_self
    rw [List.foldl_cons]
    obtain ⟨a1, a2, a3, a4⟩ := ih (endTurnAt z n v x) hxs fun y hy => hL y (List.mem_cons_of_mem _ hy)
    have same : SameTables v (endTurnAt z n v x) ∧ (endTurnAt z n v x).sponsors = v.sponsors := by
      unfold endTurnAt
      split
      · split <;> exact ⟨⟨rfl, rfl, rfl, rfl, rfl⟩, rfl⟩
      · exact ⟨.rfl' _, rfl⟩
      · exact ⟨.rfl' _, rfl⟩
    have other : ∀ y, y ≠ x → (endTurnAt z n v x).zone y = v.zone y := fun y hy => by
      unfold endTurnAt
      split
      · split
        · rw [zone_setZone, if_neg (by simp [hy])]
        · rfl
      · rfl
      · rfl
    refine ⟨same.1.trans a1, a2.trans same.2, fun y dwell shown hy hyz hs => ?_, fun y hy => ?_⟩
    · by_cases hyx : y = x
      · subst hyx
        rw [a4 y (.inl hx), endTurnAt_turn z n v y dwell shown hyz hs, zone_setZone, if_pos ⟨rfl, hx8⟩]
      · rw [a3 y dwell shown (List.mem_of_ne_of_mem hyx hy) hyz (by rw [other y hyx]; exact hs), other y hyx]
    · by_cases hyx : y = x
      · subst hyx
        rw [a4 y (.inl hx), endTurnAt_else z n v y (hy.resolve_left fun h => h List.mem_cons_self)]
      · rw [a4 y (by rw [other y hyx]; exact hy.imp_left fun h hm => h (List.mem_cons_of_mem _ hm)), other y hyx]

/-- A sponsor's TURN in another zone ends, and nothing else changes (R98, step 4). -/
theorem endTurns_spec (u : RotationUnit) (z n : Nat) :
    SameTables u (u.endTurnsElsewhere z n) ∧ (u.endTurnsElsewhere z n).sponsors = u.sponsors ∧
    (∀ y dwell shown, y ≠ z → (u.zone y).showing = .turn n dwell shown →
      (u.endTurnsElsewhere z n).zone y = { u.zone y with showing := .idle }) ∧
    ∀ y, (y = z ∨ ∀ dwell shown, (u.zone y).showing ≠ .turn n dwell shown) → (u.endTurnsElsewhere z n).zone y = u.zone y := by
  obtain ⟨a1, a2, a3, a4⟩ := endTurns_fold z n (List.range 8) u List.nodup_range fun y hy => List.mem_range.mp hy
  refine ⟨a1, a2, fun y dwell shown hyz hs => a3 y dwell shown (List.mem_range.mpr ?_) hyz hs, fun y hy => a4 y (.inr hy)⟩
  by_cases h : y < 8
  · exact h
  · rw [zone_of_le u y (Nat.le_of_not_lt h)] at hs; cases hs

theorem artFits_lt {s : State} {n : Nat} {r : Rect} (h : ArtFits s n r) : n < 32 := by
  by_cases hn : n < 32
  · exact hn
  · obtain ⟨a, ha, -⟩ := h
    rw [sponsor_of_le _ _ (Nat.le_of_not_lt hn)] at ha; cases ha

/-- A unit reads as the state's own but for what zone `z` shows, queues and last ended. -/
structure ReadsAs (s : State) (u : RotationUnit) (z : Nat) : Prop where
  tables : SameTables s.rotation u
  sponsors : u.sponsors = s.rotation.sponsors
  others : ∀ y, y ≠ z → u.zone y = s.rotation.zone y
  zone : u.zone z = { s.rotation.zone z with
    showing := (u.zone z).showing, queue := (u.zone z).queue, lastEnded := (u.zone z).lastEnded }

theorem ReadsAs.sponsor {s : State} {u : RotationUnit} {z : Nat} (h : ReadsAs s u z) (n : Nat) : u.sponsor n = s.rotation.sponsor n := by
  simp only [RotationUnit.sponsor, h.sponsors]

/-- The head of a zone's queue takes the zone. -/
theorem takesZone_startFeature (s t : State) (u : RotationUnit) (z : Nat) (hz : z < 8) (g : Feature) (q : List Feature)
    (hu : ReadsAs s u z) (hl : (u.zone z).lastEnded = (s.rotation.zone z).lastEnded) (hq : (u.zone z).queue = g :: q)
    (hg : g.sponsor < 32) (ht : t.rotation = u.startFeature z g) :
    SameTables s.rotation t.rotation ∧ TakesZone s t z g q := by
  have hzone := startFeature_zone u z hz g q hq
  rw [← ht, hu.zone, hl] at hzone
  let u1 := u.setZone z { u.zone z with queue := (u.zone z).queue.tail, showing := .feature g, begunNow := true }
  let u2 := if g.shown = 0 then
    u1.setSponsor g.sponsor { u1.sponsor g.sponsor with turns := raise (u1.sponsor g.sponsor).turns } else u1
  have e : t.rotation = u2.endTurnsElsewhere z g.sponsor := ht
  obtain ⟨a1, a2, a3, a4⟩ := endTurns_spec u2 z g.sponsor
  rw [← e] at a1 a2 a3 a4
  have h2z : ∀ y, y ≠ z → u2.zone y = s.rotation.zone y := fun y hy => by
    rw [← hu.others y hy]
    simp only [u2, u1]
    split <;> simp [zone_setZone, hy]
  have h2s : ∀ n, u2.sponsor n = if n = g.sponsor then { s.rotation.sponsor g.sponsor with
      turns := if g.shown = 0 then min 16777215 ((s.rotation.sponsor g.sponsor).turns + 1) else (s.rotation.sponsor g.sponsor).turns }
      else s.rotation.sponsor n := fun n => by
    rw [← hu.sponsor n, ← hu.sponsor g.sponsor]
    simp only [u2]
    by_cases hs : g.shown = 0
    · rw [if_pos hs, sponsor_setSponsor]
      by_cases hn : n = g.sponsor
      · subst hn; simp [hs, hg, u1, raise_eq]
      · simp [hn, u1]
    · rw [if_neg hs]
      by_cases hn : n = g.sponsor
      · subst hn; simp [hs, u1]
      · simp [hn, u1]
  have hts : ∀ n, t.rotation.sponsor n = u2.sponsor n := fun n => by simp only [RotationUnit.sponsor, a2]
  have h2t : SameTables u u2 := by
    simp only [u2, u1]
    split <;> exact ⟨rfl, rfl, rfl, rfl, rfl⟩
  refine ⟨(hu.tables.trans h2t).trans a1, hzone, fun y dwell shown hy hs => ?_, fun y hy hs => ?_, ?_, fun n hn => ?_⟩
  · rw [a3 y dwell shown hy (by rw [h2z y hy]; exact hs), h2z y hy]
  · rw [a4 y (.inr (by rw [h2z y hy]; exact hs)), h2z y hy]
  · rw [hts, h2s, if_pos rfl]
  · rw [hts, h2s, if_neg hn]

/-! ### An idle zone is filled with a turn (R92, R93) -/

/-- The candidates for a turn as R92 words them. -/
theorem third_iff (s : State) (w : RotationUnit) (z : Nat) (r : Rect) (ended : Option Nat) (hw : ReadsAs s w z)
    (serves : ServesSponsors s z r) (idle : (w.zone z).showing = .idle) (n : Nat) :
    ThirdSet s z r ended n ↔ n ∈ w.candidates s.compositor.zones z ended := by
  have nosh : ∀ n, w.showing n = false ↔ ∀ y, y < 8 → y ≠ z → (s.rotation.zone y).showing.sponsor ≠ some n := fun n => by
    simp only [Bool.eq_false_iff, ne_eq, RotationUnit.showing, List.any_eq_true, beq_iff_eq]
    constructor
    · intro h y hy hyz hs
      exact h ⟨w.zone y, mem_toList_of_tget _ _ _ hy, by rw [hw.others y hyz]; exact hs⟩
    · rintro h ⟨x, hx, hs⟩
      obtain ⟨y, hy, rfl⟩ := exists_tget_of_mem w.zones x ZoneRotation.powerOn hx
      change (w.zone y).showing.sponsor = some n at hs
      by_cases hyz : y = z
      · subst hyz; rw [idle] at hs; cases hs
      · rw [hw.others y hyz] at hs; exact h y hy hyz hs
  have first : ∀ n, FirstSet s z r n ↔ n < 32 ∧ w.eligible s.compositor.zones z n = true := fun n => by
    have nosh' := nosh n
    have hfit := fits_iff s z n r serves
    have harts : (s.rotation.sponsor n).fits (zoneAt s.compositor.zones z) = true → (s.rotation.sponsor n).art.isSome = true := by
      unfold Sponsor.fits; cases (s.rotation.sponsor n).art <;> simp
    unfold FirstSet RotationUnit.eligible
    rw [← nosh', ← hfit, hw.sponsor n, hw.tables.inForce]
    cases s.rotation.holdInForce <;> simp <;> intro _ <;> constructor <;> simp_all
  have capped : ∀ n, Capped s n ↔ w.capped n = true := fun n => by
    unfold Capped RotationUnit.capped
    rw [hw.tables.segment, hw.sponsor n]
    cases s.rotation.segment.kind <;> simp [Sponsor.target, Sponsor.credit] <;> (intro _; exact decide_eq_true_iff.symm)
  unfold ThirdSet RotationUnit.candidates
  have second : ∀ n, SecondSet s z r n ↔ n ∈ (if ((List.range 32).filter (w.eligible s.compositor.zones z)).filter (fun n => !w.capped n) = []
      then (List.range 32).filter (w.eligible s.compositor.zones z)
      else ((List.range 32).filter (w.eligible s.compositor.zones z)).filter (fun n => !w.capped n)) := fun n => by
    unfold SecondSet
    have memf : ∀ n, n ∈ (List.range 32).filter (w.eligible s.compositor.zones z) ↔ FirstSet s z r n := fun n => by
      rw [first, List.mem_filter, List.mem_range]
    split
    · rename_i hnil
      rw [memf]
      refine ⟨fun x => x.1, fun x => ⟨x, .inr fun m hm => ?_⟩⟩
      rw [capped]
      simpa using List.filter_eq_nil_iff.mp hnil m ((memf m).mpr hm)
    · rename_i hnil
      rw [List.mem_filter, memf, capped]
      constructor
      · rintro ⟨h1, h2 | h2⟩
        · exact ⟨h1, by simpa using h2⟩
        · refine absurd (List.filter_eq_nil_iff.mpr fun m hm => ?_) hnil
          have := h2 m ((memf m).mp hm)
          rw [capped] at this; simp [this]
      · rintro ⟨h1, h2⟩
        exact ⟨h1, .inl (by simpa using h2)⟩
  simp only [List.isEmpty_iff, second]
  generalize (if ((List.range 32).filter (w.eligible s.compositor.zones z)).filter (fun n => !w.capped n) = []
      then (List.range 32).filter (w.eligible s.compositor.zones z)
      else ((List.range 32).filter (w.eligible s.compositor.zones z)).filter (fun n => !w.capped n)) = sec
  split
  · rename_i hnil
    refine ⟨fun x => x.1, fun x => ⟨x, .inr fun m hm => ?_⟩⟩
    have h1 := List.filter_eq_nil_iff.mp hnil m hm
    have h2 := List.filter_eq_nil_iff.mp hnil n x
    simp at h1 h2
    rw [h1] at h2; simpa using h2
  · rename_i hnil
    rw [List.mem_filter]
    constructor
    · rintro ⟨h1, h2 | h2⟩
      · exact ⟨h1, by simpa using h2⟩
      · refine ⟨h1, ?_⟩
        by_cases he : ended = some n
        · exact absurd (List.filter_eq_nil_iff.mpr fun m hm => by rw [h2 m hm]; simp [he]) hnil
        · simpa using he
    · rintro ⟨h1, h2⟩
      exact ⟨h1, .inl (by simpa using h2)⟩

/-- A zone found idle, whose queue has no head that can start, is filled with a turn. -/
theorem filledWithTurn_fillZone (s t : State) (w : RotationUnit) (z : Nat) (r : Rect) (ended : Option Nat) (queue : List Feature)
    (hz : z < 8) (serves : ServesSponsors s z r) (hw : ReadsAs s w z) (fresh : (s.rotation.zone z).begunNow = false)
    (idle : (w.zone z).showing = .idle) (hq : (w.zone z).queue = queue)
    (hl : (w.zone z).lastEnded = ended.or (s.rotation.zone z).lastEnded)
    (trim : w.trimQueue s.compositor.zones z = (w, [])) (start : w.starter z = none)
    (ht : t.rotation = (w.fillZone s.compositor.zones z ended).1) :
    SameTables s.rotation t.rotation ∧ (w.fillZone s.compositor.zones z ended).2 = [] ∧ FilledWithTurn s t z r ended queue := by
  have third := third_iff s w z r ended hw serves idle
  have beats := fun n m => beats_of_comesFirst w s (fun k => by rw [hw.sponsor k]) (fun k => by
    unfold RotationUnit.deficit deficitAt
    rw [hw.sponsor k, hw.tables.segment]
    simp only [Sponsor.credit]
    cases s.rotation.segment.kind <;> simp [Sponsor.target, Segment.plan]) (ended.or (s.rotation.zone z).lastEnded) n m
  have fill : w.fillZone s.compositor.zones z ended =
      (match w.choose (ended.or (s.rotation.zone z).lastEnded) (w.candidates s.compositor.zones z ended) with
        | some n => (w.startTurn z n, [])
        | none => (w, [])) := by
    simp only [RotationUnit.fillZone, idle, trim, start, hl] <;>
      cases w.choose (ended.or (s.rotation.zone z).lastEnded) (w.candidates s.compositor.zones z ended) <;> rfl
  rw [fill] at ht ⊢
  have wz : w.zone z = { s.rotation.zone z with
      showing := .idle, queue := queue, lastEnded := ended.or (s.rotation.zone z).lastEnded } := by
    rw [hw.zone, idle, hq, hl]
  cases hc : w.choose (ended.or (s.rotation.zone z).lastEnded) (w.candidates s.compositor.zones z ended) with
  | none =>
    rw [hc] at ht
    dsimp only at ht
    refine ⟨by rw [ht]; exact hw.tables, rfl, ?_, fun y hy => by rw [ht]; exact hw.others y hy, fun _ => ?_, fun n hn best => ?_⟩
    · rw [ht, wz]
    · rw [ht, wz]; exact ⟨rfl, fresh, hw.sponsors⟩
    · have := choose_best w _ _ n ((third n).mp hn) fun m hm hmn => beats n m (best m hmn ((third m).mpr hm))
      rw [hc] at this; cases this
  | some k =>
    rw [hc] at ht
    dsimp only at ht
    have zk : t.rotation.zone z = { w.zone z with showing := .turn k (w.sponsor k).dwell 0, begunNow := true } := by
      rw [ht]; simp only [RotationUnit.startTurn, zone_setSponsor, zone_setZone, hz, and_self, if_true]
    refine ⟨?_, rfl, ?_, fun y hy => ?_, fun none' => ?_, fun n hn best => ?_⟩
    · rw [ht]; exact hw.tables.trans ⟨rfl, rfl, rfl, rfl, rfl⟩
    · rw [zk, wz]
    · rw [ht, ← hw.others y hy]; simp [RotationUnit.startTurn, zone_setZone, hy]
    · exact absurd ((third k).mpr (choose_mem _ _ _ _ hc)) (none' k)
    · have chosen := choose_best w _ _ n ((third n).mp hn) fun m hm hmn => beats n m (best m hmn ((third m).mpr hm))
      rw [hc] at chosen
      cases chosen
      have hn32 : k < 32 := hn.1.1.1
      refine ⟨by rw [zk, hw.sponsor], by rw [zk], ?_, fun m hm => ?_⟩
      · rw [ht, RotationUnit.startTurn, sponsor_setSponsor, if_pos ⟨rfl, hn32⟩]
        simp only [hw.sponsor, raise_eq]
      · rw [ht, RotationUnit.startTurn, sponsor_setSponsor, if_neg (by simp [hm])]
        exact hw.sponsor m

/-! ### A zone served whole (R90) -/

/-- What dropping unfit heads leaves of a queue, and its reports (R98). -/
theorem dropUnfit_spec (fits : Feature → Bool) (z : Nat) (q : List Feature) :
    ∃ unfit, q = unfit ++ (dropUnfit fits z q).1 ∧ (∀ f ∈ unfit, fits f = false) ∧
      (∀ g behind, (dropUnfit fits z q).1 = g :: behind → fits g = true) ∧
      (dropUnfit fits z q).2 = unfit.map fun f => f.dropped z .notShowable := by
  induction q with
  | nil => exact ⟨[], rfl, by simp, by simp [dropUnfit], rfl⟩
  | cons f fs ih =>
    unfold dropUnfit
    by_cases hf : fits f = true
    · rw [if_pos hf]
      exact ⟨[], rfl, by simp, fun g b h => by cases h; exact hf, rfl⟩
    · obtain ⟨unfit, h1, h2, h3, h4⟩ := ih
      rw [if_neg hf]
      refine ⟨f :: unfit, by rw [List.cons_append, ← h1], fun g hg => ?_, h3, by dsimp only; rw [h4]; rfl⟩
      rcases List.mem_cons.mp hg with rfl | hg
      · simpa using hf
      · exact h2 g hg

theorem featuredElsewhere_iff (s : State) (u : RotationUnit) (z n : Nat) (hu : ReadsAs s u z) :
    u.featuredElsewhere z n = true ↔ FeaturedBeside s z n := by
  unfold RotationUnit.featuredElsewhere FeaturedBeside
  simp only [List.any_eq_true, List.mem_range, Bool.and_eq_true, bne_iff_ne]
  constructor
  · rintro ⟨y, hy, hyz, h⟩
    rw [hu.others y hyz] at h
    cases hs : (s.rotation.zone y).showing with
    | idle => rw [hs] at h; cases h
    | turn => rw [hs] at h; cases h
    | feature f => rw [hs] at h; exact ⟨y, f, hy, hyz, hs, by simpa using h⟩
  · rintro ⟨y, f, hy, hyz, hs, hn⟩
    refine ⟨y, hy, hyz, ?_⟩
    rw [hu.others y hyz, hs]
    simp [hn]

/-- The head that can start, with what stands behind it. -/
theorem starter_iff (s : State) (u : RotationUnit) (z : Nat) (g : Feature) (hu : ReadsAs s u z) :
    u.starter z = some g ↔ ∃ behind, Starts s z (u.zone z).queue g behind := by
  unfold RotationUnit.starter Starts
  cases hq : (u.zone z).queue with
  | nil => simp
  | cons f fs =>
    have hf := featuredElsewhere_iff s u z f.sponsor hu
    by_cases h : FeaturedBeside s z f.sponsor
    · simp only [hf.mpr h, if_true]
      constructor
      · intro h; cases h
      · rintro ⟨_, h1, h2⟩; cases h1; exact absurd h h2
    · simp only [Bool.eq_false_iff.mpr fun x => h (hf.mp x)]
      constructor
      · intro e; cases e; exact ⟨fs, rfl, h⟩
      · rintro ⟨_, h1, _⟩; cases h1; rfl

/-- What the countdown of a zone does that did not begin at this frame start (R91). -/
theorem countZone_spec (s : State) (u : RotationUnit) (z : Nat) (r : Rect) (serves : ServesSponsors s z r) (hu : ReadsAs s u z)
    (fresh : (s.rotation.zone z).begunNow = false) :
    ((u.zone z).showing = .idle → u.countZone s.compositor.zones z = (u, none)) ∧
    (∀ n dwell shown, (u.zone z).showing = .turn n dwell shown →
      (TurnEnds s r n dwell → u.countZone s.compositor.zones z =
        (u.setZone z { u.zone z with showing := .idle, lastEnded := some n }, some n)) ∧
      (¬ TurnEnds s r n dwell → u.countZone s.compositor.zones z =
        (u.setZone z { u.zone z with showing := .turn n (dwell - 1) (shown + 1) }, none))) ∧
    ∀ f, (u.zone z).showing = .feature f →
      (FeatureEnds s r f → u.countZone s.compositor.zones z = (u.setZone z { u.zone z with showing := .idle }, none)) ∧
      (¬ FeatureEnds s r f → u.countZone s.compositor.zones z =
        (u.setZone z { u.zone z with showing := .feature { f with dwellLeft := f.dwellLeft - 1, shown := f.shown + 1 } }, none)) := by
  have hb : (u.zone z).begunNow = false := by rw [hu.zone]; exact fresh
  refine ⟨fun h => ?_, fun n dwell shown h => ?_, fun f h => ?_⟩
  · simp only [RotationUnit.countZone, hb, h]; rfl
  · have iff : (dwell - 1 = 0 ∨ (u.sponsor n).turnOver u.holdInForce (zoneAt s.compositor.zones z) = true) ↔ TurnEnds s r n dwell := by
      have hfit := fits_iff s z n r serves
      unfold TurnEnds Sponsor.turnOver
      rw [hu.sponsor n, hu.tables.inForce, ← hfit]
      simp only [Bool.or_eq_true, Bool.and_eq_true, decide_eq_true_eq, beq_iff_eq, Bool.not_eq_true']
      cases s.rotation.holdInForce <;> cases (s.rotation.sponsor n).fits (zoneAt s.compositor.zones z) <;> simp <;> omega
    have e : u.countZone s.compositor.zones z =
        if dwell - 1 = 0 ∨ (u.sponsor n).turnOver u.holdInForce (zoneAt s.compositor.zones z) = true then
          (u.setZone z { u.zone z with showing := .idle, lastEnded := some n }, some n)
        else (u.setZone z { u.zone z with showing := .turn n (dwell - 1) (shown + 1) }, none) := by
      simp only [RotationUnit.countZone, hb, h]; rfl
    exact ⟨fun x => e.trans (if_pos (iff.mpr x)), fun x => e.trans (if_neg fun y => x (iff.mp y))⟩
  · have iff : (f.dwellLeft - 1 = 0 ∨ (u.sponsor f.sponsor).fits (zoneAt s.compositor.zones z) = false) ↔ FeatureEnds s r f := by
      have hfit := fits_iff s z f.sponsor r serves
      unfold FeatureEnds
      rw [hu.sponsor f.sponsor, ← hfit, Bool.eq_false_iff]
      constructor <;> rintro (h | h)
      · left; omega
      · exact .inr h
      · left; omega
      · exact .inr h
    have e : u.countZone s.compositor.zones z =
        if f.dwellLeft - 1 = 0 ∨ (u.sponsor f.sponsor).fits (zoneAt s.compositor.zones z) = false then
          (u.setZone z { u.zone z with showing := .idle }, none)
        else (u.setZone z { u.zone z with showing := .feature { f with dwellLeft := f.dwellLeft - 1, shown := f.shown + 1 } }, none) := by
      simp only [RotationUnit.countZone, hb, h]; rfl
    exact ⟨fun x => e.trans (if_pos (iff.mpr x)), fun x => e.trans (if_neg fun y => x (iff.mp y))⟩

/-- A zone's record replaced by one that keeps what the service of the zone does not touch. -/
theorem ReadsAs.setZone {s : State} {u : RotationUnit} {z : Nat} (h : ReadsAs s u z) (hz : z < 8) (x : ZoneRotation)
    (hx : x = { u.zone z with showing := x.showing, queue := x.queue, lastEnded := x.lastEnded }) : ReadsAs s (u.setZone z x) z := by
  refine ⟨h.tables.trans ⟨rfl, rfl, rfl, rfl, rfl⟩, h.sponsors, fun y hy => ?_, ?_⟩
  · rw [zone_setZone, if_neg (by simp [hy]), h.others y hy]
  · rw [zone_setZone, if_pos ⟨rfl, hz⟩]
    have hu := h.zone
    generalize u.zone z = w at hx hu
    rw [hu] at hx
    rw [hx]

theorem ReadsAs.self (s : State) (z : Nat) : ReadsAs s s.rotation z := ⟨.rfl' _, rfl, fun _ _ => rfl, rfl⟩

/-- A FEATURE preempted goes back to its zone's queue with what is left of its dwell (R98). -/
theorem shelve_spec (u : RotationUnit) (z : Nat) (f : Feature) (hz : z < 8) :
    SameTables u (u.shelve z f) ∧ (u.shelve z f).sponsors = u.sponsors ∧ (∀ y, y ≠ z → (u.shelve z f).zone y = u.zone y) ∧
    (u.shelve z f).zone z = { u.zone z with queue := (if 0 < f.dwellLeft - 1 then
      insertFeature { f with dwellLeft := f.dwellLeft - 1, shown := f.shown + 1 } (u.zone z).queue else (u.zone z).queue) } := by
  unfold RotationUnit.shelve
  dsimp only
  split
  · refine ⟨⟨rfl, rfl, rfl, rfl, rfl⟩, rfl, fun y hy => ?_, ?_⟩
    · rw [zone_setZone, if_neg (by simp [hy])]
    · rw [zone_setZone, if_pos ⟨rfl, hz⟩]
  · exact ⟨.rfl' _, rfl, fun _ _ => rfl, rfl⟩

/-- Unfit heads are dropped once, before the preemption. -/
theorem preempt_trim (v u : RotationUnit) (zs : Vector Zone 8) (z : Nat) (reports : List Report)
    (h1 : v.trimQueue zs z = (u, reports)) (h2 : u.trimQueue zs z = (u, [])) :
    v.preempt zs z = ((u.preempt zs z).1, reports) := by
  unfold RotationUnit.preempt
  rw [h1, h2]
  dsimp only
  cases u.starter z with
  | none => rfl
  | some g =>
    cases (u.zone z).showing with
    | idle => rfl
    | turn => simp only
    | feature f => dsimp only; split <;> simp only

/-- A unit ready to serve an enabled SPONSOR zone: as the state's own but for the unfit heads dropped from the zone's queue. -/
structure ReadyToServe (s : State) (u : RotationUnit) (z : Nat) (r : Rect) : Prop where
  zone : z < 8
  serves : ServesSponsors s z r
  reads : ReadsAs s u z
  fresh : (s.rotation.zone z).begunNow = false
  showing : (u.zone z).showing = (s.rotation.zone z).showing
  last : (u.zone z).lastEnded = (s.rotation.zone z).lastEnded
  heads : ∀ g behind, (u.zone z).queue = g :: behind → ArtFits s g.sponsor r

namespace ReadyToServe

variable {s : State} {u : RotationUnit} {z : Nat} {r : Rect} (h : ReadyToServe s u z r)
include h

theorem record : u.zone z = { s.rotation.zone z with queue := (u.zone z).queue } := by
  rw [h.reads.zone, h.showing, h.last]

theorem trim (w : RotationUnit) (hw : ReadsAs s w z) (hq : (w.zone z).queue = (u.zone z).queue) :
    w.trimQueue s.compositor.zones z = (w, []) :=
  trimQueue_fit w _ z fun g q e => by
    rw [hw.sponsor]; exact (fits_iff s z g.sponsor r h.serves).mpr (h.heads g q (hq ▸ e))

omit h in
theorem waits (w : RotationUnit) (hw : ReadsAs s w z) (hq : (w.zone z).queue = (u.zone z).queue)
    (no : ∀ g behind, ¬ Starts s z (u.zone z).queue g behind) : w.starter z = none := by
  cases hc : w.starter z with
  | none => rfl
  | some g =>
    obtain ⟨b, hb⟩ := (starter_iff s w z g hw).mp hc
    exact absurd (hq ▸ hb) (no g b)

theorem starts (w : RotationUnit) (hw : ReadsAs s w z) (hq : (w.zone z).queue = (u.zone z).queue) (g : Feature) (behind : List Feature)
    (hg : Starts s z (u.zone z).queue g behind) : w.starter z = some g ∧ g.sponsor < 32 :=
  ⟨(starter_iff s w z g hw).mpr ⟨behind, hq ▸ hg⟩, artFits_lt (h.heads g behind hg.1)⟩

/-- With no preemption the countdown and the filling are the whole service. -/
theorem through (hp : u.preempt s.compositor.zones z = (u, [])) (w : RotationUnit) (e : Option Nat)
    (hc : u.countZone s.compositor.zones z = (w, e)) : u.serveZone s.compositor.zones z = w.fillZone s.compositor.zones z e := by
  have hsz : (zoneAt s.compositor.zones z).isSponsor = true := (isSponsor_iff s z).mpr ⟨r, h.serves⟩
  simp only [RotationUnit.serveZone, hsz, if_true, hp, hc, List.nil_append]

/-- A feature that takes the zone by preemption is the whole service. -/
theorem preempted (w : RotationUnit) (g : Feature) (hp : u.preempt s.compositor.zones z = (w, [])) (hb : (w.zone z).begunNow = true)
    (hg : (w.zone z).showing = .feature g) : u.serveZone s.compositor.zones z = (w, []) := by
  have hsz : (zoneAt s.compositor.zones z).isSponsor = true := (isSponsor_iff s z).mpr ⟨r, h.serves⟩
  have hc : w.countZone s.compositor.zones z = (w, none) := by simp only [RotationUnit.countZone, hb, if_true]
  simp only [RotationUnit.serveZone, hsz, if_true, hp, hc, RotationUnit.fillZone, hg, List.nil_append]

theorem preempt_waiting (no : ∀ g behind, ¬ Starts s z (u.zone z).queue g behind) : u.preempt s.compositor.zones z = (u, []) := by
  simp only [RotationUnit.preempt, h.trim u h.reads rfl, waits u h.reads rfl no]

theorem preempt_idle (hi : (u.zone z).showing = .idle) : u.preempt s.compositor.zones z = (u, []) := by
  simp only [RotationUnit.preempt, h.trim u h.reads rfl, hi] <;> cases u.starter z <;> rfl

theorem preempt_feature (f : Feature) (hf : (u.zone z).showing = .feature f)
    (no : ∀ g behind, Starts s z (u.zone z).queue g behind → ¬ Nests s z f g) : u.preempt s.compositor.zones z = (u, []) := by
  simp only [RotationUnit.preempt, h.trim u h.reads rfl]
  cases hst : u.starter z with
  | none => rfl
  | some g =>
    obtain ⟨b, hb⟩ := (starter_iff s u z g h.reads).mp hst
    have hn : (u.zone z).nesting = (s.rotation.zone z).nesting := by rw [h.record]
    simp only [hf, hn]
    rw [if_neg]
    intro hx
    simp only [Bool.and_eq_true, decide_eq_true_eq] at hx
    exact no g b hb hx

/-- The head takes the zone, found idle, in the filling part. -/
theorem fill_takes (t : State) (w : RotationUnit) (e : Option Nat) (g : Feature) (behind : List Feature) (hw : ReadsAs s w z)
    (hq : (w.zone z).queue = (u.zone z).queue) (hl : (w.zone z).lastEnded = (s.rotation.zone z).lastEnded)
    (hi : (w.zone z).showing = .idle) (hg : Starts s z (u.zone z).queue g behind)
    (ht : t.rotation = (w.fillZone s.compositor.zones z e).1) :
    SameTables s.rotation t.rotation ∧ (w.fillZone s.compositor.zones z e).2 = [] ∧ TakesZone s t z g behind := by
  obtain ⟨h1, h2⟩ := h.starts w hw hq g behind hg
  have hf : w.fillZone s.compositor.zones z e = (w.startFeature z g, []) := by
    simp only [RotationUnit.fillZone, hi, h.trim w hw hq, h1]
  rw [hf] at ht ⊢
  dsimp only at ht
  obtain ⟨a, b⟩ := takesZone_startFeature s t w z h.zone g behind hw hl (hq.trans hg.1) h2 ht
  exact ⟨a, rfl, b⟩

/-- What shows goes on: no preemption, and a countdown that does not end it. -/
theorem goes_on (t : State) (x : Showing) (hx : x ≠ .idle) (hp : u.preempt s.compositor.zones z = (u, []))
    (hc : u.countZone s.compositor.zones z = (u.setZone z { u.zone z with showing := x }, none))
    (ht : t.rotation = (u.serveZone s.compositor.zones z).1) :
    SameTables s.rotation t.rotation ∧ (u.serveZone s.compositor.zones z).2 = [] ∧
      ZoneAlone s t z { s.rotation.zone z with queue := (u.zone z).queue, showing := x } := by
  have hz : (u.setZone z { u.zone z with showing := x }).zone z = { u.zone z with showing := x } := by
    rw [zone_setZone, if_pos ⟨rfl, h.zone⟩]
  have hf : (u.setZone z { u.zone z with showing := x }).fillZone s.compositor.zones z none =
      (u.setZone z { u.zone z with showing := x }, []) := by
    cases x with
    | idle => exact absurd rfl hx
    | turn => simp only [RotationUnit.fillZone, hz]
    | feature => simp only [RotationUnit.fillZone, hz]
  rw [h.through hp _ _ hc, hf] at ht ⊢
  refine ⟨by rw [ht]; exact h.reads.tables.trans ⟨rfl, rfl, rfl, rfl, rfl⟩, rfl, ?_, fun y hy => ?_, by rw [ht]; exact h.reads.sponsors⟩
  · rw [ht, hz, h.record]
  · rw [ht, zone_setZone, if_neg (by simp [hy]), h.reads.others y hy]

/-- The zone found idle with no head that can start is filled with a turn. -/
theorem fills (t : State) (w : RotationUnit) (ended : Option Nat) (hw : ReadsAs s w z) (hq : (w.zone z).queue = (u.zone z).queue)
    (hl : (w.zone z).lastEnded = ended.or (s.rotation.zone z).lastEnded) (hi : (w.zone z).showing = .idle)
    (no : ∀ g behind, ¬ Starts s z (u.zone z).queue g behind) (hp : u.preempt s.compositor.zones z = (u, []))
    (hc : u.countZone s.compositor.zones z = (w, ended)) (ht : t.rotation = (u.serveZone s.compositor.zones z).1) :
    SameTables s.rotation t.rotation ∧ (u.serveZone s.compositor.zones z).2 = [] ∧
      FilledWithTurn s t z r ended (u.zone z).queue := by
  rw [h.through hp _ _ hc] at ht ⊢
  exact filledWithTurn_fillZone s t w z r ended _ h.zone h.serves hw h.fresh hi hq hl (h.trim w hw hq) (waits w hw hq no) ht

/-- The head takes the zone from a TURN, or finds it idle. -/
theorem takes (t : State) (ht : t.rotation = (u.serveZone s.compositor.zones z).1) (g : Feature) (behind : List Feature)
    (hg : Starts s z (u.zone z).queue g behind)
    (hs : (s.rotation.zone z).showing = .idle ∨ ∃ n dwell shown, (s.rotation.zone z).showing = .turn n dwell shown) :
    SameTables s.rotation t.rotation ∧ (u.serveZone s.compositor.zones z).2 = [] ∧ TakesZone s t z g behind := by
  obtain ⟨h1, h2⟩ := h.starts u h.reads rfl g behind hg
  rcases hs with hi | ⟨n, dwell, shown, hi⟩
  · have hu : (u.zone z).showing = .idle := h.showing.trans hi
    have hc := (countZone_spec s u z r h.serves h.reads h.fresh).1 hu
    rw [h.through (h.preempt_idle hu) _ _ hc] at ht ⊢
    exact h.fill_takes t u none g behind h.reads rfl h.last hu hg ht
  · have hu : (u.zone z).showing = .turn n dwell shown := h.showing.trans hi
    have hp : u.preempt s.compositor.zones z = (u.startFeature z g, []) := by
      simp only [RotationUnit.preempt, h.trim u h.reads rfl, h1, hu]
    have hz := startFeature_zone u z h.zone g behind hg.1
    rw [h.preempted _ g hp (by rw [hz]) (by rw [hz])] at ht ⊢
    dsimp only at ht
    obtain ⟨a, b⟩ := takesZone_startFeature s t u z h.zone g behind h.reads h.last hg.1 h2 ht
    exact ⟨a, rfl, b⟩

/-- The head takes the zone from a lower FEATURE, which goes back to the queue with what is left of its dwell. -/
theorem nests (t : State) (ht : t.rotation = (u.serveZone s.compositor.zones z).1) (f g : Feature) (behind : List Feature)
    (hg : Starts s z (u.zone z).queue g behind) (hs : (s.rotation.zone z).showing = .feature f) (hn : Nests s z f g) :
    SameTables s.rotation t.rotation ∧ (u.serveZone s.compositor.zones z).2 = [] ∧ TakesZone s t z g
      (if 0 < f.dwellLeft - 1 then insertFeature { f with dwellLeft := f.dwellLeft - 1, shown := f.shown + 1 } behind else behind) := by
  obtain ⟨h1, h2⟩ := h.starts u h.reads rfl g behind hg
  have hu : (u.zone z).showing = .feature f := h.showing.trans hs
  have hn' : (u.zone z).nesting = true := by rw [h.record]; exact hn.1
  have hp : u.preempt s.compositor.zones z = ((u.startFeature z g).shelve z f, []) := by
    simp only [RotationUnit.preempt, h.trim u h.reads rfl, h1, hu, hn', hn.2]
    rfl
  have hz := startFeature_zone u z h.zone g behind hg.1
  obtain ⟨htab, hsp, hy, hz'⟩ := shelve_spec (u.startFeature z g) z f h.zone
  rw [hz] at hz'
  rw [h.preempted _ g hp (by rw [hz']) (by rw [hz'])] at ht ⊢
  dsimp only at ht
  obtain ⟨a, b⟩ := takesZone_startFeature s (s.setRotation (u.startFeature z g)) u z h.zone g behind h.reads h.last hg.1 h2
    (State.setRotation_rotation _ _)
  rw [State.setRotation_rotation] at a
  have hts : ∀ n, t.rotation.sponsor n = (u.startFeature z g).sponsor n := fun n => by
    rw [ht]; simp only [RotationUnit.sponsor, hsp]
  have bz := b.ends
  have bs := b.stand
  have bc := b.counted
  have bo := b.others
  rw [State.setRotation_rotation] at bz bs bc bo
  refine ⟨by rw [ht]; exact a.trans htab, rfl, ?_, fun y dwell shown hyz hs => ?_, fun y hyz hs => ?_, ?_, fun n hn => ?_⟩
  · rw [ht, hz', h.record]
  · rw [ht, hy y hyz]; exact bz y dwell shown hyz hs
  · rw [ht, hy y hyz]; exact bs y hyz hs
  · rw [hts]; exact bc
  · rw [hts]; exact bo n hn

/-- The head takes the zone from a FEATURE that ends at this frame start. -/
theorem follows (t : State) (ht : t.rotation = (u.serveZone s.compositor.zones z).1) (f g : Feature) (behind : List Feature)
    (hg : Starts s z (u.zone z).queue g behind) (hs : (s.rotation.zone z).showing = .feature f) (hn : ¬ Nests s z f g)
    (he : FeatureEnds s r f) :
    SameTables s.rotation t.rotation ∧ (u.serveZone s.compositor.zones z).2 = [] ∧ TakesZone s t z g behind := by
  have hu : (u.zone z).showing = .feature f := h.showing.trans hs
  have hp := h.preempt_feature f hu fun g' b' hg' => by
    have := hg.1.symm.trans hg'.1
    cases this
    exact hn
  have hc := ((countZone_spec s u z r h.serves h.reads h.fresh).2.2 f hu).1 he
  have hz : (u.setZone z { u.zone z with showing := .idle }).zone z = { u.zone z with showing := .idle } := by
    rw [zone_setZone, if_pos ⟨rfl, h.zone⟩]
  rw [h.through hp _ _ hc] at ht ⊢
  exact h.fill_takes t _ none g behind (h.reads.setZone h.zone _ rfl) (by rw [hz]) (by rw [hz]; exact h.last) (by rw [hz]) hg ht

theorem turn_goes_on (t : State) (ht : t.rotation = (u.serveZone s.compositor.zones z).1) (n dwell shown : Nat)
    (no : ∀ g behind, ¬ Starts s z (u.zone z).queue g behind) (hs : (s.rotation.zone z).showing = .turn n dwell shown)
    (he : ¬ TurnEnds s r n dwell) :
    SameTables s.rotation t.rotation ∧ (u.serveZone s.compositor.zones z).2 = [] ∧
      ZoneAlone s t z { s.rotation.zone z with queue := (u.zone z).queue, showing := .turn n (dwell - 1) (shown + 1) } :=
  h.goes_on t _ (by simp) (h.preempt_waiting no)
    (((countZone_spec s u z r h.serves h.reads h.fresh).2.1 n dwell shown (h.showing.trans hs)).2 he) ht

theorem feature_goes_on (t : State) (ht : t.rotation = (u.serveZone s.compositor.zones z).1) (f : Feature)
    (no : ∀ g behind, Starts s z (u.zone z).queue g behind → ¬ Nests s z f g) (hs : (s.rotation.zone z).showing = .feature f)
    (he : ¬ FeatureEnds s r f) :
    SameTables s.rotation t.rotation ∧ (u.serveZone s.compositor.zones z).2 = [] ∧
      ZoneAlone s t z { s.rotation.zone z with
        queue := (u.zone z).queue, showing := .feature { f with dwellLeft := f.dwellLeft - 1, shown := f.shown + 1 } } :=
  h.goes_on t _ (by simp) (h.preempt_feature f (h.showing.trans hs) no)
    (((countZone_spec s u z r h.serves h.reads h.fresh).2.2 f (h.showing.trans hs)).2 he) ht

/-- With no head that can start, a zone that is idle or whose TURN or FEATURE ends is filled with a turn. -/
theorem filled (t : State) (ht : t.rotation = (u.serveZone s.compositor.zones z).1) (ended : Option Nat)
    (no : ∀ g behind, ¬ Starts s z (u.zone z).queue g behind)
    (how : (s.rotation.zone z).showing = .idle ∧ ended = none ∨
      (∃ f, (s.rotation.zone z).showing = .feature f ∧ FeatureEnds s r f ∧ ended = none) ∨
      ∃ n dwell shown, (s.rotation.zone z).showing = .turn n dwell shown ∧ TurnEnds s r n dwell ∧ ended = some n) :
    SameTables s.rotation t.rotation ∧ (u.serveZone s.compositor.zones z).2 = [] ∧
      FilledWithTurn s t z r ended (u.zone z).queue := by
  obtain ⟨c1, c2, c3⟩ := countZone_spec s u z r h.serves h.reads h.fresh
  have hp := h.preempt_waiting no
  have hz : ∀ x, (u.setZone z x).zone z = x := fun x => by rw [zone_setZone, if_pos ⟨rfl, h.zone⟩]
  rcases how with ⟨hs, rfl⟩ | ⟨f, hs, he, rfl⟩ | ⟨n, dwell, shown, hs, he, rfl⟩
  · exact h.fills t u none h.reads rfl h.last (h.showing.trans hs) no hp (c1 (h.showing.trans hs)) ht
  · exact h.fills t _ none (h.reads.setZone h.zone _ rfl) (by rw [hz]) (by rw [hz]; exact h.last) (by rw [hz]) no hp
      ((c3 f (h.showing.trans hs)).1 he) ht
  · exact h.fills t _ (some n) (h.reads.setZone h.zone _ rfl) (by rw [hz]) (by rw [hz]; rfl) (by rw [hz]) no hp
      ((c2 n dwell shown (h.showing.trans hs)).1 he) ht

/-- What the service of an enabled SPONSOR zone with no unfit head can do, said once. -/
theorem served (t : State) (ht : t.rotation = (u.serveZone s.compositor.zones z).1) :
    SameTables s.rotation t.rotation ∧ (u.serveZone s.compositor.zones z).2 = [] ∧ SponsorZoneServed s t z r (u.zone z).queue := by
  have rest : SameTables s.rotation t.rotation ∧ (u.serveZone s.compositor.zones z).2 = [] := by
    by_cases no : ∀ g behind, ¬ Starts s z (u.zone z).queue g behind
    · cases hs : (s.rotation.zone z).showing with
      | idle => have := h.filled t ht none no (.inl ⟨hs, rfl⟩); exact ⟨this.1, this.2.1⟩
      | turn n dwell shown =>
        by_cases he : TurnEnds s r n dwell
        · have := h.filled t ht (some n) no (.inr (.inr ⟨n, dwell, shown, hs, he, rfl⟩)); exact ⟨this.1, this.2.1⟩
        · have := h.turn_goes_on t ht n dwell shown no hs he; exact ⟨this.1, this.2.1⟩
      | feature f =>
        by_cases he : FeatureEnds s r f
        · have := h.filled t ht none no (.inr (.inl ⟨f, hs, he, rfl⟩)); exact ⟨this.1, this.2.1⟩
        · have := h.feature_goes_on t ht f (fun g b hg => absurd hg (no g b)) hs he; exact ⟨this.1, this.2.1⟩
    · obtain ⟨g, no⟩ := Classical.not_forall.mp no
      obtain ⟨behind, no⟩ := Classical.not_forall.mp no
      have hg := Classical.not_not.mp no
      cases hs : (s.rotation.zone z).showing with
      | idle => have := h.takes t ht g behind hg (.inl hs); exact ⟨this.1, this.2.1⟩
      | turn n dwell shown => have := h.takes t ht g behind hg (.inr ⟨n, dwell, shown, hs⟩); exact ⟨this.1, this.2.1⟩
      | feature f =>
        by_cases hn : Nests s z f g
        · have := h.nests t ht f g behind hg hs hn; exact ⟨this.1, this.2.1⟩
        · by_cases he : FeatureEnds s r f
          · have := h.follows t ht f g behind hg hs hn he; exact ⟨this.1, this.2.1⟩
          · have := h.feature_goes_on t ht f (fun g' b' hg' => by
              have e := hg.1.symm.trans hg'.1
              cases e
              exact hn) hs he
            exact ⟨this.1, this.2.1⟩
  refine ⟨rest.1, rest.2, fun g b hg hs => (h.takes t ht g b hg hs).2.2, fun f g b hg hs hn => ?_,
    fun f g b hg hs hn he => (h.follows t ht f g b hg hs hn he).2.2, fun n d k no hs he => (h.turn_goes_on t ht n d k no hs he).2.2,
    fun f no hs he => (h.feature_goes_on t ht f no hs he).2.2, fun ended no how => (h.filled t ht ended no how).2.2⟩
  refine ⟨_, (h.nests t ht f g b hg hs hn).2.2, fun hd => if_neg (by omega), fun hd sorted => ?_⟩
  obtain ⟨front, back, e1, e2, e3, e4⟩ := insertFeature_spec { f with dwellLeft := f.dwellLeft - 1, shown := f.shown + 1 } b sorted
  exact ⟨front, back, e1, (if_pos (by omega)).trans e2, e3, e4⟩

end ReadyToServe

/-- What the service of a zone can do, said once (R90). -/
theorem zoneServed_serveZone (s : State) (z : Nat) (hz : z < 8) (fresh : (s.rotation.zone z).begunNow = false) :
    ZoneServed s (s.setRotation (s.rotation.serveZone s.compositor.zones z).1) z (s.rotation.serveZone s.compositor.zones z).2 := by
  have rest : ∀ t : State, SameTables s.rotation t.rotation → t = s.setRotation t.rotation →
      t = s.setRotation { s.rotation with zones := t.rotation.zones, sponsors := t.rotation.sponsors } := fun t a e => by
    rw [e]
    congr 1
    obtain ⟨a1, a2, a3, a4, a5⟩ := a
    generalize t.rotation = v at *
    cases v
    simp_all
  by_cases hs : (zoneAt s.compositor.zones z).isSponsor = true
  · obtain ⟨r, serves⟩ := (isSponsor_iff s z).mp hs
    let u : RotationUnit := (s.rotation.trimQueue s.compositor.zones z).1
    let fits := fun f : Feature => (s.rotation.sponsor f.sponsor).fits (zoneAt s.compositor.zones z)
    obtain ⟨unfit, d1, d2, d3, d4⟩ := dropUnfit_spec fits z (s.rotation.zone z).queue
    have uz : u.zone z = { s.rotation.zone z with queue := (dropUnfit fits z (s.rotation.zone z).queue).1 } := by
      simp only [u, fits, RotationUnit.trimQueue, zone_setZone, hz, and_self, if_true]
    have reads : ReadsAs s u z := (ReadsAs.self s z).setZone hz _ rfl
    have heads : ∀ g behind, (u.zone z).queue = g :: behind → ArtFits s g.sponsor r := fun g b h => by
      rw [uz] at h; exact (fits_iff s z g.sponsor r serves).mp (d3 g b h)
    have ready : ReadyToServe s u z r := ⟨hz, serves, reads, fresh, by rw [uz], by rw [uz], heads⟩
    have pre := preempt_trim s.rotation u s.compositor.zones z (dropUnfit fits z (s.rotation.zone z).queue).2 rfl (ready.trim u reads rfl)
    clear_value u
    have e : s.rotation.serveZone s.compositor.zones z = ((u.serveZone s.compositor.zones z).1,
        (dropUnfit fits z (s.rotation.zone z).queue).2 ++ (u.serveZone s.compositor.zones z).2) := by
      have h2 : (u.preempt s.compositor.zones z).2 = [] := by rw [preempt_reports, ready.trim u reads rfl]
      simp only [RotationUnit.serveZone, hs, if_true, pre, h2, List.nil_append]
    rw [e]
    obtain ⟨a, b, c⟩ := ready.served (s.setRotation (u.serveZone s.compositor.zones z).1) (State.setRotation_rotation _ _)
    refine ⟨fresh, rest _ a rfl, fun no => absurd serves (no r), fun r' serves' => ⟨unfit, (u.zone z).queue, ?_, fun f hf => ?_, ?_, ?_, ?_⟩⟩
    · rw [uz]; exact d1
    · rw [← fits_iff s z f.sponsor r' serves']; simpa [fits] using d2 f hf
    · exact fun g q h => by
        rw [← fits_iff s z g.sponsor r' serves', fits_iff s z g.sponsor r serves]; exact heads g q h
    · rw [b, List.append_nil]; exact d4
    · have : r' = r := by
        obtain ⟨-, c1, h1, -, h2⟩ := serves
        obtain ⟨-, c2, h3, -, h4⟩ := serves'
        rw [h1] at h3; cases h3; exact h4.symm.trans h2
      rw [this]; exact c
  · have hs' : (zoneAt s.compositor.zones z).isSponsor = false := by simpa using hs
    have e : s.rotation.serveZone s.compositor.zones z = s.rotation.closeZone z := by
      simp only [RotationUnit.serveZone, hs']
      rfl
    rw [e]
    obtain ⟨a1, a2, -, a4⟩ := closeZone_spec s.rotation z
    refine ⟨fresh, rest _ a1 rfl, fun _ => ⟨⟨?_, fun y hy => ?_, a2⟩, fun f hf => ?_, fun hf => ?_⟩,
      fun r serves => absurd ((isSponsor_iff s z).mpr ⟨r, serves⟩) hs⟩
    · exact (a4 z).trans (if_pos ⟨rfl, hz⟩)
    · exact (a4 y).trans (if_neg (by simp [hy]))
    · simp only [RotationUnit.closeZone, hf]; rfl
    · unfold RotationUnit.closeZone
      dsimp only
      split
      · rename_i f h; exact absurd h (hf f)
      · rfl
      · rfl

/-! ### The zones served one after another (R90) -/

theorem startFeature_begunNow (u : RotationUnit) (z y : Nat) (g : Feature) (hy : y ≠ z) :
    ((u.startFeature z g).zone y).begunNow = (u.zone y).begunNow := by
  let u1 := u.setZone z { u.zone z with queue := (u.zone z).queue.tail, showing := .feature g, begunNow := true }
  let u2 := if g.shown = 0 then
    u1.setSponsor g.sponsor { u1.sponsor g.sponsor with turns := raise (u1.sponsor g.sponsor).turns } else u1
  have h2 : u2.zone y = u.zone y := by
    simp only [u2, u1]
    split <;> simp [zone_setZone, hy]
  change ((u2.endTurnsElsewhere z g.sponsor).zone y).begunNow = _
  obtain ⟨-, -, a3, a4⟩ := endTurns_spec u2 z g.sponsor
  by_cases h : ∃ dwell shown, (u2.zone y).showing = .turn g.sponsor dwell shown
  · obtain ⟨d, k, h⟩ := h
    rw [a3 y d k hy h, h2]
  · rw [a4 y (.inr fun d k e => h ⟨d, k, e⟩), h2]

/-- The service of a zone leaves the begun-now flags of the others. -/
theorem serveZone_begunNow (u : RotationUnit) (zs : Vector Zone 8) (z y : Nat) (hy : y ≠ z) (hz : z < 8) :
    ((u.serveZone zs z).1.zone y).begunNow = (u.zone y).begunNow := by
  have set : ∀ (v : RotationUnit) x, (v.setZone z x).zone y = v.zone y := fun v x => by rw [zone_setZone, if_neg (by simp [hy])]
  have trim : ∀ v : RotationUnit, (v.trimQueue zs z).1.zone y = v.zone y := fun v => set v _
  have pre : ∀ v : RotationUnit, ((v.preempt zs z).1.zone y).begunNow = (v.zone y).begunNow := fun v => by
    have ht := trim v
    unfold RotationUnit.preempt
    dsimp only
    split
    · rw [startFeature_begunNow _ _ _ _ hy, ht]
    · split
      · rw [(shelve_spec _ z _ hz).2.2.1 y hy, startFeature_begunNow _ _ _ _ hy, ht]
      · rw [ht]
    · rw [ht]
  have count : ∀ v : RotationUnit, (v.countZone zs z).1.zone y = v.zone y := fun v => by
    unfold RotationUnit.countZone
    dsimp only
    split
    · rfl
    · split
      · rfl
      · split <;> exact set v _
      · split <;> exact set v _
  have fill : ∀ (v : RotationUnit) e, ((v.fillZone zs z e).1.zone y).begunNow = (v.zone y).begunNow := fun v e => by
    have ht := trim v
    unfold RotationUnit.fillZone
    split
    · rfl
    · rfl
    · dsimp only
      split
      · rw [startFeature_begunNow _ _ _ _ hy, ht]
      · split
        · rw [RotationUnit.startTurn, zone_setSponsor, set, ht]
        · rw [ht]
  unfold RotationUnit.serveZone
  split
  · dsimp only
    rw [fill, count, pre]
  · exact congrArg _ (set u _)

/-- The service of a zone leaves all of a sponsor's record but its turns. -/
theorem serveZone_sponsor (u : RotationUnit) (zs : Vector Zone 8) (z n : Nat) :
    ∃ k, (u.serveZone zs z).1.sponsor n = { u.sponsor n with turns := k } := by
  have keep : ∀ v : RotationUnit, ∃ k, v.sponsor n = { v.sponsor n with turns := k } := fun v => ⟨(v.sponsor n).turns, rfl⟩
  have counted : ∀ (v : RotationUnit) m, ∃ k,
      (v.setSponsor m { v.sponsor m with turns := raise (v.sponsor m).turns }).sponsor n = { v.sponsor n with turns := k } := fun v m => by
    rw [sponsor_setSponsor]
    split
    · rename_i h; rw [h.1]; exact ⟨_, rfl⟩
    · exact keep v
  have trim : ∀ v : RotationUnit, (v.trimQueue zs z).1.sponsor n = v.sponsor n := fun v => sponsor_setZone v z n _
  have start : ∀ (v : RotationUnit) g, ∃ k, (v.startFeature z g).sponsor n = { v.sponsor n with turns := k } := fun v g => by
    unfold RotationUnit.startFeature
    dsimp only
    rw [RotationUnit.sponsor, (endTurns_spec _ z g.sponsor).2.1]
    split
    · exact counted _ _
    · exact keep _
  have pre : ∃ k, (u.preempt zs z).1.sponsor n = { u.sponsor n with turns := k } := by
    rw [← trim u]
    unfold RotationUnit.preempt
    dsimp only
    split
    · dsimp only; exact start _ _
    · split
      · have : ∀ v f, (RotationUnit.shelve v z f).sponsor n = v.sponsor n := fun v f => by
          unfold RotationUnit.shelve; dsimp only; split <;> rfl
        dsimp only; rw [this]; exact start _ _
      · exact keep _
    · exact keep _
  have count : ∀ v : RotationUnit, (v.countZone zs z).1.sponsor n = v.sponsor n := fun v => by
    unfold RotationUnit.countZone
    dsimp only
    repeat' split
    all_goals rfl
  have fill : ∀ (v : RotationUnit) e, ∃ k, (v.fillZone zs z e).1.sponsor n = { v.sponsor n with turns := k } := fun v e => by
    unfold RotationUnit.fillZone
    split
    · exact keep v
    · exact keep v
    · dsimp only
      rw [← trim v]
      split
      · dsimp only; exact start _ _
      · split
        · dsimp only [RotationUnit.startTurn]; exact counted (RotationUnit.setZone _ _ _) _
        · exact keep _
  unfold RotationUnit.serveZone
  split
  · dsimp only
    obtain ⟨k, h⟩ := fill ((u.preempt zs z).1.countZone zs z).1 ((u.preempt zs z).1.countZone zs z).2
    obtain ⟨j, h'⟩ := pre
    exact ⟨k, by rw [h, count, h']⟩
  · exact keep u

/-- The service of a frame start leaves all of a sponsor's record but its turns. -/
theorem service_sponsor (u : RotationUnit) (zs : Vector Zone 8) (n : Nat) :
    ∃ k, (u.service zs).1.sponsor n = { u.sponsor n with turns := k } := by
  have key : ∀ (L : List Nat) (acc : RotationUnit × List Report), ∃ k,
      (L.foldl (serveStep zs) acc).1.sponsor n = { acc.1.sponsor n with turns := k } := by
    intro L
    induction L with
    | nil => exact fun acc => ⟨(acc.1.sponsor n).turns, rfl⟩
    | cons z zs' ih =>
      intro acc
      obtain ⟨k, h⟩ := ih (serveStep zs acc z)
      obtain ⟨j, h'⟩ := serveZone_sponsor acc.1 zs z n
      exact ⟨k, by rw [List.foldl_cons, h]; simp only [serveStep, h']⟩
  exact key _ _

/-- The unit as the service of a frame start finds it: the coverage records await, and no sponsor has had a turn counted. -/
theorem beforeService_spec (s : State) (occ : List Rect) :
    let h := (s.rotation.verdicts s.compositor.zones occ).close.1.countHold
    (∀ y, y < 8 → h.zone y = { s.rotation.zone y with coverage := Coverage.awaiting }) ∧
    h.holdInForce = decide (0 < s.rotation.hold) ∧
    ∀ n, n < 32 → (h.sponsor n).art = (s.rotation.sponsor n).art ∧ (h.sponsor n).level = (s.rotation.sponsor n).level ∧
      (h.sponsor n).dwell = (s.rotation.sponsor n).dwell ∧
      (h.sponsor n).turns = if s.rotation.segment.pending = none then (s.rotation.sponsor n).turns else 0 := by
  obtain ⟨a1, a2, -, a4, -⟩ := verdicts_spec s.rotation s.compositor.zones occ
  have rest : ∀ n, ∃ r f o b, (s.rotation.verdicts s.compositor.zones occ).sponsor n =
      { s.rotation.sponsor n with rotationCredit := r, featureCredit := f, occluded := o, broken := b } := by
    intro n
    have key : ∀ (L : List Nat) (u : RotationUnit), (∃ r f o b, u.sponsor n =
        { s.rotation.sponsor n with rotationCredit := r, featureCredit := f, occluded := o, broken := b }) →
        ∃ r f o b, (L.foldl (RotationUnit.judgeZone s.compositor.zones occ) u).sponsor n =
          { s.rotation.sponsor n with rotationCredit := r, featureCredit := f, occluded := o, broken := b } := by
      intro L
      induction L with
      | nil => exact fun u h => h
      | cons z zs ih =>
        intro u ⟨r, f, o, b, h⟩
        refine ih _ ?_
        rw [(judgeZone_spec s.compositor.zones occ u z).2.2]
        split
        · rw [verdict_rest, h]; exact ⟨_, _, _, _, rfl⟩
        · exact ⟨_, _, _, _, h⟩
    exact key _ _ ⟨_, _, _, _, rfl⟩
  generalize s.rotation.verdicts s.compositor.zones occ = v at *
  have hp : v.segment.pending = s.rotation.segment.pending := by rw [a1]
  refine ⟨fun y hy => ?_, ?_, fun n hn => ?_⟩
  · rw [← a4 y hy]
    unfold RotationUnit.close RotationUnit.countHold
    split <;> rfl
  · unfold RotationUnit.close RotationUnit.countHold
    split <;> simp [a2]
  · obtain ⟨r, f, o, b, h⟩ := rest n
    unfold RotationUnit.close RotationUnit.countHold
    split
    · rename_i hq
      rw [hp] at hq
      have : (v.sponsor n).turns = (s.rotation.sponsor n).turns := by rw [h]
      simp only [hq, if_true]
      exact ⟨by rw [← congrArg Sponsor.art h]; rfl, by rw [← congrArg Sponsor.level h]; rfl, by rw [← congrArg Sponsor.dwell h]; rfl, this⟩
    · rename_i k hq
      rw [hp] at hq
      have e : ∀ w : RotationUnit, w.sponsors = tmap Sponsor.zeroed v.sponsors → w.sponsor n = Sponsor.zeroed (v.sponsor n) := fun w hw => by
        simp only [RotationUnit.sponsor, hw]; exact tget_tmap _ _ _ _ _ hn
      rw [e _ rfl, h]
      simp [Sponsor.zeroed, hq]

/-- The service of a frame start is that of the zones in ascending order, the begun-now flags cleared first (R90). -/
theorem service_chain (s : State) : ∃ (before : Nat → State) (dropped : Nat → List Report),
    (∀ z, before z = s.setRotation (before z).rotation) ∧
    (before 0).rotation = { s.rotation with zones := tmap (fun x : ZoneRotation => { x with begunNow := false }) s.rotation.zones } ∧
    (∀ z, z < 8 → ZoneServed (before z) (before (z + 1)) z (dropped z)) ∧
    (s.rotation.service s.compositor.zones).1 = (before 8).rotation ∧
    (s.rotation.service s.compositor.zones).2 = (List.range 8).flatMap dropped := by
  let w : RotationUnit := { s.rotation with zones := tmap (fun x : ZoneRotation => { x with begunNow := false }) s.rotation.zones }
  let unit := fun k => ((List.range k).foldl (serveStep s.compositor.zones) (w, [])).1
  let dropped := fun k => ((unit k).serveZone s.compositor.zones k).2
  have next : ∀ k, unit (k + 1) = ((unit k).serveZone s.compositor.zones k).1 := fun k => by
    simp only [unit, List.range_succ, List.foldl_append, List.foldl_cons, List.foldl_nil, serveStep]
  have fresh : ∀ k z, k ≤ z → z < 8 → ((unit k).zone z).begunNow = false := by
    intro k
    induction k with
    | zero =>
      intro z _ hz
      exact congrArg _ (tget_tmap (fun x : ZoneRotation => { x with begunNow := false }) s.rotation.zones z
        ZoneRotation.powerOn ZoneRotation.powerOn hz)
    | succ k ih =>
      intro z hk hz
      rw [next, serveZone_begunNow _ _ _ _ (by omega) (by omega)]
      exact ih z (by omega) hz
  have reports : ∀ k, ((List.range k).foldl (serveStep s.compositor.zones) (w, [])).2 = (List.range k).flatMap dropped := by
    intro k
    induction k with
    | zero => rfl
    | succ k ih =>
      rw [List.range_succ, List.foldl_append, List.flatMap_append, ← ih]
      simp only [List.foldl_cons, List.foldl_nil, serveStep, List.flatMap_cons, List.flatMap_nil, List.append_nil, dropped, unit]
  refine ⟨fun k => s.setRotation (unit k), dropped, fun _ => rfl, rfl, fun z hz => ?_, rfl, reports 8⟩
  have := zoneServed_serveZone (s.setRotation (unit z)) z hz (fresh z z (Nat.le_refl _) hz)
  rw [State.setRotation_rotation, State.setRotation_compositor, ← next] at this
  exact this

end Sys2Proof.Machine
end

