-- ==== Sys2Proof/Tests/Slice0.lean ====
section
/-! SUPPORT. Tests: ill-formed commands are refused, records written out byte by byte decode to their commands, single steps give
the figures of the manual's own tables, and every hypothesis of the statements is met somewhere. -/

namespace Sys2Proof.Tests.Forms

open Sys2Proof

/-! ### Well-formed commands: every check has a term that it refuses, and the top of every range is accepted -/

/-- The last value an argument can hold and the first it cannot: a word, a long number, a half, a byte, a signed word; and
an empty payload. -/
abbrev w : Nat := 4294967295
abbrev w1 : Nat := 4294967296
abbrev l : Nat := 18446744073709551615
abbrev l1 : Nat := 18446744073709551616
abbrev h : Nat := 65535
abbrev h1 : Nat := 65536
abbrev b : Nat := 255
abbrev b1 : Nat := 256
abbrev s : Int := 2147483647
abbrev s1 : Int := 2147483648
abbrev s0 : Int := -2147483649
abbrev p : List Byte := []

/-- A payload of 4096 bytes fits and one of 4097 does not, for each of the three commands that read one. -/
theorem test_payload_limits :
    (∀ q ∈ [.setRun 0 0 0 0 0 0 0 0 0 0 0 (List.replicate 4096 0), .setSponsor 0 0 0 0 0 true (List.replicate 4096 0),
      .postMessage 0 0 0 0 0 (List.replicate 4096 0)], WellFormed q = true) ∧
    ∀ q ∈ [.setRun 0 0 0 0 0 0 0 0 0 0 0 (List.replicate 4097 0), .setSponsor 0 0 0 0 0 true (List.replicate 4097 0),
      .postMessage 0 0 0 0 0 (List.replicate 4097 0)], WellFormed q = false := by
  simp [WellFormed, isPayload, isWord, isHalf, isByte, -List.reduceReplicate]

theorem test_wellformed_frame_path_tops : [
    .setRole w w w, .setCanvas l h h w, .setOverlayStore l, .setPool l w w, .setZone w h h h h w w, .zoneOff w].all WellFormed = true := by decide

theorem test_illformed_frame_path : [
    .setRole w1 w w, .setRole w w1 w, .setRole w w w1, .setCanvas l1 h h w, .setCanvas l h1 h w, .setCanvas l h h1 w,
    .setCanvas l h h w1, .setOverlayStore l1, .setPool l1 w w, .setPool l w1 w, .setPool l w w1,
    .setZone w1 h h h h w w, .setZone w h1 h h h w w, .setZone w h h1 h h w w, .setZone w h h h1 h w w,
    .setZone w h h h h1 w w, .setZone w h h h h w1 w, .setZone w h h h h w w1, .zoneOff w1].any WellFormed = false := by decide

theorem test_wellformed_windows_tops : [
    .setWindow w h h h h w w true w w, .showWindow w, .hideWindow w, .setFade w w, .setRun w w h h w w w w b b b p,
    .clearRun w w, .setImage w l w h h, .loadFont l w w].all WellFormed = true := by decide

theorem test_illformed_windows : [
    .setWindow w1 h h h h w w true w w, .setWindow w h1 h h h w w true w w, .setWindow w h h1 h h w w true w w,
    .setWindow w h h h1 h w w true w w, .setWindow w h h h h1 w w true w w, .setWindow w h h h h w1 w true w w,
    .setWindow w h h h h w w1 true w w, .setWindow w h h h h w w true w1 w, .setWindow w h h h h w w true w w1,
    .showWindow w1, .hideWindow w1, .setFade w1 w, .setFade w w1, .setRun w1 w h h w w w w b b b p,
    .setRun w w1 h h w w w w b b b p, .setRun w w h1 h w w w w b b b p, .setRun w w h h1 w w w w b b b p,
    .setRun w w h h w1 w w w b b b p, .setRun w w h h w w1 w w b b b p, .setRun w w h h w w w1 w b b b p,
    .setRun w w h h w w w w1 b b b p, .setRun w w h h w w w w b1 b b p, .setRun w w h h w w w w b b1 b p,
    .setRun w w h h w w w w b b b1 p, .clearRun w1 w, .clearRun w w1, .setImage w1 l w h h, .setImage w l1 w h h,
    .setImage w l w1 h h, .setImage w l w h1 h, .setImage w l w h h1, .loadFont l1 w w, .loadFont l w1 w,
    .loadFont l w w1].any WellFormed = false := by decide

theorem test_wellformed_timing_tops : [
    .clockSet w, .clockMode w w w, .setPreset w, .setContact w w, .playMode w w, .playSet w, .penaltyAdd w w w,
    .penaltyCancel w w, .penaltyClear w, .setConcurrency w w, .scoreSet w w, .scoreAdd w s, .setTimeouts w w,
    .timeout w].all WellFormed = true := by decide

theorem test_illformed_timing : [
    .clockSet w1, .clockMode w1 w w, .clockMode w w1 w, .clockMode w w w1, .setPreset w1, .setContact w1 w,
    .setContact w w1, .playMode w1 w, .playMode w w1, .playSet w1, .penaltyAdd w1 w w, .penaltyAdd w w1 w,
    .penaltyAdd w w w1, .penaltyCancel w1 w, .penaltyCancel w w1, .penaltyClear w1, .setConcurrency w1 w,
    .setConcurrency w w1, .scoreSet w1 w, .scoreSet w w1, .scoreAdd w1 s, .scoreAdd w s1, .scoreAdd w s0,
    .setTimeouts w1 w, .setTimeouts w w1, .timeout w1].any WellFormed = false := by decide

theorem test_wellformed_rotation_tops : [
    .setSponsor w w w w w true p, .setLevel w w, .holdRotation w, .setTrigger w w w w w w w, .clearTrigger w,
    .fireFeature w, .setNesting w true, .setSegmentPlan w w].all WellFormed = true := by decide

theorem test_illformed_rotation : [
    .setSponsor w1 w w w w true p, .setSponsor w w1 w w w true p, .setSponsor w w w1 w w true p,
    .setSponsor w w w w1 w true p, .setSponsor w w w w w1 true p, .setLevel w1 w, .setLevel w w1, .holdRotation w1,
    .setTrigger w1 w w w w w w, .setTrigger w w1 w w w w w, .setTrigger w w w1 w w w w, .setTrigger w w w w1 w w w,
    .setTrigger w w w w w1 w w, .setTrigger w w w w w w1 w, .setTrigger w w w w w w w1, .clearTrigger w1,
    .fireFeature w1, .setNesting w1 true, .setSegmentPlan w1 w, .setSegmentPlan w w1].any WellFormed = false := by decide

theorem test_wellformed_capture_and_playout_tops : [
    .setSource w l h h w, .captureStart w, .captureStop w, .markClip w w l l, .dropClip w, .bindZone w w,
    .setCrop w h h, .cue w w w w, .markAndCue w w w true, .play w, .pause w, .step w s, .setSpeed w s w, .stop w].all WellFormed = true := by decide

theorem test_illformed_capture_and_playout : [
    .setSource w1 l h h w, .setSource w l1 h h w, .setSource w l h1 h w, .setSource w l h h1 w,
    .setSource w l h h w1, .captureStart w1, .captureStop w1, .markClip w1 w l l, .markClip w w1 l l,
    .markClip w w l1 l, .markClip w w l l1, .dropClip w1, .bindZone w1 w, .bindZone w w1, .setCrop w1 h h,
    .setCrop w h1 h, .setCrop w h h1, .cue w1 w w w, .cue w w1 w w, .cue w w w1 w, .cue w w w w1,
    .markAndCue w1 w w true, .markAndCue w w1 w true, .markAndCue w w w1 true, .play w1, .pause w1, .step w1 s,
    .step w s1, .step w s0, .setSpeed w1 s w, .setSpeed w s1 w, .setSpeed w s0 w, .setSpeed w s w1, .stop w1].any WellFormed = false := by decide

theorem test_wellformed_messages_tops : [
    .postMessage w w w w w p, .approveMessage w, .rejectMessage w, .withdrawMessage w, .setTicker w w].all WellFormed = true := by decide

theorem test_illformed_messages : [
    .postMessage w1 w w w w p, .postMessage w w1 w w w p, .postMessage w w w1 w w p, .postMessage w w w w1 w p,
    .postMessage w w w w w1 p, .approveMessage w1, .rejectMessage w1, .withdrawMessage w1, .setTicker w1 w,
    .setTicker w w1].any WellFormed = false := by decide
theorem test_wellformed_rows_tops : [
    .penaltyDone 1, .responseReturn 15, .mirrorNotice 3 (Config.dramBytes - 1) 16, .mirrorNotice 0 0 1, .stripPassed 15,
    .turnEnd 7, .featureEnd 7, .addUser 31, .removeUser 31, .markRelease 31, .channelMove 1, .activateComplete 15,
    .prechargeComplete 15, .requestAccept [⟨15, false, 1099511627744, 16, []⟩, ⟨0, true, 0, 1, [List.replicate 32 none]⟩]].all
    WellFormed = true := by decide

theorem test_illformed_rows : [
    .penaltyDone 2, .responseReturn 16, .mirrorNotice 4 0 1, .mirrorNotice 3 Config.dramBytes 1, .mirrorNotice 3 0 0,
    .mirrorNotice 3 0 17, .stripPassed 16, .turnEnd 8, .featureEnd 8, .addUser 32, .removeUser 32, .markRelease 32,
    .channelMove 2, .activateComplete 16, .prechargeComplete 16].any WellFormed = false := by decide

/-- A request of an initiator above 15, past 40 bits, off a beat, of 0 or 17 beats, a write without its beats or with a short
beat, a read with data; and one initiator presenting twice (R1). -/
theorem test_illformed_requests : [
    .requestAccept [⟨16, false, 0, 1, []⟩], .requestAccept [⟨0, false, 1099511627776, 1, []⟩],
    .requestAccept [⟨0, false, 16, 1, []⟩], .requestAccept [⟨0, false, 0, 0, []⟩], .requestAccept [⟨0, false, 0, 17, []⟩],
    .requestAccept [⟨0, true, 0, 1, []⟩], .requestAccept [⟨0, true, 0, 1, [List.replicate 31 none]⟩],
    .requestAccept [⟨0, false, 0, 1, [List.replicate 32 none]⟩],
    .requestAccept [⟨0, false, 0, 1, []⟩, ⟨0, false, 32, 1, []⟩]].any WellFormed = false := by decide

end Sys2Proof.Tests.Forms

namespace Sys2Proof.Tests

open Sys2Proof Sys2Proof.Machine

/-! ### Records written out byte by byte from Table 11-1 and R181

Each list is one record: 16 bytes of name padded with spaces (32), eight argument words of 4 bytes with the lowest byte first, the
payload address (8 bytes), the payload length (4) and the spare field (4). -/

/-- `n` bytes of zero. -/
abbrev zeros (n : Nat) : List Byte := List.replicate n 0

/-- "SET-ZONE": zone 2; x 64 (40h) and y 32 (20h) share a word; width 640 (280h) and height 360 (168h) share a word; rank 5; kind
REPLAY, the second of its list. -/
def recordSetZone : List Byte :=
  [83, 69, 84, 45, 90, 79, 78, 69, 32, 32, 32, 32, 32, 32, 32, 32] ++
    [2, 0, 0, 0] ++ [0x40, 0, 0x20, 0] ++ [0x80, 2, 0x68, 1] ++ [5, 0, 0, 0] ++ [1, 0, 0, 0] ++ zeros 12 ++ zeros 16

theorem test_decode_set_zone : decodeRecord recordSetZone [] = some (.setZone 2 64 32 640 360 5 1) := by decide

/-- "SET-CANVAS": base 4 GiB + 32, low word first; 1920 (780h) by 1080 (438h); pitch 7680 (1E00h). -/
def recordSetCanvas : List Byte :=
  [83, 69, 84, 45, 67, 65, 78, 86, 65, 83, 32, 32, 32, 32, 32, 32] ++
    [0x20, 0, 0, 0] ++ [1, 0, 0, 0] ++ [0x80, 7, 0x38, 4] ++ [0, 0x1E, 0, 0] ++ zeros 16 ++ zeros 16

theorem test_decode_set_canvas : decodeRecord recordSetCanvas [] = some (.setCanvas 4294967328 1920 1080 7680) := by decide

/-- "SET-OVERLAY-STORE" has 17 characters; the name field holds its first 16 (log 17). -/
def recordSetOverlayStore : List Byte :=
  [83, 69, 84, 45, 79, 86, 69, 82, 76, 65, 89, 45, 83, 84, 79, 82] ++ [0, 0, 0x80, 0] ++ [2, 0, 0, 0] ++ zeros 24 ++ zeros 16

theorem test_decode_set_overlay_store :
    decodeRecord recordSetOverlayStore [] = some (.setOverlayStore (2 * 4294967296 + 8388608)) := by decide

/-- "SET-RUN" of window 3, run 1, at (16, 8) in a box of 200, CENTRE, colour FFh 80h 00h, opacity 255; the source word holds kind 6
in byte 0, team 1 in byte 1 and line 2 in byte 2. -/
def recordSetRun : List Byte :=
  [83, 69, 84, 45, 82, 85, 78, 32, 32, 32, 32, 32, 32, 32, 32, 32] ++
    [3, 0, 0, 0] ++ [1, 0, 0, 0] ++ [16, 0, 8, 0] ++ [200, 0, 0, 0] ++ [2, 0, 0, 0] ++ [0xFF, 0x80, 0, 0] ++ [255, 0, 0, 0] ++
    [6, 1, 2, 0] ++ zeros 16

theorem test_decode_set_run :
    decodeRecord recordSetRun [] = some (.setRun 3 1 16 8 200 2 33023 255 6 1 2 []) := by decide

/-- "SCORE-ADD" of team 1 with a delta of -3 (FFFFFFFDh). -/
def recordScoreAdd : List Byte :=
  [83, 67, 79, 82, 69, 45, 65, 68, 68, 32, 32, 32, 32, 32, 32, 32] ++
    [1, 0, 0, 0] ++ [0xFD, 0xFF, 0xFF, 0xFF] ++ zeros 24 ++ zeros 16

theorem test_decode_score_add : decodeRecord recordScoreAdd [] = some (.scoreAdd 1 (-3)) := by decide

/-- "SET-LEVEL" of sponsor 12 to level 6, with rubbish in the spare field, which is ignored. -/
def recordSetLevel : List Byte :=
  [83, 69, 84, 45, 76, 69, 86, 69, 76, 32, 32, 32, 32, 32, 32, 32] ++
    [12, 0, 0, 0] ++ [6, 0, 0, 0] ++ zeros 24 ++ zeros 12 ++ [1, 2, 3, 4]

theorem test_decode_set_level : decodeRecord recordSetLevel [] = some (.setLevel 12 6) := by decide

/-- "MARK-CLIP": clip 7, source 1, frames 2^32 + 5 to 2^32 + 9, each with its low word first. -/
def recordMarkClip : List Byte :=
  [77, 65, 82, 75, 45, 67, 76, 73, 80, 32, 32, 32, 32, 32, 32, 32] ++
    [7, 0, 0, 0] ++ [1, 0, 0, 0] ++ [5, 0, 0, 0] ++ [1, 0, 0, 0] ++ [9, 0, 0, 0] ++ [1, 0, 0, 0] ++ zeros 8 ++ zeros 16

theorem test_decode_mark_clip : decodeRecord recordMarkClip [] = some (.markClip 7 1 4294967301 4294967305) := by decide

/-- "STEP" of channel B by -2. -/
def recordStep : List Byte :=
  [83, 84, 69, 80, 32, 32, 32, 32, 32, 32, 32, 32, 32, 32, 32, 32] ++
    [1, 0, 0, 0] ++ [0xFE, 0xFF, 0xFF, 0xFF] ++ zeros 24 ++ zeros 16

theorem test_decode_step : decodeRecord recordStep [] = some (.step 1 (-2)) := by decide

/-- "POST-MESSAGE" with its text "AB" (codes 65 and 66, 2 bytes each) in a payload of 4 bytes at 1 MiB. -/
def recordPostMessage : List Byte :=
  [80, 79, 83, 84, 45, 77, 69, 83, 83, 65, 71, 69, 32, 32, 32, 32] ++
    [0x2A, 0, 0, 0] ++ [1, 0, 0, 0] ++ [3, 0, 0, 0] ++ [120, 0, 0, 0] ++ [0, 0, 0, 0] ++ zeros 12 ++
    [0, 0, 0x10, 0, 0, 0, 0, 0] ++ [4, 0, 0, 0] ++ zeros 4

theorem test_decode_post_message :
    decodeRecord recordPostMessage [65, 0, 66, 0] = some (.postMessage 42 1 3 120 0 [65, 0, 66, 0]) ∧
      recordPayloadAddr recordPostMessage = 1048576 ∧ recordPayloadLen recordPostMessage = 4 ∧
      codesOf [65, 0, 66, 0] = [65, 66] := by decide

/-- "RESET-UNITS". -/
def recordResetUnits : List Byte := [82, 69, 83, 69, 84, 45, 85, 78, 73, 84, 83, 32, 32, 32, 32, 32] ++ zeros 48

theorem test_decode_reset_units : decodeRecord recordResetUnits [] = some .resetUnits := by decide

/-- A name in small letters, and one with a space before it, match no command. -/
theorem test_decode_bad_names :
    decodeRecord ([115, 116, 101, 112, 32, 32, 32, 32, 32, 32, 32, 32, 32, 32, 32, 32] ++ zeros 48) [] = none ∧
      decodeRecord ([32, 83, 84, 69, 80, 32, 32, 32, 32, 32, 32, 32, 32, 32, 32, 32] ++ zeros 48) [] = none := by decide

/-- No row of the table has bits, so no word spells a command (log 12). -/
theorem test_decode_table_word : decodeTableWord 16 255 = none ∧ (State.reset.withFetchWord 16 255).pending = [] := by decide

/-! ### Small states

`live` is the part ready for work: RESET released with strap initiator 12, DRAM initialised. The others add what a test needs. -/

/-- The state a command leaves. -/
def after (c : Instr) (s : State) : State :=
  match exec c s with
  | .next t => t
  | _ => s

def gib : Nat := 1073741824
def mib : Nat := 1048576

def live : State :=
  { State.reset with
    lines := { State.reset.lines with resetHeld := false }
    classifier := Classifier.powerOn ⟨2, 12⟩
    scheduler := { State.reset.scheduler with init := .done }
    port := { State.reset.port with initDone := true } }

/-- The canvas of section 1.10: 1920 by 1080 at 4 GiB, pitch 8192. -/
def canvased : State := live.setClassifier { live.classifier with canvas := some ⟨4 * gib, 1920, 1080, 8192⟩ }

/-- `live` with the Timing Unit changed and its strings fresh. -/
def timed (f : TimingUnit → TimingUnit) : State := live.setTiming (f live.timing).withStrings

def countdown (v : Nat) : State := timed fun t => { t with clock := { t.clock with value := v } }

/-- `live` with window `n` a configured window of a kind, 64 by 32 at (0, 0), and the overlay store at 16 GiB. -/
def windowed (n : Nat) (kind : WindowKind) : State :=
  live.setRender ({ live.render with overlay := some (16 * gib) }.setWindow n
    { Window.blank with config := some ⟨⟨0, 0, 64, 32⟩, 1, 255, true, ⟨0, 0, 0, 0⟩, kind⟩ })

/-- Zone `z` enabled over the whole canvas, of a kind. -/
def zoned (z : Nat) (kind : ZoneKind) : State :=
  canvased.setCompositor { canvased.compositor with
    zones := tset canvased.compositor.zones z ⟨true, some ⟨⟨0, 0, 1920, 1080⟩, 1, kind⟩, some .a⟩ }

/-- A sponsor with art that fits any zone of these tests. -/
def sponsorOf (level : Nat) : Sponsor :=
  { Sponsor.unset with art := some ⟨20 * gib, 5, 16 * mib, 8192, 1920, 1080⟩, level := level, mask := 255, dwell := 300 }

/-- A source of a 64 by 16 camera, timeline capacity 16. -/
def sourceOf (state : SourceState) (slot : Option Nat) (timeline : List TimelineEntry) : Source :=
  ⟨some ⟨6 * gib, 64, 16, 16⟩, state, slot, 0, timeline, 0⟩

/-- A pool of 4 slots at 8 GiB with the records given. -/
def pooled (free refs : List Nat) (source : Source) (clip : Option Clip) : State :=
  live.setCapture { ((live.capture.setSource 1 source).setClip 9 clip) with
    pool := some ⟨8 * gib, 4, 8192⟩, free := free, refs := refs }

/-- Clip 9 of two entries with `n` users, and channel A on it in a state. -/
def channelled (n : Nat) (state : ChannelState) (endAction : EndAction) : State :=
  let s := pooled [2, 3] [1, 1, 0, 0] Source.unset (some ⟨1, 64, 16, n, false, [⟨7, 0, .whole⟩, ⟨8, 1, .whole⟩]⟩)
  s.setChannel .a ⟨state, some 9, 0, 1, 2, 0, endAction, 0, 0⟩

/-- A message of two codes. -/
def messageOf (id priority : Nat) (state : MessageState) (shows : Nat) (countdown : Option Nat) : Message :=
  ⟨id, [65, 66], priority, shows, 60, 600, state, shows, countdown⟩

/-- The ticker on window 14 in a phase, with a queue. -/
def tickered (phase : TickerPhase) (queue : List Message) : State :=
  (windowed 14 .ticker).setMessages ⟨queue, some 14, phase, none⟩

/-- An operation of the Compositor's or of a render job's at a bank, row and column. -/
def operation (cls : OpClass) (bank row column order passes : Nat) (inBurst : Bool) : Operation :=
  ⟨false, row * 131072 + bank * 8192 + column * 32, 1, [], .compositor 99 0, cls, order, passes, inBurst⟩

/-- `live` with the Memory Scheduler's banks and queue given. -/
def scheduled (banks : List (Nat × Bank)) (queue : List Operation) : State :=
  live.setScheduler { live.scheduler with
    banks := banks.foldl (fun v p => tset v p.1 p.2) live.scheduler.banks, queue := queue, nextOrder := 99 }

/-! ### Figures of the manual's tables -/

/-- Table 2-2. -/
theorem test_blend_table :
    blend 255 0 255 = 255 ∧ blend 255 0 0 = 0 ∧ blend 255 0 128 = 128 ∧ blend 0 255 128 = 127 ∧ blend 255 255 77 = 255 ∧
      blend 0 0 200 = 0 := by decide

/-- Section 2.9: the pixel at column 1300, then a second window over it. -/
theorem test_lay_over :
    layOver ⟨255, 255, 255, 160⟩ ⟨40, 120, 200, 17⟩ 200 = ⟨145, 186, 227, 17⟩ ∧
      layOver ⟨0, 0, 0, 255⟩ ⟨145, 186, 227, 17⟩ 64 = ⟨109, 139, 170, 17⟩ := by decide

/-- Table 3-4: 79h 8Bh paints 194 pixels of coverage 7; a glyph of 194 pixels has them all. -/
theorem test_glyph_nibbles :
    nibbles [0x79, 0x8B] = [7, 9, 8, 11] ∧
      decodeGlyph ⟨65, 2, 98, 0, 2, 0, 2⟩ [0x79, 0x8B] = List.replicate 194 7 ++ [0, 0] := ⟨by decide, by rfl⟩

/-- The example of R50. -/
theorem test_glyph_pixel :
    drawGlyph 0 0 ⟨0, 0, 64, 128⟩ ⟨0, 0, 1, 1, [5], ⟨255, 210, 0, 0⟩, 200, 0, 1⟩ = ⟨143, 118, 28, 199⟩ := by decide

/-- Section 3.10: a strip of 4520 pixels, and 29 codes drawn static at pen 17. -/
theorem test_ticker_layout : tickerLayout 1920 2600 = ⟨4520, true, 1920⟩ ∧ tickerLayout 1920 1885 = ⟨1920, false, 17⟩ := by decide

/-- Table 4-4, and the two values counting UP after it. -/
theorem test_clock_strings :
    let shows := fun (d : Direction) (v : Nat) => clockString ⟨.manual, d, v, 6000000, 60000, .stopped, 1⟩
    shows .down 61250 = [49, 58, 48, 50] ∧ shows .down 60000 = [49, 58, 48, 48] ∧ shows .down 59950 = [49, 58, 48, 48] ∧
      shows .down 59900 = [53, 57, 46, 57] ∧ shows .down 4030 = [52, 46, 49] ∧ shows .down 50 = [48, 46, 49] ∧
      shows .down 0 = [48, 46, 48] ∧ shows .up 59999 = [48, 58, 53, 57] ∧ shows .up 60000 = [49, 58, 48, 48] := by dsimp only; decide

/-- Table 9-1. -/
theorem test_address_mapping :
    [4 * gib + 32000, 8 * gib + 136 * mib, 2 * gib + 256].map (fun a => (bankOf a, rowOf a, columnOf a)) =
      [(3, 32768, 232), (0, 66624, 0), (0, 16384, 8)] := by decide

/-! ### Single steps -/

/-- Section 1.10, event 1: 8 composited beats and 8 of padding, one operation reserved, the pointer at 0. -/
theorem test_request_scanout :
    let t := after (.requestAccept [⟨0, false, 4 * gib + 32000, 16, []⟩])
      (canvased.setClassifier { canvased.classifier with roles := tset canvased.classifier.roles 0 .scanout })
    t.compositor.queue.map (fun q => (q.line, q.column)) =
        [(3, 1856), (3, 1864), (3, 1872), (3, 1880), (3, 1888), (3, 1896), (3, 1904), (3, 1912)] ∧
      t.queued = [(false, 4 * gib + 32256, 8, [], .fabricRead 0 8)] ∧ t.port.pointer = 0 := ⟨rfl, rfl, rfl⟩

/-- Section 1.10, event 3: the value 41 of the command index word goes with the write. -/
theorem test_request_snooped :
    let beat := [some 41, some 0, some 0, some 0] ++ List.replicate 28 none
    (after (.requestAccept [⟨12, true, 2 * gib + 256, 1, [beat]⟩]) live).queued =
      [(true, 2 * gib + 256, 1, [beat], .fabricWrite 0 (some 41) none)] := rfl

/-- A SET-ROLE of the strap initiator is refused, and CONTROL given to 3 leaves the strap initiator CONTROL (R3). -/
theorem test_set_role :
    (after (.setRole 12 0 0) live).reader.lastResult = some (.refused .badArgument) ∧
      (after (.setRole 3 3 0) live).classifier.role 3 = .control ∧
      (after (.setRole 3 3 0) live).classifier.role 12 = .control := by decide

/-- A zone that is given kind REPLAY again keeps its channel; one that was SPONSOR does not (R22). -/
theorem test_set_zone_binding :
    (zoneAt (after (.setZone 4 0 0 64 16 1 1) (zoned 4 .replay)).compositor.zones 4).bound = some .a ∧
      (zoneAt (after (.setZone 4 0 0 64 16 1 1) (zoned 4 .sponsor)).compositor.zones 4).bound = none := by decide

/-- Table 5-3: a short line stands, and the next line breaks the record. -/
theorem test_delivery_event :
    let line := fun (k : Coverage) (l n : Nat) =>
      let s := zoned 2 .sponsor
      let s := s.setCompositor { s.compositor with
        zones := tset s.compositor.zones 2 ⟨true, some ⟨⟨0, 0, 64, 3⟩, 1, .sponsor⟩, none⟩ }
      let s := s.setRotation (s.rotation.setZone 2 { s.rotation.zone 2 with coverage := k })
      ((after .deliveryEvent (s.setTransit { s.transit with deliveries := [⟨2, l, n, 0⟩] })).rotation.zone 2).coverage
    line ⟨false, 0, 0, false⟩ 0 8 = ⟨true, 1, 0, false⟩ ∧ line ⟨true, 1, 0, false⟩ 1 5 = ⟨true, 1, 5, false⟩ ∧
      line ⟨true, 1, 5, false⟩ 2 8 = ⟨true, 1, 5, true⟩ := by dsimp only; decide

/-- R36: a delivery event sent in frame 6 counts before frame start 7 is judged, and one sent in frame 7 waits behind it. -/
theorem test_rotation_frame_start_takes_earlier_deliveries :
    let s := zoned 2 .sponsor
    let due := fun (sent : FrameNo) => after .rotationFrameStart (s.setTransit { s.transit with
      deliveries := [⟨2, 0, 240, sent⟩], due := { s.transit.due with rotation := [7] } })
    (due 6).transit.deliveries = [] ∧ (due 7).transit.deliveries = [⟨2, 0, 240, 7⟩] := by dsimp only; decide

/-- A window's shown visibility waits for the frame start (R42, R56). -/
theorem test_show_window :
    let t := after (.showWindow 5) (windowed 5 .text)
    (t.render.window 5).pendingVisible = true ∧ (t.render.window 5).shownVisible = false ∧
      ((after .renderFrameStart (t.setTransit { t.transit with due := { t.transit.due with render := [7] } })).render.window
        5).shownVisible = true := by dsimp only; decide

/-- SET-RUN keeps the low 3 bytes of the colour, and a TICKER window has run 0 alone (R44). -/
theorem test_set_run :
    (tget ((after (.setRun 5 1 2 3 64 1 33023 300 0 0 0 [65, 0]) (windowed 5 .text)).render.window 5).runs 1 none).map
        (fun r => (r.align, r.opacity, r.source)) = some (.right, 255, .literal [65]) ∧
      (after (.setRun 5 1 2 3 64 1 33023 300 0 0 0 [65, 0]) (windowed 5 .ticker)).reader.lastResult =
        some (.refused .badArgument) := by decide

/-- Section 4.11: the last millisecond raises the event, the report and the one notice. -/
theorem test_tick_expires :
    let s := timed fun t => { t with clock := { t.clock with value := 1, run := .running, period := 2 } }
    let t := after (.msTick .low .low) s
    t.timing.clock.run = .expired ∧ t.timing.string .gameClock = [48, 46, 48] ∧ t.transit.notices = [.gameClock] ∧
      t.transit.events = [.periodEnd 2] ∧ t.transit.reports = [.periodEnd 2 .down 0] := by dsimp only; decide

/-- Table 4-5: the third HIGH sample is accepted, and the clock counts from that tick. -/
theorem test_contact_bounce :
    let s := timed fun t => { t with
      clock := { t.clock with mode := .contact, value := 12345 }, runFilter := ⟨.activeHigh, some .high, 2, some .low⟩ }
    (after (.msTick .high .low) s).timing.clock.run = .running ∧
      (after (.msTick .high .low) s).timing.clock.value = 12344 ∧
      (after (.msTick .low .low) s).timing.runFilter = ⟨.activeHigh, some .low, 1, some .low⟩ := by dsimp only; decide

/-- Table 4-6: a player's second penalty waits for the first; a cancel lets it start. -/
theorem test_penalties :
    let s := timed fun t => { t with team0 := { t.team0 with penalties := [⟨12, 90000, some 1⟩, ⟨12, 300000, none⟩] } }
    (after (.penaltyAdd 0 4 120000) s).timing.team0.penalties.map (·.start) = [some 1, none, some 2] ∧
      (after (.penaltyCancel 0 12) s).timing.team0.penalties.map (fun q => (q.remaining, q.start.isSome)) =
        [(300000, true)] := by dsimp only; decide

/-- R77: at a limit of 1 the entries that started second and third wait again, in their places and with their remaining times. -/
theorem test_set_concurrency_takes_back_the_latest :
    let s := timed fun t => { t with team0 := { t.team0 with
      limit := 3, penalties := [⟨4, 9, some 3⟩, ⟨5, 8, some 1⟩, ⟨6, 7, some 2⟩] } }
    (after (.setConcurrency 0 1) s).timing.team0.penalties = [⟨4, 9, none⟩, ⟨5, 8, some 1⟩, ⟨6, 7, none⟩] ∧
      (after (.setConcurrency 0 1) s).timing.team0.limit = 1 := by dsimp only; decide

/-- R79: from 995 a delta of 9 gives 999 and raises score-up; from 999 a delta of 1 raises nothing. -/
theorem test_score_add :
    let s := fun n => timed fun t => { t with team1 := { t.team1 with score := n } }
    (after (.scoreAdd 1 9) (s 995)).timing.team1.score = 999 ∧
      (after (.scoreAdd 1 9) (s 995)).transit.events = [.scoreUp 1] ∧
      (after (.scoreAdd 1 1) (s 999)).transit.events = [] := by dsimp only; decide

/-- R63: an EXPIRED clock stays EXPIRED at a value with time left, and 0 makes it STOPPED. -/
theorem test_clock_set :
    let s := timed fun t => { t with clock := { t.clock with run := .expired } }
    (after (.clockSet 30000) s).timing.clock.run = .expired ∧ (after (.clockSet 0) s).timing.clock.run = .stopped := by dsimp only; decide

/-- Table 5-5: a feature of a higher level enters above one waiting, and one that waits is not queued twice. -/
theorem test_fire_feature :
    let s := zoned 4 .sponsor
    let s := s.setRotation { (((s.rotation.setSponsor 11 (sponsorOf 4)).setSponsor 17 (sponsorOf 4)).setZone 4
      { s.rotation.zone 4 with queue := [⟨2, 11, 9, 260, 40, 0⟩] }) with
        triggers := tset (tset s.rotation.triggers 2 (some ⟨.scoreUp 0, 11, 4, 9, 300⟩)) 5 (some ⟨.timeout 1, 17, 4, 12, 150⟩)
        nextArrival := 1 }
    ((after (.fireFeature 5) s).rotation.zone 4).queue.map (·.entry) = [5, 2] ∧
      ((after (.fireFeature 2) s).rotation.zone 4).queue.map (·.entry) = [2] := by dsimp only; decide

/-- Table 6-2: a whole frame is appended and the next slot opened; with none free the source is STARVED. -/
theorem test_capture_tick :
    let s := fun free => pooled free [0, 0, 0, 0] { sourceOf .armed (some 0) [] with beats := 128 } none
    let t := fun free => after .captureTick ((s free).setTransit { (s free).transit with
      due := { (s free).transit.due with capture := [101] } })
    (t [1, 2]).capture.source 1 = { sourceOf .capturing (some 1) [⟨100, 0, .whole⟩] with beats := 0 } ∧
      (t []).capture.source 1 = { sourceOf .starved none [⟨100, 0, .whole⟩] with beats := 0 } := by dsimp only; decide

/-- Table 7-3: at countdown 0 a PLAYING channel moves, and its new wait has begun. -/
theorem test_channel_frame_start :
    let s := channelled 1 .playing .hold
    let t := after .playoutFrameStart (s.setTransit { s.transit with due := { s.transit.due with playout := [7] } })
    (t.channel .a).position = 1 ∧ (t.channel .a).countdown = 1 := by dsimp only; decide

/-- Table 7-4: STOP of the last user of a clip that is release-pending drops the clip. -/
theorem test_stop_drops :
    let s := channelled 1 .playing .release
    let s := s.setCapture (s.capture.setClip 9 (some ⟨1, 64, 16, 1, true, [⟨7, 0, .whole⟩, ⟨8, 1, .whole⟩]⟩))
    (after (.stop 0) s).capture.clip 9 = none ∧ (after (.stop 0) s).capture.free = [2, 3, 0, 1] ∧
      (after (.stop 0) s).transit.reports = [.clipDropped true 9 1 2] := by dsimp only; decide

/-- Table 8-4: a priority-3 message takes the ticker from a crawling one, which keeps its shows. -/
theorem test_safety_message :
    let t := after (.postMessage 900 3 1 300 0 [65, 0]) (tickered (.showing 517 .crawl 3000) [messageOf 517 2 .showing 2 none])
    t.messages.phase = .preparing 900 ∧ t.messages.queue.map (fun m => (m.id, m.state, m.showsLeft)) =
      [(517, .approved, 2), (900, .approved, 1)] ∧ (t.render.window 14).content.map (·.id) = some 900 := by dsimp only; decide

/-- Table 9-3: at debt 7 bank 5 closes and bank 3 waits for its burst; after the refresh the claimed banks activate. -/
theorem test_forced_refresh :
    let s := scheduled [(3, .active 32768), (5, .active 40000)]
      [operation .scanout 3 32768 0 1 0 true, operation .general 5 40000 0 2 5 false, operation .scanout 3 32768 9 3 0 false]
    let s := s.setScheduler { s.scheduler with debt := 6 }
    let t := after .refreshInterval s
    t.scheduler.debt = 7 ∧ t.scheduler.phase = .closing ∧ tget t.scheduler.banks 3 .idle = .active 32768 ∧
      tget t.scheduler.banks 5 .idle = .precharging := by dsimp only; decide

/-- Table 9-3, last line: the burst of S2 passes G1, which has a pass count of 6. -/
theorem test_burst_passes :
    let s := scheduled [(3, .activating 32768), (5, .activating 40000)]
      [operation .general 5 40000 0 2 5 false, operation .scanout 3 32768 9 3 0 false]
    (after (.activateComplete 3) s).scheduler.queue.map (fun q => (q.order, q.inBurst, q.passes)) =
      [(2, false, 6), (3, true, 0)] := by dsimp only; decide

/-- Table 10-3: the consumer word 5002 is ignored; 4500 lets a held report out with the lost count 1, and the waiting command is
taken at the same arrival. -/
theorem test_report_consumer :
    let s := (live.setWriter { live.writer with
      producer := 5001, consumer := 3977, holding := [⟨.playExpiry 7, 7⟩], lost := 1 }).setReader { live.reader with taken := 1 }
    let t := fun (x : Count) => after .reportConsumerWrite (s.setTransit { s.transit with consumers := [x] })
    (t 5002).writer = s.writer ∧ (t 4500).writer.producer = 5002 ∧ (t 4500).writer.holding = [] ∧ (t 4500).writer.lost = 0 ∧
      (t 4500).writer.reserved = true ∧ (t 4500).reader.begun = true ∧
      (t 4500).scheduler.queue.map (fun q => q.data.flatten.take 8) =
        [[some 0x89, some 0x13, some 0, some 0, some 7, some 0, some 1, some 0], []] := by dsimp only; decide

/-- Table 10-3: with one free place reserved by nobody a command waits, and takes the place once there are two. -/
theorem test_command_take :
    let s := fun (c : Count) => (live.setWriter { live.writer with producer := 5001, consumer := c }).setReader
      { live.reader with taken := 1 }
    (after .commandTake (s 3977)).reader.begun = false ∧ (after .commandTake (s 4500)).reader.begun = true ∧
      (after .commandTake (s 4500)).writer.reserved = true := by dsimp only; decide

/-! ### Witnesses: the hypotheses of each statement are met, clause by clause -/

theorem witness_MemoryStaysCanonical :
    let s : State := { live with mem := [(0, 1), (1, 2), (34359738367, 3)], pending := [.burstComplete] }
    MemoryInv s ∧ ∃ t, step s = .next t := ⟨rfl, _, rfl⟩

theorem witness_OnlyBurstsWriteMemory :
    (∃ t, exec .frameStart { live with mem := [(0, 1)] } = .next t) ∧ Instr.frameStart ≠ .burstComplete ∧
      Instr.frameStart ≠ .powerOnReset := ⟨⟨_, rfl⟩, by decide, by decide⟩

/-- Initiator 12 is CONTROL and every other has no role. -/
theorem live_role (i : Nat) : live.classifier.role i = if i = 12 then .control else .none := by
  show tget (tset (Vector.replicate 16 Role.none) 12 .control) i .none = _
  rw [tget_tset, tget_replicate_self]
  simp

theorem witness_RolesStayLegal :
    let s : State := { live with pending := [.setRole 3 1 0] }
    RolesInv s.classifier ∧ ∃ t, step s = .next t := by
  refine ⟨⟨?_, ?_, ?_, ?_, ?_⟩, _, rfl⟩
  · exact live_role 12
  · intro i j _ _ h _; rw [show _ = _ from live_role i] at h; split at h <;> cases h
  · intro n i j _ _ h _; rw [show _ = _ from live_role i] at h; split at h <;> cases h
  · intro i j _ _ hi _ h _
    rw [show _ = _ from live_role i] at h
    split at h
    · rename_i h12; exact absurd h12 hi
    · cases h
  · intro i n h; rw [show _ = _ from live_role i] at h; split at h <;> cases h

theorem witness_RequestTableKeepsItsLimits :
    let s : State := { live with pending := [.requestAccept [⟨9, false, 0, 16, []⟩]] }
    TableInv s.port ∧ ∃ t, step s = .next t := by
  refine ⟨⟨by decide, fun i => ?_, fun i r h => ?_, fun i h => ?_, by decide, by decide⟩, _, rfl⟩
  · exact Nat.zero_le _
  · have h' : (none : Option Request) = some r := (tget_replicate_self 16 none i).symm.trans h
    cases h'
  · cases h

/-- A read in its burst, behind an earlier read of the same beat, with a later operation of its bank WAITING. -/
theorem witness_OperationQueueKeepsItsLimits :
    let s : State := { scheduled [(3, .active 4)] [operation .scanout 3 4 0 1 0 false, operation .scanout 3 4 0 2 0 true,
      operation .general 3 5 0 3 31 false] with pending := [.burstComplete] }
    QueueInv s.scheduler ∧ ∃ t, step s = .next t := by
  refine ⟨⟨by decide, by decide, by decide, by decide, ?_, by decide⟩, _, rfl⟩
  rintro op hm - ⟨e, he, -, hw, -⟩
  have read : ∀ q ∈ [operation .scanout 3 4 0 1 0 false, operation .scanout 3 4 0 2 0 true, operation .general 3 5 0 3 31 false],
      q.write = false := by decide
  rcases hw with hw | hw
  · rw [read e he] at hw; cases hw
  · rw [read op hm] at hw; cases hw

theorem witness_ReportRingKeepsItsLimits :
    let s : State := { (live.setWriter { live.writer with producer := 5000, consumer := 3977, reserved := true, lost := 65535 }).setReader
      { live.reader with begun := true, stage := .ended (.done 0 0) } with pending := [.commandEnd] }
    RingInv s ∧ ∃ t, step s = .next t := ⟨⟨by decide, by decide, by decide, fun _ => ⟨rfl, rfl⟩⟩, _, rfl⟩

theorem witness_MessageQueueStaysConsistent :
    let s : State := { tickered (.showing 517 .crawl 3000) [messageOf 301 1 .held 1 none, messageOf 517 2 .showing 2 none] with
      pending := [.withdrawMessage 517] }
    MessagesInv s.messages ∧ ∃ t, step s = .next t := by
  refine ⟨⟨by decide, by decide, ?_, by intro h; cases h⟩, _, rfl⟩
  intro m hm hs
  rcases List.mem_cons.1 hm with rfl | hm
  · cases hs
  · rcases List.mem_cons.1 hm with rfl | hm
    · exact ⟨.crawl, 3000, rfl⟩
    · cases hm

/-- Only zone 2 shows a sponsor. -/
theorem witness_SponsorsShowInOneZone :
    let s : State := { live.setRotation (live.rotation.setZone 2 { live.rotation.zone 2 with showing := .turn 5 100 0 }) with
      pending := [.fireFeature 0] }
    ShowsOnce s.rotation ∧ ∃ t, step s = .next t := by
  refine ⟨fun y z n hy hz h k => ?_, _, rfl⟩
  have key : ∀ x, ((live.rotation.setZone 2 { live.rotation.zone 2 with showing := .turn 5 100 0 }).zone x).showing.sponsor =
      some n → x = 2 := by
    intro x hx
    by_cases h2 : x = 2
    · exact h2
    · rw [RotationUnit.zone, RotationUnit.setZone, tget_tset_other _ _ _ _ _ h2] at hx
      rw [show tget live.rotation.zones x ZoneRotation.powerOn = _ from tget_replicate_self 8 ZoneRotation.powerOn x] at hx
      cases hx
  rw [key y h, key z k]

/-- A pool of two free slots. -/
def slotted : CaptureUnit := { live.capture with pool := some ⟨0, 2, 8192⟩, free := [1, 0], refs := [0, 0] }

theorem slotted_source (i : Nat) : slotted.source i = Source.unset := tget_replicate_self 4 Source.unset i

theorem slotted_inv : CaptureInv slotted := by
  refine ⟨⟨fun slot => ?_, fun slot h => ?_, fun slot h => ?_⟩, rfl, fun i => ?_, fun i h => ?_, fun i h => ?_, fun i c h => ?_⟩
  · match slot with
    | 0 | 1 | _ + 2 => rfl
  · have h2 : 2 ≤ slot := h
    refine ⟨?_, rfl, rfl⟩
    rw [List.count_eq_zero]
    intro hm
    rcases List.mem_cons.1 hm with rfl | hm
    · omega
    · rcases List.mem_cons.1 hm with rfl | hm
      · omega
      · cases hm
  · have h2 : slot < 2 := h
    match slot with
    | 0 | 1 => rfl
  · rw [slotted_source]; decide
  · rw [slotted_source] at h; exact absurd rfl h
  · rw [slotted_source] at h; rcases h with h | h <;> cases h
  · rw [slotted_source] at h; cases h

theorem witness_SlotLawHolds :
    let s : State := { live.setCapture slotted with pending := [.captureStart 0] }
    CaptureInv s.capture ∧ ∃ t, step s = .next t := ⟨slotted_inv, _, rfl⟩

theorem witness_RefusedCommandsChangeNothing :
    let s := live.setReader { live.reader with lastResult := some (.done 3 1) }
    (spell (.setRole 12 0 0)).isSome = true ∧ s.reader.lastResult ≠ some (.refused .badArgument) ∧
      ∃ t, exec (.setRole 12 0 0) s = .next t ∧ t.reader.lastResult = some (.refused .badArgument) :=
  ⟨by decide, by decide, _, rfl, rfl⟩

theorem witness_RecordsDecodeToTheirCommands :
    WellFormed (.setOverlayStore 18446744073709551615) = true ∧ (spell (.setOverlayStore 18446744073709551615)).isSome = true ∧
      WellFormed (.scoreAdd 4294967295 (-2147483648)) = true ∧ (spell (.scoreAdd 4294967295 (-2147483648))).isSome = true ∧
      (18446744073709551615 : Nat) < 18446744073709551616 := by decide

/-! #### The Timing Unit -/

theorem witness_StringsFollowTheUnit :
    isTimingStep .nextPeriod = true ∧ (∃ t, exec .nextPeriod live = .next t) ∧ isTimingStep (.msTick .low .high) = true ∧
      (∃ t, exec (.msTick .low .high) live = .next t) ∧
      ((countdown 59900).timing.clock.direction = .down ∧ (59900 + 99) / 100 < 60000 / 100 ∧
        (countdown 59900).timing.clock.threshold = 60000) ∧
      ((countdown 59901).timing.clock.value ≠ 0 ∧ 60000 / 100 ≤ (59901 + 99) / 100) ∧ (countdown 0).timing.clock.value = 0 ∧
      (timed fun t => { t with clock := { t.clock with direction := .up } }).timing.clock.direction = .up :=
  ⟨by decide, ⟨_, rfl⟩, by decide, ⟨_, rfl⟩, by decide, by decide, by decide, by decide⟩

/-- A clock in a mode, direction, run state and at a value, with preset 1000. -/
def clocked (m : ClockMode) (d : Direction) (r : RunState) (v : Nat) : State :=
  timed fun t => { t with clock := ⟨m, d, v, 1000, 60000, r, 9⟩ }

theorem witness_ClockCommands :
    (clocked .contact .down .running 1).timing.clock.mode = .contact ∧
      ((clocked .manual .down .stopped 0).timing.clock.mode = .manual ∧
        (clocked .manual .down .stopped 0).timing.clock.run ≠ .running ∧
        (clocked .manual .down .stopped 0).timing.clock.remaining = 0) ∧
      ((clocked .manual .up .expired 1000).timing.clock.run = .expired ∧
        (clocked .manual .up .expired 1000).timing.clock.mode = .manual) ∧
      ((clocked .manual .up .stopped 999).timing.clock.run = .stopped ∧ 0 < (clocked .manual .up .stopped 999).timing.clock.remaining ∧
        (clocked .manual .up .stopped 999).timing.clock.mode = .manual) ∧
      (clocked .manual .down .running 1).timing.clock.run = .running := by decide

theorem witness_ClockSettings :
    (clocked .manual .down .expired 0).timing.clock.direction = .down ∧ (clocked .manual .up .running 5).timing.clock.direction = .up ∧
      clockModeOf 1 = some .contact ∧ directionOf 1 = some .up ∧ directionOf 0 = some .down ∧
      Direction.up ≠ (clocked .manual .down .expired 0).timing.clock.direction ∧
      (clocked .manual .down .expired 0).timing.clock.run ≠ .running ∧
      (Direction.down ≠ (clocked .manual .up .running 5).timing.clock.direction ∧
        (clocked .manual .up .running 5).timing.clock.run = .running) ∧
      Direction.down = (clocked .manual .down .running 5).timing.clock.direction ∧ (1 < 2 ∨ 1 < 0) := by decide

/-- Both filters have a candidate HIGH counted twice; the play filter has accepted LOW, and the run filter LOW or what is given. -/
def bounced (m : ClockMode) (r : RunState) (p : Polarity := .activeHigh) (accepted : Option Level := some .low) : State :=
  timed fun t => { t with
    clock := ⟨m, .down, 1, 1000, 60000, r, 9⟩, runFilter := ⟨p, some .high, 2, accepted⟩
    playFilter := ⟨.activeLow, some .high, 2, some .low⟩ }

theorem witness_Contacts :
    polarityOf 1 = some .activeLow ∧ polarityOf 0 = some .activeHigh ∧
      (let f := (bounced .contact .stopped).timing.runFilter;
        f.candidate = some .high ∧ 2 ≤ f.count ∧ f.accepted ≠ some .high) ∧
      (bounced .manual .stopped).timing.clock.mode = .manual ∧ (bounced .contact .stopped).timing.clock.mode = .contact ∧
      (bounced .contact .stopped).timing.clock.run = .stopped ∧ 0 < (bounced .contact .stopped).timing.clock.remaining ∧
      (after (.contactAccept .run .high) (bounced .contact .stopped)).timing.runFilter.active = true ∧
      (bounced .contact .running).timing.clock.run = .running ∧
      (after (.contactAccept .run .high) (bounced .contact .running .activeLow)).timing.runFilter.active = false ∧
      (let f := (bounced .manual .running).timing.playFilter;
        f.candidate = some .high ∧ 2 ≤ f.count ∧ f.accepted ≠ some .high) ∧
      (after (.contactAccept .play .high) (bounced .manual .running)).timing.playFilter.active = false ∧ (1 < 2 ∨ 1 < 0) ∧
      ((bounced .contact .stopped .activeLow).timing.runFilter.active = true ∧ (bounced .contact .running).timing.runFilter.active = false ∧
        (bounced .contact .running).timing.runFilter.accepted ≠ none ∧
        (bounced .contact .running .activeHigh none).timing.runFilter.accepted = none) := by
  dsimp only; decide

def playing (m : PlayMode) (v : Nat) (running : Bool) : State := timed fun t => { t with play := ⟨v, 24000, m, running⟩ }

theorem witness_PlayClockCommands :
    playModeOf 0 = some .linked ∧ playModeOf 1 = some .free ∧ 1 < 2 ∧ (playing .linked 5 false).timing.play.mode = .linked ∧
      (playing .free 0 false).timing.play.value = 0 ∧ (playing .free 1 true).timing.play.mode = .free ∧
      0 < (playing .free 1 true).timing.play.value := by decide

def penalised (ps : List Penalty) (limit : Nat) : State := timed fun t => { t with team1 := ⟨ps, limit, 0, 0⟩ }

/-- Each clause: a list with room, a full list of 8, a list that is full in R74's sense with a place to run and without one, and limits
above, at and below the number that run. -/
theorem witness_PenaltyCommands :
    let s := penalised [⟨99, 1, some 1⟩, ⟨99, 600000, none⟩] 3
    let full := penalised (List.replicate 8 ⟨5, 1000, none⟩) 2
    let ps := (s.timing.team 1).penalties
    let three := penalised [⟨4, 9, some 3⟩, ⟨5, 9, some 1⟩, ⟨6, 9, some 2⟩] 3
    (1 < 2 ∨ 99 < 100) ∧ 1 ≤ 1 ∧ 99 ≤ 99 ∧ 8 ≤ (full.timing.team 1).penalties.length ∧ ps.length < 8 ∧
      (∀ q ∈ ps, q.start = none → runningCount ps < 3 → playerRunning ps q.player = true) ∧
      (runningCount ps < 3 ∧ playerRunning ps 0 = false) ∧ ¬ (runningCount ps < 3 ∧ playerRunning ps 99 = false) ∧
      (∀ q ∈ ps, q.player ≠ 0) ∧ (∃ q ∈ ps, q.player = 99) ∧ runningCount ps < clamp 1 3 2 ∧ runningCount ps = clamp 1 3 0 ∧
      clamp 1 3 0 < runningCount (three.timing.team 1).penalties := by
  dsimp only; decide

/-- Two eligible entries wait for one place: the older starts, and the younger waits (R74). -/
theorem test_fill_starts_the_oldest :
    let s := penalised [⟨7, 9000, some 1⟩, ⟨8, 9000, none⟩, ⟨9, 9000, none⟩] 1
    (after (.penaltyCancel 1 7) s).timing.team1.penalties = [⟨8, 9000, some 1⟩, ⟨9, 9000, none⟩] ∧
      (after (.setConcurrency 1 3) s).timing.team1.penalties = [⟨7, 9000, some 1⟩, ⟨8, 9000, some 2⟩, ⟨9, 9000, some 3⟩] := by
  dsimp only; decide

theorem witness_ScoreCommands :
    let s := timed fun t => { t with team1 := ⟨[], 2, 999, 9⟩ }
    1 ≤ 1 ∧ 0 < (s.timing.team 1).timeouts ∧ (s.timing.team 0).timeouts = 0 ∧ 1 < 2 := by dsimp only; decide

/-- Every hypothesis of the tick, for a clock counting DOWN with a LINKED play clock, one that counts UP and is stopped by the run
contact, one in CONTACT mode that the contact starts, and a FREE play clock that runs while the game clock does not. -/
theorem witness_MillisecondTick :
    let filtered := fun t : TimingUnit => { t with runFilter := ⟨.activeHigh, some .high, 2, none⟩ }
    let down := timed fun t => { t with
      clock := ⟨.manual, .down, 2, 1000, 60000, .running, 9⟩, play := ⟨0, 24000, .linked, false⟩
      team0 := ⟨[⟨8, 2, some 1⟩, ⟨8, 1, none⟩], 2, 0, 0⟩ }
    let up := timed fun t => { filtered t with clock := ⟨.contact, .up, 998, 1000, 60000, .stopped, 9⟩ }
    let stops := timed fun t => { t with
      clock := ⟨.contact, .up, 999, 1000, 60000, .running, 9⟩, runFilter := ⟨.activeLow, some .high, 2, none⟩ }
    let free := timed fun t => { t with play := ⟨2, 24000, .free, true⟩ }
    (∀ s ∈ [down, up, stops, free], s.lines.resetHeld = false ∧ (s.timing.playFilter.sample .high).2 = false) ∧
      (down.timing.clock.mode = .manual ∧ down.timing.clock.run = .running ∧ down.timing.clock.direction = .down ∧
        2 ≤ down.timing.clock.value ∧ down.timing.play.mode = .linked ∧ down.timing.play.value ≠ 1 ∧
        ∀ q ∈ down.timing.team0.penalties ++ down.timing.team1.penalties, q.start.isSome = true → 2 ≤ q.remaining) ∧
      (up.timing.clock.mode = .contact ∧ (up.timing.runFilter.sample .high).1.active = true ∧ up.timing.clock.run = .stopped ∧
        up.timing.clock.direction = .up ∧ 0 < up.timing.clock.preset - up.timing.clock.value ∧
        up.timing.clock.value + 1 < up.timing.clock.preset ∧ up.timing.play.mode = .free ∧ up.timing.play.running = false) ∧
      (stops.timing.clock.mode = .contact ∧ (stops.timing.runFilter.sample .high).1.accepted.isSome = true ∧
        (stops.timing.runFilter.sample .high).1.active = false ∧ stops.timing.clock.run = .running) ∧
      (free.timing.clock.run ≠ .running ∧ free.timing.play.mode = .free ∧ free.timing.play.running = true ∧
        free.timing.play.value ≠ 1) := by dsimp only; decide

/-- A tick on which the game clock, a LINKED play clock at `play` and three penalties end, with the play contact's filter as given. -/
def lastTick (play : Nat) (filter : ContactFilter) : State := timed fun t => { t with
  clock := ⟨.manual, .down, 1, 1000, 60000, .running, 9⟩, play := ⟨play, 24000, .linked, false⟩, playFilter := filter
  team0 := ⟨[⟨8, 1, some 1⟩, ⟨9, 1, some 2⟩, ⟨8, 500, none⟩], 2, 0, 0⟩, team1 := ⟨[⟨4, 2, some 2⟩, ⟨5, 1, some 1⟩], 2, 0, 0⟩ }

/-- The clauses on a held RESET and on a tick on which anything ends: each sample of a filter, both ways a clock in CONTACT mode follows
its contact, a reload in either mode, the ends of both clocks and of several penalties, and a clock counting UP that ends. -/
theorem witness_MillisecondTick_ends :
    State.reset.lines.resetHeld = true ∧
    (∀ f ∈ [(⟨.activeHigh, none, 0, none⟩ : ContactFilter), ⟨.activeHigh, some .high, 0, none⟩, ⟨.activeHigh, some .high, 1, none⟩,
      ⟨.activeHigh, some .high, 2, some .low⟩, ⟨.activeHigh, some .low, 3, some .low⟩], (lastTick 1 f).lines.resetHeld = false) ∧
    (let f := (lastTick 1 ⟨.activeHigh, some .high, 2, some .low⟩).timing.playFilter;
      f.candidate = some .high ∧ 2 ≤ f.count ∧ f.accepted ≠ some .high ∧
        Level.high = (if f.polarity = .activeHigh then Level.high else Level.low)) ∧
    (let f := (lastTick 1 ⟨.activeHigh, some .low, 3, some .low⟩).timing.playFilter;
      f.candidate ≠ some .high ∧ ¬ (f.candidate = some .high ∧ 2 ≤ f.count ∧ f.accepted ≠ some .high)) ∧
    (let s := lastTick 1 ⟨.activeHigh, some .low, 3, some .low⟩;
      let less := fun ps : List Penalty => ps.map fun q => if q.start.isSome then { q with remaining := q.remaining - 1 } else q;
      s.timing.clock.run = .running ∧ s.timing.clock.value - 1 = 0 ∧ s.timing.play.value = 1 ∧ s.timing.play.mode = .linked ∧
        ((less s.timing.team0.penalties).filter fun q => q.start.isSome && q.remaining == 0).length = 2 ∧
        ((less s.timing.team1.penalties).filter fun q => q.start.isSome && q.remaining == 0).length = 1) ∧
    (let s := timed fun t => { t with
        clock := ⟨.contact, .up, 999, 1000, 60000, .stopped, 9⟩, runFilter := ⟨.activeHigh, some .high, 2, none⟩ };
      let t := after (.msTick .high .low) s;
      s.timing.clock.mode = .contact ∧ t.timing.runFilter.accepted = some .high ∧ s.timing.clock.run = .stopped ∧
        0 < s.timing.clock.preset - s.timing.clock.value ∧ s.timing.clock.value + 1 = s.timing.clock.preset ∧
        t.timing.clock.run = .expired) ∧
    (let s := timed fun t => { t with
        clock := ⟨.contact, .down, 1, 1000, 60000, .running, 9⟩, runFilter := ⟨.activeHigh, some .low, 2, none⟩ };
      let t := after (.msTick .low .low) s;
      s.timing.clock.mode = .contact ∧ t.timing.runFilter.accepted ≠ none ∧ t.timing.runFilter.accepted ≠ some .high ∧
        s.timing.clock.run = .running ∧ t.timing.clock.run = .stopped) := by
  refine ⟨by decide, by decide, by decide, by decide, by decide, ?_, ?_⟩ <;> dsimp only <;> decide

/-- The order of R61, R69 and R78 on one tick: the period end, the play expiry, and the penalties of team 0 and then of team 1; the list
that lost its two is filled. -/
theorem test_tick_on_which_all_end :
    let t := after (.msTick .low .low) (lastTick 1 ⟨.activeHigh, some .low, 3, some .low⟩)
    t.transit.events = [.periodEnd 9, .playExpiry] ∧
      t.transit.reports =
        [.periodEnd 9 .down 0, .playExpiry 0, .penaltyDone 0 8 0, .penaltyDone 0 9 0, .penaltyDone 1 5 0] ∧
      t.timing.team0.penalties.map (fun q => (q.player, q.remaining, q.start.isSome)) = [(8, 500, true)] ∧
      t.timing.team1.penalties.map (·.remaining) = [1] := by dsimp only; decide

/-- R68: a play contact accepted at the last millisecond reloads the play clock before it counts, and it does not expire. -/
theorem test_tick_reloads_before_it_counts :
    let t := after (.msTick .low .high) (lastTick 1 ⟨.activeHigh, some .high, 2, some .low⟩)
    t.timing.play.value = 23999 ∧ t.transit.events = [.periodEnd 9] := by dsimp only; decide

def lastLinked : State :=
  timed fun t => { t with clock := { t.clock with run := .running }, play := ⟨1, 24000, .linked, false⟩ }

theorem witness_LastMilliseconds :
    (clocked .contact .down .running 1).timing.clock.run = .running ∧
      (clocked .contact .down .running 1).timing.clock.direction = .down ∧
      (clocked .contact .down .running 1).timing.clock.value = 1 ∧
      ((clocked .manual .up .running 999).timing.clock.run = .running ∧
        (clocked .manual .up .running 999).timing.clock.direction = .up ∧
        (clocked .manual .up .running 999).timing.clock.value + 1 = (clocked .manual .up .running 999).timing.clock.preset) ∧
      ((playing .free 1 true).timing.play.value = 1 ∧ (playing .free 1 true).timing.play.mode = .free ∧
        (playing .free 1 true).timing.play.running = true) ∧
      (lastLinked.timing.play.value = 1 ∧ lastLinked.timing.play.mode = .linked ∧ lastLinked.timing.clock.run = .running) ∧
      (let s := penalised [⟨7, 1, some 1⟩, ⟨8, 2, some 2⟩] 2;
        s.timing.clock.run ≠ .running ∧ (s.timing.team 1).penalties = ⟨7, 1, some 1⟩ :: [⟨8, 2, some 2⟩] ∧
        (s.setTiming { s.timing with clock := { s.timing.clock with run := .running } }).timing.clock.run = .running) ∧
      (∀ ps ∈ [[(⟨7, 1, some 1⟩ : Penalty), ⟨8, 0, some 2⟩, ⟨7, 1, none⟩], [⟨7, 2, some 1⟩]],
        let s := timed fun t => { t with clock := { t.clock with run := .running }, team1 := ⟨ps, 2, 0, 0⟩ };
        s.timing.clock.run = .running ∧ ((s.timing.team 1).penalties.filter fun q => q.start.isSome && q.remaining ≤ 1).length =
          if ps.length = 3 then 2 else 0) ∧
      ∀ p ∈ [(⟨8, 2, some 2⟩ : Penalty)], p.start.isSome = true → 2 ≤ p.remaining := by decide

/-- R78, R74: two penalties of a team end together, and the list is then filled with the one that waited for its player. -/
theorem test_penalty_done_fills :
    let t := after (.penaltyDone 1) (timed fun t => { t with
      clock := { t.clock with run := .running }, team1 := ⟨[⟨7, 1, some 1⟩, ⟨8, 1, some 2⟩, ⟨7, 400, none⟩], 2, 0, 0⟩ })
    t.timing.team1.penalties.map (fun q => (q.player, q.remaining, q.start.isSome)) = [(7, 400, true)] ∧
      t.transit.reports = [.penaltyDone 1 7 0, .penaltyDone 1 8 0] := by dsimp only; decide

/-! #### The frame path -/

theorem witness_RoleAndCanvasCommands :
    (15 < 16) ∧ (15 ≤ 15 ∧ 15 ≠ live.classifier.strapInitiator ∧ roleOf 2 3 = some (.ingest 3)) ∧
      ((64 : Nat) % 8 = 0 ∧ 63 < 64) ∧ (∃ z, z < 8 ∧ (zoneAt (zoned 7 .replay).compositor.zones z).enabled = true) ∧
      (∀ z, z < 8 → (zoneAt canvased.compositor.zones z).enabled = false) :=
  ⟨by decide, by decide, by decide, ⟨7, by decide, rfl⟩, by decide⟩

/-- A canvas that ends at the last byte of frame DRAM is not one that SET-CANVAS refuses. -/
theorem witness_canvas_at_the_top :
    let base := 34359738368 - 16 * 65536
    ¬ (base % 32 ≠ 0 ∨ 4096 < 4096 ∨ 4096 % 8 ≠ 0 ∨ 16 < 16 ∨ 65536 % 32 ≠ 0 ∨ 65536 < 4 * 4096 ∨ 65536 < 65536 ∨
      34359738368 < base + 16 * 65536 ∨
      ∃ a, base ≤ a ∧ a < base + 16 * 65536 ∧ live.apertureBase ≤ a ∧ a < live.apertureBase + 1048576) := by
  have h : live.apertureBase = 2147483648 := by decide
  rw [h]
  intro base
  have hb : base = 34358689792 := rfl
  rw [hb]
  rintro (h | h | h | h | h | h | h | h | ⟨a, h1, h2, h3, h4⟩) <;> omega

theorem witness_FrameStartsAndResets : live.lines.resetHeld = false ∧ State.reset.lines.resetHeld = true := by decide

/-- A state with nothing presented admits a well-formed request. -/
theorem admits (s : State) (r : Request) (h : s.port = live.port) (hw : s.scheduler.waiters = []) (hr : r.wellFormed = true) :
    Admits s r where
  ready := by rw [h]; rfl
  room := by rw [h]; decide
  share := by rw [h]; exact (by decide : 0 < 16)
  unoffered := by rw [h]; rfl
  quiet := by rw [h]; exact fun i => tget_replicate_self 16 none i
  formed := hr
  nobody := hw

/-- `live` owns its status block and its report ring alone. -/
theorem live_owns (s : State) (h : s.classifier = live.classifier) (ho : s.render.overlay = none) (hp : s.capture.pool = none)
    (a : Nat) (ha : a < 2147483648 ∨ 2147549184 ≤ a) : ¬ s.owns a := by
  have hb : s.apertureBase = 2147483648 := by
    show s.classifier.straps.aperture.toNat * Config.gib = _
    rw [h]; decide
  rintro (⟨h1, h2⟩ | ⟨h1, h2⟩ | ⟨o, h1, -⟩ | ⟨p, h1, -⟩)
  · omega
  · omega
  · rw [ho] at h1; cases h1
  · rw [hp] at h1; cases h1

theorem witness_RequestsRefusedOrPlain :
    (let r : Request := ⟨9, false, 34359738336, 2, []⟩; Admits live r ∧ 34359738368 < r.addr + 32 * r.beats) ∧
    (let r : Request := ⟨9, true, 2147483616, 2, List.replicate 2 (List.replicate 32 none)⟩;
      Admits live r ∧ r.addr + 32 * r.beats ≤ 34359738368 ∧ r.write = true ∧ ∃ a, touches r a ∧ live.owns a) ∧
    (let r : Request := ⟨9, true, 34359737856, 16, List.replicate 16 (List.replicate 32 none)⟩;
      Admits live r ∧ live.classifier.role r.initiator = .none ∧ live.scheduler.queue.length < 128 ∧
        r.addr + 32 * r.beats ≤ 34359738368 ∧ (r.write = true → ∀ a, touches r a → ¬ live.owns a) ∧
        r.addr / 8192 = (r.addr + 32 * r.beats - 1) / 8192) := by
  refine ⟨⟨admits _ _ rfl rfl (by decide), by decide⟩,
    ⟨admits _ _ rfl rfl (by decide), by decide, rfl, 2147483648, ⟨by decide, by decide⟩, .inl ⟨by decide, by decide⟩⟩,
    ⟨admits _ _ rfl rfl (by decide), live_role 9, by decide, by decide, fun _ a h => ?_, by decide⟩⟩
  exact live_owns _ rfl rfl rfl a (.inr (by have := h.1; simp only at this; omega))

/-- Initiators 14 and 2 each present a read of two rows' beats; the pointer stands at `pointer`. -/
def contending (pointer : Nat) (offered : Option Nat) : State :=
  live.setPort { live.port with
    pointer := pointer, offered := offered
    presented := tset (tset live.port.presented 14 (some ⟨14, false, 8160, 2, []⟩)) 2 (some ⟨2, false, 0, 1, []⟩) }

/-- The clauses on several initiators: the first behind the pointer, the one offered a place already, too few places, nobody who may be
accepted, initialisation under way. -/
theorem witness_RequestsRefusedOrPlain_rotation :
    (let s := contending 15 none;
      2 = (s.port.pointer + 1 + 2) % 16 ∧ s.port.initDone = true ∧ s.port.table.length < 64 ∧ s.port.offered = none ∧
        tget s.port.presented 2 none = some ⟨2, false, 0, 1, []⟩ ∧ s.port.entriesOf 2 < 16 ∧
        (∀ j, j < 2 → tget s.port.presented ((s.port.pointer + 1 + j) % 16) none = none) ∧ s.scheduler.waiters = [] ∧
        s.scheduler.queue.length + s.reservation 2 ⟨2, false, 0, 1, []⟩ ≤ 128) ∧
    (let s := contending 15 (some 14);
      14 = (s.port.pointer + 1 + 14) % 16 ∧ s.port.offered = some 14 ∧
        tget s.port.presented 14 none = some ⟨14, false, 8160, 2, []⟩ ∧ 0 < s.reservation 14 ⟨14, false, 8160, 2, []⟩ ∧
        128 < 127 + s.reservation 14 ⟨14, false, 8160, 2, []⟩) ∧
    (WaitingUnit.port ∉ live.scheduler.waiters ∧ ∀ i, i < 16 → tget live.port.presented i none = none) ∧
    (let s := live.setPort { live.port with initDone := false };
      s.port.initDone = false ∧ (⟨9, false, 64, 1, []⟩ : Request).wellFormed = true ∧ tget s.port.presented 9 none = none) := by
  decide

/-- The canvas with initiator 0 SCANOUT. -/
def scanned : State := canvased.setClassifier { canvased.classifier with roles := tset canvased.classifier.roles 0 .scanout }

/-- Source 1 ARMED with slot 17 of a pool at 8 GiB open, and initiator 4 its INGEST. -/
def ingesting : State :=
  (live.setClassifier { live.classifier with roles := tset live.classifier.roles 4 (.ingest 1) }).setCapture
    { (live.capture.setSource 1 ⟨some ⟨6 * gib, 1920, 1080, 16⟩, .armed, some 17, 0, [], 0⟩) with
      pool := some ⟨8 * gib, 64, 8 * mib⟩ }

theorem witness_RequestsOfARole :
    (let r : Request := ⟨0, false, 4 * gib + 1079 * 8192 + 7168, 16, []⟩;
      let c : Canvas := ⟨4 * gib, 1920, 1080, 8192⟩;
      Admits scanned r ∧ r.addr + 32 * r.beats ≤ 34359738368 ∧ scanned.classifier.role r.initiator = .scanout ∧
        r.write = false ∧ scanned.classifier.canvas = some c ∧ c.valid = true ∧ c.base ≤ r.addr ∧
        r.addr < c.base + c.height * c.pitch ∧ (r.addr - c.base) % c.pitch + 32 * r.beats ≤ 4 * c.width) ∧
    (let r : Request := ⟨4, true, 6 * gib, 16, List.replicate 16 (List.replicate 32 none)⟩;
      let c : SourceConfig := ⟨6 * gib, 1920, 1080, 16⟩;
      let p : Pool := ⟨8 * gib, 64, 8 * mib⟩;
      Admits ingesting r ∧ r.addr + 32 * r.beats ≤ 34359738368 ∧ ingesting.classifier.role r.initiator = .ingest 1 ∧
        (∀ a, touches r a → ¬ ingesting.owns a) ∧ (ingesting.capture.source 1).config = some c ∧
        (ingesting.capture.source 1).openSlot = some 17 ∧ ingesting.capture.pool = some p ∧ c.base ≤ r.addr ∧
        r.addr + 32 * r.beats ≤ c.base + c.width * c.height * 4 ∧ r.addr / 8192 = (r.addr + 32 * r.beats - 1) / 8192 ∧
        (p.base + 17 * p.stride + (r.addr - c.base)) / 8192 =
          (p.base + 17 * p.stride + (r.addr - c.base) + 32 * r.beats - 1) / 8192 ∧
        (p.base + 17 * p.stride + (r.addr - c.base)) % 32 = 0 ∧ ingesting.scheduler.queue.length + 2 ≤ 128) ∧
    (let beat := [some 41, some 0, some 0, some 0] ++ List.replicate 28 none;
      let r : Request := ⟨12, true, live.apertureBase + 256, 1, [beat]⟩;
      Admits live r ∧ r.addr + 32 * r.beats ≤ 34359738368 ∧ live.classifier.role r.initiator = .control ∧
        (∀ a, touches r a → ¬ live.owns a) ∧ wordEnabled beat 0 = true ∧ wordEnabled beat 4 = false ∧
        live.scheduler.queue.length < 128) := by
  refine ⟨⟨admits _ _ rfl rfl (by decide), by decide, by decide, rfl, rfl, by decide, by decide, by decide, by decide⟩,
    ⟨admits _ _ rfl rfl (by decide), by decide, by decide, fun a h => ?_, by decide, by decide, rfl, by decide, by decide, by decide,
      by decide, by decide, by decide⟩,
    ⟨admits _ _ rfl rfl (by decide), by decide, live_role 12, fun a h => ?_, by decide, by decide, by decide⟩⟩
  · have h1 : 6 * 1073741824 ≤ a := h.1
    have h2 : a < 6 * 1073741824 + 32 * 16 := h.2
    have hb : ingesting.apertureBase = 2147483648 := by decide
    rintro (⟨h3, h4⟩ | ⟨h3, h4⟩ | ⟨o, h3, -⟩ | ⟨p, h3, h4, -⟩)
    · omega
    · omega
    · cases h3
    · have h5 : (⟨8 * gib, 64, 8 * mib⟩ : Pool) = p := Option.some.inj h3
      subst h5
      have h6 : 8 * 1073741824 ≤ a := h4
      omega
  · have hb : live.apertureBase = 2147483648 := by decide
    have h1 : live.apertureBase + 256 ≤ a := h.1
    have h2 : a < live.apertureBase + 256 + 32 * 1 := h.2
    rintro (⟨h3, h4⟩ | ⟨h3, h4⟩ | ⟨o, h3, -⟩ | ⟨p, h3, -⟩)
    · omega
    · omega
    · cases h3
    · cases h3

/-- A write of one beat, by an initiator, to the beat of the two snooped words. -/
def wordsWrite (initiator : Nat) (beat : List (Option Byte)) : Request := ⟨initiator, true, 2147483904, 1, [beat]⟩

/-- The beat of the two snooped words is none of what the part owns. -/
theorem words_unowned (s : State) (i : Nat) (beat : List (Option Byte)) (hb : s.apertureBase = 2147483648)
    (ho : s.render.overlay = none) (hp : s.capture.pool = none) (a : Nat) (h : touches (wordsWrite i beat) a) : ¬ s.owns a := by
  have h1 : 2147483904 ≤ a := h.1
  have h2 : a < 2147483904 + 32 * 1 := h.2
  rintro (⟨h3, h4⟩ | ⟨h3, h4⟩ | ⟨o, h3, -⟩ | ⟨p, h3, -⟩)
  · omega
  · omega
  · rw [ho] at h3; cases h3
  · rw [hp] at h3; cases h3

/-- A beat whose byte enables are set for the bytes below `enabled`, and from 4 on for those below `last`. -/
def wordsBeat (enabled last : Nat) : List (Option Byte) :=
  (List.range 32).map fun k => if k < enabled ∨ (4 ≤ k ∧ k < last) then some (BitVec.ofNat 8 k) else none

/-- The clauses on the beat of the two snooped words: both whole, one whole, none whole though seven bytes are enabled in all; and an
initiator with no role, a SCANOUT one, and the INGEST of a source that is not configured. -/
theorem witness_RequestsOfARole_words :
    (∀ beat ∈ [wordsBeat 4 8, wordsBeat 4 7, wordsBeat 3 8, wordsBeat 3 7],
      let r := wordsWrite 12 beat;
      Admits live r ∧ r.addr + 32 * r.beats ≤ 34359738368 ∧ live.classifier.role r.initiator = .control ∧
        (∀ a, touches r a → ¬ live.owns a) ∧ r.addr = live.apertureBase + 256 ∧ r.data = [beat] ∧ r.beats = 1 ∧
        live.scheduler.queue.length < 128) ∧
    (∀ k, 0 ≤ k → k < 0 + 4 → ∃ b, (wordsBeat 4 8)[k]? = some (some b)) ∧
    (∀ k, 4 ≤ k → k < 4 + 4 → ∃ b, (wordsBeat 4 8)[k]? = some (some b)) ∧
    ¬ (∀ k, 4 ≤ k → k < 4 + 4 → ∃ b, (wordsBeat 4 7)[k]? = some (some b)) ∧
    ¬ (∀ k, 0 ≤ k → k < 0 + 4 → ∃ b, (wordsBeat 3 8)[k]? = some (some b)) ∧
    ((∀ a, touches (wordsWrite 9 (wordsBeat 4 8)) a → ¬ live.owns a) ∧ live.classifier.role 9 = .none) ∧
    ((∀ a, touches (wordsWrite 0 (wordsBeat 4 8)) a → ¬ scanned.owns a) ∧ scanned.classifier.role 0 = .scanout) ∧
    (let s := live.setClassifier { live.classifier with roles := tset live.classifier.roles 4 (.ingest 1) };
      Admits s (wordsWrite 4 (wordsBeat 4 8)) ∧ (∀ a, touches (wordsWrite 4 (wordsBeat 4 8)) a → ¬ s.owns a) ∧
        s.classifier.role 4 = .ingest 1 ∧ (s.capture.source 1).config = none) := by
  refine ⟨fun beat h => ⟨admits _ _ rfl rfl ?_, by decide +revert, live_role 12, words_unowned _ _ _ (by decide) rfl rfl, ?_, rfl, rfl, by decide⟩,
    fun k _ h => ?_, fun k h1 h2 => ?_, fun h => ?_, fun h => ?_, ⟨words_unowned _ _ _ (by decide) rfl rfl, live_role 9⟩,
    ⟨words_unowned _ _ _ (by decide) rfl rfl, by decide⟩, admits _ _ rfl rfl (by decide), words_unowned _ _ _ (by decide) rfl rfl,
    by decide, by decide⟩
  · revert beat; decide
  · show 2147483904 = live.apertureBase + 256; decide
  · have : k = 0 ∨ k = 1 ∨ k = 2 ∨ k = 3 := by omega
    rcases this with rfl | rfl | rfl | rfl <;> exact ⟨_, rfl⟩
  · have : k = 4 ∨ k = 5 ∨ k = 6 ∨ k = 7 := by omega
    rcases this with rfl | rfl | rfl | rfl <;> exact ⟨_, rfl⟩
  · obtain ⟨b, hb⟩ := h 7 (by decide) (by decide); cases hb
  · obtain ⟨b, hb⟩ := h 3 (by decide) (by decide); cases hb

/-- R12: both words of one beat are snooped; a word with three of its byte enables is not; and a write of an initiator that is not
CONTROL hands nothing on. -/
theorem test_snooped_words :
    let owner := fun (i : Nat) (beat : List (Option Byte)) =>
      (after (.requestAccept [wordsWrite i beat]) live).scheduler.queue.map (·.owner)
    owner 12 (wordsBeat 4 8) = [.fabricWrite 0 (some 0x03020100) (some 0x07060504)] ∧
      owner 12 (wordsBeat 3 8) = [.fabricWrite 0 none (some 0x07060504)] ∧
      owner 12 (wordsBeat 3 7) = [.fabricWrite 0 none none] ∧ owner 9 (wordsBeat 4 8) = [.fabricWrite 0 none none] := by
  dsimp only; decide

/-- An entry of initiator 9 with `ops` operations outstanding. -/
def entryOf (n initiator : Nat) (write : Bool) (treatment : Treatment) (ops : Nat) : Entry :=
  ⟨n, ⟨initiator, write, 0, 1, []⟩, treatment, [], 0, ops, 0, [some (zeros 32)]⟩

theorem witness_Responses :
    (9 < 16) ∧ (entryOf 3 9 true .normal 0).request.initiator = 9 ∧
      (∀ q ∈ [entryOf 2 0 true .normal 1], q.request.initiator ≠ 9) ∧
      (∀ q ∈ [entryOf 2 0 true .normal 1] ++ [entryOf 4 9 false .normal 1], q.number ≠ (entryOf 3 9 true .normal 0).number) ∧
      (∃ s : State, s.port.table = [entryOf 2 0 true .normal 1] ++ entryOf 3 9 true .normal 0 :: [entryOf 4 9 false .normal 1]) ∧
      ((entryOf 3 9 true .normal 0).opsLeft = 0 ∧ (entryOf 3 9 true .normal 0).compositesLeft = 0 ∧
        (entryOf 3 9 true .normal 0).treatment = .normal ∧ (entryOf 3 9 true .normal 0).request.write = true) ∧
      ((entryOf 3 9 false .normal 0).request.write = false ∧
        (entryOf 3 9 false .normal 0).readData = [zeros 32].map some) ∧
      (entryOf 3 9 false .decodeError 0).treatment = .decodeError ∧ (entryOf 3 9 true .protected' 0).treatment = .protected' ∧
      (entryOf 3 9 true .normal 1).opsLeft ≠ 0 :=
  ⟨by decide, by decide, by decide, by decide,
    ⟨live.setPort { live.port with
      table := [entryOf 2 0 true .normal 1] ++ entryOf 3 9 true .normal 0 :: [entryOf 4 9 false .normal 1] }, rfl⟩,
    by decide, by decide, by decide, by decide, by decide⟩

/-! #### Zones and compositing -/

theorem witness_ZoneCommands :
    live.classifier.canvas = none ∧ canvased.classifier.canvas = some ⟨4 * gib, 1920, 1080, 8192⟩ ∧ (1920 : Nat) < 1920 + 8 ∧
      (let c : Canvas := ⟨4 * gib, 1920, 1080, 8192⟩;
        ¬ (7 < 7 ∨ 1 < 1 ∨ 7 < 7 ∨ 1280 % 8 ≠ 0 ∨ 640 % 8 ≠ 0 ∨ 640 = 0 ∨ 360 = 0 ∨ c.width < 1280 + 640 ∨ c.height < 720 + 360)) ∧
      zoneKindOf 1 = some .replay ∧ 7 < 8 ∧ 7 ≤ 7 ∧ 2 < 3 ∧
      (zoneAt (zoned 7 .sponsor).compositor.zones 7).config.map (·.kind) ≠ some .replay ∧ bindingOf 2 = some none ∧
      (zoneAt (zoned 7 .replay).compositor.zones 7).config.map (·.kind) = some .replay := by decide

theorem witness_BlendFunction : 255 ≤ 255 ∧ 0 ≤ 255 := by decide

/-- A composite request of line 40 and column 64 at the head of the queue. -/
def beatRequest : CompositeRequest := ⟨0, 0, 40, 64, 4 * gib + 40 * 8192 + 256, 0⟩

def composing (s : State) : State := s.setCompositor { s.compositor with queue := [beatRequest] }

/-- Windows 3 and 5 of a kind, 64 by 32 at columns 60 and 68 of line 30, shown with an image of 40 pixels a line. -/
def overlaid (kind : WindowKind) (scroll : Nat) (both : Bool) : State :=
  let w := fun (x z : Nat) (shown : Bool) => { Window.blank with
    config := some ⟨⟨x, 30, 64, 32⟩, z, 200, false, ⟨1, 2, 3, 4⟩, kind⟩, shownVisible := shown, frontPresent := true
    scroll := scroll, recordA := ⟨40, true, none, ⟨9, 9, 9, 9⟩⟩ }
  (composing canvased).setRender (({ live.render with overlay := some (16 * gib) }.setWindow 3 (w 60 2 true)).setWindow 5 (w 68 2 both))

/-- Zone 7 is the one zone, in TURN with sponsor 5. -/
def sponsored : State :=
  composing ((zoned 7 .sponsor).setRotation
    ((canvased.rotation.setSponsor 5 (sponsorOf 4)).setZone 7 { canvased.rotation.zone 7 with showing := .turn 5 100 7 }))

/-- Zone 7 shows channel A on clip 9, of a camera of 64 by 16 or of 1920 by 1080. -/
def replayed (width height : Nat) : State :=
  let s := (zoned 7 .replay).setCapture { (live.capture.setClip 9 (some ⟨1, width, height, 1, false, [⟨7, 0, .whole⟩]⟩)) with
    pool := some ⟨8 * gib, 4, 8 * mib⟩ }
  composing (s.setChannel .a ⟨.playing, some 9, 0, 1, 1, 0, .hold, 0, 0⟩)

/-- The one zone of `zoned 7` covers a beat alone. -/
theorem covers_seven (k : ZoneKind) (s : State) (h : s.compositor.zones = (zoned 7 k).compositor.zones) (q : CompositeRequest) (z : Nat)
    (c : ZoneConfig) (hc : CoversBeat s q z c) : z = 7 ∧ c = ⟨⟨0, 0, 1920, 1080⟩, 1, k⟩ := by
  obtain ⟨-, h1, h2, -⟩ := hc
  rw [h] at h1 h2
  have hz : z = 7 := by
    by_cases hz : z = 7
    · exact hz
    · have h3 : zoneAt (zoned 7 k).compositor.zones z = Zone.unset := by
        show tget (tset (Vector.replicate 8 Zone.unset) 7 _) z Zone.unset = _
        rw [tget_tset_other _ _ _ _ _ hz, tget_replicate_self]
      rw [h3] at h1
      cases h1
  subst hz
  exact ⟨rfl, (Option.some.inj h2).symm⟩

/-- Zone 7 covers the beat of `beatRequest`, and no other zone does. -/
theorem top_seven (k : ZoneKind) (s : State) (h : s.compositor.zones = (zoned 7 k).compositor.zones) :
    TopOfBeat s beatRequest 7 ⟨⟨0, 0, 1920, 1080⟩, 1, k⟩ := by
  refine ⟨⟨by decide, by rw [h]; rfl, by rw [h]; rfl, Nat.zero_le _, ?_, Nat.zero_le _, ?_⟩, fun y d hy hd => ?_⟩
  · show 40 < 0 + 1080; decide
  · show 64 < 0 + 1920; decide
  exact absurd (covers_seven k s h _ _ _ hd).1 hy

/-- The art beat of sponsor 5's 8th frame at line 40 and column 64. -/
def artBeat : Nat := 20 * gib + 7 % 5 * (16 * mib) + 40 * 8192 + 64 * 4

theorem beat_art (s : State) (h : s.compositor = sponsored.compositor) (hr : s.rotation = sponsored.rotation) :
    BeatFrom s beatRequest (some artBeat) (some (7, 40)) := by
  have hs : (s.rotation.sponsor 5).art = some ⟨20 * gib, 5, 16 * mib, 8192, 1920, 1080⟩ := by rw [hr]; decide
  exact .art 7 _ 5 7 _ (top_seven .sponsor s (by rw [h]; rfl)) rfl (.inl ⟨100, by rw [hr]; rfl⟩) hs (by decide) (by decide) (by decide)

/-- `sponsored` with zone 3 a REPLAY zone of a rank over the whole canvas too, its channel in a state. -/
def overlapping (rank : Nat) (st : ChannelState) : State :=
  (sponsored.setCompositor { sponsored.compositor with
    zones := tset sponsored.compositor.zones 3 ⟨true, some ⟨⟨0, 0, 1920, 1080⟩, rank, .replay⟩, some .a⟩ }).setChannel .a
    ⟨st, some 9, 0, 1, 1, 0, .hold, 0, 0⟩

/-- Every way a beat comes about: the canvas, with no zone and with an inactive one; art, alone, above an active zone of its rank and a
lower number, and above an inactive zone of a higher rank; past the art; a clip's slot, and past its frame. -/
theorem witness_CompositeRequestsAreWorkedOut :
    (let s := composing canvased;
      s.compositor.queue = [beatRequest] ∧ s.scheduler.waiters = [] ∧ s.scheduler.queue.length < 128 ∧
        (∀ n, n < 16 → (s.render.window n).shown = false) ∧ BeatFrom s beatRequest (some (4 * gib + 40 * 8192 + 256)) none) ∧
    BeatFrom (composing (zoned 7 .sponsor)) beatRequest (some (4 * gib + 40 * 8192 + 256)) none ∧
    BeatFrom sponsored beatRequest (some artBeat) (some (7, 40)) ∧
    (∀ x ∈ [(1, ChannelState.playing), (2, .idle)],
      BeatFrom (overlapping x.1 x.2) beatRequest (some artBeat) (some (7, 40))) ∧
    (let a : Art := ⟨20 * gib, 5, 16 * mib, 8192, 1920, 40⟩;
      BeatFrom (sponsored.setRotation (sponsored.rotation.setSponsor 5 { sponsorOf 4 with art := some a })) beatRequest none none) ∧
    (∃ a, a = 8 * gib + 40 * (1920 * 4) + 64 * 4 ∧ BeatFrom (replayed 1920 1080) beatRequest (some a) none) ∧
    BeatFrom (replayed 64 41) beatRequest none none := by
  refine ⟨⟨rfl, rfl, by decide, by decide, .canvas fun z c h => ?_⟩, .canvas fun z c h => ?_, beat_art _ rfl rfl, fun x hx => ?_, ?_, ?_, ?_⟩
  · obtain ⟨-, h1, -⟩ := h
    rw [show zoneAt (composing canvased).compositor.zones z = Zone.unset from tget_replicate_self 8 Zone.unset z] at h1
    cases h1
  · obtain ⟨rfl, rfl⟩ := covers_seven .sponsor _ rfl _ _ _ h
    exact fun h1 => h1 rfl
  · have hs : ((overlapping x.1 x.2).rotation.sponsor 5).art = some ⟨20 * gib, 5, 16 * mib, 8192, 1920, 1080⟩ := by
      show (sponsored.rotation.sponsor 5).art = _; decide
    refine .art 7 ⟨⟨0, 0, 1920, 1080⟩, 1, .sponsor⟩ 5 7 _ ⟨⟨by decide, rfl, rfl, by decide, by decide, by decide, by decide⟩,
      fun y d hy hd ha => ?_⟩ rfl (.inl ⟨100, rfl⟩) hs (by decide) (by decide) (by decide)
    have h3 : y = 3 := by
      by_cases h3 : y = 3
      · exact h3
      · obtain ⟨-, h1, -⟩ := hd
        have h2 : zoneAt (overlapping x.1 x.2).compositor.zones y = Zone.unset := by
          show tget (tset (tset (Vector.replicate 8 Zone.unset) 7 _) 3 _) y Zone.unset = _
          rw [tget_tset_other _ _ _ _ _ h3, tget_tset_other _ _ _ _ _ hy, tget_replicate_self]
        rw [h2] at h1
        cases h1
    subst h3
    obtain ⟨-, -, h1, -⟩ := hd
    obtain rfl := Option.some.inj h1
    rcases List.mem_cons.1 hx with rfl | hx
    · exact .inr ⟨rfl, by decide⟩
    · obtain rfl := List.mem_singleton.1 hx
      obtain ⟨ch, h4, h5⟩ := ha
      obtain rfl := Option.some.inj h4
      exact absurd rfl h5
  · exact .artBlack 7 _ 5 7 ⟨20 * gib, 5, 16 * mib, 8192, 1920, 40⟩ (top_seven .sponsor _ rfl) rfl (.inl ⟨100, rfl⟩) (by decide)
      (.inl (by decide))
  · refine ⟨_, ?_, .slot 7 _ ⟨.playing, some 9, 0, 1, 1, 0, .hold, 0, 0⟩ ⟨1, 1920, 1080, 1, false, [⟨7, 0, .whole⟩]⟩ ⟨8 * gib, 4, 8 * mib⟩ 0
      (top_seven .replay _ rfl) rfl ⟨.a, 9, ⟨7, 0, .whole⟩, rfl, rfl, by decide, rfl, rfl, rfl, rfl, rfl⟩ (by decide) (by decide)⟩
    decide
  · exact .slotBlack 7 _ ⟨.playing, some 9, 0, 1, 1, 0, .hold, 0, 0⟩ ⟨1, 64, 41, 1, false, [⟨7, 0, .whole⟩]⟩ ⟨8 * gib, 4, 8 * mib⟩ 0
      (top_seven .replay _ rfl) rfl ⟨.a, 9, ⟨7, 0, .whole⟩, rfl, rfl, by decide, rfl, rfl, rfl, rfl, rfl⟩ (.inr (by decide))

/-- The clauses on windows: one that needs a fetch, one past the end of its strip, and two of one z; over the canvas and over art. -/
theorem witness_CompositeRequestsAreWorkedOut_windows :
    (∀ scroll ∈ [0, 40],
      let s := sponsored.setRender (overlaid .ticker scroll false).render;
      let c : WindowConfig := ⟨⟨60, 30, 64, 32⟩, 2, 200, false, ⟨1, 2, 3, 4⟩, .ticker⟩;
      s.compositor.queue = [beatRequest] ∧ s.scheduler.waiters = [] ∧ BeatFrom s beatRequest (some artBeat) (some (7, 40)) ∧
        (s.render.window 3).config = some c ∧ (s.render.window 3).shown = true ∧ 0 < c.fade ∧
        (c.rect.y ≤ 40 ∧ 40 < c.rect.y + c.rect.height ∧ c.rect.x < 64 + 8 ∧ 64 < c.rect.x + c.rect.width ∧ 0 < c.rect.width) ∧
        (∀ n, n < 16 → n ∉ [3] → (s.render.window n).shown = false) ∧ s.scheduler.queue.length + 3 ≤ 128) ∧
    (let w := (overlaid .ticker 40 false).render.window 3; w.frontRecord.imageWidth ≤ max 60 64 - 60 + w.scroll) ∧
    (let s := sponsored.setRender (overlaid .text 0 true).render;
      let first := 16 * gib + 3 * 8388608 + ((40 - 30) * 40 + (max 60 64 - 60)) * 4;
      BeatFrom s beatRequest (some artBeat) (some (7, 40)) ∧
        (s.render.window 3).frontRecord.imageWidth = 40 ∧ max 60 64 - 60 < 40 ∧ first / 8192 = (first + 4 * 8 - 1) / 8192 ∧
        (∀ n, n < 16 → n ∉ [3, 5] → (s.render.window n).shown = false) ∧ (s.render.window 5).shown = true ∧
        68 < 64 + 8 ∧ s.scheduler.queue.length + 5 ≤ 128) := by
  refine ⟨fun scroll h => ⟨rfl, rfl, beat_art _ rfl rfl, ?_⟩, by decide, beat_art _ rfl rfl, by decide⟩
  revert h
  revert scroll
  decide

/-- Zone 7 shows art that ends above the line of `beatRequest`: the beat is black. -/
def blackened (note : List DeliveryNote) : State :=
  let s := sponsored.setRotation (sponsored.rotation.setSponsor 5 { sponsorOf 4 with art := some ⟨20 * gib, 5, 16 * mib, 8192, 1920, 40⟩ })
  s.setCompositor { s.compositor with notes := note }

/-- The clauses on a beat that needs no fetch, with no note of its request, one with more to come and the last one; with one window
and with two past the end of their strips; and two windows that each need a fetch. -/
theorem witness_CompositeRequestsAreWorkedOut_at_once :
    (∀ ns ∈ [[], [(⟨0, 2, [⟨7, 40, 40, 3⟩]⟩ : DeliveryNote)], [⟨4, 1, []⟩, ⟨0, 1, [⟨7, 41, 41, 8⟩, ⟨2, 0, 40, 8⟩]⟩]],
      let s := blackened ns;
      s.compositor.queue = [beatRequest] ∧ s.scheduler.waiters = [] ∧ BeatFrom s beatRequest none none ∧
        (∀ n, n < 16 → n ∉ [] → (s.render.window n).shown = false) ∧ s.compositor.notes = ns) ∧
    (∀ m ∈ [(⟨4, 1, []⟩ : DeliveryNote)], m.entry ≠ beatRequest.entry) ∧
    (let ns : List DeliveryNote := [⟨4, 1, []⟩, ⟨0, 1, [⟨7, 41, 41, 8⟩, ⟨2, 0, 40, 8⟩]⟩];
      ∃ m ∈ ns, m.entry = beatRequest.entry ∧ (∀ k ∈ ns, k.entry = beatRequest.entry → k = m) ∧ m.requestsLeft = 1) ∧
    (let s := (blackened []).setRender (overlaid .ticker 40 false).render;
      let w := s.render.window 3;
      BeatFrom s beatRequest none none ∧ w.shown = true ∧ (∀ n, n < 16 → n ∉ [3] → (s.render.window n).shown = false) ∧
        w.frontRecord.imageWidth ≤ max 60 64 - 60 + w.scroll) ∧
    (let s := (blackened []).setRender (overlaid .ticker 40 true).render;
      BeatFrom s beatRequest none none ∧ (∀ n, n < 16 → n ∉ [3, 5] → (s.render.window n).shown = false) ∧
        (s.render.window 3).shown = true ∧ (s.render.window 5).shown = true ∧
        (s.render.window 3).frontRecord.imageWidth ≤ max 60 64 - 60 + (s.render.window 3).scroll ∧
        (s.render.window 5).frontRecord.imageWidth ≤ max 68 64 - 68 + (s.render.window 5).scroll) ∧
    (let s := sponsored.setRender (overlaid .text 0 true).render;
      let first := fun n x : Nat => 16 * gib + n * 8388608 + ((40 - 30) * 40 + (max x 64 - x)) * 4;
      (s.render.window 3).frontRecord.imageWidth = 40 ∧ (s.render.window 5).frontRecord.imageWidth = 40 ∧
        max 60 64 - 60 < 40 ∧ max 68 64 - 68 < 40 ∧ first 3 60 / 8192 = (first 3 60 + 4 * 8 - 1) / 8192 ∧
        first 5 68 / 8192 = (first 5 68 + 4 * 4 - 1) / 8192 ∧ s.scheduler.queue.length + 3 ≤ 128) := by
  have black : ∀ s : State, s.compositor.zones = (zoned 7 .sponsor).compositor.zones → s.rotation = (blackened []).rotation →
      BeatFrom s beatRequest none none := fun s hz hr =>
    .artBlack 7 _ 5 7 ⟨20 * gib, 5, 16 * mib, 8192, 1920, 40⟩ (top_seven .sponsor s hz) rfl (.inl ⟨100, by rw [hr]; rfl⟩)
      (by rw [hr]; decide) (.inl (by decide))
  refine ⟨fun ns h => ⟨rfl, rfl, black _ rfl rfl, ?_, rfl⟩, by decide, ⟨_, .tail _ (.head _), by decide, by decide, by decide⟩,
    ⟨black _ rfl rfl, by decide⟩, ⟨black _ rfl rfl, by decide⟩, by decide⟩
  show ∀ n, n < 16 → n ∉ [] → (live.render.window n).shown = false
  decide

/-- A ticker strip of 40 pixels at column 68 of line 30, scrolled past its end, fade 200. -/
def strip : Window := { Window.blank with
  config := some ⟨⟨68, 30, 64, 32⟩, 2, 200, false, ⟨1, 2, 3, 4⟩, .ticker⟩, shownVisible := true, frontPresent := true
  scroll := 40, recordA := ⟨40, true, none, ⟨200, 100, 50, 255⟩⟩ }

/-- R34, R35: the last beat of a request, a black one, sends the request's delivery events; past the end of a strip the background is laid
over black at the columns it crosses. -/
theorem test_black_beats :
    let t := after .compositeWorkOut (blackened [⟨4, 1, []⟩, ⟨0, 1, [⟨7, 41, 41, 8⟩, ⟨2, 0, 40, 8⟩]⟩])
    let shows := fun s : State => (after .compositeWorkOut
      (s.setPort { s.port with table := [⟨0, ⟨9, false, 0, 1, []⟩, .normal, [.composited 40 64], 0, 0, 1, [none]⟩] })).port.table.map (·.readData)
    t.transit.deliveries = [⟨2, 0, 8, 0⟩, ⟨7, 41, 8, 0⟩] ∧ t.compositor.notes = [⟨4, 1, []⟩] ∧
      shows (blackened []) = [[some (zeros 32)]] ∧
      shows ((blackened []).setRender ({ live.render with overlay := some (16 * gib) }.setWindow 5 strip)) =
        [[some (zeros 16 ++ (List.replicate 4 [(157 : Byte), 78, 39, 0]).flatten)]] := by dsimp only; decide

/-- R33: two windows over one beat, each with its fetch, the lower z first. -/
theorem test_two_windows :
    let t := after .compositeWorkOut (sponsored.setRender (overlaid .text 0 true).render)
    t.queued.map (fun q => (q.2.1, q.2.2.1)) = [(artBeat, 1), (16 * gib + 3 * 8 * mib + 1600, 2), (16 * gib + 5 * 8 * mib + 1600, 1)] ∧
      t.compositor.working.map (fun w => (w.base, w.fetchesLeft, w.layers.map (·.fetches))) = [(some 0, 3, [[1], [2]])] := by
  dsimp only; decide

theorem witness_DeliveryEvents :
    (let s := (zoned 7 .sponsor).setTransit { canvased.transit with deliveries := [⟨7, 0, 240, 0⟩] };
      s.transit.deliveries = [⟨7, 0, 240, 0⟩] ∧ 7 < 8 ∧ (zoneAt s.compositor.zones 7).config.isSome = true) ∧
    (let k : Coverage := (canvased.rotation.zone 7).coverage; (1 : Nat) ≠ 0 ∧ k.counting = false) ∧
    (let k : Coverage := ⟨true, 2, 0, false⟩; k.counting = true ∧ 1 < k.nextLine ∧ k.broken = false ∧ 2 = k.nextLine ∧
      k.nextLine < 3) := by decide

/-! #### The Render Engine -/

theorem witness_WindowCommands :
    live.render.overlay = none ∧ (windowed 15 .text).render.overlay ≠ none ∧ (15 < 16 ∨ 2 < 0) ∧
      ¬ (15 < 15 ∨ 2 < 2 ∨ 4095 < 4095 ∨ 2159 < 2159 ∨ 8192 = 0 ∨ 8192 < 8192 ∨ 128 = 0 ∨ 512 < 128 ∨ 15 < 15 ∨
        1048576 < 8192 * 128 ∨ (2 = 2 ∧ 128 < 128)) ∧
      windowKindOf 2 = some .ticker ∧ ((windowed 15 .text).render.window 14).config = none ∧
      ((windowed 15 .text).render.window 15).config = some ⟨⟨0, 0, 64, 32⟩, 1, 255, true, ⟨0, 0, 0, 0⟩, .text⟩ ∧
      WindowKind.text ≠ .ticker ∧ (64 : Nat) ≠ 65 ∧ ((windowed 15 .text).render.window 15).config ≠ none ∧
      ¬ ((windowed 15 .text).render.job.map (·.window) = some 15) := by decide

/-- The same window with a job in flight for it. -/
def rendering (kind : WindowKind) (void : Bool) : State :=
  let s := windowed 5 kind
  s.setRender { (s.render.setWindow 5 { s.render.window 5 with back := .drawing, jobVoid := void }) with
    job := some ⟨3, 5, ⟨⟨0, 0, 64, 32⟩, 1, 255, true, ⟨0, 0, 0, 0⟩, kind⟩, [], none, none, [], 0, 0, 16 * gib, 64, false, [], [], 0,
      true, 0⟩ }

theorem witness_WindowCommands_in_job : InJob (rendering .text false) 5 ∧ ¬ InJob (windowed 5 .text) 5 :=
  ⟨⟨_, rfl, rfl⟩, fun ⟨_, h, _⟩ => by cases h⟩

theorem witness_ContentCommands :
    (15 < 16) ∧ (15 ≤ 15 ∧ ((windowed 5 .text).render.window 15).config = none) ∧
      ((windowed 15 .image).render.window 15).config = some ⟨⟨0, 0, 64, 32⟩, 1, 255, true, ⟨0, 0, 0, 0⟩, .image⟩ ∧
      WindowKind.text ≠ .image ∧ (WindowKind.ticker = .ticker ∧ 0 < 1) ∧ [(0 : Byte)].length % 2 = 1 ∧
      (∃ code ∈ codesOf [0, 4], 1023 < code) ∧ 1 < 2 ∧ 2 < 3 ∧
      ¬ (3 < 3 ∨ 8191 < 8191 ∨ 511 < 511 ∨ 8192 = 0 ∨ 8192 < 8192 ∨ 2 < 2 ∨ 6 < 6) ∧ ¬ (WindowKind.text = .ticker ∧ 0 < 3) ∧
      alignOf 2 = some .centre ∧ runSourceOf 6 1 2 [] = some (.display (.penalty 1 2)) ∧
      runSourceOf 0 0 0 [0xFF, 3] = some (.literal [1023]) ∧ 3 ≤ 3 ∧ (31 % 32 ≠ 0) ∧
      ¬ ((0 % 32 ≠ 0) ∨ 65536 % 32 ≠ 0 ∨ 65536 < 65536 ∨ 8192 = 0 ∨ 8192 < 8192 ∨ 65536 < 8192 * 4 ∨ 512 = 0 ∨ 512 < 512 ∨
        34359738368 < 0 + 512 * 65536) := by decide

theorem witness_OverlayStoreCommand :
    (1 % 8388608 ≠ 0) ∧
      ¬ (34225520640 % 8388608 ≠ 0 ∨ 34359738368 < 34225520640 + 134217728 ∨
        ∃ a, 34225520640 ≤ a ∧ a < 34225520640 + 134217728 ∧
          ((live.apertureBase ≤ a ∧ a < live.apertureBase + 1048576) ∨
            ∃ p, live.capture.pool = some p ∧ p.base ≤ a ∧ a < p.base + p.count * p.stride)) ∧
      live.render.job = none ∧ (rendering .text false).render.job ≠ none := by
  have h : live.apertureBase = 2147483648 := by decide
  refine ⟨by decide, ?_, by decide, by decide⟩
  rw [h]
  rintro (h1 | h1 | ⟨a, h1, h2, h3 | ⟨p, h3, -⟩⟩)
  · omega
  · omega
  · omega
  · cases h3

/-- A LOAD-FONT that has all of its index table. -/
def fontLoaded : State := live.setRender { live.render with load := some ⟨2, 0, 1, 8, true, 0, [(0, zeros 32)]⟩ }

theorem witness_FontLoading :
    (31 % 32 ≠ 0) ∧ ¬ (34359721984 % 32 ≠ 0 ∨ 1024 < 1024 ∨ 34359738368 < 34359721984 + 16 * 1024) ∧
      (rendering .text false).render.job ≠ none ∧ live.render.job = none ∧ live.render.toEnter = [] ∧
      live.scheduler.waiters = [] ∧ live.scheduler.queue.length < 128 ∧ 0 < 512 ∧ (0 / 8192 = (0 + 16 * 512 - 1) / 8192) ∧
      fontLoaded.render.load = some ⟨2, 0, 1, 8, true, 0, [(0, zeros 32)]⟩ ∧
      (let c : WindowConfig := ⟨⟨0, 0, 64, 32⟩, 1, 255, true, ⟨0, 0, 0, 0⟩, .text⟩;
        ((windowed 5 .text).render.window 5).config = some c ∧ c.kind = .text) ∧
      CommandStage.carrying (.loadFont 0 1 8) = .carrying (.loadFont 0 1 8) := by decide

/-- Window 2's back is READY and window 5 waits behind it with a literal run. -/
def renderQueued : State :=
  let s := windowed 5 .text
  s.setRender { ((s.render.setWindow 2 { Window.blank with back := .ready }).setWindow 5
    { s.render.window 5 with runs := tset (s.render.window 5).runs 3 (some ⟨0, 0, 64, .left, ⟨1, 2, 3, 0⟩, 255, .literal [65]⟩) })
    with queue := [2, 5, 7] }

/-- A TEXT job of window 5 that draws code 65, a glyph of 8 by 4 whose 3-byte stream stands at 20 GiB + 64 of a memory. -/
def drawnJob (m : Nat → Byte) : Job :=
  let config : WindowConfig := ⟨⟨0, 0, 64, 32⟩, 1, 255, true, ⟨1, 2, 3, 255⟩, .text⟩
  let glyph : Glyph := ⟨65, 8, 4, 2, 9, 64, 3⟩
  ⟨3, 5, config, [⟨10, 20, 64, .centre, ⟨255, 210, 0, 0⟩, 200, [65]⟩], none, none, [glyph], 20 * gib, 9, 16 * gib, 64, false,
    [⟨.glyph 65, 20 * gib + 64, 1⟩], [(0, (List.range 32).map fun k => m (20 * gib + 64 + k))], 0, false, 0⟩

/-- Window 14 is a TICKER that waits to be drawn with two codes, of 9 pixels each or of `advance` where no glyph is loaded. -/
def tickerQueued (advance : Nat) : State :=
  let s := windowed 14 .ticker
  s.setRender { (s.render.setWindow 14 { s.render.window 14 with content := some ⟨517, [65, 66]⟩ }) with queue := [14], advance := advance }

theorem witness_RenderJobs :
    (let s := renderQueued;
      let cfg : WindowConfig := ⟨⟨0, 0, 64, 32⟩, 1, 255, true, ⟨0, 0, 0, 0⟩, .text⟩;
      5 < 16 ∧ s.render.overlay = some (16 * gib) ∧ s.render.job = none ∧ s.render.load = none ∧
        s.render.queue = [2] ++ 5 :: [7] ∧ 5 ∉ [2] ∧ (∀ m ∈ [2], (s.render.window m).back = .ready) ∧
        (s.render.window 5).back ≠ .ready ∧ (s.render.window 5).config = some cfg ∧ cfg.kind ≠ .ticker ∧ cfg.kind = .text ∧
        tget (s.render.window 5).runs 3 none = some ⟨0, 0, 64, .left, ⟨1, 2, 3, 0⟩, 255, .literal [65]⟩) ∧
    (∀ void ∈ [true, false], ((rendering .text void).render.job.map fun j => (j.window, j.writing, j.writesLeft)) = some (5, true, 0) ∧
      (rendering .text void).render.load = none ∧ ((rendering .text void).render.window 5).jobVoid = void ∧
      ((rendering .text void).render.window 5).front = .a) ∧
    (∀ advance ∈ [32, 33],
      let s := tickerQueued advance;
      s.render.overlay = some (16 * gib) ∧ s.render.job = none ∧ s.render.load = none ∧ s.render.queue = [] ++ 14 :: [] ∧
        (s.render.window 14).back ≠ .ready ∧ (s.render.window 14).config.map (·.kind) = some .ticker ∧ s.render.glyphs = [] ∧
        (s.render.window 14).content.map (·.codes) = some [65, 66]) ∧
    32 + 32 ≤ 64 ∧ 64 < 33 + 33 ∧
    (∀ m, ReadsGave (drawnJob m) m ∧ (drawnJob m).config.kind ≠ .image ∧ (drawnJob m).bufferBase % 32 = 0) ∧
    ([0x79, 0x8B] : List Byte).flatMap (fun b => [b.toNat / 16, b.toNat % 16]) =
      [].map (8 + ·) ++ [((7 : Nat), [1, 0, 3])].flatMap fun p : Nat × List Nat => p.1 :: p.2.map (8 + ·) := by
  refine ⟨by decide, by decide, by decide, by decide, by decide, fun m => ⟨⟨?_, fun n p h => ?_⟩, ?_, ?_⟩, by decide⟩
  · let j := drawnJob fun _ => 0
    have h : j.pieces = planReads j.config.kind j.config j.runs j.image j.glyphs j.fontBase := by decide
    exact h
  · match n with
    | 0 => obtain rfl := Option.some.inj h; rfl
    | _ + 1 => cases h
  · exact fun h => WindowKind.noConfusion h
  · show 16 * gib % 32 = 0
    decide

/-- Window 5 shows the period in run 0. -/
def noticed : State :=
  let s := windowed 5 .text
  (s.setRender (s.render.setWindow 5
    { s.render.window 5 with runs := tset (s.render.window 5).runs 0 (some ⟨0, 0, 64, .left, ⟨1, 2, 3, 0⟩, 255, .display .period⟩) })).setTransit
    { s.transit with notices := [.period] }

/-- Window 5 is a TICKER whose strip is one frame from its end, or whose back is READY, at a frame start due. -/
def scrolling (back : BackState) : State :=
  let s := windowed 5 .ticker
  (s.setRender (s.render.setWindow 5
    { s.render.window 5 with
      back := back, frontPresent := true, scroll := 96, speed := 8, recordA := ⟨100, true, some 517, ⟨0, 0, 0, 0⟩⟩
      recordB := ⟨64, false, some 900, ⟨0, 0, 0, 0⟩⟩ })).setTransit { s.transit with due := { s.transit.due with render := [3001] } }

theorem witness_WindowsBetweenFrames :
    (let s := noticed;
      s.transit.notices = .period :: [] ∧ (s.render.window 5).config.map (·.kind) = some .text ∧
        (tget (s.render.window 5).runs 0 none).map (·.source) = some (.display .period)) ∧
    (∀ back ∈ [.ready, .empty],
      let s := scrolling back;
      let w := s.render.window 5;
      s.transit.due.render = 3001 :: [] ∧ w.config.map (·.kind) = some .ticker ∧ w.back = back ∧ w.frontPresent = true ∧
        w.frontRecord.strip = true ∧ w.scroll < w.frontRecord.imageWidth ∧ w.frontRecord.imageWidth ≤ w.scroll + w.speed) := by
  decide

/-- Log 52: of two TICKER windows that flip, or whose strips end, at one frame start, the lower number's notice goes first. -/
theorem test_notices_in_window_order :
    let sent := fun back : BackState =>
      let s := scrolling back
      (after .renderFrameStart (s.setRender (s.render.setWindow 2 (s.render.window 5)))).transit
    (sent .ready).flips.map (·.window) = [2, 5] ∧ (sent .empty).strips.map (·.window) = [2, 5] := by dsimp only; decide

/-! #### The Rotation Unit -/

theorem witness_RotationCommands :
    (let a : Art := ⟨34359738368 - 4096 * 8192, 1, 4096 * 8192, 8192, 2048, 2160⟩;
      a.base < 18446744073709551616 ∧ a.frames < 4294967296 ∧ a.stride < 4294967296 ∧ a.pitch < 4294967296 ∧
        a.width < 4294967296 ∧ a.height < 4294967296 ∧
        ¬ (31 < 31 ∨ 255 < 255 ∨ a.base % 32 ≠ 0 ∨ a.stride % 32 ≠ 0 ∨ a.pitch % 32 ≠ 0 ∨ a.frames = 0 ∨ 600 < a.frames ∨
          a.width = 0 ∨ 4096 < a.width ∨ a.height = 0 ∨ 2160 < a.height ∨ a.pitch < a.width * 4 ∨ 65536 < a.pitch ∨
          a.stride < a.pitch * a.height ∨ 34359738368 < a.base + a.frames * a.stride)) ∧
      (∃ z, z < 8 ∧ (sponsored.rotation.zone z).showing.sponsor = some 5) ∧
      (∀ z, z < 8 → (sponsored.rotation.zone z).showing.sponsor ≠ some 31) ∧ (zeros 27).length ≠ 28 ∧ 31 < 32 ∧
      (sponsored.rotation.sponsor 31).art = none ∧ (sponsored.rotation.sponsor 5).art ≠ none ∧ 7 < 8 ∧ 15 < 16 ∧
      (0 ≤ 1 ∧ 9 < 10) ∧ triggerEventOf 5 1 = some (.replayStart .b) ∧ triggerEventOf 1 9 = some (.periodStart 9) :=
  ⟨by decide, ⟨7, by decide, by decide⟩, by decide, by decide, by decide, by decide, by decide, by decide, by decide, by decide,
    by decide, by decide⟩

/-- Zone 7 of `sponsored` with a queue, and trigger entry 15 for sponsor 9 there. -/
def featured (queue : List Feature) : State :=
  let u := sponsored.rotation
  sponsored.setRotation { ((u.setZone 7 { u.zone 7 with queue := queue }).setSponsor 9 (sponsorOf 4)) with
    triggers := tset u.triggers 15 (some ⟨.scoreUp 1, 9, 7, 12, 300⟩), nextArrival := 4 }

def featureOf (entry level arrival : Nat) : Feature := ⟨entry, 3, level, 100, 0, arrival⟩

theorem serves_sponsored (s : State) (h : s.compositor = sponsored.compositor) : ServesSponsors s 7 ⟨0, 0, 1920, 1080⟩ := by
  unfold ServesSponsors
  rw [h]
  exact ⟨rfl, _, rfl, rfl, rfl⟩

theorem witness_Features :
    (15 < 16) ∧ tget live.rotation.triggers 15 none = none ∧
      (∀ queue, tget (featured queue).rotation.triggers 15 none = some ⟨.scoreUp 1, 9, 7, 12, 300⟩) ∧ 7 < 8 ∧
      (∀ q, ¬ ServesSponsors live 7 q) ∧ (∀ queue, ServesSponsors (featured queue) 7 ⟨0, 0, 1920, 1080⟩) ∧
      ¬ ArtFits live 9 ⟨0, 0, 64, 16⟩ ∧ (∀ queue, ArtFits (featured queue) 9 ⟨0, 0, 1920, 1080⟩) ∧
      (∃ q ∈ ((featured [featureOf 15 9 0]).rotation.zone 7).queue, q.entry = 15) ∧
      (∀ q ∈ [featureOf 1 14 0, featureOf 2 12 1, featureOf 3 9 2], q.arrival < (featured []).rotation.nextArrival) ∧
      [featureOf 1 14 0, featureOf 2 12 1, featureOf 3 9 2].Pairwise (fun p q => q.level ≤ p.level) ∧
      [featureOf 1 14 0, featureOf 2 12 1, featureOf 3 9 2].length < 4 ∧
      (4 ≤ ([featureOf 1 14 0, featureOf 2 12 1, featureOf 3 12 2] ++ [featureOf 4 11 3]).length ∧ (featureOf 4 11 3).level < 12) ∧
      (4 ≤ ([featureOf 1 14 0, featureOf 2 12 1, featureOf 3 12 2] ++ [featureOf 4 12 3]).length ∧ 12 ≤ (featureOf 4 12 3).level) ∧
      (let s := (featured []).setTransit { live.transit with events := [.scoreUp 1, .periodEnd 2], replays := [.b] };
        s.transit.events = .scoreUp 1 :: [.periodEnd 2] ∧ s.transit.replays = .b :: [] ∧
          (tget s.rotation.triggers 15 none).map (·.event) = some (.scoreUp 1)) ∧
      (WaitsFor (.scoreUp 1) (.scoreUp 1) ∧ ¬ WaitsFor (.scoreUp 1) (.scoreUp 0) ∧ WaitsFor (.periodEnd 0) (.periodEnd 2) ∧
        WaitsFor (.periodEnd 2) (.periodEnd 2) ∧ ¬ WaitsFor (.periodEnd 1) (.periodEnd 2) ∧ ¬ WaitsFor (.replayStart .b) .playExpiry) ∧
      (∃ u, FiresInTurn [15] (featured []) u) ∧ live.transit.events = [] ∧ live.transit.replays = [] := by
  refine ⟨by decide, by decide, fun queue => rfl, by decide, ?_, fun queue => serves_sponsored _ rfl, ?_, fun queue => ?_, by decide,
    by decide, by decide, by decide, by decide, by decide, by decide,
    ⟨rfl, fun h => ?_, .inl rfl, .inr rfl, fun h => ?_, fun h => h⟩, ⟨_, .cons 15 [] _ _ _ rfl (.nil _)⟩, rfl, rfl⟩
  · rintro q ⟨h, -⟩; cases h
  · rintro ⟨a, h, -⟩; cases h
  · exact ⟨_, rfl, by decide, by decide⟩
  · cases h
  · rcases h with h | h <;> cases h

/-- A frame start due at the Rotation Unit. -/
def rotationDue (s : State) : State := s.setTransit { s.transit with due := { s.transit.due with rotation := [700] } }

/-- Zone 7 of `sponsored` with sponsor 5 in TURN, its coverage record and its queue given, or IDLE. -/
def turning (showing : Showing) (coverage : Coverage) (queue : List Feature) : State :=
  let u := sponsored.rotation
  rotationDue (sponsored.setRotation ((u.setZone 7 { u.zone 7 with showing := showing, coverage := coverage, queue := queue }).setSponsor
    9 (sponsorOf 3)))

theorem only_serves (s : State) (h : s.compositor = sponsored.compositor) : OnlyServes s 7 ⟨0, 0, 1920, 1080⟩ := by
  refine ⟨by decide, serves_sponsored s h, fun y hy q hq => ?_⟩
  have h1 : (zoneAt s.compositor.zones y).enabled = true := hq.1
  rw [h] at h1
  have h2 : zoneAt sponsored.compositor.zones y = Zone.unset := by
    show tget (tset (Vector.replicate 8 Zone.unset) 7 _) y Zone.unset = _
    rw [tget_tset_other _ _ _ _ _ hy, tget_replicate_self]
  rw [h2] at h1
  cases h1

theorem witness_RotationFrameStart :
    let turn : Showing := .turn 5 100 7
    (turning turn ⟨true, 1080, 0, false⟩ []).transit.due.rotation = 700 :: [] ∧
      (turning turn ⟨true, 1080, 0, false⟩ []).transit.deliveries = [] ∧
      (turning turn ⟨true, 1080, 0, false⟩ []).rotation.segment.pending = none ∧
      (∀ r, ¬ ServesSponsors (rotationDue live) 7 r) ∧
      (let s := turning turn ⟨true, 1080, 0, false⟩ [];
        ShowsOnce s.rotation ∧ s.transit.views = [] ∧ (s.rotation.zone 7).showing.sponsor = some 5 ∧
          (zoneAt s.compositor.zones 7).config = some ⟨⟨0, 0, 1920, 1080⟩, 1, .sponsor⟩ ∧
          (s.rotation.zone 7).coverage.broken = false ∧ (s.rotation.zone 7).coverage.counting = true ∧
          (s.rotation.zone 7).coverage.nextLine = 1080 ∧ (∀ w, w < 16 → ¬ Occludes s w ⟨0, 0, 1920, 1080⟩) ∧
          (s.rotation.sponsor 5).rotationCredit < 16777215) ∧
      (turning turn ⟨true, 2, 0, true⟩ []).rotation.segment.number < 65535 ∧
      ((turning turn ⟨true, 2, 0, true⟩ []).rotation.zone 7).coverage.broken = true ∧
      (let s := turning turn ⟨true, 2, 0, false⟩ [];
        OnlyServes s 7 ⟨0, 0, 1920, 1080⟩ ∧ (∀ y, y < 8 → (s.rotation.zone y).queue = []) ∧ 2 ≤ 100 ∧ s.rotation.hold = 0 ∧
          1 ≤ (s.rotation.sponsor 5).level ∧ ArtFits s 5 ⟨0, 0, 1920, 1080⟩) ∧
      (let g : Feature := ⟨15, 9, 12, 300, 0, 0⟩;
        let s := turning turn ⟨true, 2, 0, false⟩ [g];
        (s.rotation.zone 7).queue = g :: [] ∧ ArtFits s g.sponsor ⟨0, 0, 1920, 1080⟩ ∧
          ∀ y h, y ≠ 7 → (s.rotation.zone y).showing = .feature h → h.sponsor ≠ g.sponsor) ∧
      (let g : Feature := ⟨15, 9, 12, 2, 0, 0⟩;
        let s := turning (.feature g) ⟨true, 2, 0, false⟩ [];
        (s.rotation.zone 7).showing = .feature g ∧ (s.rotation.zone 7).nesting = false ∧ 2 ≤ g.dwellLeft ∧
          ArtFits s g.sponsor ⟨0, 0, 1920, 1080⟩) := by
  have other : ∀ (x : Showing) (k : Coverage) (q : List Feature) (y : Nat), y ≠ 7 →
      (turning x k q).rotation.zone y = ZoneRotation.powerOn := by
    intro x k q y hy
    show tget (tset (tset (Vector.replicate 8 ZoneRotation.powerOn) 7 _) 7 _) y ZoneRotation.powerOn = _
    rw [tget_tset_other _ _ _ _ _ hy, tget_tset_other _ _ _ _ _ hy, tget_replicate_self]
  refine ⟨rfl, rfl, rfl, ?_, ⟨?_, rfl, rfl, rfl, rfl, rfl, rfl, ?_, by decide⟩, by decide, rfl,
    ⟨only_serves _ rfl, ?_, by decide, rfl, by decide, _, rfl, by decide, by decide⟩, ⟨rfl, ⟨_, rfl, by decide, by decide⟩, ?_⟩,
    ⟨rfl, rfl, by decide, _, rfl, by decide, by decide⟩⟩
  · rintro q ⟨h, -⟩; cases h
  · intro y z n _ _ h k
    have key : ∀ x, ((turning (.turn 5 100 7) ⟨true, 1080, 0, false⟩ []).rotation.zone x).showing.sponsor = some n → x = 7 := by
      intro x hx
      by_cases h7 : x = 7
      · exact h7
      · rw [other _ _ _ x h7] at hx; cases hx
    rw [key y h, key z k]
  · rintro w - ⟨c, h, -⟩
    rw [show (turning (.turn 5 100 7) ⟨true, 1080, 0, false⟩ []).render.window w = Window.blank from
      tget_replicate_self 16 Window.blank w] at h
    cases h
  · decide
  · intro y h hy hs
    rw [other _ _ _ y hy] at hs
    cases hs

/-- Zone 7 nests: its queue has a feature above the one it shows, with more frames of it left or none. -/
theorem witness_RotationFrameStart_nesting :
    ∀ left ∈ [1, 2],
      let h : Feature := ⟨15, 5, 12, left, 0, 3⟩
      let g : Feature := ⟨2, 9, 14, 300, 0, 4⟩
      let queue := [featureOf 3 13 5, featureOf 4 12 1, featureOf 6 12 7, featureOf 7 9 0]
      let s := turning (.feature h) ⟨true, 2, 0, false⟩ (g :: queue)
      let s := s.setRotation (s.rotation.setZone 7 { s.rotation.zone 7 with nesting := true })
      (s.rotation.zone 7).showing = .feature h ∧ (s.rotation.zone 7).queue = g :: queue ∧ (s.rotation.zone 7).nesting = true ∧
        h.level < g.level ∧ (h.dwellLeft ≤ 1 ∨ 2 ≤ h.dwellLeft) ∧ (s.rotation.sponsor g.sponsor).art = (sponsorOf 3).art ∧
        (∀ y, y < 8 → y ≠ 7 → (s.rotation.zone y).showing = .idle) ∧
        queue.Pairwise (fun p q => q.level < p.level ∨ (q.level = p.level ∧ p.arrival ≤ q.arrival)) := by decide

/-- Sponsors 5, 9 and 20 may take a turn in zone 7, of levels 4, 4 and 7; the zone shows what is given, the hold is `hold`. -/
def filling (showing : Showing) (hold : Nat) (cap : Bool) : State :=
  let s := turning showing ⟨true, 2, 0, false⟩ []
  s.setRotation { (((s.rotation.setSponsor 5 { sponsorOf 4 with periodTarget := 100, cap := cap, rotationCredit := 100 }).setSponsor 9
    { sponsorOf 4 with periodTarget := 50, rotationCredit := 50 }).setSponsor 20 (sponsorOf 7)) with
      hold := hold, segment := ⟨.period, 1, 5, none, 1, 1⟩ }

/-- A zone that is filled: idle, or its turn over, at level 0, or ended by a hold. -/
theorem witness_RotationFrameStart_fill :
    (∀ x ∈ [(Showing.idle, 0), (.turn 5 1 7, 0), (.turn 9 9 7, 3)],
      let s := filling x.1 x.2 false;
      (∀ y, y < 8 → y ≠ 7 → (s.rotation.zone y).showing = .idle) ∧ (s.rotation.zone 7).queue = [] ∧
        (x.1 = .idle ∨ x.1 = .turn 5 1 7 ∨ (x.1 = .turn 9 9 7 ∧ 0 < s.rotation.hold ∧ (s.rotation.sponsor 9).level ≤ 6))) ∧
    (let t := after .rotationFrameStart (filling .idle 0 false);
      let r : Rect := ⟨0, 0, 1920, 1080⟩;
      ThirdSet t 7 r none 5 ∧ ∀ m, m ≠ 5 → ThirdSet t 7 r none m → ComesFirst t none 5 m) := by
  have first : ∀ m, FirstSet (after .rotationFrameStart (filling .idle 0 false)) 7 ⟨0, 0, 1920, 1080⟩ m → m = 5 ∨ m = 9 := by
    rintro m ⟨hm, -, ⟨a, ha, -⟩, -, hl, -⟩
    have hl := hl (by decide)
    have key : ∀ m, m < 32 → m = 5 ∨ m = 9 ∨ m = 20 ∨
        ((after .rotationFrameStart (filling .idle 0 false)).rotation.sponsor m).art = none := by decide
    rcases key m hm with rfl | rfl | rfl | h
    · exact .inl rfl
    · exact .inr rfl
    · exact absurd hl.2 (by decide)
    · rw [h] at ha; cases ha
  refine ⟨by decide, ⟨⟨⟨by decide, by decide, ⟨_, rfl, by decide, by decide⟩, fun h => ?_, fun _ => by decide, by decide⟩, .inl fun h => ?_⟩,
    .inl (by decide)⟩, fun m hm h => ?_⟩
  · exact absurd h (by decide)
  · exact absurd h.1 (by decide)
  · rcases first m h.1.1 with rfl | rfl
    · exact absurd rfl hm
    · exact .inr ⟨by decide, .inr ⟨by decide, by decide⟩⟩

/-- R92 and R93: the capped sponsor is left out, the sponsor whose turn ends gives way, a tie goes to the one found first behind the
last ended, and under a hold only level 7 fills. -/
theorem test_rotation_fill :
    let shows := fun s : State => ((after .rotationFrameStart s).rotation.zone 7).showing
    shows (filling .idle 0 false) = .turn 5 300 0 ∧ shows (filling .idle 0 true) = .turn 9 300 0 ∧
      shows (filling (.turn 5 1 7) 0 false) = .turn 9 300 0 ∧ shows (filling (.turn 9 9 7) 3 false) = .turn 20 300 0 ∧
      (let s := filling .idle 0 false;
        shows (s.setRotation (s.rotation.setZone 7 { s.rotation.zone 7 with lastEnded := some 8 })) = .turn 9 300 0) := by
  dsimp only; decide

/-- Zones 2 and 7 are enabled SPONSOR zones, zone 2 with a queue and zone 4, which is none, in FEATURE with a queue of its own; sponsors
3, 5 and 9 have levels and art that fits, sponsor 8 has none. -/
def threeZones (two seven : Showing) (queue : List Feature) : State :=
  let s := turning seven ⟨true, 2, 0, false⟩ []
  let u := (s.rotation.setSponsor 3 (sponsorOf 2)).setZone 2 { s.rotation.zone 2 with showing := two, queue := queue }
  (s.setCompositor { s.compositor with zones := tset s.compositor.zones 2 ⟨true, some ⟨⟨0, 0, 64, 32⟩, 1, .sponsor⟩, none⟩ }).setRotation
    (u.setZone 4 { u.zone 4 with showing := .feature (featureOf 6 11 2), queue := [featureOf 1 14 5, featureOf 0 9 4] })

theorem serves_two (two seven : Showing) (queue : List Feature) :
    ServesSponsors (threeZones two seven queue) 2 ⟨0, 0, 64, 32⟩ ∧ ServesSponsors (threeZones two seven queue) 7 ⟨0, 0, 1920, 1080⟩ ∧
      ∀ r, ¬ ServesSponsors (threeZones two seven queue) 4 r :=
  ⟨⟨rfl, _, rfl, rfl, rfl⟩, ⟨rfl, _, rfl, rfl, rfl⟩, fun r h => by cases h.1⟩

/-- What the clauses on one zone's service ask: a queue whose head can start and one whose head waits, an unfit head, and a TURN and a
FEATURE that end and that go on. -/
theorem witness_RotationFrameStart_zones :
    let r : Rect := ⟨0, 0, 64, 32⟩
    let g : Feature := ⟨15, 9, 12, 300, 0, 9⟩
    let h : Feature := ⟨14, 5, 10, 2, 40, 1⟩
    Starts (threeZones .idle (.turn 9 100 7) [g]) 2 [g] g [] ∧ Starts (threeZones (.turn 5 9 3) (.turn 9 100 7) [g]) 2 [g] g [] ∧
      Starts (threeZones (.feature h) .idle [g]) 2 [g] g [] ∧
      (∀ x b, ¬ Starts (threeZones .idle (.feature ⟨15, 9, 12, 50, 3, 0⟩) [g]) 2 [g] x b) ∧
      (let s := threeZones (.feature h) .idle [g];
        let s := s.setRotation (s.rotation.setZone 2 { s.rotation.zone 2 with nesting := true });
        Nests s 2 h g ∧ ¬ Nests (threeZones (.feature h) .idle [g]) 2 h g) ∧
      (let s := threeZones (.feature h) (.turn 9 1 7) [⟨13, 8, 9, 60, 0, 2⟩, g];
        ¬ ArtFits s 8 r ∧ ArtFits s 9 r ∧ FeatureEnds s r { h with dwellLeft := 1 } ∧ ¬ FeatureEnds s r h ∧ TurnEnds s r 9 1 ∧
          ¬ TurnEnds s r 9 2 ∧ (s.rotation.zone 2).begunNow = false) := by
  intro r g h
  have starts : ∀ s : State, s.rotation.featuredElsewhere 2 g.sponsor = false → Starts s 2 [g] g [] := fun s hs =>
    ⟨rfl, fun x => by rw [(featuredElsewhere_iff s s.rotation 2 g.sponsor (.self s 2)).mpr x] at hs; cases hs⟩
  refine ⟨starts _ (by decide), starts _ (by decide), starts _ (by decide), ?_, ⟨⟨rfl, by decide⟩, fun x => absurd x.1 (by decide)⟩, ?_,
    ⟨_, rfl, by decide, by decide⟩, .inl (by decide), ?_, .inl (by decide), ?_, by decide⟩
  · rintro x b ⟨hq, hno⟩
    cases hq
    exact hno ⟨7, ⟨15, 9, 12, 50, 3, 0⟩, by decide, by decide, by decide, rfl⟩
  · rintro ⟨a, ha, -⟩; cases ha
  · rintro (x | x)
    · exact absurd x (by decide)
    · exact x ⟨_, rfl, by decide, by decide⟩
  · rintro (x | x | x | x)
    · exact absurd x (by decide)
    · exact absurd x (by decide)
    · exact x ⟨_, rfl, by decide, by decide⟩
    · exact absurd x.1 (by decide)

/-- R90 and R98: a FEATURE that starts in zone 2 ends its sponsor's TURN in zone 7, a head whose sponsor is featured in zone 7 waits, and
closed zone 4 reports its features, the showing one first. -/
theorem test_zones_served :
    let g : Feature := ⟨15, 9, 12, 300, 0, 9⟩
    let closed : List Report := [.feature 4 6 3 11 .zoneClosed, .feature 4 1 3 14 .zoneClosed, .feature 4 0 3 9 .zoneClosed]
    (let t := after .rotationFrameStart (threeZones .idle (.turn 9 100 7) [g]);
      (t.rotation.zone 2).showing = .feature g ∧ (t.rotation.zone 7).showing = .turn 5 300 0 ∧ (t.rotation.zone 7).lastEnded = none ∧
        (t.rotation.sponsor 9).turns = 1 ∧ t.transit.reports = closed) ∧
    (let t := after .rotationFrameStart (threeZones .idle (.feature { g with dwellLeft := 50, shown := 3 }) [g]);
      (t.rotation.zone 2).queue = [g] ∧ (t.rotation.zone 2).showing = .turn 5 300 0 ∧ t.transit.reports = closed) := by
  dsimp only; decide

/-- R101: at a close each sponsor with a level or a credit is reported, the verdict of the frame that ends counted before. -/
theorem test_close_reports :
    let s := rotationDue (sponsored.setRotation { sponsored.rotation with segment := ⟨.period, 65535, 9, some .break', 1, 1⟩ })
    let s := s.setRotation (s.rotation.setZone 7 { s.rotation.zone 7 with coverage := ⟨true, 2, 0, true⟩ })
    (after .rotationFrameStart s).transit.reports = [.exposure 5 .period 65535 10 0 0 0 0 1] ∧
      ((after .rotationFrameStart s).rotation.sponsor 5).broken = 0 := by dsimp only; decide

/-- A frame start due with a close pending, at segment number 65,535 and below it; an occluding window over zone 7; and a delivery
event sent before the frame start. -/
theorem witness_RotationFrameStart_close :
    (let s := sponsored.setRotation { sponsored.rotation with segment := ⟨.period, 65535, 9, some .break', 1, 1⟩ };
      s.rotation.segment.pending = some .break' ∧ s.rotation.segment.number = 65535) ∧
    (let s := sponsored.setRender ((windowed 5 .text).render.setWindow 5
        { (windowed 5 .text).render.window 5 with shownVisible := true, frontPresent := true });
      Occludes s 5 ⟨0, 0, 1920, 1080⟩) ∧
    (let d : Delivery := ⟨7, 1079, 240, 699⟩;
      let s := rotationDue (sponsored.setTransit { sponsored.transit with deliveries := [d] });
      s.transit.due.rotation = 700 :: [] ∧ s.transit.deliveries = d :: [] ∧ 0 < ((700 : FrameNo) - d.sent).toInt ∧
        ((700 : FrameNo) - 700).toInt ≤ 0 ∧ ∃ u, exec .deliveryEvent s = .next u) :=
  ⟨by decide, ⟨_, rfl, rfl, rfl, rfl, by decide, 0, 0, by decide, by decide⟩, rfl, rfl, by decide, by decide, _, rfl⟩

theorem witness_TurnsAndFeaturesEnd :
    (let s := live.setRotation { live.rotation with holdInForce := true }; s.rotation.hold = 0 ∧ s.rotation.holdInForce = true) ∧
      ServesSponsors sponsored 7 ⟨0, 0, 1920, 1080⟩ ∧ (sponsored.rotation.zone 7).begunNow = false ∧
      (sponsored.rotation.zone 7).showing = .turn 5 100 7 ∧ (1 ≤ 1) ∧
      (2 ≤ 100 ∧ 1 ≤ (sponsored.rotation.sponsor 5).level ∧ ArtFits sponsored 5 ⟨0, 0, 1920, 1080⟩ ∧
        sponsored.rotation.holdInForce = false) ∧
      (let s := turning (.feature ⟨15, 9, 12, 2, 0, 0⟩) ⟨false, 0, 0, false⟩ [];
        (s.rotation.zone 7).showing = .feature ⟨15, 9, 12, 2, 0, 0⟩ ∧ 2 ≤ 2 ∧ ArtFits s 9 ⟨0, 0, 1920, 1080⟩) :=
  ⟨by decide, serves_sponsored _ rfl, by decide, by decide, by decide,
    ⟨by decide, by decide, ⟨_, rfl, by decide, by decide⟩, by decide⟩, by decide, by decide, _, rfl, by decide, by decide⟩

/-! #### The Capture and Playout Units -/

/-- A placed pool at 8 GiB, source 3 set and STOPPED with an entry of slot 0 in its timeline. -/
def stoppedSource : State :=
  live.setCapture { (live.capture.setSource 3 (sourceOf .stopped none [⟨7, 0, .whole⟩])) with
    pool := some ⟨8 * gib, 4, 8192⟩, free := [1, 2, 3], refs := [1, 0, 0, 0] }

theorem live_base (s : State) (h : s.classifier = live.classifier) : s.apertureBase = 2147483648 := by
  show s.classifier.straps.aperture.toNat * Config.gib = _
  rw [h]; decide

theorem witness_CapturePlacement :
    (∃ k, k < 4 ∧ ((stoppedSource.capture.source k).state ≠ .stopped ∨ (stoppedSource.capture.source k).timeline ≠ [])) ∧
    ¬ ((∃ k, k < 4 ∧ ((live.capture.source k).state ≠ .stopped ∨ (live.capture.source k).timeline ≠ [])) ∨
      ∃ k, k < 32 ∧ live.capture.clip k ≠ none) ∧
    (let touches := fun (len a n : Nat) => ∃ b, 34326183936 ≤ b ∧ b < 34326183936 + len ∧ a ≤ b ∧ b < a + n;
      ¬ (34326183936 % 8192 ≠ 0 ∨ 8192 % 8192 ≠ 0 ∨ 8192 = 0 ∨ 4096 = 0 ∨ 4096 < 4096 ∨
        34359738368 < 34326183936 + 4096 * 8192 ∨ touches (4096 * 8192) live.apertureBase 1048576 ∨
        (∃ o, live.render.overlay = some o ∧ touches (4096 * 8192) o 134217728) ∨
        ∃ k c, k < 4 ∧ (live.capture.source k).config = some c ∧
          (touches (4096 * 8192) c.base (c.width * c.height * 4) ∨ 8192 < c.width * c.height * 4))) ∧
    (let len := 64 * 16 * 4;
      let touches := fun (len a n : Nat) => ∃ b, 6 * gib ≤ b ∧ b < 6 * gib + len ∧ a ≤ b ∧ b < a + n;
      ¬ (3 < 3 ∨ 6 * gib % 32 ≠ 0 ∨ 64 < 64 ∨ 4096 < 64 ∨ 64 % 8 ≠ 0 ∨ 16 < 16 ∨ 2160 < 16 ∨ 2048 < 16 ∨ 2048 < 2048 ∨
        34359738368 < 6 * gib + len ∨ touches len stoppedSource.apertureBase 1048576 ∨
        (∃ o, stoppedSource.render.overlay = some o ∧ touches len o 134217728) ∨
        ∃ p, stoppedSource.capture.pool = some p ∧ touches len p.base (p.count * p.stride)) ∧ len ≤ 8192) ∧
    live.capture.pool = none ∧ stoppedSource.capture.pool = some ⟨8 * gib, 4, 8192⟩ ∧
    (stoppedSource.capture.source 3).state = .stopped ∧ 8192 < 64 * 40 * 4 ∧ (63 < 64) := by
  have src : ∀ k, live.capture.source k = Source.unset := fun k => tget_replicate_self 4 Source.unset k
  refine ⟨⟨3, by decide, by decide⟩, ?_, ?_, ⟨?_, by decide⟩, by decide, by decide, by decide, by decide, by decide⟩
  · rintro (⟨k, -, h⟩ | ⟨k, -, h⟩)
    · rw [src k] at h; rcases h with h | h <;> exact h rfl
    · exact h (tget_replicate_self 32 none k)
  · rw [live_base live rfl]
    rintro touches (h | h | h | h | h | h | ⟨b, h1, h2, h3, h4⟩ | ⟨o, h, -⟩ | ⟨k, c, -, h, -⟩)
    · omega
    · omega
    · omega
    · omega
    · omega
    · omega
    · omega
    · cases h
    · rw [src k] at h; cases h
  · rw [live_base stoppedSource rfl]
    intro h
    have hg : gib = 1073741824 := rfl
    rw [hg] at h
    rcases h with h | h | h | h | h | h | h | h | h | h | ⟨b, h1, h2, h3, h4⟩ | ⟨o, h, -⟩ | ⟨p, h, b, h1, h2, h3, h4⟩
    · omega
    · omega
    · omega
    · omega
    · omega
    · omega
    · omega
    · omega
    · omega
    · omega
    · omega
    · cases h
    · have h5 : (⟨8 * gib, 4, 8192⟩ : Pool) = p := Option.some.inj h
      subst h5
      have h6 : 8 * 1073741824 ≤ b := h3
      omega

theorem witness_CaptureStartAndStop :
    (3 < 4) ∧ (live.capture.source 3).config = none ∧ ((stoppedSource.capture.source 3).config ≠ none ∧
      (stoppedSource.capture.source 3).state = .stopped ∧ stoppedSource.capture.free ≠ []) ∧
    (let s := pooled [] [2, 1, 1, 1] (sourceOf .stopped none [⟨7, 0, .whole⟩]) (some ⟨1, 64, 16, 0, false, [⟨7, 0, .whole⟩]⟩);
      (s.capture.source 1).config ≠ none ∧ (s.capture.source 1).state = .stopped ∧ s.capture.free = [] ∧
        ¬ ∃ e ∈ (s.capture.source 1).timeline, s.capture.refCount e.slot = namedBy (s.capture.source 1).timeline e.slot) ∧
    (∃ e ∈ (stoppedSource.capture.source 3).timeline,
      stoppedSource.capture.refCount e.slot = namedBy (stoppedSource.capture.source 3).timeline e.slot) ∧
    (let s := pooled [3] [1, 0, 0, 0] { sourceOf .capturing (some 1) [⟨7, 0, .whole⟩] with faults := 2 } none;
      (s.capture.source 1).state ≠ .stopped ∧ 0 < (s.capture.source 1).faults ∧
        (s.capture.source 1).timeline = [] ++ [⟨7, 0, .whole⟩]) ∧
    (let s := pooled [3] [1, 0, 0, 0] (sourceOf .armed (some 1) []) none;
      (s.capture.source 1).state ≠ .stopped ∧ (s.capture.source 1).faults = 0) := by decide

theorem witness_Clips :
    (31 < 32) ∧ ¬ (31 < 31 ∨ 3 < 3 ∨ 899 < 0 ∨ 0 + 900 ≤ 899) ∧ (channelled 0 .idle .hold).capture.clip 9 ≠ none ∧
      (let s := stoppedSource;
        let entries := fun first last : Nat =>
          (s.capture.source 3).timeline.filter fun e => decide (first ≤ e.frame.toNat ∧ e.frame.toNat ≤ last);
        s.capture.clip 31 = none ∧ entries 8 9 = [] ∧ entries 7 7 ≠ [] ∧
          (entries 7 7).head? = some ⟨7, 0, .whole⟩ ∧ (entries 7 7).getLast? = some ⟨7, 0, .whole⟩ ∧
          (s.capture.source 3).config = some ⟨6 * gib, 64, 16, 16⟩ ∧ s.capture.storeUsed + (entries 7 7).length ≤ 4096) ∧
      (channelled 0 .idle .hold).capture.clip 9 = some ⟨1, 64, 16, 0, false, [⟨7, 0, .whole⟩, ⟨8, 1, .whole⟩]⟩ ∧
      (channelled 2 .idle .hold).capture.clip 9 = some ⟨1, 64, 16, 2, false, [⟨7, 0, .whole⟩, ⟨8, 1, .whole⟩]⟩ ∧
      (0 < 2 ∧ 1 < 2) ∧ (let k : Clip := ⟨1, 64, 16, 1, true, []⟩; k.releasePending = true ∧ k.users ≤ 1) := by decide

/-- Twelve clips of 341 entries and one of 4 leave no place in the store for one more entry. -/
theorem witness_Clips_no_room :
    let c : Option Clip := some ⟨1, 64, 16, 0, false, List.replicate 341 ⟨7, 0, .whole⟩⟩
    let u := ((List.range 12).foldl (fun u k => u.setClip k c) stoppedSource.capture).setClip 12
      (some ⟨1, 64, 16, 0, false, List.replicate 4 ⟨7, 0, .whole⟩⟩)
    u.clip 31 = none ∧ 4096 < u.storeUsed + 1 := by
  exact ⟨by rfl, by decide +kernel⟩

/-- Source 1 of 64 by 16 in a state at a capture tick due. -/
def ticking (state : SourceState) (slot : Option Nat) (beats faults : Nat) (timeline : List TimelineEntry) (free : List Nat) : State :=
  let s := pooled free [1, 1, 0, 0] { sourceOf state slot timeline with beats := beats, faults := faults } none
  s.setTransit { s.transit with due := { s.transit.due with capture := [101] } }

theorem witness_CaptureTicks :
    (let s := ticking .armed (some 0) 127 0 [] [1, 2];
      1 < 4 ∧ (s.capture.source 1).config = some ⟨6 * gib, 64, 16, 16⟩ ∧ (s.capture.source 1).openSlot = some 0 ∧
        s.transit.due.capture = 101 :: [] ∧ (∀ k, k < 4 → k ≠ 1 → (s.capture.source k).state = .stopped) ∧
        (s.capture.source 1).state = .armed ∧ (s.capture.source 1).beats < 64 * 16 / 8) ∧
    (let s := ticking .capturing (some 2) 128 3 (List.replicate 16 ⟨7, 0, .whole⟩) [];
      (s.capture.source 1).state = .capturing ∧ 64 * 16 / 8 ≤ (s.capture.source 1).beats ∧ (s.capture.source 1).openSlot = some 2 ∧
        16 ≤ (s.capture.source 1).timeline.length ∧ s.capture.free = []) ∧
    (let s := ticking .capturing (some 2) 0 0 [⟨7, 1, .whole⟩] [3];
      (s.capture.source 1).state = .capturing ∧ (s.capture.source 1).beats < 64 * 16 / 8 ∧
        (s.capture.source 1).timeline.getLast? = some ⟨7, 1, .whole⟩) ∧
    (let s := ticking .starved none 0 0 [⟨7, 1, .whole⟩] [3];
      (s.capture.source 1).state = .starved ∧ (s.capture.source 1).openSlot = none ∧
        (s.capture.source 1).timeline.getLast? = some ⟨7, 1, .whole⟩) := by decide

/-- Sources 1 and 2 of 64 by 16 at a capture tick due; with no slot free, slot 0 is the oldest entry of source 1's full timeline. -/
def tickingTwo (x y : Source) : State :=
  let s := ticking .armed (some 2) 5 0 [] []
  s.setCapture { (s.capture.setSource 1 x).setSource 2 y with refs := [1, 16, 0, 0] }

/-- A source that is CAPTURING into slot 2 with a torn frame, and one that is STARVED. -/
def tornSource : Source :=
  { sourceOf .capturing (some 2) (⟨7, 0, .whole⟩ :: List.replicate 15 ⟨8, 1, .whole⟩) with beats := 5 }
def starvedSource : Source := sourceOf .starved none [⟨8, 1, .whole⟩]

theorem witness_CaptureTicks_several :
    (let s := tickingTwo tornSource starvedSource;
      s.transit.due.capture = 101 :: [] ∧ (s.capture.source 1).config = some ⟨6 * gib, 64, 16, 16⟩ ∧
        (s.capture.source 1).state = .capturing ∧ (s.capture.source 1).beats < 64 * 16 / 8 ∧
        16 ≤ (s.capture.source 1).timeline.length ∧ (s.capture.source 1).timeline.getLast? = some ⟨8, 1, .whole⟩ ∧
        (s.capture.source 2).config = some ⟨6 * gib, 64, 16, 16⟩ ∧ (s.capture.source 2).state = .starved ∧
        (s.capture.source 2).timeline.getLast? = some ⟨8, 1, .whole⟩ ∧
        (s.capture.source 0).state = .stopped ∧ (s.capture.source 3).state = .stopped) ∧
    live.transit.due.capture = [] := by decide

/-- R112: the slot that source 1 returns is there for source 2, served after it; the other way about source 1 finds none. -/
theorem test_sources_in_ascending_order :
    let t := after .captureTick (tickingTwo tornSource starvedSource)
    let u := after .captureTick (tickingTwo starvedSource tornSource)
    ((t.capture.source 2).state, (t.capture.source 2).openSlot) = (.capturing, some 0) ∧
      t.transit.reports = [.runBegin 1 .torn 100, .runBegin 2 .starved 100] ∧
      ((u.capture.source 1).state, u.capture.free) = (.starved, [0]) ∧
      u.transit.reports = [.runBegin 1 .starved 100, .runBegin 2 .torn 100] := by dsimp only; decide

theorem witness_TransportCommands :
    (1 < 2) ∧ channelOf 1 = some .b ∧ channelOf 0 = some .a ∧ (4089 % 8 ≠ 0) ∧ (4088 % 8 = 0 ∧ 4088 ≤ 4088 ∧ 2159 ≤ 2159) ∧
      (live.channel .b).state = .idle ∧ (live.channel .b).clip = none ∧
      (∀ st ∈ [ChannelState.cued, .playing, .paused, .held],
        ((channelled 1 st .hold).channel .a).state = st ∧ ((channelled 1 st .hold).channel .a).clip = some 9 ∧
          ((channelled 1 st .hold).capture.clip 9).isSome = true) ∧
      (∃ u, exec (.removeUser 9) (channelled 1 .playing .hold) = .next u) :=
  ⟨by decide, by decide, by decide, by decide, by decide, by decide, by decide, by decide, _, rfl⟩

theorem witness_CueCommands :
    (1 < 2 ∨ 31 < 31) ∧ live.capture.clip 31 = none ∧ channelOf 1 = some .b ∧ endActionOf 2 = some .release ∧
      (let s := channelled 1 .held .hold;
        (s.capture.clip 9).isSome = true ∧ (s.channel .a).clip = some 9 ∧ (s.channel .b).clip = none ∧
          ∃ u, exec (.addUser 9) s = .next u) ∧
      (∀ e ∈ [EndAction.hold, .release],
        let s := channelled 1 .paused e;
        let s := s.setCapture (s.capture.setClip 10 (some ⟨1, 64, 16, 0, false, [⟨8, 1, .whole⟩]⟩));
        (s.channel .a).clip = some 9 ∧ (s.capture.clip 10).isSome = true ∧ 9 ≠ 10 ∧ (s.channel .a).endAction = e) ∧
      (∃ u v w, exec (.markRelease 9) (channelled 1 .paused .release) = .next u ∧ exec (.removeUser 9) u = .next v ∧
        exec (.addUser 9) v = .next w) ∧
      (let s := stoppedSource;
        let entries := (s.capture.source 3).timeline.drop ((s.capture.source 3).timeline.length - 1);
        s.capture.clip 0 = none ∧ (s.capture.source 3).config = some ⟨6 * gib, 64, 16, 16⟩ ∧
          (s.capture.source 3).timeline ≠ [] ∧ s.capture.storeUsed + 1 ≤ 4096 ∧ entries.head? = some ⟨7, 0, .whole⟩ ∧
          entries.getLast? = some ⟨7, 0, .whole⟩ ∧ (s.channel .a).clip = none) := by
  refine ⟨by decide, by decide, by decide, by decide, ⟨by decide, by decide, by decide, _, rfl⟩, by decide,
    ⟨_, _, _, rfl, rfl, rfl⟩, by decide⟩

/-- MARK_AND_CUE of the last entry of source 3 on channel A, which holds clip 9, about to be carried out. -/
def marking : State :=
  let s := channelled 1 .held .release
  (s.setCapture (s.capture.setSource 3 (sourceOf .stopped none [⟨8, 1, .whole⟩]))).setReader
    { s.reader with begun := true, stage := .carrying (.markAndCue 0 3 1 true) }

theorem witness_CueCommands_in_two_arrivals :
    (let s := marking;
      s.reader.stage = .carrying (.markAndCue 0 3 1 true) ∧ s.capture.clip 0 = none ∧
        (s.capture.source 3).config = some ⟨6 * gib, 64, 16, 16⟩ ∧ s.capture.storeUsed + 1 ≤ 4096 ∧ (s.channel .a).clip = some 9) ∧
    (let m := after (.markAndCue 0 3 1 true) marking;
      m.reader.stage = .reaching (.markAndCue 0 3 1 true) [.cueMarked .a 0 true] 0 1 ∧ m.capture.clip 0 ≠ none ∧
        ∃ u v, exec (.cue 0 0 0 2) m = .next u ∧ exec (.play 0) u = .next v) ∧
    (let s := marking.setReader { marking.reader with stage := .idle };
      s.reader.stage ≠ .carrying (.markAndCue 0 3 1 true) ∧ ∀ ps x y, s.reader.stage ≠ .reaching (.markAndCue 0 3 1 true) ps x y) :=
  ⟨by decide, ⟨by decide, by decide, _, _, rfl, rfl⟩, by decide, fun _ _ _ h => CommandStage.noConfusion h⟩

/-- R172: a frame start of the Playout Unit between the two arrivals finds the clip marked and the channel as it was; the second arrival
takes the channel's user from clip 9, which is dropped. -/
theorem test_mark_and_cue_in_two_arrivals :
    let m := after (.markAndCue 0 3 1 true) marking
    let t := after (.markAndCue 0 3 1 true) m
    (m.capture.clip 0).map (·.users) = some 0 ∧ (m.channel .a).clip = some 9 ∧ (t.capture.clip 0).map (·.users) = some 1 ∧
      t.capture.clip 9 = none ∧ (t.channel .a).state = .playing ∧ t.transit.replays = [.a] ∧ t.reader.stage = .ended (.done 0 1) := by
  dsimp only; decide

/-- All 32 clips are in use. -/
theorem witness_CueCommands_no_clip :
    let u := { live.capture with clips := Vector.replicate 32 (some ⟨1, 64, 16, 0, false, [⟨8, 1, .whole⟩]⟩) }
    ∀ m, m < 32 → u.clip m ≠ none := by
  intro u m hm h
  rw [show u.clip m = _ from tget_replicate 32 _ m none] at h
  rw [if_pos hm] at h
  cases h

theorem witness_ChannelsMove :
    (let s := channelled 1 .playing .loop;
      let s := s.setTransit { s.transit with due := { s.transit.due with playout := [7] } };
      channelOf 0 = some .a ∧ s.transit.due.playout = 7 :: [] ∧ (∀ d, d ≠ .a → (s.channel d).state ≠ .playing) ∧
        (s.channel .a).state = .playing ∧ (s.channel .a).countdown = 0 ∧ (s.channel .a).clip = some 9 ∧
        s.capture.clip 9 = some ⟨1, 64, 16, 1, false, [⟨7, 0, .whole⟩, ⟨8, 1, .whole⟩]⟩ ∧
        (0 ≤ ((s.channel .a).position : Int) + (s.channel .a).step ∧ ((s.channel .a).position : Int) + (s.channel .a).step < 2)) ∧
      (∀ e ∈ [EndAction.hold, .loop, .release],
        let x : Channel := { (channelled 1 .playing e).channel .a with position := 1 };
        (2 : Int) ≤ (x.position : Int) + x.step ∧ x.endAction = e) ∧
      (∃ u v, exec (.markRelease 9) (channelled 1 .playing .release) = .next u ∧ exec (.removeUser 9) u = .next v) ∧
      ((channelled 1 .paused .hold).channel .a).state ≠ .playing ∧ 0 < 1 := by
  refine ⟨⟨rfl, rfl, ?_, rfl, rfl, rfl, rfl, by decide⟩, by decide, ⟨_, _, rfl, rfl⟩, by decide, by decide⟩
  intro d hd
  cases d
  · exact absurd rfl hd
  · decide

/-- Channels A and B both PLAYING the last entry of clip 9, with the end action of each, at a frame start due. -/
def channelledTwo (a b : EndAction) : State :=
  let s := channelled 2 .playing a
  let s := (s.setChannel .a { s.channel .a with position := 1 }).setChannel .b { s.channel .a with position := 1, endAction := b }
  s.setTransit { s.transit with due := { s.transit.due with playout := [7] } }

theorem witness_ChannelsMove_both :
    (∀ e ∈ [EndAction.hold, .loop, .release],
      let s := channelledTwo e e;
      s.transit.due.playout = 7 :: [] ∧ (s.channel .a).state = .playing ∧ (s.channel .b).state = .playing ∧
        (s.channel .a).countdown = 0 ∧ (s.channel .b).countdown = 0 ∧ (s.channel .a).clip = some 9 ∧ (s.channel .b).clip = some 9 ∧
        (s.capture.clip 9).map (·.entries.length) = some 2 ∧ (2 : Int) ≤ (s.channel .a).position + (s.channel .a).step ∧
        (s.channel .a).endAction = e ∧ (s.channel .b).endAction = e) ∧
    (∃ u v, exec (.markRelease 9) (channelledTwo .release .release) = .next u ∧ exec (.removeUser 9) u = .next v) ∧
    live.transit.due.playout = [] := ⟨by decide, ⟨_, _, rfl, rfl⟩, by decide⟩

/-- R137, R139: channel A goes before channel B, and a clip that both release is dropped with channel B. -/
theorem test_channels_in_order :
    (after .playoutFrameStart (channelledTwo .hold .loop)).transit.reports =
        [.playout .a 9 .hold false 1 7, .playout .b 9 .loop false 0 7] ∧
      (after .playoutFrameStart (channelledTwo .release .release)).transit.reports.take 2 =
        [.playout .a 9 .release false 0 7, .playout .b 9 .release false 0 7] ∧
      (after .playoutFrameStart (channelledTwo .release .release)).capture.clip 9 = none := by decide

/-! #### The Message Unit -/

theorem ticking_at_14 (phase : TickerPhase) (queue : List Message) : Ticking (tickered phase queue) 14 :=
  ⟨by decide, rfl, _, rfl, rfl⟩

theorem witness_Moderation :
    (65535 < 65536 ∨ 3 < 3) ∧
      ¬ (65535 < 65535 ∨ 3 < 3 ∨ [(65 : Byte), 0].length % 2 = 1 ∨ [(65 : Byte), 0].length < 2 ∨ 192 < [(65 : Byte), 0].length ∨
        ∃ code ∈ codesOf [65, 0], 1023 < code) ∧
      (let u := (tickered (.showing 517 .crawl 3000) [messageOf 301 1 .held 1 none, messageOf 517 2 .showing 2 none]).messages;
        (∃ m ∈ u.queue, m.id = 301) ∧ ¬ (∃ m ∈ u.queue, m.id = 900) ∧ u.queue.length < 32 ∧ u.phase ≠ .free ∧
          u.find 517 = some (messageOf 517 2 .showing 2 none) ∧ (messageOf 517 2 .showing 2 none).priority < 3 ∧
          u.find 301 = some (messageOf 301 1 .held 1 none) ∧ (u.queue.map (·.id)).Nodup ∧
          (messageOf 517 2 .showing 2 none).state ≠ .held ∧ (messageOf 301 1 .held 1 none).state = .held ∧
          u.phase ≠ .preparing 301 ∧ ∀ id form begun, u.phase = .showing id form begun → id ≠ 301) ∧
      32 ≤ ((List.range 32).map fun k => messageOf k 1 .held 1 none).length ∧ live.messages.phase = .detached ∧
      (Ticking (tickered .free []) 14 ∧ (tickered .free []).messages.phase = .free) ∧
      (let s := tickered (.preparing 517) [messageOf 517 2 .approved 2 none];
        Ticking s 14 ∧ s.messages.phase = .preparing 517 ∧ (s.messages.find 517).map (·.priority) = some 2) ∧
      (let s := tickered (.showing 900 .static 3000) [messageOf 900 3 .showing 1 none];
        Ticking s 14 ∧ s.messages.phase = .showing 900 .static 3000 ∧ (s.messages.find 900).map (·.priority) = some 3) ∧
      (let s := tickered (.preparing 900) [messageOf 900 3 .approved 1 none];
        s.messages.phase = .preparing 900 ∧ (s.messages.find 900).map (·.priority) = some 3) ∧
      (let s := tickered .free [messageOf 301 1 .held 1 none];
        Ticking s 14 ∧ s.messages.phase = .free ∧ s.messages.find 301 = some (messageOf 301 1 .held 1 none) ∧
          (s.messages.queue.map (·.id)).Nodup) := by
  refine ⟨by decide, by decide, ⟨by decide, by decide, by decide, by decide, by decide, by decide, by decide, by decide, by decide,
    by decide, by decide, ?_⟩, by decide, by decide, ⟨ticking_at_14 _ _, rfl⟩, ⟨ticking_at_14 _ _, rfl, by decide⟩,
    ⟨ticking_at_14 _ _, rfl, by decide⟩, by decide, ⟨ticking_at_14 _ _, rfl, by decide, by decide⟩⟩
  intro id form begun h
  cases h
  decide

/-- The ticker on window 14, of a kind, in a phase and with a queue, and window 5 a TICKER window too. -/
def twoWindows (kind : WindowKind) (phase : TickerPhase) (queue : List Message) : State :=
  let s := tickered phase queue
  let c : WindowKind → WindowConfig := fun k => ⟨⟨0, 0, 64, 32⟩, 1, 255, true, ⟨0, 0, 0, 0⟩, k⟩
  s.setRender ((s.render.setWindow 14 { Window.blank with config := some (c kind) }).setWindow 5
    { Window.blank with config := some (c .ticker) })

/-- R147: another window named while a message is on show: the message goes back to APPROVED, the old window has content NONE, and the
selection hands the message to the new one. -/
theorem test_ticker_moves :
    let t := after (.setTicker 5 99) (twoWindows .ticker (.showing 517 .crawl 3000) [messageOf 517 2 .showing 2 none])
    t.messages.phase = .preparing 517 ∧ t.messages.window = some 5 ∧ t.messages.queue = [messageOf 517 2 .approved 2 none] ∧
      t.render.queue = [14, 5] ∧ ((t.render.window 5).content.map (·.id), (t.render.window 5).speed) = (some 517, 16) := by decide

theorem witness_Ticker :
    (15 < 16 ∧ 16 ≠ 4294967295) ∧ (15 ≤ 15 ∧ ∀ c, ((windowed 15 .text).render.window 15).config = some c → c.kind ≠ .ticker) ∧
      (let s := tickered .free [];
        (s.render.window 14).config.map (·.kind) = some .ticker ∧ s.messages.window = some 14) ∧
      (let s := (windowed 14 .ticker);
        s.messages.window = none ∧ (∀ m ∈ s.messages.queue, m.state ≠ .approved) ∧ s.messages.phase = .detached ∧
          (s.render.window 14).config.map (·.kind) = some .ticker) ∧
      Ticking (tickered (.showing 517 .crawl 3000) [messageOf 517 2 .showing 2 none]) 14 ∧
      (∀ strip ∈ [true, false],
        let s := tickered (.preparing 517) [messageOf 517 2 .approved 2 none];
        let s := s.setTransit { s.transit with flips := [⟨14, some 517, strip⟩] };
        s.transit.flips = ⟨14, some 517, strip⟩ :: [] ∧ s.messages.phase ≠ .free ∧ s.messages.window = some 14 ∧
          s.messages.phase = .preparing 517) ∧
      ((some 14 : Option Nat) ≠ some 13 ∧ (some 900 : Option Nat) ≠ some 517) ∧
      (∀ shows ∈ [1, 2],
        let s := tickered (.showing 517 .crawl 3000) [messageOf 517 2 .showing shows none];
        let s := s.setTransit { s.transit with strips := [⟨14, some 517⟩] };
        s.transit.strips = ⟨14, some 517⟩ :: [] ∧ s.messages.phase = .showing 517 .crawl 3000 ∧
          s.messages.find 517 = some (messageOf 517 2 .showing shows none)) ∧
      (let s := tickered .free []; s.messages.window = some 14 ∧ s.messages.phase = .free ∧ s.transit.flips = [] ∧ s.transit.strips = []) ∧
      (let s := tickered .free [];
        let s := s.setTransit { s.transit with flips := [⟨14, some 517, true⟩], strips := [⟨14, some 517⟩] };
        s.transit.flips = ⟨14, some 517, true⟩ :: [] ∧ s.transit.strips = ⟨14, some 517⟩ :: [] ∧ s.messages.phase = .free ∧
          Ticking s 14) ∧
      (∀ phase ∈ [TickerPhase.free, .preparing 517, .showing 517 .crawl 3000], ∀ kind ∈ [WindowKind.ticker, .text],
        let s := twoWindows kind phase [messageOf 517 2 .approved 2 none];
        14 ≠ 5 ∧ 5 ≤ 15 ∧ (s.render.window 5).config.map (·.kind) = some .ticker ∧ s.messages.window = some 14 ∧
          (s.render.window 14).config.map (·.kind) = some kind) ∧
      (∀ begun, TickerPhase.showing 517 .static 7 ≠ .showing 517 .crawl begun) := by
  refine ⟨by decide, ⟨by decide, fun c h => ?_⟩, by decide, by decide, ticking_at_14 _ _, by decide, by decide, by decide, by decide,
    ⟨rfl, rfl, rfl, ticking_at_14 _ _⟩, by decide, ?_⟩
  · have h1 : (⟨⟨0, 0, 64, 32⟩, 1, 255, true, ⟨0, 0, 0, 0⟩, .text⟩ : WindowConfig) = c := Option.some.inj h
    subst h1
    decide
  · intro begun h
    cases h

/-- A frame start due at the Message Unit. -/
def messageDue (s : State) (f : FrameNo) : State := s.setTransit { s.transit with due := { s.transit.due with message := [f] } }

theorem witness_MessagesAtFrameStarts :
    (let s := messageDue (tickered (.showing 517 .crawl 3000)
        [messageOf 517 2 .showing 2 none, messageOf 520 1 .approved 1 (some 1)]) 3001;
      (s.messages.queue.map (·.id)).Nodup ∧ s.transit.due.message = 3001 :: [] ∧ s.messages.window = some 14 ∧
        s.messages.phase = .showing 517 .crawl 3000) ∧
    (let s := messageDue (tickered (.preparing 520) [messageOf 520 1 .approved 1 (some 1)]) 3001;
      (∃ m ∈ s.messages.queue, m.id = 520 ∧ expiring m = true) ∧ s.messages.phase = .preparing 520) ∧
    (let s := messageDue (tickered (.preparing 520) [messageOf 520 1 .approved 1 (some 2)]) 3001;
      ∀ m ∈ s.messages.queue, m.id = 520 → expiring m = false) ∧
    (∀ shows ∈ [1, 2],
      let s := messageDue (tickered (.showing 900 .static 3000) [messageOf 900 3 .showing shows none]) 3060;
      s.messages.find 900 = some (messageOf 900 3 .showing shows none) ∧ (messageOf 900 3 .showing shows none).state = .showing ∧
        ((messageOf 900 3 .showing shows none).minShow : Int) ≤ ((3060 : FrameNo) - 3000).toInt ∧
        ((3059 : FrameNo) - 3000).toInt < ((messageOf 900 3 .showing shows none).minShow : Int)) ∧
    (let s := messageDue ((windowed 14 .text).setMessages ⟨[messageOf 517 2 .showing 2 none], some 14, .showing 517 .crawl 3000, none⟩)
        3001;
      s.messages.window = some 14 ∧ ((s.render.window 14).config.map (·.kind)) = some .text) ∧
    (live.messages.window = none ∧ live.messages.phase = .detached) := by decide

/-! #### The Memory Scheduler -/

theorem witness_BanksAndAgeing :
    let op := operation .scanout 7 900 0 9 0 false
    let g := fun passes => operation .general 6 900 0 8 passes false
    (live.scheduler.init = .done ∧ live.scheduler.phase = .quiet ∧ 15 < 16) ∧
      (let d := (scheduled [(7, .activating 900)] [op]).scheduler;
        tget d.banks 7 .idle = .activating 900 ∧ d.queue = [op] ∧ op.inBurst = false ∧ bankOf op.addr = 7 ∧ rowOf op.addr = 900) ∧
      (scheduled [(7, .activating 900)] []).scheduler.queue = [] ∧
      (op.cls = .scanout ∧ (g 30).cls = .general ∧ bankOf (g 30).addr ≠ 7 ∧ (g 30).order < op.order ∧ (g 30).passes < 31 ∧
        (g 31).passes = 31 ∧ (g 31).inBurst = false) ∧
      tget (scheduled [(7, .precharging)] [op]).scheduler.banks 7 .idle = .precharging ∧
      (let aged := { op with passes := 32 };
        let s := scheduled [(7, .active 1200)] [aged];
        let d := { s.scheduler with promotions := [9] };
        tget d.banks 7 .idle = .active 1200 ∧ d.promotions = aged.order :: [] ∧ d.queue = [aged] ∧ aged.passes = 32 ∧
          rowOf aged.addr ≠ 1200) ∧
      tget live.scheduler.banks 7 .idle = .idle := by decide

/-- A WRITE and, behind it, a SCANOUT read of the same beat in bank 7, with a GENERAL read of another bank's open row last. -/
def blocking (bank7 : Bank) : State :=
  let w : Operation := ⟨true, (operation .general 7 900 4 0 0 false).addr, 1, [zeros 32 |>.map some], .mirror, .general, 1, 0, false⟩
  scheduled [(7, bank7), (6, .active 30)] [w, operation .scanout 7 900 4 2 0 false, operation .general 6 30 0 3 0 false]

theorem witness_BanksAndAgeing_blocked :
    (∀ b ∈ [Bank.activating 900, .activating 30, .precharging],
      let d := (blocking b).scheduler;
      d.queue.Pairwise (fun e f => e.order < f.order) ∧ (∀ e ∈ d.queue, e.inBurst = false) ∧ tget d.banks 7 .idle = b) ∧
    ∃ w r g, (blocking .precharging).scheduler.queue = [w, r, g] ∧ Conflicts w r ∧ Blocked (blocking .precharging).scheduler r :=
  ⟨by decide, _, _, _, rfl, ⟨.inl rfl, by decide, 4, by decide, by decide, by decide, by decide⟩,
    _, .head _, by decide, .inl rfl, by decide, 4, by decide, by decide, by decide, by decide⟩

/-- R157: the blocked SCANOUT read claims nothing; the WRITE's row opens, and the data path takes the oldest of the ready ones, the
WRITE. -/
theorem test_blocked_operation_waits :
    (after (.activateComplete 7) (blocking (.activating 900))).scheduler.queue.map (fun q => (q.order, q.inBurst)) =
        [(1, true), (2, false), (3, false)] ∧
      tget (after (.prechargeComplete 7) (blocking .precharging)).scheduler.banks 7 .idle = .activating 900 := by decide

/-- A burst of bank 3 is under way, and bank 7 has a step under way for a GENERAL operation behind it. -/
def bursting (bank7 : Bank) : State :=
  scheduled [(3, .active 4), (7, bank7)] [operation .scanout 3 4 0 1 0 true, operation .general 7 900 0 2 0 false]

/-- An aged operation of bank 7 behind a SCANOUT one, with its promotion waiting behind another's. -/
def ageing (promotions : List Nat) : State :=
  let s := scheduled [(7, .active 1200)] [operation .scanout 7 1200 0 1 0 false, operation .general 7 900 0 9 32 false]
  s.setScheduler { s.scheduler with promotions := promotions }

/-- The Command Reader may take a command, whose record lies in bank 0, row 16384. -/
def fetching (banks : List (Nat × Bank)) (queue : List Operation) : State :=
  let s := scheduled banks queue
  s.setReader { s.reader with taken := 1 }

/-- The clauses on an activate and a precharge with a burst under way, on promotions of an operation of the queue and of none, and on an
ENTRY: of one operation, by several units, of two one after another, and of an acceptance that needs two. -/
theorem witness_BanksAndAgeing_entries :
    (∀ b ∈ [Bank.activating 900, .activating 30, .precharging],
      let d := (bursting b).scheduler;
      d.init = .done ∧ d.phase = .quiet ∧ d.queue.Pairwise (fun e f => e.order < f.order) ∧ (∃ e ∈ d.queue, e.inBurst = true) ∧
        tget d.banks 7 .idle = b) ∧
    (let d := (ageing [9, 12]).scheduler;
      d.queue.Pairwise (fun e f => e.order < f.order) ∧ operation .general 7 900 0 9 32 false ∈ d.queue ∧
        d.promotions = (operation .general 7 900 0 9 32 false).order :: [12]) ∧
    (let d := (ageing [12]).scheduler; d.promotions = 12 :: [] ∧ ∀ e ∈ d.queue, e.order ≠ 12) ∧ live.scheduler.promotions = [] ∧
    (∀ b ∈ [Bank.idle, .active 16384, .active 5, .precharging],
      let d := (fetching [(0, b)] (bursting .idle).scheduler.queue).scheduler;
      d.queue.Pairwise (fun e f => e.order < f.order) ∧ ∀ e ∈ d.queue, e.order < d.nextOrder) ∧
    (∃ t new, entersOperations .commandTake = true ∧ exec .commandTake (fetching [(0, .idle)] []) = .next t ∧
      t.queued = (fetching [(0, .idle)] []).queued ++ [new] ∧ (fetching [(0, .idle)] []).render.toEnter = [] ∧
      (fetching [(0, .idle)] []).reader.toEnter = []) ∧
    (let s := live.setTransit { live.transit with reports := [.playExpiry 7] };
      ∃ t new, entersOperations .reportArrival = true ∧ exec .reportArrival s = .next t ∧ t.queued = s.queued ++ [new]) ∧
    (let r : Request := ⟨9, false, 8160, 2, []⟩;
      ∃ t new more, entersOperations (.requestAccept [r]) = true ∧ exec (.requestAccept [r]) live = .next t ∧
        t.queued = live.queued ++ [new, more]) ∧
    (let o := operation .general 3 5 0 7 31 false;
      let s := (live.setReader { live.reader with toEnter := [o, o] }).setScheduler { live.scheduler with waiters := [.reader] };
      ∃ t new more, entersOperations .waitingUnitEntry = true ∧ entersTogether .waitingUnitEntry s = false ∧
        exec .waitingUnitEntry s = .next t ∧ t.queued = s.queued ++ [new, more]) ∧
    ∃ t new, entersOperations .compositeWorkOut = true ∧ exec .compositeWorkOut (composing canvased) = .next t ∧
      t.queued = (composing canvased).queued ++ [new] :=
  ⟨by decide, by decide, by decide, by decide, by decide, ⟨_, _, rfl, rfl, rfl, rfl, rfl⟩, ⟨_, _, rfl, rfl, rfl⟩,
    ⟨_, _, _, rfl, rfl, rfl⟩, ⟨_, _, _, rfl, rfl, rfl, rfl⟩, _, _, rfl, rfl, rfl⟩

/-- R159, R160: an operation entered at an IDLE bank begins an activate; at its open row it starts its burst if the data path is FREE, and
waits if it is not; another row is closed. -/
theorem test_entry :
    let enters := fun (banks : List (Nat × Bank)) (queue : List Operation) =>
      let d := (after .commandTake (fetching banks queue)).scheduler
      (tget d.banks 0 .idle, (d.queue.drop queue.length).map (fun q => (q.order, q.inBurst)))
    enters [] [] = (.activating 16384, [(99, false)]) ∧ enters [(0, .active 16384)] [] = (.active 16384, [(99, true)]) ∧
      enters [(0, .active 16384)] [operation .scanout 3 4 0 1 0 true] = (.active 16384, [(99, false)]) ∧
      enters [(0, .active 5)] [] = (.precharging, [(99, false)]) := by dsimp only; decide

/-- R159, R160: with a burst under way an activate leaves its row open for what wants it, or closes it, and starts no burst. -/
theorem test_activate_behind_a_burst :
    let done := fun row : Nat => (after (.activateComplete 7) (bursting (.activating row))).scheduler
    ((done 900).queue = (bursting .idle).scheduler.queue ∧ tget (done 900).banks 7 .idle = .active 900) ∧
      tget (done 30).banks 7 .idle = .precharging := by dsimp only; decide

/-- A write of one beat, with byte 0 alone enabled, in its burst. -/
def burst (owner : Owner) : Operation :=
  ⟨true, 6 * gib, 1, [some 9 :: List.replicate 31 none], owner, .general, 5, 0, true⟩

/-- A read of `n` beats in its burst. -/
def readBurst (owner : Owner) (n : Nat) : Operation := ⟨false, 6 * gib, n, [], owner, .general, 5, 0, true⟩

theorem witness_BurstsComplete :
    (∀ op ∈ [burst (.fabricWrite 0 (some 41) none), burst .mirror, burst .reportWrite, burst .statusWrite, burst (.renderWrite 3),
        readBurst (.fabricRead 0 3) 7, readBurst (.compositor 4 0) 1, readBurst .recordFetch 2, readBurst (.renderRead 3 1) 2,
        readBurst (.fontRead 2 0) 9, readBurst (.payloadFetch 1) 1],
      let s := scheduled [] [operation .scanout 3 4 0 1 0 false, op, operation .general 3 5 0 7 31 false];
      s.scheduler.queue = [operation .scanout 3 4 0 1 0 false] ++ op :: [operation .general 3 5 0 7 31 false] ∧ op.inBurst = true ∧
        (∀ q ∈ [operation .scanout 3 4 0 1 0 false], q.inBurst = false) ∧
        (∀ q ∈ [operation .scanout 3 4 0 1 0 false] ++ [operation .general 3 5 0 7 31 false], q.order ≠ op.order) ∧
        (op.write = true → ∀ beat ∈ op.data, beat.length = 32) ∧ s.render.toEnter = []) ∧
    (let w : Working := ⟨4, beatRequest, some 0, [], 1, []⟩;
      let s := live.setCompositor { live.compositor with working := [w] };
      w.base = some 0 ∧ w.layers = [] ∧ w.fetchesLeft = 1 ∧ s.compositor.working = [w] ∧ s.compositor.notes = []) ∧
    (let w : Working := ⟨4, beatRequest, some 0, [], 2, []⟩; 2 ≤ w.fetchesLeft) ∧
    (∀ left ∈ [2, 1],
      let w : Working := ⟨4, beatRequest, some 0, [], 1, []⟩;
      let m : DeliveryNote := ⟨0, left, [⟨7, 41, 41, 8⟩, ⟨2, 0, 40, 8⟩, ⟨7, 40, 40, 8⟩]⟩;
      let s := live.setCompositor { live.compositor with working := [w], notes := [m] };
      s.compositor.working = [w] ∧ s.compositor.notes = [m] ∧ m.entry = w.request.entry ∧
        (2 ≤ m.requestsLeft ∨ m.requestsLeft = 1)) ∧
    (let l : Layer := ⟨⟨60, 30, 64, 32⟩, 0, 64, 6 * gib - 2576, ⟨0, 0, 0, 0⟩, 200, [1], 6 * gib⟩;
      let w : Working := ⟨4, beatRequest, some 0, [l], 1, [(0, zeros 32)]⟩;
      let m : DeliveryNote := ⟨0, 1, [⟨7, 40, 40, 3⟩]⟩;
      w.fetchesLeft = 1 ∧ (0 : Nat) ≠ 1 ∧ w.got = [(0, zeros 32)] ∧ (zeros 32).length = 32 ∧ w.layers = [l] ∧ l.fetches = [1] ∧
        l.from' = (readBurst (.compositor 4 1) 1).addr ∧ m.entry = w.request.entry ∧ m.requestsLeft = 1 ∧
        ∀ i, i < 8 → 64 + i - 60 < 64 → 6 * gib ≤ l.bufferBase + ((40 - 30) * 64 + (64 + i - 60)) * 4 ∧
          l.bufferBase + ((40 - 30) * 64 + (64 + i - 60)) * 4 + 4 ≤ 6 * gib + 32 * 1) ∧
    (∀ n ∈ [2, 1],
      let j : Job := ⟨3, 5, ⟨⟨0, 0, 64, 32⟩, 1, 255, true, ⟨0, 0, 0, 0⟩, .text⟩, [], none, none, [], 0, 0, 16 * gib, 64, false, [], [], n,
        false, 0⟩;
      (live.setRender { live.render with job := some j }).render.job = some j ∧ j.writing = false ∧ j.readsLeft = n) ∧
    fontLoaded.render.load.isSome = true ∧
    (live.setReader { live.reader with stage := .payload [] 2 [] }).reader.stage = .payload [] 2 [] ∧
    (live.setReader { live.reader with stage := .fetching }).reader.stage = .fetching ∧
    ((rendering .text false).render.job.map (·.number)) = some 3 := by decide

/-- R35: the events of a request are sent by canvas line and then by zone, with its last composite request. -/
theorem test_delivery_events_in_order :
    let w : Working := ⟨4, beatRequest, some 0, [], 1, []⟩
    let m : DeliveryNote := ⟨0, 1, [⟨7, 41, 41, 8⟩, ⟨7, 40, 40, 8⟩, ⟨2, 0, 40, 8⟩]⟩
    let s := scheduled [] [readBurst (.compositor 4 0) 1]
    (after .burstComplete (s.setCompositor { s.compositor with working := [w], notes := [m] })).transit.deliveries =
      [⟨2, 0, 8, 0⟩, ⟨7, 40, 8, 0⟩, ⟨7, 41, 8, 0⟩] := by dsimp only; decide

/-- The clauses on the bank of a burst: an owner whose completion enters nothing more, and the last operation alone. -/
theorem witness_BurstsComplete_bank :
    (∀ owner ∈ [Owner.mirror, .fabricWrite 0 (some 41) none],
      let last := operation .general 3 5 0 7 31 false;
      let s := scheduled [(0, .active 49152), (3, .active 5)] [burst owner, last];
      s.scheduler.init = .done ∧ s.scheduler.phase = .quiet ∧ s.scheduler.queue = [] ++ burst owner :: [last] ∧
        ([] ++ [last]).Pairwise (fun e f : Operation => e.order < f.order) ∧ (∀ q ∈ [] ++ [last], q.order < s.scheduler.nextOrder) ∧
        (after .burstComplete s).queued = ([] ++ [last]).map Operation.what) ∧
    (let s := scheduled [(0, .active 49152)] [burst .mirror];
      s.scheduler.queue = [] ++ burst .mirror :: [] ∧ (burst .mirror).owner = .mirror ∧
        tget s.scheduler.banks ((burst .mirror).addr / 8192 % 16) .idle = .active 49152) := by
  refine ⟨fun owner h => ⟨rfl, rfl, rfl, by decide,
    show ∀ q ∈ [operation .general 3 5 0 7 31 false], q.order < 99 by decide, ?_⟩, rfl, rfl, by decide⟩
  rcases List.mem_cons.1 h with rfl | h
  · rfl
  · obtain rfl := List.mem_singleton.1 h
    rfl

/-- R159, R160: the burst's bank closes, since nothing wants its row, and the next burst starts. -/
theorem test_burst_leaves_its_bank :
    let d := (after .burstComplete (scheduled [(0, .active 49152), (3, .active 5)]
      [burst .mirror, operation .general 3 5 0 7 31 false])).scheduler
    tget d.banks 0 .idle = .precharging ∧ tget d.banks 3 .idle = .active 5 ∧ d.queue.map (·.inBurst) = [true] := by dsimp only; decide

/-- R53, R159: the last read of a render job enters the job's write, which waits for its bank, whose row is closed. -/
theorem test_burst_enters_writes :
    let j : Job := ⟨3, 5, ⟨⟨0, 0, 8, 1⟩, 1, 255, true, ⟨0, 0, 0, 0⟩, .text⟩, [], none, none, [], 0, 0, 16 * gib, 8, false, [], [], 1,
      false, 0⟩
    let s := scheduled [(0, .active 49152)] [readBurst (.renderRead 3 0) 1]
    let d := (after .burstComplete (s.setRender { s.render with job := some j })).scheduler
    d.queue.map (fun q => (q.write, q.addr, q.beats)) = [(true, 16 * gib, 1)] ∧ tget d.banks 0 .idle = .precharging := by
  decide +kernel

theorem witness_RefreshAndInitialisation :
    let d := live.scheduler
    (d.init = .done ∧ d.phase = .quiet ∧ d.queue = [] ∧ ∀ b, b < 16 → tget d.banks b .idle = .idle) ∧
      (let e := { d with debt := 6 }; e.debt = 6 ∧ e.forced = false ∧ e.phase = .quiet) ∧
      (let e := { d with debt := 7, forced := true }; e.debt < 8 ∧ e.forced = true) ∧
      (let e := { d with debt := 8, forced := true }; e.debt = 8 ∧ e.forced = true) ∧
      (let e := { d with debt := 5 }; e.debt < 6 ∧ 0 < e.debt) ∧
      (let e := { d with debt := 6, phase := .refreshing }; e.phase ≠ .quiet ∧ e.forced = false ∧ 2 ≤ e.debt ∧ e.debt ≤ 7) ∧
      (let e := { d with debt := 8, phase := .refreshing, forced := true }; 8 ≤ e.debt ∧ e.phase = .refreshing ∧ e.forced = true) ∧
      (let e := { d with debt := 1, phase := .refreshing }; e.debt = 1 ∧ e.phase = .refreshing) ∧
      (let op := operation .general 3 5 0 7 31 false;
        let e := { d with queue := [op], debt := 7, phase := .refreshing }; e.queue = [op] ∧ op.inBurst = false ∧ e.debt ≤ 7) ∧
      (∀ i ∈ [InitStage.prechargeAll, .firstRefresh, .secondRefresh, .modeSetting],
        { d with init := i }.init = i ∧ { d with init := i }.queue = []) := by decide

/-- A refresh in a phase, with what is given in the banks and the queue. -/
def refreshed (phase : RefreshPhase) (banks : List (Nat × Bank)) (queue : List Operation) : State :=
  let s := scheduled banks queue
  s.setScheduler { s.scheduler with phase := phase, debt := 7, forced := true }

/-- The clauses on phase CLOSING, on what is entered while a refresh stands in the way or before initialisation has completed, and on the
completion of a refresh and of initialisation with operations waiting. -/
theorem witness_RefreshAndInitialisation_closing :
    (let d := (refreshed .closing [(7, .activating 900), (3, .precharging)] []).scheduler;
      d.phase = .closing ∧ tget d.banks 7 .idle = .activating 900 ∧ tget d.banks 3 .idle = .precharging) ∧
    (let op := operation .scanout 3 4 0 1 0 true;
      let d := (refreshed .closing [(3, .active 4)] [op, operation .general 7 900 0 2 0 false]).scheduler;
      d.phase = .closing ∧ d.queue = [] ++ op :: [operation .general 7 900 0 2 0 false] ∧ op.inBurst = true ∧
        ∀ q ∈ [] ++ [operation .general 7 900 0 2 0 false], q.inBurst = false ∧ q.order ≠ op.order) ∧
    (∀ p ∈ [RefreshPhase.closing, .refreshing],
      let s := refreshed p [] [];
      let s := s.setReader { s.reader with taken := 1 };
      s.scheduler.phase ≠ .quiet ∧ entersOperations .commandTake = true ∧
        (after .commandTake s).queued.length = s.queued.length + 1) ∧
    (let s := (live.setScheduler { live.scheduler with init := .modeSetting }).setTransit
        { live.transit with reports := [.playExpiry 7] };
      s.scheduler.init ≠ .done ∧ (after .reportArrival s).queued.length = s.queued.length + 1) ∧
    (let q := [operation .scanout 3 4 0 1 0 false, operation .general 3 5 0 7 31 false];
      let d := (refreshed .refreshing [] q).scheduler;
      d.init = .done ∧ d.phase = .refreshing ∧ d.queue.Pairwise (fun e f => e.order < f.order) ∧ d.queue ≠ [] ∧ d.debt ≤ 7 ∧
        { d with init := .modeSetting }.init = .modeSetting) := by decide

/-- R163, R164: while the phase is CLOSING an activated bank and the bank of a completed burst are precharged, and the last precharge
begins the refresh; what is entered meanwhile waits for its completion (R165). -/
theorem test_closing :
    let d := fun (c : Instr) (s : State) => (after c s).scheduler
    let last := refreshed .closing [(3, .precharging)] []
    let waits := after .commandTake (last.setReader { last.reader with taken := 1 })
    tget (d (.activateComplete 7) (refreshed .closing [(7, .activating 900)] [])).banks 7 .idle = .precharging ∧
      tget (d .burstComplete (refreshed .closing [(0, .active 49152)] [burst .mirror])).banks 0 .idle = .precharging ∧
      (d (.prechargeComplete 3) last).phase = .refreshing ∧
      (d (.prechargeComplete 3) (refreshed .closing [(3, .precharging), (4, .activating 1)] [])).phase = .closing ∧
      tget waits.scheduler.banks 0 .idle = .idle ∧
      tget (d .refreshComplete (after (.prechargeComplete 3) waits)).banks 0 .idle = .activating 16384 := by decide +kernel

theorem witness_WaitingUnitsEnter_full_queue :
    128 ≤ ({ live.scheduler with queue := List.replicate 128 (operation .general 3 5 0 7 31 false) } : Scheduler).queue.length := by
  simp

theorem witness_WaitingUnitsEnter :
    let op := operation .general 3 5 0 7 31 false
    (let s := (live.setRender { live.render with toEnter := [op] }).setScheduler { live.scheduler with waiters := [.render, .port] };
      s.scheduler.waiters = .render :: [.port] ∧ WaitingUnit.render ∉ [WaitingUnit.port] ∧ s.render.toEnter = [op] ∧
        s.scheduler.queue.length < 128) ∧
    (let s := (live.setReader { live.reader with toEnter := [op, op] }).setScheduler { live.scheduler with waiters := [.reader] };
      s.scheduler.waiters = .reader :: [] ∧ WaitingUnit.reader ∉ ([] : List WaitingUnit) ∧ s.reader.toEnter = op :: [op] ∧
        op :: [op] = [op] ++ [op] ∧ 127 + [op].length ≤ 128 ∧ 127 + [op].length = 128) ∧
    (let p : StatusParts := ⟨7, [], ⟨.idle, 0⟩, ⟨.idle, 0⟩, ⟨[], 0⟩, none⟩;
      let s := (live.setWriter { live.writer with waiting := [.status p] }).setScheduler
        { live.scheduler with waiters := [.writer, .compositor] };
      s.scheduler.waiters = .writer :: [.compositor] ∧ WaitingUnit.writer ∉ [WaitingUnit.compositor] ∧
        s.writer.waiting = .status p :: [] ∧ s.scheduler.queue.length < 128) ∧
    (let s := (live.setWriter { live.writer with waiting := [.own 7] }).setReader
        { live.reader with taken := 1, begun := true, stage := .ended (.done 0 0) };
      s.writer.waiting = .own 7 :: [] ∧ s.reader.stage = .ended (.done 0 0) ∧ s.reader.taken = s.reader.consumer + 1) ∧
    (let s := live.setWriter { live.writer with holding := [⟨.playExpiry 7, 7⟩, ⟨.playExpiry 8, 8⟩] };
      s.writer.waiting = [] ∧ s.writer.holding = ⟨.playExpiry 7, 7⟩ :: [⟨.playExpiry 8, 8⟩] ∧
        (s.writer.producer - s.writer.consumer).toNat + (if s.writer.reserved then 1 else 0) < 1024) := by decide

/-! #### Commands, reports and the control reset -/

theorem witness_IndexWords :
    (let within := fun (x c b : Count) => (x - c).toNat ≤ 256 ∧ (x - b).toNat ≤ 256;
      within 261 5 5 ∧ ¬ within 262 5 5 ∧ ¬ within 5 5 6) ∧
    (let s := live.setTransit { live.transit with indexes := [256], consumers := [4500] };
      s.transit.indexes = 256 :: [] ∧ s.transit.consumers = 4500 :: []) ∧
    (let free := fun (x c p : Count) => (x - c).toNat ≤ (p - c).toNat; free 5001 3977 5001 ∧ ¬ free 5002 3977 5001) ∧
    (let s := live.setWriter { live.writer with producer := 5001, consumer := 3977, reserved := true, holding := [⟨.playExpiry 7, 7⟩] };
      s.writer.holding = [⟨.playExpiry 7, 7⟩] ∧ s.writer.waiting = [] ∧ s.scheduler.waiters = [] ∧
        s.scheduler.queue.length < 128 ∧ (s.writer.producer - 3979).toNat + (if s.writer.reserved then 1 else 0) < 1024) ∧
    live.writer.holding = [] ∧
    (let s := (live.setReader { live.reader with taken := 1 }).setWriter { live.writer with producer := 1023, reserved := true };
      (s.reader.begun = true ∨ (0 : Count) = s.reader.consumer ∨ s.port.initDone = false) ∧
        1024 ≤ (s.writer.producer - s.writer.consumer).toNat + (if s.writer.reserved then 1 else 0)) := by decide

/-- Three reports are held; all have places, or the ring has two, or the operation queue has two. -/
def held (usable : Count) (queued : Nat) : State :=
  let s := scheduled [] (List.replicate queued (operation .general 3 5 0 7 31 false))
  (s.setWriter { s.writer with
    producer := 1024, consumer := 0, holding := [⟨.playExpiry 7, 7⟩, ⟨.playExpiry 8, 8⟩, ⟨.playExpiry 9, 9⟩], lost := 3 }).setTransit
    { s.transit with consumers := [usable] }

theorem witness_IndexWords_several :
    (∀ n ∈ [(900, 5, 3), (2, 5, 2), (900, 126, 2)],
      let s := held (BitVec.ofNat 32 n.1) n.2.1;
      let used := (s.writer.producer - BitVec.ofNat 32 n.1).toNat + (if s.writer.reserved then 1 else 0);
      let left := s.writer.holding.drop n.2.2;
      s.transit.consumers = BitVec.ofNat 32 n.1 :: [] ∧
        (BitVec.ofNat 32 n.1 - s.writer.consumer).toNat ≤ (s.writer.producer - s.writer.consumer).toNat ∧
        s.writer.holding = s.writer.holding.take n.2.2 ++ left ∧ s.writer.holding.take n.2.2 ≠ [] ∧ s.writer.waiting = [] ∧
        s.scheduler.waiters = [] ∧ n.2.1 + n.2.2 ≤ 128 ∧ used + n.2.2 ≤ 1024 ∧
        (left = [] ∨ n.2.1 + n.2.2 = 128 ∨ used + n.2.2 = 1024) ∧ s.reader.taken = s.reader.consumer) := by decide

/-- The addresses and the first 12 bytes of what the operation queue holds. -/
def headers (s : State) : List (Nat × List Byte) :=
  s.scheduler.queue.map fun q => (q.addr, (q.data.flatten.take 12).map (·.getD 0))

/-- R176: the held reports go out on one write in order, each with the frame number it arrived with, the first with the lost count. -/
theorem test_drain_several :
    headers (after .reportConsumerWrite (held 900 0)) =
      [(2147516416, [0, 4, 0, 0, 7, 0, 3, 0, 7, 0, 0, 0]), (2147516448, [1, 4, 0, 0, 7, 0, 0, 0, 8, 0, 0, 0]),
        (2147516480, [2, 4, 0, 0, 7, 0, 0, 0, 9, 0, 0, 0])] := by decide +kernel

/-- R176: where the ring has two places, two of the three go out. -/
theorem test_drain_until_full :
    (after .reportConsumerWrite (held 2 0)).writer.holding = [⟨.playExpiry 9, 9⟩] := by decide +kernel

/-- R182: a report is stamped with the frame number current when it arrives, here after a later frame start (log 51). -/
theorem test_late_report_frame :
    let s := live.setTransit { live.transit with reports := [.playExpiry 7] }
    (after .reportArrival (after .frameStart s)).scheduler.queue.map
      (fun q => (q.data.flatten.take 24).map (·.getD 0)) =
        [[0, 0, 0, 0, 7, 0, 0, 0, 1, 0, 0, 0, 1, 0, 0, 0, 7, 0, 0, 0, 0, 0, 0, 0]] := by dsimp only; decide

theorem witness_CommandsAreTaken :
    (let s := (live.setReader { live.reader with taken := 1 }).setWriter { live.writer with producer := 1023 };
      s.reader.begun = false ∧ s.reader.taken ≠ s.reader.consumer ∧ s.port.initDone = true ∧
        (s.writer.producer - s.writer.consumer).toNat + (if s.writer.reserved then 1 else 0) < 1024 ∧
        s.scheduler.waiters = [] ∧ s.scheduler.queue.length < 128) ∧
    ¬ (live.reader.begun = false ∧ live.reader.taken ≠ live.reader.consumer ∧ live.port.initDone = true) ∧
    (let w := { live.writer with producer := 1024 };
      1024 ≤ (w.producer - w.consumer).toNat + (if w.reserved then 1 else 0)) ∧
    (let d := { live.scheduler with waiters := [.port] }; WaitingUnit.reader ∉ d.waiters ∧ d.waiters ≠ []) ∧
    (∀ row ∈ commandRows, nameBytes row.name ≠ recordName (zeros 64)) ∧
    (recordPayloadLen recordResetUnits = 0 ∧ decodeRecord recordResetUnits [] = some .resetUnits) ∧
    (let r := recordPostMessage;
      (decodeRecord r []).isSome = true ∧ 0 < recordPayloadLen r ∧ recordPayloadLen r ≤ 4096 ∧
        recordPayloadAddr r + recordPayloadLen r ≤ 34359738368 ∧
        recordPayloadAddr r / 8192 = (recordPayloadAddr r + recordPayloadLen r - 1) / 8192 ∧ live.reader.toEnter = []) ∧
    (let r := recordPostMessage.set 57 (0x11 : Byte); 4096 < recordPayloadLen r) ∧
    (decodeRecord recordPostMessage (payloadOf recordPostMessage [(0, [65, 0, 66, 0] ++ zeros 28)])).isSome = true := by decide

theorem witness_ReportsAreWritten :
    (let s := live.setReader { live.reader with begun := true, stage := .ended (.done 1 2) };
      s.reader.stage = .ended (.done 1 2) ∧ s.transit.reports = [] ∧ s.scheduler.waiters = [] ∧
        s.scheduler.queue.length < 128 ∧ s.writer.waiting = []) ∧
    (let s := live.setReader { live.reader with taken := 1, begun := true, stage := .ended (.refused .noRoom) };
      s.reader.stage = .ended (.refused .noRoom) ∧ s.reader.taken = s.reader.consumer + 1) ∧
    (let s := live.setScheduler { live.scheduler with waiters := [.port] };
      WaitingUnit.writer ∉ s.scheduler.waiters ∧ s.scheduler.waiters ≠ [] ∧ s.writer.waiting = []) ∧
    (let s := live.setTransit { live.transit with reports := [.playExpiry 7] };
      s.transit.reports = .playExpiry 7 :: [] ∧ s.writer.holding = [] ∧
        (s.writer.producer - s.writer.consumer).toNat + (if s.writer.reserved then 1 else 0) < 1024) ∧
    (let w := { live.writer with producer := 1023, reserved := true };
      ¬ (w.producer - w.consumer).toNat + (if w.reserved then 1 else 0) < 1024 ∧ w.waiting = []) ∧
    (let w := { live.writer with holding := List.replicate 47 ⟨.playExpiry 7, 7⟩ };
      w.holding ≠ [] ∧ w.holding.length < 48 ∧ WaitingUnit.writer ∉ live.scheduler.waiters) ∧
    (let w := { live.writer with holding := List.replicate 48 ⟨.playExpiry 7, 7⟩, lost := 65534 };
      48 ≤ w.holding.length ∧ w.lost < 65535) ∧
    (let w := { live.writer with holding := [⟨.playExpiry 7, 7⟩] }; w.holding = [⟨.playExpiry 7, 7⟩] ∧ w.holding ≠ []) ∧
    (let w := { live.writer with
        sponsors := [[none]], channels := [(⟨.idle, 0⟩, ⟨.idle, 0⟩)], captures := [⟨[], 0⟩], tickers := [none] };
      w.sponsors = [none] :: [] ∧ w.channels = (⟨.idle, 0⟩, ⟨.idle, 0⟩) :: [] ∧ w.captures = ⟨[], 0⟩ :: [] ∧ w.tickers = none :: []) ∧
    live.transit.due.status = [] := by decide

/-- A MESSAGE record and the status block, byte by byte (Tables 11-2 to 11-4). -/
theorem test_layouts :
    reportBytes (.message 517 .expired 2 3001) 5001 3 7 =
        [0x89, 0x13, 0, 0, 9, 0, 3, 0, 7, 0, 0, 0, 5, 2, 3, 2, 0xB9, 0x0B, 0, 0, 0, 0, 0, 0, 0, 0, 0, 0, 0, 0, 0, 0] ∧
      (let bs := statusBytes live ⟨3001, [none, some 5], ⟨.held, 260⟩, ⟨.idle, 0⟩, ⟨[.starved], 300⟩, some 517⟩;
        bs.length = 256 ∧ (bs.drop 36).take 28 =
          [255, 5, 255, 255, 255, 255, 255, 255, 4, 0, 4, 1, 0, 0, 0, 0, 3, 0, 0, 0, 44, 1, 0, 0, 5, 2, 0, 0]) := ⟨by decide, by decide +kernel⟩

/-- A control reset that the Command Reader carries out, before and behind its first arrival. -/
def resetting (left : List CommandPart) : State :=
  let s := tickered (.showing 517 .crawl 3000) [messageOf 517 2 .showing 2 none]
  s.setReader { s.reader with
    taken := 1, begun := true, stage := if left = [] then .carrying .resetUnits else .reaching .resetUnits left 0 0 }

theorem witness_ControlReset :
    (resetting []).reader.stage = .carrying .resetUnits ∧
      (∀ ps, ps ∈ [[CommandPart.resetRender, .resetPlayout, .resetCapture, .resetMessages], [.resetPlayout, .resetCapture, .resetMessages],
        [.resetCapture, .resetMessages], [.resetMessages]] → (resetting ps).reader.stage = .reaching .resetUnits ps 0 0) ∧
      live.reader.stage ≠ .carrying .resetUnits ∧ (∀ ps x y, live.reader.stage ≠ .reaching .resetUnits ps x y) ∧
      ∃ t, exec .resetUnits (resetting [.resetCapture, .resetMessages]) = .next t :=
  ⟨by decide, by decide, by decide, fun _ _ _ h => CommandStage.noConfusion h, _, rfl⟩

/-- R172: a frame start of the Message Unit may come between the parts of a control reset; COMMAND_END makes the parts that are left. -/
theorem test_control_reset_in_parts :
    let first := after .resetUnits (resetting [])
    let rendered := after .resetUnits first
    let between := after .messageFrameStart (messageDue rendered 3001)
    let ended := after .commandEnd between
    first.render = (resetting []).render ∧ rendered.render.queue = [] ∧ between.messages.phase = .detached ∧
      between.messages.queue.length = 1 ∧ ended.messages.queue = [] ∧ ended.reader.begun = false := by dsimp only; decide

end Sys2Proof.Tests
end

section
/-! PROOFS. The Timing Unit (chapter 4): its strings and notices, its commands, the tick and the parts of a tick. -/

namespace Sys2Proof.Proofs.Timing

open Sys2Proof Sys2Proof.Machine

/-! ### How a row of the Timing Unit ends -/

/-- A row that settles the unit as `u`, its strings aside. -/
theorem exec_settled {cmd : Instr} {s : State} {u : TimingUnit} {r : Raised} (h : exec cmd s = .next (s.settleTiming u r)) :
    ∃ t, exec cmd s = .next t ∧ Frame [.timing, .transit] s t ∧ TimingSends s t r.events r.reports ∧
      t.timing = { u with strings := t.timing.strings } :=
  ⟨_, h, settleTiming_frame s u r, settleTiming_sends s u r, rfl⟩

/-- A command carried out that settles the unit as `u`, its strings aside. -/
theorem does_timed {cmd : Instr} {s : State} {u : TimingUnit} {r : Raised} (h : exec cmd s = carryOut cmd s (s.timed u r)) :
    ∃ t, Does cmd s 0 0 t ∧ Frame [.timing, .transit, .reader] s t ∧ TimingSends s t r.events r.reports ∧
      t.timing = { u with strings := t.timing.strings } := by
  obtain ⟨t, ht, hreader, hrest⟩ := timed_carried cmd s u r
  exact ⟨t, ⟨h.trans ht, hreader⟩, hrest⟩

/-- A command carried out that changes the game clock alone. -/
theorem does_clocked {cmd : Instr} {s : State} {c : GameClock} (h : exec cmd s = carryOut cmd s (s.clocked c)) :
    ∃ t, Does cmd s 0 0 t ∧ Frame [.timing, .transit, .reader] s t ∧ TimingSends s t [] [] ∧
      t.timing = { s.timing with clock := c, strings := t.timing.strings } :=
  does_timed h

/-- A command carried out that changes the play clock alone. -/
theorem does_played {cmd : Instr} {s : State} {p : PlayClock} (h : exec cmd s = carryOut cmd s (s.played p)) :
    ∃ t, Does cmd s 0 0 t ∧ Frame [.timing, .transit, .reader] s t ∧ TimingSends s t [] [] ∧
      t.timing = { s.timing with play := p, strings := t.timing.strings } :=
  does_timed h

/-- A unit that is another with one team's record replaced, its strings aside, has changed in that team alone. -/
theorem onlyTeam_setTeam {s t : State} {team : Nat} {x : Team} (hteam : team ≤ 1)
    (h : t.timing = { s.timing.setTeam team x with strings := t.timing.strings }) :
    t.timing.team team = x ∧ OnlyTeam s t team := by
  obtain ⟨hsame, hother⟩ := team_setTeam s.timing team x hteam
  have hteams : ∀ n, t.timing.team n = (s.timing.setTeam team x).team n := by rw [h]; exact fun _ => rfl
  refine ⟨(hteams team).trans hsame, ?_, (hteams _).trans hother⟩
  rw [h, setTeam_fields]

/-- A command carried out that changes one team's record. -/
theorem does_teamed {cmd : Instr} {s : State} {team : Nat} {x : Team} {r : Raised} (hteam : team ≤ 1)
    (h : exec cmd s = carryOut cmd s (s.teamed team x r)) :
    ∃ t, Does cmd s 0 0 t ∧ Frame [.timing, .transit, .reader] s t ∧ TimingSends s t r.events r.reports ∧
      t.timing.team team = x ∧ OnlyTeam s t team := by
  obtain ⟨t, hdoes, hframe, hsends, ht⟩ := does_timed h
  exact ⟨t, hdoes, hframe, hsends, onlyTeam_setTeam hteam ht⟩

/-! ### The clocks' settings (R63 to R65) -/

theorem with_run_self {c : GameClock} {r : RunState} (h : c.run = r) : ({ c with run := r } : GameClock) = c := by
  rw [← h]

theorem stopIfSpent_eq (c : GameClock) :
    c.stopIfSpent = { c with run := if c.remaining = 0 then .stopped else c.run } := by
  unfold GameClock.stopIfSpent
  by_cases hspent : c.remaining = 0
  · by_cases hrun : c.run = .stopped
    · simp [hspent, ← hrun]
    · simp [hspent, hrun]
  · simp [hspent]

theorem clockModeOf_eq_none {m : Nat} (h : 1 < m) : clockModeOf m = none := by
  match m, h with
  | m + 2, _ => rfl

theorem directionOf_eq_none {d : Nat} (h : 1 < d) : directionOf d = none := by
  match d, h with
  | d + 2, _ => rfl

theorem contactOf_eq_none {c : Nat} (h : 1 < c) : contactOf c = none := by
  match c, h with
  | c + 2, _ => rfl

theorem polarityOf_eq_none {n : Nat} (h : 1 < n) : polarityOf n = none := by
  match n, h with
  | n + 2, _ => rfl

theorem playModeOf_eq_none {n : Nat} (h : 1 < n) : playModeOf n = none := by
  match n, h with
  | n + 2, _ => rfl

/-! ### CLOCK_START, CLOCK_STOP and NEXT_PERIOD (R62, R66) -/

theorem clockStart_turnedAway {s : State} (hmode : s.timing.clock.mode = .manual) (hrun : s.timing.clock.run ≠ .running)
    (hspent : s.timing.clock.run = .expired ∨ s.timing.clock.remaining = 0) : TurnedAway .clockStart s .wrongState := by
  have hstart : ¬ (s.timing.clock.run = .stopped ∧ 0 < s.timing.clock.remaining) := by
    rintro ⟨hstopped, hleft⟩
    rcases hspent with hexpired | hnone
    · simp [hstopped] at hexpired
    · omega
  show execClockStart s = _
  simp [execClockStart, hmode, hrun, hstart, carryOut]

theorem clockStart_carried {s : State} (hmode : s.timing.clock.mode = .manual)
    (hrun : s.timing.clock.run = .running ∨ (s.timing.clock.run = .stopped ∧ 0 < s.timing.clock.remaining)) :
    exec .clockStart s = carryOut .clockStart s (s.clocked { s.timing.clock with run := .running }) := by
  show execClockStart s = _
  rcases hrun with hrun | hstart
  · rw [with_run_self hrun]
    simp [execClockStart, hmode, hrun]
  · simp [execClockStart, hmode, hstart]

theorem clockStop_carried {s : State} (hmode : s.timing.clock.mode = .manual) :
    exec .clockStop s = carryOut .clockStop s (s.clocked { s.timing.clock with
      run := if s.timing.clock.run = .running then .stopped else s.timing.clock.run }) := by
  show execClockStop s = _
  by_cases hrun : s.timing.clock.run = .running
  · simp [execClockStop, hmode, hrun]
  · rw [if_neg hrun, with_run_self rfl]
    simp [execClockStop, hmode, hrun]

theorem nextPeriod_carried (s : State) :
    exec .nextPeriod s = carryOut .nextPeriod s (s.timed { s.timing with
      clock := { s.timing.clock with
        period := min 9 (s.timing.clock.period + 1), run := .stopped, value := s.timing.clock.startValue }
      play := { s.timing.play with
        value := s.timing.play.preset
        running := if s.timing.play.mode = .free then false else s.timing.play.running } }
      ⟨[.periodStart (min 9 (s.timing.clock.period + 1))], []⟩) := rfl

/-- Settles O16: each clause is one branch of its command. -/
theorem clockCommands : Obligations.ClockCommands := by
  refine ⟨fun s => ⟨fun hmode => ⟨?_, ?_⟩, clockStart_turnedAway, fun hmode hrun => does_clocked (clockStart_carried hmode hrun),
    fun hmode => does_clocked (clockStop_carried hmode)⟩, fun s => does_timed (nextPeriod_carried s)⟩
  · show execClockStart s = _
    simp [execClockStart, hmode, carryOut]
  · show execClockStop s = _
    simp [execClockStop, hmode, carryOut]

/-! ### CLOCK_SET, SET_PRESET and CLOCK_MODE (R63, R64, R65) -/

theorem clockSet_down {s : State} (v : Nat) (hdir : s.timing.clock.direction = .down) :
    exec (.clockSet v) s = carryOut (.clockSet v) s (s.clocked { s.timing.clock with
      value := min v 5999999, run := if v = 0 then .stopped else s.timing.clock.run }) := by
  show execClockSet v s = _
  have hspent : min v 5999999 = 0 ↔ v = 0 := by omega
  simp only [execClockSet, stopIfSpent_eq, GameClock.remaining, hdir, hspent]

theorem clockSet_up {s : State} (v : Nat) (hdir : s.timing.clock.direction = .up) :
    exec (.clockSet v) s = carryOut (.clockSet v) s (s.clocked { s.timing.clock with
      value := min (min v 5999999) s.timing.clock.preset
      run := if s.timing.clock.preset ≤ min v 5999999 then .stopped else s.timing.clock.run }) := by
  show execClockSet v s = _
  have hspent : s.timing.clock.preset - min (min v 5999999) s.timing.clock.preset = 0 ↔
      s.timing.clock.preset ≤ min v 5999999 := by omega
  simp only [execClockSet, stopIfSpent_eq, GameClock.remaining, hdir, hspent]

theorem setPreset_down {s : State} (v : Nat) (hdir : s.timing.clock.direction = .down) :
    exec (.setPreset v) s = carryOut (.setPreset v) s (s.clocked { s.timing.clock with preset := min v 5999999 }) := by
  show execSetPreset v s = _
  simp only [execSetPreset, hdir]

theorem setPreset_up {s : State} (v : Nat) (hdir : s.timing.clock.direction = .up) :
    exec (.setPreset v) s = carryOut (.setPreset v) s (s.clocked { s.timing.clock with
      preset := min v 5999999
      value := min s.timing.clock.value (min v 5999999)
      run := if min v 5999999 ≤ s.timing.clock.value then .stopped else s.timing.clock.run }) := by
  show execSetPreset v s = _
  have hspent : min v 5999999 - min s.timing.clock.value (min v 5999999) = 0 ↔ min v 5999999 ≤ s.timing.clock.value := by omega
  simp only [execSetPreset, stopIfSpent_eq, GameClock.remaining, hdir, hspent]

section
variable {s : State} {m d : Nat} {mode : ClockMode} {dir : Direction}

theorem clockMode_sameDirection (v : Nat) (hm : clockModeOf m = some mode) (hd : directionOf d = some dir)
    (hdir : dir = s.timing.clock.direction) :
    exec (.clockMode m d v) s = carryOut (.clockMode m d v) s (s.clocked { s.timing.clock with
      mode := mode, threshold := min v 600000 / 100 * 100 }) := by
  show execClockMode m d v s = _
  simp [execClockMode, hm, hd, hdir]

theorem clockMode_turnedAway (v : Nat) (hm : clockModeOf m = some mode) (hd : directionOf d = some dir)
    (hdir : dir ≠ s.timing.clock.direction) (hrun : s.timing.clock.run = .running) :
    TurnedAway (.clockMode m d v) s .wrongState := by
  show execClockMode m d v s = _
  simp [execClockMode, hm, hd, hdir, hrun, carryOut]

theorem clockMode_otherDirection (v : Nat) (hm : clockModeOf m = some mode) (hd : directionOf d = some dir)
    (hdir : dir ≠ s.timing.clock.direction) (hrun : s.timing.clock.run ≠ .running) :
    exec (.clockMode m d v) s = carryOut (.clockMode m d v) s (s.clocked { s.timing.clock with
      mode := mode, direction := dir, threshold := min v 600000 / 100 * 100, run := .stopped
      value := { s.timing.clock with direction := dir }.startValue }) := by
  show execClockMode m d v s = _
  simp only [execClockMode, hm, hd, hdir, hrun, and_false, if_false]
  rfl

end

theorem clockMode_badArgument (s : State) (m d v : Nat) (h : 1 < m ∨ 1 < d) : TurnedAway (.clockMode m d v) s .badArgument := by
  show execClockMode m d v s = _
  rcases h with hm | hd
  · simp [execClockMode, clockModeOf_eq_none hm, carryOut]
  · simp [execClockMode, directionOf_eq_none hd, carryOut]

/-- Settles O17: each clause is one branch of its command. -/
theorem clockSettings : Obligations.ClockSettings := fun s v =>
  ⟨fun hdir => ⟨does_clocked (clockSet_down v hdir), does_clocked (setPreset_down v hdir)⟩,
    fun hdir => ⟨does_clocked (clockSet_up v hdir), does_clocked (setPreset_up v hdir)⟩,
    fun _ _ _ _ hm hd => ⟨fun hdir => does_clocked (clockMode_sameDirection v hm hd hdir), clockMode_turnedAway v hm hd,
      fun hdir hrun => does_clocked (clockMode_otherDirection v hm hd hdir hrun)⟩,
    fun m d h => clockMode_badArgument s m d v h⟩

/-! ### The play clock (R70) -/

theorem playStart_carried {s : State} (hmode : s.timing.play.mode = .free) (hvalue : 0 < s.timing.play.value) :
    exec .playStart s = carryOut .playStart s (s.played { s.timing.play with running := true }) := by
  have hvalue : s.timing.play.value ≠ 0 := by omega
  show execPlayStart s = _
  simp [execPlayStart, hmode, hvalue]

theorem playSet_carried (s : State) (v : Nat) :
    exec (.playSet v) s = carryOut (.playSet v) s (s.played { s.timing.play with
      value := min v 99999
      running := if s.timing.play.mode = .free ∧ v = 0 then false else s.timing.play.running }) := by
  have hzero : min v 99999 = 0 ↔ v = 0 := by omega
  show execPlaySet v s = _
  simp only [execPlaySet, hzero]

/-- Settles O19: each clause is one branch of its command. -/
theorem playClockCommands : Obligations.PlayClockCommands := by
  refine fun s v => ⟨fun n m hm => does_played ?mode, fun n hn => ?badMode, fun h => ?start, fun h => ?stop,
    fun hmode hvalue => does_played (playStart_carried hmode hvalue), fun hmode => does_played ?stopped,
    does_played (playSet_carried s v), does_played rfl⟩
  case mode =>
    show execPlayMode n v s = _
    simp only [execPlayMode, hm]
  case badMode =>
    show execPlayMode n v s = _
    simp only [execPlayMode, playModeOf_eq_none hn, carryOut]
  case start =>
    show execPlayStart s = _
    simp only [execPlayStart, h, if_true, carryOut]
  case stop =>
    show execPlayStop s = _
    simp only [execPlayStop, h, if_true, carryOut]
  case stopped =>
    show execPlayStop s = _
    simp [execPlayStop, hmode]

end Sys2Proof.Proofs.Timing
end

section
/-! PROOFS. The Timing Unit (chapter 4): the contacts, and the parts of a millisecond tick. -/

namespace Sys2Proof.Proofs.Timing

open Sys2Proof Sys2Proof.Machine

/-! ### The filters (R67) -/

/-- The level that a filter's polarity calls active. -/
def activeLevel (f : ContactFilter) : Level := if f.polarity = .activeHigh then .high else .low

theorem active_iff (f : ContactFilter) : f.active = true ↔ f.accepted = some (activeLevel f) := by
  unfold ContactFilter.active activeLevel
  cases f.polarity <;> simp

theorem inactive_iff (f : ContactFilter) :
    f.inactive = true ↔ f.accepted ≠ none ∧ f.accepted ≠ some (activeLevel f) := by
  rw [ContactFilter.inactive, Bool.and_eq_true, Bool.not_eq_true', ← Bool.not_eq_true, active_iff, Option.isSome_iff_ne_none]

/-- A sample of another level begins the count anew. -/
theorem sample_new {f : ContactFilter} {l : Level} (h : f.candidate ≠ some l) :
    f.sample l = ({ f with candidate := some l, count := 1 }, false) := by
  simp [ContactFilter.sample, h]

/-- A further sample of the candidate is counted, up to the second. -/
theorem sample_counted {f : ContactFilter} {l : Level} (h : f.candidate = some l) (hcount : f.count ≤ 1) :
    f.sample l = ({ f with count := f.count + 1 }, false) := by
  have hmin : min 3 (f.count + 1) = f.count + 1 := by omega
  have hthird : f.count ≠ 2 := by omega
  simp [ContactFilter.sample, h, hmin, hthird]

/-- The third equal sample leaves the level accepted. -/
theorem sample_third {f : ContactFilter} {l : Level} (h : f.candidate = some l) (hcount : 2 ≤ f.count) :
    f.sample l = ({ f with count := 3, accepted := some l }, decide (f.accepted ≠ some l)) := by
  have hmin : min 3 (f.count + 1) = 3 := by omega
  by_cases haccepted : f.accepted = some l
  · simp [ContactFilter.sample, h, hmin, haccepted]
  · simp [ContactFilter.sample, h, hmin, haccepted]

/-- A sample brings an acceptance when it is the third of a level that is not the accepted one. -/
theorem sample_accepts_iff (f : ContactFilter) (l : Level) :
    (f.sample l).2 = true ↔ f.candidate = some l ∧ 2 ≤ f.count ∧ f.accepted ≠ some l := by
  by_cases h : f.candidate = some l
  · by_cases hcount : 2 ≤ f.count
    · simp [sample_third h hcount, h, hcount]
    · simp [sample_counted h (by omega), hcount]
  · simp [sample_new h, h]

theorem sample_polarity (f : ContactFilter) (l : Level) : (f.sample l).1.polarity = f.polarity := by
  simp only [ContactFilter.sample, apply_ite Prod.fst, apply_ite ContactFilter.polarity, ite_self]

theorem activeLevel_sample (f : ContactFilter) (l : Level) : activeLevel (f.sample l).1 = activeLevel f := by
  rw [activeLevel, sample_polarity, activeLevel]

/-! ### The run contact and the game clock (R68) -/

/-- The run contact starts the clock: CONTACT mode, accepted active, STOPPED with remaining time. -/
def ContactStarts (c : GameClock) (f : ContactFilter) : Prop :=
  c.mode = .contact ∧ f.active = true ∧ c.run = .stopped ∧ 0 < c.remaining

/-- The run contact stops the clock: CONTACT mode, accepted inactive, RUNNING. -/
def ContactStops (c : GameClock) (f : ContactFilter) : Prop :=
  c.mode = .contact ∧ f.inactive = true ∧ c.run = .running

/-- Following the run contact changes the run state alone. -/
theorem follow_eq (c : GameClock) (f : ContactFilter) : c.follow f = { c with run := (c.follow f).run } := by
  unfold GameClock.follow
  split
  · split
    · rfl
    · split <;> rfl
  · rfl

theorem follow_starts {c : GameClock} {f : ContactFilter} (h : ContactStarts c f) : (c.follow f).run = .running := by
  obtain ⟨hmode, hactive, hrun, hleft⟩ := h
  simp [GameClock.follow, hmode, hactive, hrun, hleft]

theorem follow_stops {c : GameClock} {f : ContactFilter} (h : ContactStops c f) : (c.follow f).run = .stopped := by
  obtain ⟨hmode, hinactive, hrun⟩ := h
  simp [GameClock.follow, hmode, hinactive, hrun]

theorem follow_stands {c : GameClock} {f : ContactFilter} (hstarts : ¬ ContactStarts c f) (hstops : ¬ ContactStops c f) :
    c.follow f = c := by
  unfold GameClock.follow
  split
  · rename_i hmode
    rw [if_neg fun ⟨hactive, hrun, hleft⟩ => hstarts ⟨hmode, hactive, hrun, hleft⟩,
      if_neg fun ⟨hinactive, hrun⟩ => hstops ⟨hmode, hinactive, hrun⟩]
  · rfl

theorem follow_manual {c : GameClock} (f : ContactFilter) (hmode : c.mode = .manual) : c.follow f = c :=
  follow_stands (fun h => nomatch hmode.symm.trans h.1) (fun h => nomatch hmode.symm.trans h.1)

theorem follow_of_starts {c : GameClock} {f : ContactFilter} (h : ContactStarts c f) : c.follow f = { c with run := .running } := by
  rw [follow_eq, follow_starts h]

theorem follow_of_stops {c : GameClock} {f : ContactFilter} (h : ContactStops c f) : c.follow f = { c with run := .stopped } := by
  rw [follow_eq, follow_stops h]

/-! ### SET_CONTACT (R67) -/

theorem setContact_badArgument (s : State) (c n : Nat) (h : 1 < c ∨ 1 < n) : TurnedAway (.setContact c n) s .badArgument := by
  show execSetContact c n s = _
  rcases h with hc | hn
  · simp only [execSetContact, contactOf_eq_none hc, carryOut]
  · unfold execSetContact
    rw [polarityOf_eq_none hn]
    cases contactOf c with
    | none => rfl
    | some contact => cases contact <;> rfl

theorem setContact_run {s : State} {n : Nat} {p : Polarity} (hp : polarityOf n = some p) :
    exec (.setContact 0 n) s = carryOut (.setContact 0 n) s
      (s.timed { s.timing with runFilter := ⟨p, none, 0, none⟩ } Raised.none) := by
  show execSetContact 0 n s = _
  simp only [execSetContact, contactOf, hp]

theorem setContact_play {s : State} {n : Nat} {p : Polarity} (hp : polarityOf n = some p) :
    exec (.setContact 1 n) s = carryOut (.setContact 1 n) s
      (s.timed { s.timing with playFilter := ⟨p, none, 0, none⟩ } Raised.none) := by
  show execSetContact 1 n s = _
  simp only [execSetContact, contactOf, hp]

/-! ### CONTACT_ACCEPT (R67, R68) -/

section
variable {s : State} {l : Level}

theorem contactAccept_run {f : ContactFilter} (hf : s.timing.runFilter.sample l = (f, true)) :
    exec (.contactAccept .run l) s = .next (s.settleTiming { s.timing with
      runFilter := f, clock := s.timing.clock.follow f } Raised.none) := by
  show execContactAccept .run l s = _
  simp [execContactAccept, hf, TimingUnit.applyContacts]

theorem contactAccept_play {f : ContactFilter} (hf : s.timing.playFilter.sample l = (f, true)) :
    exec (.contactAccept .play l) s = .next (s.settleTiming { s.timing with
      playFilter := f, clock := s.timing.clock.follow s.timing.runFilter
      play := if f.active then s.timing.play.reset else s.timing.play } Raised.none) := by
  show execContactAccept .play l s = _
  simp [execContactAccept, hf, TimingUnit.applyContacts]

end

theorem inactive_of_accepted {f : ContactFilter} (haccepted : f.accepted ≠ none) (hactive : f.active = false) :
    f.inactive = true := by
  simp [ContactFilter.inactive, hactive, Option.isSome_iff_ne_none, haccepted]

/-- Settles O18: the rows settle the clock as it follows the run contact, and each clause is a case of that. -/
theorem contacts : Obligations.Contacts := by
  refine ⟨fun s n p hp => ⟨does_timed (setContact_run hp), does_timed (setContact_play hp),
    fun c hc => setContact_badArgument s c n (.inl hc)⟩, setContact_badArgument, fun s l => ⟨?_, ?_⟩⟩
  · intro hcandidate hcount haccepted
    have hsample := sample_third hcandidate hcount
    rw [decide_eq_true haccepted] at hsample
    obtain ⟨t, hexec, hframe, hsends, ht⟩ := exec_settled (contactAccept_run hsample)
    refine ⟨t, hexec, hframe, hsends, ?_⟩
    rw [ht]
    exact ⟨rfl, rfl, rfl, rfl, rfl, fun hmode => follow_manual _ hmode,
      fun hmode hrun hleft hactive => follow_of_starts ⟨hmode, hactive, hrun, hleft⟩,
      fun hmode hrun hactive => follow_of_stops ⟨hmode, inactive_of_accepted (Option.some_ne_none l) hactive, hrun⟩⟩
  · intro hcandidate hcount haccepted
    have hsample := sample_third hcandidate hcount
    rw [decide_eq_true haccepted] at hsample
    obtain ⟨t, hexec, hframe, hsends, ht⟩ := exec_settled (contactAccept_play hsample)
    refine ⟨t, hexec, hframe, hsends, ?_⟩
    rw [ht]
    refine ⟨rfl, rfl, rfl, rfl, fun hmode => follow_manual _ hmode,
      fun hmode hrun hleft hactive => follow_of_starts ⟨hmode, hactive, hrun, hleft⟩,
      fun hmode hrun haccepted hactive => follow_of_stops ⟨hmode, inactive_of_accepted haccepted hactive, hrun⟩,
      fun _ hnone => follow_stands (fun h => ?_) (fun h => ?_), fun hactive => ?_, fun hactive => ?_⟩
    · have := (active_iff _).mp h.2.1
      simp [hnone] at this
    · exact ((inactive_iff _).mp h.2.1).1 hnone
    · dsimp only
      rw [if_pos hactive]
      rfl
    · exact if_neg (by simpa using hactive)

end Sys2Proof.Proofs.Timing
end

section
/-! PROOFS. The Timing Unit (chapter 4): the millisecond tick and the rows that name a part of it. -/

namespace Sys2Proof.Proofs.Timing

open Sys2Proof Sys2Proof.Machine

/-! ### One step of the game clock (R61) -/

/-- The value one step further. -/
def nextValue (c : GameClock) : Nat := if c.direction = .down then c.value - 1 else c.value + 1

/-- The clock runs and its next step reaches its limit. -/
abbrev EndsNext (c : GameClock) : Prop := c.run = .running ∧ nextValue c = if c.direction = .down then 0 else c.preset

theorem clock_tick_eq (c : GameClock) (frame : FrameNo) :
    c.tick frame =
      ({ c with
          run := if EndsNext c then .expired else c.run
          value := if c.run = .running then nextValue c else c.value },
        ⟨if EndsNext c then [.periodEnd c.period] else [],
          if EndsNext c then [.periodEnd c.period c.direction frame] else []⟩) := by
  unfold GameClock.tick EndsNext nextValue
  by_cases hrun : c.run = .running
  · cases hdir : c.direction
    · by_cases hend : c.value - 1 = 0 <;> simp [hrun, hend, Raised.none]
    · by_cases hend : c.value + 1 = c.preset <;> simp [hrun, hend, Raised.none]
  · simp [hrun, Raised.none]

theorem remaining_eq (c : GameClock) : c.remaining = if c.direction = .down then c.value else c.preset - c.value := by
  unfold GameClock.remaining
  cases c.direction <;> rfl

/-! ### One tick of the play clock (R69) -/

theorem counts_iff (p : PlayClock) (running : Bool) :
    p.counts running = true ↔ (p.mode = .linked ∧ running = true) ∨ (p.mode = .free ∧ p.running = true) := by
  unfold PlayClock.counts
  cases p.mode <;> simp

theorem play_tick_eq (p : PlayClock) (running : Bool) (frame : FrameNo) :
    p.tick running frame =
      ({ p with
          value := if p.counts running = true then p.value - 1 else p.value
          running := if (p.counts running = true ∧ p.value = 1) ∧ p.mode = .free then false else p.running },
        ⟨if p.counts running = true ∧ p.value = 1 then [.playExpiry] else [],
          if p.counts running = true ∧ p.value = 1 then [.playExpiry frame] else []⟩) := by
  unfold PlayClock.tick
  by_cases hcounts : p.counts running = true
  · by_cases hzero : p.value = 0
    · have hpositive : ¬ 0 < p.value := by omega
      have hsame : p.value - 1 = p.value := by omega
      have hone : p.value ≠ 1 := by omega
      simp only [hcounts, hpositive, hsame, hone, and_false, false_and, if_false, ite_self, Raised.none]
    · by_cases hone : p.value = 1
      · simp [hcounts, hone]
      · have hleft : p.value - 1 ≠ 0 := by omega
        simp [hcounts, hone, hleft, Nat.pos_of_ne_zero hzero, Raised.none]
  · simp [hcounts, Raised.none]

/-! ### The penalties on a running tick (R78) -/

/-- A list with every RUNNING entry one millisecond down. -/
def countedDown (ps : List Penalty) : List Penalty :=
  ps.map fun q => if q.start.isSome then { q with remaining := q.remaining - 1 } else q

/-- The RUNNING entries at 0. -/
def ended (ps : List Penalty) : List Penalty := ps.filter fun q => q.start.isSome && q.remaining == 0

/-- The entries that are not both RUNNING and at 0. -/
def notEnded (ps : List Penalty) : List Penalty := ps.filter fun q => q.start.isNone || q.remaining != 0

theorem notEnded_eq (ps : List Penalty) : notEnded ps = ps.filter fun q => !(q.running && q.remaining == 0) := by
  refine List.filter_congr fun q _ => ?_
  cases hstart : q.start <;> simp [Penalty.running, hstart, bne]

theorem countPenalties_eq (x : Team) :
    x.countPenalties =
      ({ x with penalties :=
          if ended (countedDown x.penalties) = [] then countedDown x.penalties
          else fill x.limit (notEnded (countedDown x.penalties)) },
        (ended (countedDown x.penalties)).map (·.player)) := by
  rw [notEnded_eq]
  by_cases hgone : ended (countedDown x.penalties) = []
  · rw [if_pos hgone, hgone]
    exact if_pos (List.isEmpty_iff.mpr hgone)
  · rw [if_neg hgone]
    exact if_neg (mt List.isEmpty_iff.mp hgone)

/-- A team's record after a tick, running or not. -/
def teamAfter (running : Bool) (x : Team) : Team := if running then x.countPenalties.1 else x

/-- The entries that leave a team's list on a tick. -/
def gonePenalties (running : Bool) (x : Team) : List Penalty := if running then ended (countedDown x.penalties) else []

theorem teamAfter_eq (running : Bool) (x : Team) :
    teamAfter running x = { x with penalties := (teamAfter running x).penalties } := by
  cases running
  · rfl
  · simp only [teamAfter, if_true, countPenalties_eq]

theorem teamAfter_none {x : Team} (h : ended (countedDown x.penalties) = []) :
    teamAfter true x = { x with penalties := countedDown x.penalties } := by
  simp only [teamAfter, if_true, countPenalties_eq, if_pos h]

theorem teamAfter_some {x : Team} (h : ended (countedDown x.penalties) ≠ []) :
    FilledFrom x.limit (notEnded (countedDown x.penalties)) (teamAfter true x).penalties := by
  simp only [teamAfter, if_true, countPenalties_eq, if_neg h]
  exact filledFrom_fill _ _

/-- With 2 ms or more left to every RUNNING entry none ends on the tick. -/
theorem ended_countedDown_eq_nil {ps : List Penalty} (h : ∀ q ∈ ps, q.start.isSome = true → 2 ≤ q.remaining) :
    ended (countedDown ps) = [] := by
  refine List.filter_eq_nil_iff.mpr fun q hq => ?_
  obtain ⟨p, hp, rfl⟩ := List.mem_map.mp hq
  by_cases hstart : p.start.isSome = true
  · have := h p hp hstart
    have hleft : p.remaining - 1 ≠ 0 := by omega
    simp [hstart, hleft]
  · simp [hstart]

/-! ### The whole tick (R59) -/

/-- The play clock as the play contact's sample leaves it (R68). -/
def playLoaded (t : TimingUnit) (play : Level) : PlayClock :=
  if (t.playFilter.sample play).2 && (t.playFilter.sample play).1.active then t.play.reset else t.play

/-- The game clock as the run contact's sample leaves it (R68). -/
def clockFollowed (t : TimingUnit) (run : Level) : GameClock := t.clock.follow (t.runFilter.sample run).1

/-- The five phases of a tick put together: the contacts' clocks step, and on a running tick the penalties count. -/
theorem tick_eq {t : TimingUnit} {run play : Level} {c : GameClock} {p : PlayClock} (hc : clockFollowed t run = c)
    (hp : playLoaded t play = p) (frame : FrameNo) :
    let running := c.run == .running
    t.tick run play frame =
      ({ t with
          clock := (c.tick frame).1
          play := (p.tick running frame).1
          runFilter := (t.runFilter.sample run).1
          playFilter := (t.playFilter.sample play).1
          team0 := teamAfter running t.team0
          team1 := teamAfter running t.team1 },
        ⟨(c.tick frame).2.events ++ (p.tick running frame).2.events,
          (c.tick frame).2.reports ++ (p.tick running frame).2.reports ++
            ((gonePenalties running t.team0).map fun q => .penaltyDone 0 q.player frame) ++
            (gonePenalties running t.team1).map fun q => .penaltyDone 1 q.player frame⟩) := by
  intro running
  have hphase : t.contactPhase run play = { t with
      clock := c, play := p, runFilter := (t.runFilter.sample run).1, playFilter := (t.playFilter.sample play).1 } := by
    rw [← hc, ← hp]
    rfl
  unfold TimingUnit.tick
  rw [hphase]
  dsimp only
  rw [show (c.run == .running) = running from rfl]
  cases running with
  | false => simp [teamAfter, gonePenalties, Raised.andThen, Raised.none]
  | true =>
    simp only [if_true, teamAfter, gonePenalties, TimingUnit.penaltyPhase, Raised.andThen, countPenalties_eq, List.map_map,
      List.append_nil, List.append_assoc]
    rfl

/-- The state with both contact lines sampled. -/
def linesSampled (s : State) (run play : Level) : State :=
  { s with lines := { s.lines with contactRun := run, contactPlay := play } }

theorem frame_linesSampled (s : State) (run play : Level) : Frame [.lines] s (linesSampled s run play) :=
  .of (.inl List.mem_cons_self) (.inr rfl) (.inr rfl) (.inr rfl) (.inr rfl) (.inr rfl) (.inr rfl) (.inr rfl) (.inr rfl)
    (.inr rfl) (.inr rfl) (.inr rfl) (.inr rfl) (.inr rfl) (.inr fun _ => rfl) (.inr rfl)

theorem msTick_resetHeld {s : State} (run play : Level) (h : s.lines.resetHeld = true) :
    exec (.msTick run play) s = .next (linesSampled s run play) :=
  if_pos h

/-- A tick that is taken settles the unit as its five phases leave it. -/
theorem msTick_settled {s : State} (run play : Level) (h : s.lines.resetHeld = false) :
    exec (.msTick run play) s = .next ((linesSampled s run play).settleTiming
      (s.timing.tick run play s.classifier.frame).1 (s.timing.tick run play s.classifier.frame).2) :=
  if_neg (by rw [h]; decide)

theorem msTick_taken {s : State} (run play : Level) (h : s.lines.resetHeld = false) :
    ∃ t, exec (.msTick run play) s = .next t ∧ Frame [.lines, .timing, .transit] s t ∧
      t.lines = { s.lines with contactRun := run, contactPlay := play } ∧
      TimingSends s t (s.timing.tick run play s.classifier.frame).2.events (s.timing.tick run play s.classifier.frame).2.reports ∧
      t.timing = { (s.timing.tick run play s.classifier.frame).1 with strings := t.timing.strings } :=
  ⟨_, msTick_settled run play h,
    ((frame_linesSampled s run play).mono (by simp)).trans ((settleTiming_frame _ _ _).mono (by simp)), rfl, rfl, rfl⟩

end Sys2Proof.Proofs.Timing
end

section
/-! PROOFS. The Timing Unit (chapter 4): the statements about the millisecond tick and its last milliseconds. -/

namespace Sys2Proof.Proofs.Timing

open Sys2Proof Sys2Proof.Machine

/-! ### A tick on which nothing ends (R59) -/

/-- The run state in which the run contact's sample leaves the game clock (R68). -/
theorem follow_run_eq (c : GameClock) (f : ContactFilter) :
    (c.follow f).run =
      if c.mode = .contact ∧ f.active = true ∧ c.run = .stopped ∧
        0 < (if c.direction = .down then c.value else c.preset - c.value) then .running
      else if c.mode = .contact ∧ f.accepted.isSome = true ∧ f.active = false ∧ c.run = .running then .stopped
      else c.run := by
  have hinactive : f.inactive = true ↔ f.accepted.isSome = true ∧ f.active = false := by simp [ContactFilter.inactive]
  rw [← remaining_eq]
  by_cases hstarts : ContactStarts c f
  · rw [follow_starts hstarts]
    exact (if_pos hstarts).symm
  · refine Eq.trans ?_ (if_neg hstarts).symm
    by_cases hstops : ContactStops c f
    · rw [follow_stops hstops]
      obtain ⟨hmode, hinact, hrun⟩ := hstops
      obtain ⟨haccepted, hactive⟩ := hinactive.mp hinact
      exact (if_pos ⟨hmode, haccepted, hactive, hrun⟩).symm
    · rw [follow_stands hstarts hstops]
      refine (if_neg ?_).symm
      rintro ⟨hmode, haccepted, hactive, hrun⟩
      exact hstops ⟨hmode, hinactive.mpr ⟨haccepted, hactive⟩, hrun⟩

/-- A clock with 2 ms or more to its limit does not end on its next step. -/
theorem not_endsNext {c : GameClock} (hdown : c.run = .running → c.direction = .down → 2 ≤ c.value)
    (hup : c.run = .running → c.direction = .up → c.value + 1 < c.preset) : ¬ EndsNext c := by
  rintro ⟨hrun, hnext⟩
  unfold nextValue at hnext
  cases hdir : c.direction with
  | down =>
    have := hdown hrun hdir
    simp only [hdir, if_true] at hnext
    omega
  | up =>
    have := hup hrun hdir
    simp only [hdir, reduceCtorEq, if_false] at hnext
    omega

theorem teamAfter_quiet {running : Bool} {x : Team}
    (h : running = true → ∀ q ∈ x.penalties, q.start.isSome = true → 2 ≤ q.remaining) :
    teamAfter running x = (if running = true then { x with penalties := countedDown x.penalties } else x) ∧
      gonePenalties running x = [] := by
  cases running with
  | false => exact ⟨rfl, rfl⟩
  | true =>
    have hnone := ended_countedDown_eq_nil (h rfl)
    exact ⟨teamAfter_none hnone, hnone⟩

/-- A tick on which neither clock ends, no penalty ends and the play contact is not accepted. -/
theorem tick_quiet {t : TimingUnit} {run play : Level} {frame : FrameNo} (haccept : (t.playFilter.sample play).2 = false)
    (hends : ¬ EndsNext (clockFollowed t run))
    (hplay : t.play.counts ((clockFollowed t run).run == .running) = true → t.play.value ≠ 1)
    (hpenalties : (clockFollowed t run).run = .running →
      ∀ q ∈ t.team0.penalties ++ t.team1.penalties, q.start.isSome = true → 2 ≤ q.remaining) :
    t.tick run play frame =
      ({ t with
          clock := { t.clock with
            run := (clockFollowed t run).run
            value := if (clockFollowed t run).run = .running then nextValue t.clock else t.clock.value }
          play := { t.play with
            value := if t.play.counts ((clockFollowed t run).run == .running) = true then t.play.value - 1 else t.play.value }
          runFilter := (t.runFilter.sample run).1
          playFilter := (t.playFilter.sample play).1
          team0 := if (clockFollowed t run).run = .running then
            { t.team0 with penalties := countedDown t.team0.penalties } else t.team0
          team1 := if (clockFollowed t run).run = .running then
            { t.team1 with penalties := countedDown t.team1.penalties } else t.team1 },
        Raised.none) := by
  have hclock : clockFollowed t run = { t.clock with run := (clockFollowed t run).run } := follow_eq _ _
  have hloaded : playLoaded t play = t.play := by simp [playLoaded, haccept]
  have hends : ¬ EndsNext { t.clock with run := (clockFollowed t run).run } := by rwa [← hclock]
  have hexpires : ¬ (t.play.counts ((clockFollowed t run).run == .running) = true ∧ t.play.value = 1) :=
    fun ⟨hcounts, hone⟩ => hplay hcounts hone
  obtain ⟨hteam0, hgone0⟩ := teamAfter_quiet (running := (clockFollowed t run).run == .running) (x := t.team0)
    fun hrun q hq => hpenalties (beq_iff_eq.mp hrun) q (List.mem_append_left _ hq)
  obtain ⟨hteam1, hgone1⟩ := teamAfter_quiet (running := (clockFollowed t run).run == .running) (x := t.team1)
    fun hrun q hq => hpenalties (beq_iff_eq.mp hrun) q (List.mem_append_right _ hq)
  rw [tick_eq hclock hloaded]
  simp only [clock_tick_eq, play_tick_eq, if_neg hends, hexpires, false_and, if_false, hteam0, hteam1, hgone0, hgone1,
    beq_iff_eq, List.map_nil, List.append_nil]
  rfl

/-! ### Any tick (R59, R67 to R69, R78) -/

/-- A sample in each state of the filter (R67). -/
theorem sample_spec (f : ContactFilter) (l : Level) :
    (f.candidate ≠ some l → (f.sample l).1 = { f with candidate := some l, count := 1 }) ∧
      (f.candidate = some l → f.count = 0 → (f.sample l).1 = { f with count := 1 }) ∧
      (f.candidate = some l → f.count = 1 → (f.sample l).1 = { f with count := 2 }) ∧
      (f.candidate = some l → 2 ≤ f.count → (f.sample l).1 = { f with count := 3, accepted := some l }) := by
  refine ⟨fun h => ?_, fun h hcount => ?_, fun h hcount => ?_, fun h hcount => ?_⟩
  · rw [sample_new h]
  · rw [sample_counted h (by omega), hcount]
  · rw [sample_counted h (by omega), hcount]
  · rw [sample_third h hcount]

/-- The run contact's accepted level starts, stops or leaves the clock (R68), with `level` the one its polarity calls active. -/
theorem follow_spec (c : GameClock) (f : ContactFilter) :
    (c.mode = .contact → f.accepted = some (activeLevel f) → c.run = .stopped → 0 < c.remaining →
        (c.follow f).run = .running) ∧
      (c.mode = .contact → f.accepted ≠ none → f.accepted ≠ some (activeLevel f) → c.run = .running →
        (c.follow f).run = .stopped) ∧
      (c.mode = .manual ∨ f.accepted = none ∨ c.run = .expired ∨
          (c.run = .stopped ∧ (f.accepted ≠ some (activeLevel f) ∨ c.remaining = 0)) ∨
          (c.run = .running ∧ f.accepted = some (activeLevel f)) → (c.follow f).run = c.run) := by
  refine ⟨fun hmode haccepted hrun hleft => follow_starts ⟨hmode, (active_iff f).mpr haccepted, hrun, hleft⟩,
    fun hmode hsome hother hrun => follow_stops ⟨hmode, (inactive_iff f).mpr ⟨hsome, hother⟩, hrun⟩, fun h => ?_⟩
  rw [follow_stands]
  · rintro ⟨hmode, hactive, hrun, hleft⟩
    have hactive := (active_iff f).mp hactive
    rcases h with h | h | h | ⟨_, h | h⟩ | ⟨h, _⟩
    · simp [h] at hmode
    · simp [h] at hactive
    · simp [h] at hrun
    · exact h hactive
    · omega
    · simp [h] at hrun
  · rintro ⟨hmode, hinactive, hrun⟩
    obtain ⟨hsome, hother⟩ := (inactive_iff f).mp hinactive
    rcases h with h | h | h | ⟨h, _⟩ | ⟨_, h⟩
    · simp [h] at hmode
    · exact hsome h
    · simp [h] at hrun
    · simp [h] at hrun
    · exact hother h

/-- The play contact's sample loads the play clock exactly when it is accepted active (R68). -/
theorem playLoaded_spec (t : TimingUnit) (play : Level) :
    let f := t.playFilter
    let reloads := (f.candidate = some play ∧ 2 ≤ f.count ∧ f.accepted ≠ some play) ∧ play = activeLevel f
    (reloads → playLoaded t play = t.play.reset) ∧ (¬ reloads → playLoaded t play = t.play) := by
  intro f reloads
  have haccepts := sample_accepts_iff t.playFilter play
  have hactive : (t.playFilter.sample play).2 = true →
      ((t.playFilter.sample play).1.active = true ↔ play = activeLevel t.playFilter) := by
    intro haccept
    obtain ⟨hcandidate, hcount, _⟩ := haccepts.mp haccept
    rw [active_iff, activeLevel_sample, sample_third hcandidate hcount]
    exact Option.some_inj
  have hiff : ((t.playFilter.sample play).2 && (t.playFilter.sample play).1.active) = true ↔ reloads := by
    rw [Bool.and_eq_true]
    constructor
    · rintro ⟨haccept, hact⟩
      exact ⟨haccepts.mp haccept, (hactive haccept).mp hact⟩
    · rintro ⟨hacc, hlevel⟩
      exact ⟨haccepts.mpr hacc, (hactive (haccepts.mpr hacc)).mpr hlevel⟩
  exact ⟨fun h => if_pos (hiff.mpr h), fun h => if_neg (mt hiff.mp h)⟩

theorem playLoaded_eq (t : TimingUnit) (play : Level) :
    playLoaded t play = { t.play with value := (playLoaded t play).value, running := (playLoaded t play).running } := by
  unfold playLoaded
  split <;> rfl

/-- What a tick does to a team's list (R78), with the entries that leave it. -/
theorem teamAfter_spec {now : RunState} (x : Team) :
    let running := now == .running
    (now ≠ .running → gonePenalties running x = [] ∧ teamAfter running x = x) ∧
      (now = .running → gonePenalties running x = ended (countedDown x.penalties) ∧
        teamAfter running x = { x with penalties := (teamAfter running x).penalties } ∧
        (gonePenalties running x = [] → (teamAfter running x).penalties = countedDown x.penalties) ∧
        (gonePenalties running x ≠ [] →
          FilledFrom x.limit (notEnded (countedDown x.penalties)) (teamAfter running x).penalties)) := by
  refine ⟨fun h => ?_, ?_⟩
  · have hstill : (now == .running) = false := beq_false_of_ne h
    rw [hstill]
    exact ⟨rfl, rfl⟩
  · rintro rfl
    exact ⟨rfl, teamAfter_eq _ x, fun h => congrArg Team.penalties (teamAfter_none h), teamAfter_some⟩

/-- A tick with everything that may end on it, in the terms of the two clocks as the contacts leave them. -/
theorem tick_ends (t : TimingUnit) (run play : Level) (frame : FrameNo) :
    let now := (clockFollowed t run).run
    let value := (playLoaded t play).value
    let going := (playLoaded t play).running
    let next := if t.clock.direction = .down then t.clock.value - 1 else t.clock.value + 1
    let ends := now = .running ∧ next = if t.clock.direction = .down then 0 else t.clock.preset
    let counts := (t.play.mode = .linked ∧ now = .running) ∨ (t.play.mode = .free ∧ going = true)
    let expires := counts ∧ value = 1
    t.tick run play frame =
      ({ t with
          clock := { t.clock with
            run := if ends then .expired else now
            value := if now = .running then next else t.clock.value }
          play := { t.play with
            value := if counts then value - 1 else value
            running := if expires ∧ t.play.mode = .free then false else going }
          runFilter := (t.runFilter.sample run).1
          playFilter := (t.playFilter.sample play).1
          team0 := teamAfter (now == .running) t.team0
          team1 := teamAfter (now == .running) t.team1 },
        ⟨(if ends then [.periodEnd t.clock.period] else []) ++ if expires then [.playExpiry] else [],
          (if ends then [.periodEnd t.clock.period t.clock.direction frame] else []) ++
            (if expires then [.playExpiry frame] else []) ++
            ((gonePenalties (now == .running) t.team0).map fun q => .penaltyDone 0 q.player frame) ++
            (gonePenalties (now == .running) t.team1).map fun q => .penaltyDone 1 q.player frame⟩) := by
  intro now value going next ends counts expires
  have hclock : clockFollowed t run = { t.clock with run := now } := follow_eq _ _
  have hplay : playLoaded t play = { t.play with value := value, running := going } := playLoaded_eq t play
  have hcounts : ({ t.play with value := value, running := going } : PlayClock).counts (now == .running) = true ↔ counts := by
    rw [counts_iff, beq_iff_eq]
  rw [tick_eq hclock hplay]
  simp only [clock_tick_eq, play_tick_eq, hcounts]
  rfl

/-- Settles O22: a tick on which nothing ends, a tick with RESET held, and a tick with all that ends on it. -/
theorem millisecondTick : Obligations.MillisecondTick := by
  refine ⟨?_, fun s run play h => msTick_resetHeld run play h, ?_⟩
  · intro s run play hreset haccept old filter starts stops now counts counted hdown hup hplay hpenalties
    obtain ⟨t, hexec, hframe, hlines, hsends, ht⟩ := msTick_taken run play hreset
    have hnow : (clockFollowed s.timing run).run = now := follow_run_eq _ _
    have hclock : clockFollowed s.timing run = { old with run := now } := by rw [← hnow]; exact follow_eq _ _
    have hcounts : s.timing.play.counts (now == .running) = true ↔ counts := by rw [counts_iff, beq_iff_eq]
    have hends : ¬ EndsNext (clockFollowed s.timing run) := by
      rw [hclock]
      exact not_endsNext hdown hup
    have hquiet := tick_quiet (frame := s.classifier.frame) haccept hends
      (by rw [hnow, hcounts]; exact hplay) (by rw [hnow]; exact hpenalties)
    rw [hnow] at hquiet
    simp only [hcounts] at hquiet
    rw [hquiet] at hsends ht
    exact ⟨t, hexec, hframe, hsends, hlines, ht⟩
  · intro s run play hreset
    obtain ⟨t, hexec, hframe, hlines, hsends, ht⟩ := msTick_taken run play hreset
    rw [tick_ends] at hsends ht
    have hrun : t.timing.runFilter = (s.timing.runFilter.sample run).1 := congrArg TimingUnit.runFilter ht
    have hplay : t.timing.playFilter = (s.timing.playFilter.sample play).1 := congrArg TimingUnit.playFilter ht
    have hteam0 := congrArg TimingUnit.team0 ht
    have hteam1 := congrArg TimingUnit.team1 ht
    have hlevel : activeLevel t.timing.runFilter = activeLevel s.timing.runFilter := by rw [hrun, activeLevel_sample]
    have hfollowed : s.timing.clock.follow t.timing.runFilter = clockFollowed s.timing run := by rw [hrun, clockFollowed]
    obtain ⟨hstarts, hstops, hstands⟩ := follow_spec s.timing.clock t.timing.runFilter
    obtain ⟨hreload, hkeep⟩ := playLoaded_spec s.timing play
    rw [hlevel, hfollowed] at hstops
    rw [hlevel, hfollowed, remaining_eq] at hstarts hstands
    refine ⟨t, (clockFollowed s.timing run).run, (playLoaded s.timing play).value, (playLoaded s.timing play).running,
      gonePenalties _ s.timing.team0, gonePenalties _ s.timing.team1, hexec, hframe, hlines,
      hrun ▸ sample_spec _ _, hplay ▸ sample_spec _ _, hstarts, hstops, hstands, ?_, ?_, ?_, ?_, ?_, hsends⟩
    · intro h
      rw [hreload h]
      exact ⟨rfl, rfl⟩
    · intro h
      rw [hkeep h]
      exact ⟨rfl, rfl⟩
    · rw [hteam0]
      exact teamAfter_spec _
    · rw [hteam1]
      exact teamAfter_spec _
    · rw [hrun, hplay, hteam0, hteam1]
      exact ht

/-! ### The rows that name the last milliseconds (R61, R69, R78) -/

/-- PERIOD_END of a clock whose next step reaches its limit. -/
theorem periodEnd_ends {s : State} (h : EndsNext s.timing.clock) :
    exec .periodEnd s = .next (s.settleTiming
      { s.timing with clock := { s.timing.clock with value := nextValue s.timing.clock, run := .expired } }
      ⟨[.periodEnd s.timing.clock.period],
        [.periodEnd s.timing.clock.period s.timing.clock.direction s.classifier.frame]⟩) := by
  show execPeriodEnd s = _
  simp only [execPeriodEnd, clock_tick_eq, if_pos h, h.1, and_self, if_true]

/-- PLAY_EXPIRY of a play clock that counts its last millisecond. -/
theorem playExpiry_expires {s : State} (hone : s.timing.play.value = 1)
    (hcounts : s.timing.play.counts (s.timing.clock.run == .running) = true) :
    exec .playExpiry s = .next (s.settleTiming
      { s.timing with play := { s.timing.play with
          value := 0, running := if s.timing.play.mode = .free then false else s.timing.play.running } }
      ⟨[.playExpiry], [.playExpiry s.classifier.frame]⟩) := by
  show execPlayExpiry s = _
  simp only [execPlayExpiry, play_tick_eq, hcounts, hone, true_and, if_true, Nat.sub_self]

/-- The RUNNING entries at their last millisecond. -/
def endingNext (ps : List Penalty) : List Penalty := ps.filter fun q => q.start.isSome && decide (q.remaining ≤ 1)

/-- The entries that are not both RUNNING and at their last millisecond. -/
def stayingNext (ps : List Penalty) : List Penalty := ps.filter fun q => q.start.isNone || !(decide (q.remaining ≤ 1))

theorem penaltiesDone_eq (x : Team) :
    x.penaltiesDone =
      ({ x with penalties := fill x.limit (stayingNext x.penalties) }, (endingNext x.penalties).map (·.player)) := by
  have hstaying : stayingNext x.penalties = x.penalties.filter fun q => !(q.running && decide (q.remaining ≤ 1)) := by
    refine List.filter_congr fun q _ => ?_
    cases hstart : q.start <;> simp [Penalty.running, hstart]
  rw [hstaying]
  rfl

theorem penaltyDone_nothing {s : State} {team : Nat}
    (h : s.timing.clock.run ≠ .running ∨ endingNext (s.timing.team team).penalties = []) :
    exec (.penaltyDone team) s = .next s := by
  show execPenaltyDone team s = _
  unfold execPenaltyDone
  rw [penaltiesDone_eq]
  refine if_neg ?_
  rintro ⟨_, hrun, hsome⟩
  rcases h with h | h
  · exact h hrun
  · exact hsome (by rw [h, List.map_nil])

/-- PENALTY_DONE with RUNNING entries at their last millisecond: they leave with their reports, and the list is filled. -/
theorem penaltyDone_some {s : State} {team : Nat} (hteam : team ≤ 1) (hrun : s.timing.clock.run = .running)
    (hsome : endingNext (s.timing.team team).penalties ≠ []) :
    ∃ t, exec (.penaltyDone team) s = .next t ∧ Frame [.timing, .transit] s t ∧
      TimingSends s t [] ((endingNext (s.timing.team team).penalties).map fun q => .penaltyDone team q.player s.classifier.frame) ∧
      OnlyTeam s t team ∧
      t.timing.team team = { s.timing.team team with penalties := (t.timing.team team).penalties } ∧
      FilledFrom (s.timing.team team).limit (stayingNext (s.timing.team team).penalties) (t.timing.team team).penalties := by
  let x := s.timing.team team
  have hexec : exec (.penaltyDone team) s = .next (s.settleTiming
      (s.timing.setTeam team { x with penalties := fill x.limit (stayingNext x.penalties) })
      ⟨[], (endingNext x.penalties).map fun q => .penaltyDone team q.player s.classifier.frame⟩) := by
    show execPenaltyDone team s = _
    unfold execPenaltyDone
    rw [penaltiesDone_eq]
    refine (if_pos ⟨hteam, hrun, mt List.map_eq_nil_iff.mp hsome⟩).trans ?_
    rw [List.map_map]
    rfl
  obtain ⟨t, ht, hframe, hsends, htiming⟩ := exec_settled hexec
  obtain ⟨hteamIs, honly⟩ := onlyTeam_setTeam hteam htiming
  refine ⟨t, ht, hframe, hsends, honly, ?_, ?_⟩
  · rw [hteamIs]
  · rw [hteamIs]
    exact filledFrom_fill _ _

/-- Settles O23: each clause is one of the rows at a last millisecond, or the row with nothing at its last millisecond. -/
theorem lastMilliseconds : Obligations.LastMilliseconds := by
  intro s
  refine ⟨fun hrun hdir hvalue => ?_, fun hrun hdir hvalue => ?_, fun hone hmode hrunning => ?_, fun hone hmode hrun => ?_,
    fun team hrun => penaltyDone_nothing (.inl hrun), fun team q rest hteam hrun hstart hlast hlist hrest => ?_,
    fun team hteam hrun => ⟨fun hnone => penaltyDone_nothing (.inr hnone), penaltyDone_some hteam hrun⟩⟩
  · have hnext : nextValue s.timing.clock = 0 := by simp [nextValue, hdir, hvalue]
    have hexec := periodEnd_ends (s := s) ⟨hrun, by rw [hnext, if_pos hdir]⟩
    rw [hnext] at hexec
    exact hdir ▸ exec_settled hexec
  · have hnext : nextValue s.timing.clock = s.timing.clock.preset := by simp [nextValue, hdir, hvalue]
    have hexec := periodEnd_ends (s := s) ⟨hrun, by rw [hnext, if_neg (by simp [hdir])]⟩
    rw [hnext] at hexec
    exact hdir ▸ exec_settled hexec
  · have hexec := playExpiry_expires hone ((counts_iff _ _).mpr (.inr ⟨hmode, hrunning⟩))
    rw [if_pos hmode] at hexec
    exact exec_settled hexec
  · have hexec := playExpiry_expires hone ((counts_iff _ _).mpr (.inl ⟨hmode, beq_iff_eq.mpr hrun⟩))
    rw [if_neg (by simp [hmode])] at hexec
    exact exec_settled hexec
  · have hnoneLast : endingNext rest = [] := List.filter_eq_nil_iff.mpr fun p hp hends => by
      obtain ⟨hp1, hp2⟩ := Bool.and_eq_true_iff.mp hends
      have := hrest p hp hp1
      have := of_decide_eq_true hp2
      omega
    have hallStay : stayingNext rest = rest := List.filter_eq_self.mpr fun p hp => by
      cases hp1 : p.start with
      | none => rfl
      | some n =>
        have := hrest p hp (by rw [hp1]; rfl)
        have hmore : ¬ p.remaining ≤ 1 := by omega
        simp [hmore]
    have hgone : endingNext (s.timing.team team).penalties = [q] := by
      rw [hlist, ← hnoneLast]
      exact List.filter_cons_of_pos (by simp [hstart, hlast])
    have hstay : stayingNext (s.timing.team team).penalties = rest := by
      conv => rhs; rw [← hallStay]
      rw [hlist]
      exact List.filter_cons_of_neg (by simp [Option.isSome_iff_ne_none.mp hstart, hlast])
    obtain ⟨t, hexec, hframe, hsends, honly, _, hfilled⟩ := penaltyDone_some hteam hrun (by rw [hgone]; exact List.cons_ne_nil _ _)
    rw [hgone] at hsends
    rw [hstay] at hfilled
    exact ⟨t, hexec, hframe, hsends, hfilled.entries, honly⟩

end Sys2Proof.Proofs.Timing
end

section
/-! PROOFS. The Timing Unit (chapter 4): the commands of the penalty lists and of the score record. -/

namespace Sys2Proof.Proofs.Timing

open Sys2Proof Sys2Proof.Machine

/-! ### The score record (R79) -/

theorem reach_timing (s : State) (p : CommandPart) : (s.reach p).timing = s.timing := by
  have hframe := frame_reach s p .timing
  cases p <;> exact hframe (by simp)

theorem reachAll_timing (s : State) (ps : List CommandPart) : (s.reachAll ps).timing = s.timing := by
  induction ps generalizing s with
  | nil => rfl
  | cons p ps ih => rw [reachAll_cons, ih, reach_timing]

/-- A control reset, at whichever of its arrivals, leaves the Timing Unit. -/
theorem resetUnits_timing (s : State) : ∃ t, exec .resetUnits s = .next t ∧ t.timing = s.timing := by
  show ∃ t, execResetUnits s = .next t ∧ t.timing = s.timing
  unfold execResetUnits carryNext
  split
  · exact ⟨_, rfl, reachAll_timing s _⟩
  · unfold carryFirst
    split
    · exact ⟨_, rfl, reach_timing s _⟩
    · exact ⟨_, rfl, (reachAll_timing _ _).trans (reach_timing s _)⟩

section
variable {s : State} {team : Nat}

theorem scoreSet_carried (v : Nat) (hteam : team ≤ 1) :
    exec (.scoreSet team v) s = carryOut (.scoreSet team v) s
      (s.teamed team { s.timing.team team with score := min v 999 } Raised.none) :=
  congrArg (carryOut _ s) (if_neg (Nat.not_lt.mpr hteam))

theorem setTimeouts_carried (v : Nat) (hteam : team ≤ 1) :
    exec (.setTimeouts team v) s = carryOut (.setTimeouts team v) s
      (s.teamed team { s.timing.team team with timeouts := min v 9 } Raised.none) :=
  congrArg (carryOut _ s) (if_neg (Nat.not_lt.mpr hteam))

/-- The score that a delta leaves. -/
def addedScore (score : Nat) (delta : Int) : Nat := (clampInt 0 999 ((score : Int) + clampInt (-9) 9 delta)).toNat

theorem addedScore_eq (score : Nat) (delta : Int) :
    (addedScore score delta : Int) = max 0 (min 999 ((score : Int) + max (-9) (min 9 delta))) := by
  rw [addedScore, clampInt_eq 0 999 _ (by omega), clampInt_eq (-9) 9 _ (by omega), Int.toNat_of_nonneg (by omega)]

theorem scoreAdd_carried (delta : Int) (hteam : team ≤ 1) :
    exec (.scoreAdd team delta) s = carryOut (.scoreAdd team delta) s
      (s.teamed team { s.timing.team team with score := addedScore (s.timing.team team).score delta }
        ⟨if (s.timing.team team).score < addedScore (s.timing.team team).score delta then [.scoreUp team] else [], []⟩) := by
  refine congrArg (carryOut _ s) ((if_neg (Nat.not_lt.mpr hteam)).trans (congrArg (s.teamed team _) ?_))
  rw [addedScore]
  split <;> rfl

theorem timeout_carried (hteam : team ≤ 1) (hleft : 0 < (s.timing.team team).timeouts) :
    exec (.timeout team) s = carryOut (.timeout team) s
      (s.teamed team { s.timing.team team with timeouts := (s.timing.team team).timeouts - 1 } ⟨[.timeout team], []⟩) :=
  congrArg (carryOut _ s) ((if_neg (Nat.not_lt.mpr hteam)).trans (if_neg (Nat.ne_of_gt hleft)))

theorem timeout_turnedAway (hteam : team ≤ 1) (hnone : (s.timing.team team).timeouts = 0) :
    TurnedAway (.timeout team) s .wrongState :=
  congrArg (carryOut (.timeout team) s) ((if_neg (Nat.not_lt.mpr hteam)).trans (if_pos hnone))

/-- The four commands refuse a team above 1. -/
theorem score_badArgument (v : Nat) (delta : Int) (hteam : 1 < team) :
    TurnedAway (.scoreSet team v) s .badArgument ∧ TurnedAway (.scoreAdd team delta) s .badArgument ∧
      TurnedAway (.setTimeouts team v) s .badArgument ∧ TurnedAway (.timeout team) s .badArgument :=
  ⟨congrArg (carryOut _ s) (if_pos hteam), congrArg (carryOut _ s) (if_pos hteam), congrArg (carryOut _ s) (if_pos hteam),
    congrArg (carryOut _ s) (if_pos hteam)⟩

end

/-- Settles O21: each clause is one branch of its command, and no part of a control reset is the Timing Unit's. -/
theorem scoreCommands : Obligations.ScoreCommands := by
  refine ⟨fun team => ?_, resetUnits_timing, fun s team v delta => ⟨fun hteam => ⟨does_teamed hteam (scoreSet_carried v hteam), ?_,
    does_teamed hteam (setTimeouts_carried v hteam), fun hleft => does_teamed hteam (timeout_carried hteam hleft),
    timeout_turnedAway hteam⟩, score_badArgument v delta⟩⟩
  · unfold TimingUnit.team
    split <;> exact ⟨rfl, rfl⟩
  · obtain ⟨t, hdoes, hframe, hsends, hrest⟩ := does_teamed hteam (scoreAdd_carried (s := s) delta hteam)
    exact ⟨t, _, hdoes, hframe, addedScore_eq _ _, hsends, hrest⟩

/-! ### Lists with an entry posted (R75) -/

theorem runningCount_append (ps qs : List Penalty) : runningCount (ps ++ qs) = runningCount ps + runningCount qs := by
  simp [runningCount]

theorem playerRunning_append (ps qs : List Penalty) (n : Nat) :
    playerRunning (ps ++ qs) n = (playerRunning ps n || playerRunning qs n) := by
  simp [playerRunning]

theorem startFirst_append {f : Penalty → Bool} (n : Nat) {ps : List Penalty} (q : Penalty) (h : ∀ p ∈ ps, f p = false)
    (hq : f q = true) : startFirst f n (ps ++ [q]) = ps ++ [{ q with start := some n }] := by
  induction ps with
  | nil => simp [startFirst, hq]
  | cons p ps ih =>
    have hp : f p = false := h p List.mem_cons_self
    have hrest := ih fun r hr => h r (List.mem_cons_of_mem p hr)
    simp [startFirst, hp, hrest]

/-- What a full list below its limit becomes with a RUNNING entry posted is full. -/
theorem fullList_started {limit : Nat} {ps : List Penalty} {q : Penalty} (hfull : FullList limit ps)
    (hless : runningCount ps < limit) (n : Nat) : FullList limit (ps ++ [{ q with start := some n }]) := by
  intro p hp hwaiting _
  rw [playerRunning_append, Bool.or_eq_true]
  rcases List.mem_append.mp hp with hold | hnew
  · exact .inl (hfull p hold hwaiting hless)
  · rw [List.mem_singleton.mp hnew] at hwaiting
    cases hwaiting

section
variable {limit : Nat} {ps : List Penalty} {q : Penalty} (hfull : FullList limit ps) (hq : q.start = none)
include hfull hq

/-- A full list with an entry posted that may not start is full. -/
theorem fullList_posted (hwaits : ¬ (runningCount ps < limit ∧ playerRunning ps q.player = false)) :
    FullList limit (ps ++ [q]) := by
  intro p hp hwaiting hless
  have hsame : runningCount [q] = 0 := by simp [runningCount, Penalty.running, hq]
  rw [runningCount_append, hsame] at hless
  rw [playerRunning_append, Bool.or_eq_true]
  refine .inl ?_
  rcases List.mem_append.mp hp with hold | hnew
  · exact hfull p hold hwaiting hless
  · rw [List.mem_singleton.mp hnew]
    cases hruns : playerRunning ps q.player with
    | true => rfl
    | false => exact absurd ⟨hless, hruns⟩ hwaits

/-- A full list starts an entry posted whose player does not run, and no other. -/
theorem fillOne_posted (hless : runningCount ps < limit) (hplayer : playerRunning ps q.player = false) :
    fillOne limit (ps ++ [q]) = ps ++ [{ q with start := some (lastStart (ps ++ [q])) }] := by
  have hsame : runningCount [q] = 0 := by simp [runningCount, Penalty.running, hq]
  have hnone : ∀ n, playerRunning [q] n = false := by simp [playerRunning, Penalty.running, hq]
  have hcount : runningCount (ps ++ [q]) < limit := by rw [runningCount_append, hsame]; exact hless
  have hplayers : ∀ n, playerRunning (ps ++ [q]) n = playerRunning ps n := fun n => by
    rw [playerRunning_append, hnone, Bool.or_false]
  unfold fillOne
  rw [if_pos hcount]
  refine startFirst_append _ q (fun p hp => ?_) ?_
  · cases hstart : p.start with
    | none => simp [hplayers, hfull p hp hstart hless]
    | some n => simp [Penalty.running, hstart]
  · simp [Penalty.running, hq, hplayers, hplayer]

/-- The fill of a full list with such an entry posted. -/
theorem fill_posted (hless : runningCount ps < limit) (hplayer : playerRunning ps q.player = false) :
    fill limit (ps ++ [q]) = ps ++ [{ q with start := some (lastStart (ps ++ [q])) }] := by
  have hone := fillOne_posted hfull hq hless hplayer
  have hagain := fillOne_of_full _ _ (fullList_started (q := q) hfull hless (lastStart (ps ++ [q])))
  have hrepeat : ∀ k, Nat.repeat (fillOne limit) (k + 1) (ps ++ [q]) = ps ++ [{ q with start := some (lastStart (ps ++ [q])) }] := by
    intro k
    induction k with
    | zero => exact hone
    | succ k ih => rw [Nat.repeat, ih, hagain]
  obtain ⟨k, rfl⟩ : ∃ k, limit = k + 1 := ⟨limit - 1, by omega⟩
  exact hrepeat k

end

/-! ### The commands of the penalty lists (R75 to R77) -/

/-- A command carried out that leaves a team with a list and a limit, the rest of its record kept. -/
theorem does_list {cmd : Instr} {s : State} {team n : Nat} {ps : List Penalty} (hteam : team ≤ 1)
    (h : exec cmd s = carryOut cmd s (s.teamed team { s.timing.team team with penalties := ps, limit := n } Raised.none)) :
    ∃ t, Does cmd s 0 0 t ∧ Frame [.timing, .transit, .reader] s t ∧ TimingSends s t [] [] ∧ OnlyTeam s t team ∧
      t.timing.team team = { s.timing.team team with penalties := ps, limit := n } := by
  obtain ⟨t, hdoes, hframe, hsends, hrecord, honly⟩ := does_teamed hteam h
  exact ⟨t, hdoes, hframe, hsends, honly, hrecord⟩

section
variable {s : State} {team player : Nat} (v : Nat)

/-- The team's list with an entry posted, WAITING. -/
def postedList (s : State) (team player v : Nat) : List Penalty :=
  (s.timing.team team).penalties ++ [⟨player, clamp 1000 600000 v, none⟩]

theorem not_outOfRange (hteam : team ≤ 1) (hplayer : player ≤ 99) : ¬ (1 < team ∨ 99 < player) := by omega

theorem penaltyAdd_carried (hteam : team ≤ 1) (hplayer : player ≤ 99) (hroom : (s.timing.team team).penalties.length < 8) :
    exec (.penaltyAdd team player v) s = carryOut (.penaltyAdd team player v) s (s.teamed team { s.timing.team team with
      penalties := fill (s.timing.team team).limit (postedList s team player v) } Raised.none) :=
  congrArg (carryOut _ s) ((if_neg (not_outOfRange hteam hplayer)).trans (if_neg (Nat.not_le.mpr hroom)))

theorem penaltyAdd_noRoom (hteam : team ≤ 1) (hplayer : player ≤ 99) (hfull : 8 ≤ (s.timing.team team).penalties.length) :
    TurnedAway (.penaltyAdd team player v) s .noRoom :=
  congrArg (carryOut (.penaltyAdd team player v) s) ((if_neg (not_outOfRange hteam hplayer)).trans (if_pos hfull))

theorem penaltyCancel_carried (hteam : team ≤ 1) (hplayer : player ≤ 99)
    (hsome : ∃ q ∈ (s.timing.team team).penalties, q.player = player) :
    exec (.penaltyCancel team player) s = carryOut (.penaltyCancel team player) s (s.teamed team { s.timing.team team with
      penalties := fill (s.timing.team team).limit ((s.timing.team team).penalties.eraseP fun q => q.player == player) }
      Raised.none) :=
  congrArg (carryOut _ s) ((if_neg (not_outOfRange hteam hplayer)).trans (if_pos (by simpa using hsome)))

theorem penaltyCancel_notFound (hteam : team ≤ 1) (hplayer : player ≤ 99)
    (hnone : ∀ q ∈ (s.timing.team team).penalties, q.player ≠ player) : TurnedAway (.penaltyCancel team player) s .notFound :=
  congrArg (carryOut (.penaltyCancel team player) s) ((if_neg (not_outOfRange hteam hplayer)).trans (if_neg (by simpa using hnone)))

theorem penaltyClear_carried (hteam : team ≤ 1) :
    exec (.penaltyClear team) s = carryOut (.penaltyClear team) s
      (s.teamed team { s.timing.team team with penalties := [] } Raised.none) :=
  congrArg (carryOut _ s) (if_neg (Nat.not_lt.mpr hteam))

theorem setConcurrency_filled (hteam : team ≤ 1) (hlimit : runningCount (s.timing.team team).penalties ≤ clamp 1 3 v) :
    exec (.setConcurrency team v) s = carryOut (.setConcurrency team v) s (s.teamed team { s.timing.team team with
      penalties := fill (clamp 1 3 v) (s.timing.team team).penalties, limit := clamp 1 3 v } Raised.none) :=
  congrArg (carryOut _ s) ((if_neg (Nat.not_lt.mpr hteam)).trans (if_neg (Nat.not_lt.mpr hlimit)))

theorem setConcurrency_demoted (hteam : team ≤ 1) (hlimit : clamp 1 3 v < runningCount (s.timing.team team).penalties) :
    exec (.setConcurrency team v) s = carryOut (.setConcurrency team v) s (s.teamed team { s.timing.team team with
      penalties := demote (clamp 1 3 v) (s.timing.team team).penalties, limit := clamp 1 3 v } Raised.none) :=
  congrArg (carryOut _ s) ((if_neg (Nat.not_lt.mpr hteam)).trans (if_pos hlimit))

end

/-- Settles O20: each clause is one branch of its command, with what a fill and a demotion do to a list. -/
theorem penaltyCommands : Obligations.PenaltyCommands := by
  intro s team player v x changes posted left full starts
  refine ⟨fun hbad => ⟨congrArg (carryOut _ s) (if_pos hbad), congrArg (carryOut _ s) (if_pos hbad)⟩,
    fun hbad => ⟨congrArg (carryOut _ s) (if_pos hbad), congrArg (carryOut _ s) (if_pos hbad)⟩,
    penaltyAdd_noRoom v, fun hteam hplayer hroom => ?_, penaltyCancel_notFound,
    fun hteam hplayer hsome => ⟨_, does_list hteam (penaltyCancel_carried hteam hplayer hsome), filledFrom_fill _ _⟩,
    fun hteam => does_list hteam (penaltyClear_carried hteam),
    fun hteam hless => ⟨_, does_list hteam (setConcurrency_filled v hteam (Nat.le_of_lt hless)), filledFrom_fill _ _⟩,
    fun hteam heq => ?_,
    fun hteam hless => ⟨_, does_list hteam (setConcurrency_demoted v hteam hless), demotedTo_demote _ _ (Nat.le_of_lt hless)⟩⟩
  · have hadd := penaltyAdd_carried v hteam hplayer hroom
    refine ⟨⟨_, does_list hteam hadd, filledFrom_fill _ _⟩, fun hfull ⟨hless, hfree⟩ => ⟨lastStart (posted none), ?_, ?_⟩,
      fun hfull hwaits => ?_⟩
    · rw [postedList, fill_posted hfull rfl hless hfree] at hadd
      exact does_list hteam hadd
    · exact fun q hq => start_lt_lastStart _ q (List.mem_append_left _ hq)
    · rw [postedList, fill_of_full _ _ (fullList_posted hfull rfl hwaits)] at hadd
      exact does_list hteam hadd
  · have hfull : FullList (clamp 1 3 v) x.penalties := fun _ _ _ hless => absurd heq (Nat.ne_of_lt hless)
    have hset := setConcurrency_filled v hteam (Nat.le_of_eq heq)
    rw [fill_of_full _ _ hfull] at hset
    exact does_list hteam hset

end Sys2Proof.Proofs.Timing
end

section
/-! PROOFS. The Timing Unit (chapter 4): every step leaves the strings fresh and its changes noticed, and what the strings are. -/

namespace Sys2Proof.Proofs.Timing

open Sys2Proof Sys2Proof.Machine

/-! ### Strings and notices after a step (R73) -/

/-- The strings stand with no notice sent, or they are fresh with a notice sent for each that changed. -/
def StringsFollow (s t : State) : Prop :=
  (t.timing = s.timing ∧ t.transit.notices = s.transit.notices) ∨
    ((∀ f ∈ allFields, t.timing.string f = t.timing.freshString f) ∧
      t.transit.notices = s.transit.notices ++ allFields.filter fun f => t.timing.string f != s.timing.string f)

theorem stringsFollow_refl (s : State) : StringsFollow s s := .inl ⟨rfl, rfl⟩

theorem stringsFollow_settleTiming {s : State} {u : TimingUnit} (r : Raised) (h : u.strings = s.timing.strings) :
    StringsFollow s (s.settleTiming u r) := by
  refine .inr ⟨fun f hf => ?_, settleTiming_notices s u r h⟩
  rw [settleTiming_timing, string_withStrings u f hf, freshString_withStrings]

/-- What every command of the Timing Unit comes to: a refusal, or a unit settled that still has the kept strings. -/
inductive TimingTaken (s : State) : Taken → Prop where
  | refused (r : Reason) : TimingTaken s (.refused r)
  | timed (u : TimingUnit) (r : Raised) (h : u.strings = s.timing.strings) : TimingTaken s (s.timed u r)

theorem TimingTaken.ite {s : State} {p : Prop} [Decidable p] {x y : Taken} (hx : TimingTaken s x) (hy : TimingTaken s y) :
    TimingTaken s (if p then x else y) := by
  split
  · exact hx
  · exact hy

theorem TimingTaken.teamed (s : State) (team : Nat) (x : Team) (r : Raised) : TimingTaken s (s.teamed team x r) :=
  .timed _ _ (by rw [setTeam_fields])

theorem stringsFollow_carryOut {cmd : Instr} {s t : State} {x : Taken} (h : carryOut cmd s x = .next t) (hx : TimingTaken s x) :
    StringsFollow s t := by
  rcases hx with r | ⟨u, r, hu⟩
  · injection h with h
    rw [← h]
    exact stringsFollow_refl s
  · injection h with h
    rw [← h]
    exact stringsFollow_settleTiming r hu

theorem stringsFollow_timed {cmd : Instr} {s t : State} {u : TimingUnit} {r : Raised}
    (hexec : exec cmd s = carryOut cmd s (s.timed u r)) (hu : u.strings = s.timing.strings) (h : exec cmd s = .next t) :
    StringsFollow s t :=
  stringsFollow_carryOut (hexec.symm.trans h) (.timed u r hu)

/-- The ticks of the Timing Unit and the parts of a tick: each settles a unit that still has the kept strings, or changes nothing. -/
theorem stringsFollow_ite {s t : State} {p : Prop} [Decidable p] {u : TimingUnit} {r : Raised}
    (h : (if p then .next (s.settleTiming u r) else .next s : Host.Outcome State Fault Refusal) = .next t)
    (hu : u.strings = s.timing.strings) : StringsFollow s t := by
  split at h
  · injection h with h
    exact h ▸ stringsFollow_settleTiming r hu
  · injection h with h
    exact h ▸ stringsFollow_refl s

theorem tick_strings (t : TimingUnit) (run play : Level) (frame : FrameNo) :
    (t.tick run play frame).1.strings = t.strings := by
  unfold TimingUnit.tick
  dsimp only
  split <;> rfl

theorem stringsFollow_msTick {s t : State} {run play : Level} (h : exec (.msTick run play) s = .next t) : StringsFollow s t := by
  change execMsTick run play s = .next t at h
  unfold execMsTick at h
  dsimp only at h
  split at h
  · injection h with h
    exact h ▸ .inl ⟨rfl, rfl⟩
  · injection h with h
    exact h ▸ stringsFollow_settleTiming _ (tick_strings _ _ _ _)

theorem stringsFollow_contactAccept {s t : State} {contact : Contact} {l : Level}
    (h : exec (.contactAccept contact l) s = .next t) : StringsFollow s t := by
  cases contact with
  | run => exact stringsFollow_ite h rfl
  | play => exact stringsFollow_ite h rfl

/-- After every row of the Timing Unit. -/
theorem stringsFollow_exec {c : Instr} {s t : State} (hc : isTimingStep c = true) (h : exec c s = .next t) : StringsFollow s t := by
  cases c with
  | msTick => exact stringsFollow_msTick h
  | contactAccept => exact stringsFollow_contactAccept h
  | periodEnd => exact stringsFollow_ite h rfl
  | playExpiry => exact stringsFollow_ite h rfl
  | penaltyDone team => exact stringsFollow_ite h (by rw [setTeam_fields])
  | clockStart => exact stringsFollow_carryOut h (.ite (.refused _) (.ite (.timed _ _ rfl) (.ite (.timed _ _ rfl) (.refused _))))
  | clockStop => exact stringsFollow_carryOut h (.ite (.refused _) (.ite (.timed _ _ rfl) (.timed _ _ rfl)))
  | clockSet v =>
    cases hdir : s.timing.clock.direction with
    | down => exact stringsFollow_timed (clockSet_down v hdir) rfl h
    | up => exact stringsFollow_timed (clockSet_up v hdir) rfl h
  | clockMode mode direction =>
    refine stringsFollow_carryOut h ?_
    split
    · exact .ite (.refused _) (.timed _ _ rfl)
    · exact .refused _
  | setPreset =>
    refine stringsFollow_carryOut h ?_
    split <;> exact .timed _ _ rfl
  | nextPeriod => exact stringsFollow_timed (nextPeriod_carried s) rfl h
  | setContact =>
    refine stringsFollow_carryOut h ?_
    split
    · exact .timed _ _ rfl
    · exact .timed _ _ rfl
    · exact .refused _
  | playMode =>
    refine stringsFollow_carryOut h ?_
    split
    · exact .timed _ _ rfl
    · exact .refused _
  | playStart => exact stringsFollow_carryOut h (.ite (.refused _) (.timed _ _ rfl))
  | playStop => exact stringsFollow_carryOut h (.ite (.refused _) (.timed _ _ rfl))
  | playSet v => exact stringsFollow_timed (playSet_carried s v) rfl h
  | playReset => exact stringsFollow_carryOut (show execPlayReset s = .next t from h) (.timed _ _ rfl)
  | penaltyAdd => exact stringsFollow_carryOut h (.ite (.refused _) (.ite (.refused _) (.teamed _ _ _ _)))
  | penaltyCancel => exact stringsFollow_carryOut h (.ite (.refused _) (.ite (.teamed _ _ _ _) (.refused _)))
  | penaltyClear => exact stringsFollow_carryOut h (.ite (.refused _) (.teamed _ _ _ _))
  | setConcurrency => exact stringsFollow_carryOut h (.ite (.refused _) (.ite (.teamed _ _ _ _) (.teamed _ _ _ _)))
  | scoreSet => exact stringsFollow_carryOut h (.ite (.refused _) (.teamed _ _ _ _))
  | scoreAdd => exact stringsFollow_carryOut h (.ite (.refused _) (.teamed _ _ _ _))
  | setTimeouts => exact stringsFollow_carryOut h (.ite (.refused _) (.teamed _ _ _ _))
  | timeout => exact stringsFollow_carryOut h (.ite (.refused _) (.ite (.refused _) (.teamed _ _ _ _)))
  | _ => exact Bool.noConfusion hc

/-! ### The fresh strings (R71, R72) -/

/-- Minutes and seconds: the minutes in decimal, a colon, and the seconds in two digits. -/
theorem minutesForm_spec (secs : Nat) :
    ∃ m, Decimal m (secs / 60) ∧ minutesForm secs = m ++ [58, 48 + secs % 60 / 10, 48 + secs % 10] := by
  refine ⟨decimal (secs / 60), decimal_spec _, ?_⟩
  have htens : secs % 60 / 10 % 10 = secs % 60 / 10 := by omega
  have hones : secs % 60 % 10 = secs % 10 := by omega
  simp [minutesForm, twoDigits, htens, hones]

theorem tenthsForm_spec (tenths : Nat) : ∃ m, Decimal m (tenths / 10) ∧ tenthsForm tenths = m ++ [46, 48 + tenths % 10] :=
  ⟨decimal (tenths / 10), decimal_spec _, rfl⟩

theorem decimal_twoDigits {n : Nat} (hlow : 10 ≤ n) (hhigh : n ≤ 99) : decimal n = [48 + n / 10, 48 + n % 10] := by
  obtain ⟨k, rfl⟩ : ∃ k, n = k + 1 := ⟨n - 1, by omega⟩
  have htens : (k + 1) / 10 ≠ 0 := by omega
  have hlast : (k + 1) / 10 / 10 = 0 := by omega
  have hdigit : (k + 1) / 10 % 10 = (k + 1) / 10 := by omega
  simp only [decimal, decimalAux, htens, hlast, hdigit, if_false, if_true]

theorem playerString_eq {n : Nat} (h : n ≤ 99) :
    playerString n = [if n < 10 then 32 else 48 + n / 10, 48 + n % 10] := by
  unfold playerString
  by_cases hone : n < 10
  · rw [if_pos hone, if_pos hone, Nat.mod_eq_of_lt hone]
  · rw [if_neg hone, if_neg hone, decimal_twoDigits (by omega) h]

/-- The game clock's string in its three forms (R71). -/
theorem clockString_spec (c : GameClock) :
    let tenths := (c.value + 99) / 100
    (c.direction = .down → c.value = 0 ∨ tenths < c.threshold / 100 → clockString c = tenthsForm tenths) ∧
      (c.direction = .down → c.value ≠ 0 → c.threshold / 100 ≤ tenths → clockString c = minutesForm ((c.value + 999) / 1000)) ∧
      (c.direction = .up → clockString c = minutesForm (c.value / 1000)) := by
  intro tenths
  refine ⟨fun hdir hform => ?_, fun hdir hvalue hform => ?_, fun hdir => ?_⟩
  · simp only [clockString, hdir]
    exact if_pos hform
  · simp only [clockString, hdir]
    exact if_neg fun h => h.elim hvalue (Nat.not_lt.mpr hform)
  · simp only [clockString, hdir]

/-- Settles O15: every row leaves the strings fresh, and each field's form is read off. -/
theorem stringsFollowTheUnit : Obligations.StringsFollowTheUnit := by
  refine ⟨fun c s t => stringsFollow_exec, fun t => ?_⟩
  intro minutes tenths
  obtain ⟨htenths, hminutes, hup⟩ := clockString_spec t.clock
  refine ⟨fun hdir hform => ?_, fun hdir hvalue hform => ?_, fun hdir => ?_, decimal_spec _, decimal_spec _,
    fun team => ⟨decimal_spec _, decimal_spec _, runningInOrder (t.team team).penalties, ?_⟩⟩
  · rw [TimingUnit.freshString, htenths hdir hform]
    exact tenthsForm_spec _
  · rw [TimingUnit.freshString, hminutes hdir hvalue hform]
    exact minutesForm_spec _
  · rw [TimingUnit.freshString, hup hdir]
    exact minutesForm_spec _
  · obtain ⟨hperm, hsorted⟩ := runningInOrder_spec (t.team team).penalties
    refine ⟨hperm, hsorted, fun line hline => ?_, fun line q hq hplayer => ?_⟩
    · rw [TimingUnit.freshString, penaltyString, List.getElem?_eq_none hline]
    · refine ⟨minutesForm ((q.remaining + 999) / 1000), minutesForm_spec _, ?_⟩
      rw [TimingUnit.freshString, penaltyString, hq]
      simp only [playerString_eq hplayer]
      rfl

end Sys2Proof.Proofs.Timing
end

section
/-! PROOFS. The Playout Unit (chapter 7): the transport commands of a channel. -/

namespace Sys2Proof.Proofs.Playout

open Sys2Proof Sys2Proof.Machine

/-! ### Channels and what they read -/

theorem channelOf_eq_none {n : Nat} (h : 1 < n) : channelOf n = none := by
  match n, h with
  | n + 2, _ => rfl

theorem channelLength_eq {s : State} {x : Channel} {k : Nat} {clip : Clip} (hk : x.clip = some k)
    (hclip : s.capture.clip k = some clip) : s.channelLength x = clip.entries.length := by
  simp only [State.channelLength, CaptureUnit.clipLength, hk, hclip]

/-- R134: a move held within a clip, as one bound in another. An empty clip holds every move at 0. -/
theorem movedPosition_eq (position : Nat) (n : Int) (length : Nat) :
    (movedPosition position n length : Int) = max 0 (min ((length : Int) - 1) ((position : Int) + n)) := by
  unfold movedPosition clampInt
  split
  · omega
  · split <;> omega

/-! ### How a command of the Playout Unit ends -/

section
variable {cmd : Instr} {s : State}

/-- A command carried out whose effect leaves the Command Reader alone. -/
theorem carries_done {u : State} {ps : List Part} (h : exec cmd s = carryOut cmd s (.done u 0 0)) (hframe : Frame ps s u)
    (hreader : u.reader = s.reader) : Carries cmd ps s (u.setReader (u.reader.answer cmd (.done 0 0))) :=
  ⟨⟨h, by rw [State.setReader_reader, hreader]⟩,
    (hframe.mono fun _ => List.mem_cons_of_mem _).trans ((frame_setReader u _).mono (by simp))⟩

theorem carries_unchanged (h : exec cmd s = carryOut cmd s (.done s 0 0)) : ∃ t, Carries cmd [] s t :=
  ⟨_, carries_done h (.refl _ _) rfl⟩

/-- A command carried out that changes one channel's record alone. -/
theorem carries_setChannel {c : ChannelId} {x : Channel} (h : exec cmd s = carryOut cmd s (.done (s.setChannel c x) 0 0)) :
    ∃ t, Carries cmd [.playout] s t ∧ Rechanneled s t c x :=
  ⟨_, carries_done h (frame_setChannel s c x) rfl, rechanneled_setChannel s c x⟩

end

/-! ### SET_CROP (R129) -/

section
variable {s : State} {n : Nat} {c : ChannelId}

theorem setCrop_turnedAway {x y : Nat} (hc : channelOf n = some c) (h : x % 8 ≠ 0 ∨ 4088 < x ∨ 2159 < y) :
    TurnedAway (.setCrop n x y) s .badArgument := by
  show execSetCrop n x y s = _
  simp only [execSetCrop, hc, if_pos h, carryOut]

theorem setCrop_carried {x y : Nat} (hc : channelOf n = some c) (hx : x % 8 = 0) (hwide : x ≤ 4088) (htall : y ≤ 2159) :
    exec (.setCrop n x y) s =
      carryOut (.setCrop n x y) s (.done (s.setChannel c { s.channel c with cropX := x, cropY := y }) 0 0) := by
  have hgood : ¬ (x % 8 ≠ 0 ∨ 4088 < x ∨ 2159 < y) := by omega
  show execSetCrop n x y s = _
  simp only [execSetCrop, hc, if_neg hgood]

/-! ### PLAY (R132) -/

theorem play_turnedAway (hc : channelOf n = some c) (h : (s.channel c).state = .idle ∨ (s.channel c).state = .held) :
    TurnedAway (.play n) s .wrongState := by
  show execPlay n s = _
  rcases h with h | h <;> simp only [execPlay, hc, h, carryOut]

/-- A PLAY that is not refused does what `playOn` does. -/
theorem play_carried (hc : channelOf n = some c) (hidle : (s.channel c).state ≠ .idle) (hheld : (s.channel c).state ≠ .held) :
    exec (.play n) s = carryOut (.play n) s (.done (s.playOn c) 0 0) := by
  show execPlay n s = _
  cases h : (s.channel c).state with
  | idle => exact absurd h hidle
  | held => exact absurd h hheld
  | cued | playing | paused => simp only [execPlay, hc, h]

theorem playOn_of_playing (h : (s.channel c).state = .playing) : s.playOn c = s := by
  simp only [State.playOn, h]

theorem playOn_of_paused (h : (s.channel c).state = .paused) :
    s.playOn c = s.setChannel c { s.channel c with state := .playing, countdown := (s.channel c).reps } := by
  simp only [State.playOn, h]

theorem playOn_of_cued (h : (s.channel c).state = .cued) :
    s.playOn c = (s.setChannel c { s.channel c with state := .playing, countdown := (s.channel c).reps }).sendReplay c := by
  simp only [State.playOn, h]

/-- R132: the REPLAY-START event of a PLAY from CUED. -/
theorem play_cued (hc : channelOf n = some c) (h : (s.channel c).state = .cued) :
    ∃ t, Carries (.play n) [.playout, .transit] s t ∧
      Rechanneled s t c { s.channel c with state := .playing, countdown := (s.channel c).reps } ∧
      t.transit = { s.transit with replays := s.transit.replays ++ [c] } := by
  have hplay := play_carried (s := s) hc (by simp [h]) (by simp [h])
  have hframe := frame_playOn s c
  rw [playOn_of_cued h] at hplay hframe
  exact ⟨_, carries_done hplay hframe rfl, rechanneled_setChannel s c _, rfl⟩

/-! ### PAUSE and STEP (R133, R134) -/

theorem pause_turnedAway (hc : channelOf n = some c) (h : (s.channel c).state = .idle) :
    TurnedAway (.pause n) s .wrongState := by
  show execPause n s = _
  simp only [execPause, hc, h, carryOut]

theorem pause_playing (hc : channelOf n = some c) (h : (s.channel c).state = .playing) :
    exec (.pause n) s = carryOut (.pause n) s (.done (s.setChannel c { s.channel c with state := .paused }) 0 0) := by
  show execPause n s = _
  simp only [execPause, hc, h]

theorem pause_standing (hc : channelOf n = some c)
    (h : (s.channel c).state = .cued ∨ (s.channel c).state = .paused ∨ (s.channel c).state = .held) :
    exec (.pause n) s = carryOut (.pause n) s (.done s 0 0) := by
  show execPause n s = _
  rcases h with h | h | h <;> simp only [execPause, hc, h]

theorem step_turnedAway {count : Int} (hc : channelOf n = some c)
    (h : (s.channel c).state = .idle ∨ (s.channel c).state = .playing) : TurnedAway (.step n count) s .wrongState := by
  show execStep n count s = _
  rcases h with h | h <;> simp only [execStep, hc, h, carryOut]

/-- R134: a STEP moves a channel that stands, and a HELD one is PAUSED with it. -/
theorem step_carried {count : Int} (hc : channelOf n = some c)
    (h : (s.channel c).state = .cued ∨ (s.channel c).state = .paused ∨ (s.channel c).state = .held) :
    exec (.step n count) s = carryOut (.step n count) s (.done (s.setChannel c { s.channel c with
      position := movedPosition (s.channel c).position (clampInt (-900) 900 count) (s.channelLength (s.channel c))
      state := if (s.channel c).state = .held then .paused else (s.channel c).state }) 0 0) := by
  show execStep n count s = _
  rcases h with h | h | h <;> simp [execStep, hc, h]

/-! ### SET_SPEED and STOP (R135, R136) -/

theorem setSpeed_carried {count : Int} {reps : Nat} (hc : channelOf n = some c) :
    exec (.setSpeed n count reps) s = carryOut (.setSpeed n count reps) s (.done (s.setChannel c { s.channel c with
      step := if count = 0 then 1 else max (-4) (min 4 count), reps := max 1 (min 8 reps)
      countdown := min (s.channel c).countdown (max 1 (min 8 reps)) }) 0 0) := by
  show execSetSpeed n count reps s = _
  simp only [execSetSpeed, hc, clampedStep, clampInt_eq (-4) 4 count (by decide), clamp_eq 1 8 reps (by decide)]

theorem stop_unheld (hc : channelOf n = some c) (h : (s.channel c).clip = none) :
    exec (.stop n) s = carryOut (.stop n) s (.done s 0 0) := by
  show execStop n s = _
  simp only [execStop, hc, h]

/-- R136: the clip loses its user, and the channel its clip. -/
theorem stop_held {k : Nat} (hc : channelOf n = some c) (h : (s.channel c).clip = some k) :
    ∃ t, Carries (.stop n) [.playout, .capture, .transit] s t ∧ Rechanneled s t c (s.channel c).released ∧
      t.capture = (s.removeUser k).capture ∧ t.transit = (s.removeUser k).transit := by
  have hstop : exec (.stop n) s =
      carryOut (.stop n) s (.done ((s.removeUser k).setChannel c (s.channel c).released) 0 0) := by
    show execStop n s = _
    simp only [execStop, hc, h]
  have hremove : Frame [.capture, .transit] s (s.removeUser k) := frame_userRequest s k _
  have hplayout : (s.removeUser k).playout = s.playout := hremove .playout (by simp)
  obtain ⟨hsame, hother⟩ := rechanneled_setChannel (s.removeUser k) c (s.channel c).released
  refine ⟨_, carries_done hstop ?_ (hremove .reader (by simp)), ⟨hsame, fun d hd => (hother d hd).trans ?_⟩, rfl, rfl⟩
  · exact (hremove.mono (by simp)).trans ((frame_setChannel _ c _).mono (by simp))
  · rw [State.channel, hplayout, State.channel]

end

theorem unknownChannel_turnedAway {s : State} {n x y reps : Nat} {count : Int} (h : 1 < n) :
    TurnedAway (.setCrop n x y) s .badArgument ∧ TurnedAway (.play n) s .badArgument ∧
      TurnedAway (.pause n) s .badArgument ∧ TurnedAway (.step n count) s .badArgument ∧
      TurnedAway (.setSpeed n count reps) s .badArgument ∧ TurnedAway (.stop n) s .badArgument := by
  have hnone := channelOf_eq_none h
  refine ⟨?crop, ?play, ?pause, ?step, ?speed, ?stop⟩
  case crop => show execSetCrop n x y s = _; simp only [execSetCrop, hnone, carryOut]
  case play => show execPlay n s = _; simp only [execPlay, hnone, carryOut]
  case pause => show execPause n s = _; simp only [execPause, hnone, carryOut]
  case step => show execStep n count s = _; simp only [execStep, hnone, carryOut]
  case speed => show execSetSpeed n count reps s = _; simp only [execSetSpeed, hnone, carryOut]
  case stop => show execStop n s = _; simp only [execStop, hnone, carryOut]

/-- Settles O47: each clause is one branch of its command. -/
theorem transportCommands : Obligations.TransportCommands := by
  refine fun s n x y reps count => ⟨unknownChannel_turnedAway, fun c hc => ⟨setCrop_turnedAway hc,
    fun hx hwide htall => carries_setChannel (setCrop_carried hc hx hwide htall), play_turnedAway hc,
    fun h => carries_unchanged ?playPlaying, fun h => carries_setChannel ?playPaused, play_cued hc, pause_turnedAway hc,
    fun h => carries_setChannel (pause_playing hc h), fun h => carries_unchanged (pause_standing hc h), step_turnedAway hc,
    fun k clip hk hclip h => ?step, carries_setChannel (setSpeed_carried hc), fun h => carries_unchanged (stop_unheld hc h),
    fun k u hk hu => ?stop⟩⟩
  case playPlaying => rw [play_carried hc (by simp [h]) (by simp [h]), playOn_of_playing h]
  case playPaused => rw [play_carried hc (by simp [h]) (by simp [h]), playOn_of_paused h]
  case step =>
    obtain ⟨t, ht, hchannel⟩ := carries_setChannel (step_carried (count := count) hc h)
    exact ⟨t, _, ht, by rw [movedPosition_eq, channelLength_eq hk hclip, clampInt_eq _ _ _ (by decide)], hchannel⟩
  case stop =>
    cases hu
    exact stop_held hc hk

end Sys2Proof.Proofs.Playout
end

section
/-! PROOFS. The Playout Unit (chapter 7): a channel served at a frame start, and the frame start as a whole. -/

namespace Sys2Proof.Proofs.Playout

open Sys2Proof Sys2Proof.Machine

/-! ### A part that reads as before may leave a frame -/

theorem frame_of_agrees {p : Part} {ps : List Part} {s t : State} (h : Frame (p :: ps) s t) (hp : s.agrees t p) :
    Frame ps s t := by
  intro q hq
  by_cases hqp : q = p
  · exact hqp ▸ hp
  · exact h q (by simp [hqp, hq])

/-! ### The user requests of an end (R123, R138) -/

/-- A user request reads the Capture Unit alone: states that agree on it come out with the same unit and send the same reports. -/
theorem userRequest_of_capture (u : CaptureUnit) (clip : Nat) (f : Clip → Clip) :
    ∃ v reports, ∀ s : State, s.capture = u → s.userRequest clip f = (s.setCapture v).sendReports reports := by
  cases hclip : u.clip clip with
  | none =>
    refine ⟨u, [], fun s hs => ?_⟩
    subst hs
    simp only [State.userRequest, hclip, State.sendReports_nil]
    rfl
  | some c =>
    cases hfound : (u.setClip clip (some (f c))).clip clip with
    | none =>
      refine ⟨u.setClip clip (some (f c)), [], fun s hs => ?_⟩
      subst hs
      simp only [State.userRequest, State.settleClip, hclip, State.setCapture_capture, hfound, State.sendReports_nil]
    | some d =>
      by_cases hdrop : d.releasePending && d.users == 0
      · refine ⟨((u.setClip clip (some (f c))).setClip clip none).releaseAll d.entries,
          [.clipDropped true clip d.source d.entries.length], fun s hs => ?_⟩
        subst hs
        simp only [State.userRequest, State.settleClip, State.dropClip, hclip, State.setCapture_capture, hfound, hdrop, if_true]
        rfl
      · refine ⟨u.setClip clip (some (f c)), [], fun s hs => ?_⟩
        subst hs
        simp only [State.userRequest, State.settleClip, hclip, State.setCapture_capture, hfound, hdrop, State.sendReports_nil]
        rfl

/-- So do the two requests of a RELEASE. -/
theorem releaseRequests_of_capture (u : CaptureUnit) (k : Nat) :
    ∃ v reports, ∀ s : State, s.capture = u → (s.markRelease k).removeUser k = (s.setCapture v).sendReports reports := by
  obtain ⟨marked, sent, hmark⟩ := userRequest_of_capture u k fun c => { c with releasePending := true }
  obtain ⟨v, dropped, hremove⟩ := userRequest_of_capture marked k fun c => { c with users := c.users - 1 }
  refine ⟨v, sent ++ dropped, fun s hs => ?_⟩
  rw [State.markRelease, hmark s hs, State.removeUser, hremove _ rfl, ← State.sendReports_append]
  rfl

/-! ### The state after a service -/

/-- The state that the service of a channel leaves: another Capture Unit, reports sent, another record of the channel. -/
def afterService (s : State) (c : ChannelId) (u : CaptureUnit) (reports : List Report) (x : Channel) : State :=
  ((s.setCapture u).sendReports reports).setChannel c x

section
variable (s : State) (c : ChannelId) (u : CaptureUnit) (reports : List Report) (x y : Channel)

theorem frame_afterService : Frame [.capture, .playout, .transit] s (afterService s c u reports x) :=
  ((frame_setCapture s u).mono (by simp)).trans
    (((frame_sendReports _ reports).mono (by simp)).trans ((frame_setChannel _ c x).mono (by simp)))

theorem rechanneled_afterService : Rechanneled s (afterService s c u reports x) c x :=
  rechanneled_setChannel ((s.setCapture u).sendReports reports) c x

theorem channel_afterService : (afterService s c u reports x).channel c = x :=
  (rechanneled_afterService s c u reports x).1

theorem reportsSent_afterService : ReportsSent s (afterService s c u reports x) reports := rfl

theorem setChannel_eq_afterService : s.setChannel c x = afterService s c s.capture [] x := by
  simp only [afterService, State.sendReports_nil]
  rfl

theorem eq_afterService : s = afterService s c s.capture [] (s.channel c) := by
  rw [← setChannel_eq_afterService]
  cases c <;> rfl

theorem setChannel_afterService :
    (afterService s c u reports x).setChannel c y = afterService s c u reports y := by
  cases c <;> rfl

end

/-! ### A channel's move (R138, R139) -/

/-- Where a channel's step takes it, in its clip or past an end. -/
abbrev nextPosition (x : Channel) : Int := (x.position : Int) + x.step

abbrev PastEnd (x : Channel) (length : Nat) : Prop := nextPosition x < 0 ∨ (length : Int) ≤ nextPosition x

/-- The end of its clip at which a channel HOLDs: the first entry when it plays backwards. -/
abbrev endPosition (x : Channel) (length : Nat) : Nat := if x.step < 0 then 0 else length - 1

abbrev loopPosition (next : Int) (length : Nat) : Nat := (next % (length : Int)).toNat

/-- A channel whose move is due, with the clip it holds. -/
structure ReadyToMove (s : State) (c : ChannelId) (k : Nat) (clip : Clip) : Prop where
  playing : (s.channel c).state = .playing
  counted : (s.channel c).countdown = 0
  held : (s.channel c).clip = some k
  found : s.capture.clip k = some clip

section
variable {s : State} {c : ChannelId} {k : Nat} {clip : Clip}

theorem channelMove_within (f : FrameNo) (hk : (s.channel c).clip = some k) (hclip : s.capture.clip k = some clip)
    (hlow : 0 ≤ nextPosition (s.channel c)) (hhigh : nextPosition (s.channel c) < (clip.entries.length : Int)) :
    s.channelMove c f = afterService s c s.capture [] { s.channel c with
      position := (nextPosition (s.channel c)).toNat, countdown := (s.channel c).reps } := by
  rw [← setChannel_eq_afterService]
  simp only [State.channelMove, hk, channelLength_eq hk hclip]
  exact if_pos ⟨hlow, hhigh⟩

theorem channelMove_past (f : FrameNo) (hk : (s.channel c).clip = some k) (hclip : s.capture.clip k = some clip)
    (hpast : PastEnd (s.channel c) clip.entries.length) :
    s.channelMove c f = s.channelEnd c k (nextPosition (s.channel c)) clip.entries.length f := by
  simp only [State.channelMove, hk, channelLength_eq hk hclip]
  exact if_neg fun ⟨hlow, hhigh⟩ => hpast.elim (Int.not_lt.mpr hlow) (Int.not_le.mpr hhigh)

theorem channelEnd_hold (next : Int) (length : Nat) (f : FrameNo) (h : (s.channel c).endAction = .hold) :
    s.channelEnd c k next length f = afterService s c s.capture
      [.playout c k .hold (decide ((s.channel c).step < 0)) (endPosition (s.channel c) length) f]
      { s.channel c with position := endPosition (s.channel c) length, state := .held, countdown := 0 } := by
  simp only [State.channelEnd, h, decide_eq_true_eq]
  rfl

theorem channelEnd_loop (next : Int) (length : Nat) (f : FrameNo) (h : (s.channel c).endAction = .loop) :
    s.channelEnd c k next length f = afterService s c s.capture
      [.playout c k .loop (decide ((s.channel c).step < 0)) (loopPosition next length) f]
      { s.channel c with position := loopPosition next length, countdown := (s.channel c).reps } := by
  simp only [State.channelEnd, h]
  rfl

/-- A RELEASE: the report of the end goes before what the two requests send. -/
theorem channelEnd_release (s : State) (c : ChannelId) (k : Nat) : ∃ u reports,
    (∀ t : State, t.capture = s.capture → (t.markRelease k).removeUser k = (t.setCapture u).sendReports reports) ∧
    ∀ (next : Int) (length : Nat) (f : FrameNo), (s.channel c).endAction = .release →
      s.channelEnd c k next length f = afterService s c u
        (.playout c k .release (decide ((s.channel c).step < 0)) 0 f :: reports) (s.channel c).released := by
  obtain ⟨u, reports, hrequests⟩ := releaseRequests_of_capture s.capture k
  refine ⟨u, reports, hrequests, fun next length f h => ?_⟩
  simp only [State.channelEnd, h, hrequests (s.sendReports _) rfl]
  exact congrArg (State.setChannel · c _) (State.sendReports_append (s.setCapture u) [_] reports)

/-- Whatever the channel's record, its move changes nothing but the three parts of `afterService`. -/
theorem channelMove_afterService (s : State) (c : ChannelId) (f : FrameNo) :
    ∃ u reports x, s.channelMove c f = afterService s c u reports x := by
  unfold State.channelMove
  dsimp only
  split
  · exact ⟨_, _, _, eq_afterService s c⟩
  · split
    · exact ⟨_, _, _, setChannel_eq_afterService s c _⟩
    · rename_i k _ _
      cases hend : (s.channel c).endAction with
      | hold => exact ⟨_, _, _, channelEnd_hold _ _ f hend⟩
      | loop => exact ⟨_, _, _, channelEnd_loop _ _ f hend⟩
      | release =>
        obtain ⟨u, reports, _, hrelease⟩ := channelEnd_release s c k
        exact ⟨_, _, _, hrelease _ _ f hend⟩

/-! ### A channel served (R137) -/

theorem moveDue_iff (x : Channel) : x.moveDue = true ↔ x.state = .playing ∧ x.countdown = 0 := by
  simp [Channel.moveDue]

theorem not_moveDue {x : Channel} (h : x.state ≠ .playing ∨ x.countdown ≠ 0) : ¬ x.moveDue = true := fun hdue => by
  obtain ⟨hplaying, hzero⟩ := (moveDue_iff x).mp hdue
  exact h.elim (· hplaying) (· hzero)

theorem channelCount_of_playing (h : (s.channel c).state = .playing) :
    s.channelCount c = s.setChannel c { s.channel c with countdown := (s.channel c).countdown - 1 } := if_pos h

theorem channelCount_of_not_playing (h : (s.channel c).state ≠ .playing) : s.channelCount c = s := if_neg h

theorem serveChannel_due (f : FrameNo) (hplaying : (s.channel c).state = .playing) (hzero : (s.channel c).countdown = 0) :
    s.serveChannel f c = (s.channelMove c f).channelCount c := by
  rw [State.serveChannel, if_pos ((moveDue_iff _).mpr ⟨hplaying, hzero⟩)]

theorem serveChannel_not_due (f : FrameNo) (h : (s.channel c).state ≠ .playing ∨ (s.channel c).countdown ≠ 0) :
    s.serveChannel f c = s.channelCount c := by
  rw [State.serveChannel, if_neg (not_moveDue h)]

theorem serveChannel_passed (f : FrameNo) (h : (s.channel c).state ≠ .playing) : s.serveChannel f c = s := by
  rw [serveChannel_not_due f (.inl h), channelCount_of_not_playing h]

theorem serveChannel_counting (f : FrameNo) (hplaying : (s.channel c).state = .playing) (hcount : 0 < (s.channel c).countdown) :
    s.serveChannel f c = afterService s c s.capture []
      { s.channel c with countdown := (s.channel c).countdown - 1 } := by
  rw [serveChannel_not_due f (.inr (by omega)), channelCount_of_playing hplaying, setChannel_eq_afterService]

/-- A move that leaves the channel PLAYING is followed by its count. -/
theorem serveChannel_moved {f : FrameNo} {u : CaptureUnit} {reports : List Report} {x : Channel}
    (hplaying : (s.channel c).state = .playing) (hzero : (s.channel c).countdown = 0)
    (hmove : s.channelMove c f = afterService s c u reports x) (hx : x.state = .playing) :
    s.serveChannel f c = afterService s c u reports { x with countdown := x.countdown - 1 } := by
  have hchannel := channel_afterService s c u reports x
  rw [serveChannel_due f hplaying hzero, hmove, channelCount_of_playing (by rw [hchannel, hx]), hchannel,
    setChannel_afterService]

/-- A move that ends the play is not. -/
theorem serveChannel_ended {f : FrameNo} {u : CaptureUnit} {reports : List Report} {x : Channel}
    (hplaying : (s.channel c).state = .playing) (hzero : (s.channel c).countdown = 0)
    (hmove : s.channelMove c f = afterService s c u reports x) (hx : x.state ≠ .playing) :
    s.serveChannel f c = afterService s c u reports x := by
  rw [serveChannel_due f hplaying hzero, hmove,
    channelCount_of_not_playing (by rwa [channel_afterService])]

theorem serveChannel_within (f : FrameNo) (hready : ReadyToMove s c k clip)
    (hlow : 0 ≤ nextPosition (s.channel c)) (hhigh : nextPosition (s.channel c) < (clip.entries.length : Int)) :
    s.serveChannel f c = afterService s c s.capture [] { s.channel c with
      position := (nextPosition (s.channel c)).toNat, countdown := (s.channel c).reps - 1 } :=
  serveChannel_moved hready.playing hready.counted (channelMove_within f hready.held hready.found hlow hhigh) hready.playing

section
variable (f : FrameNo) (hready : ReadyToMove s c k clip) (hpast : PastEnd (s.channel c) clip.entries.length)
include hready hpast

theorem serveChannel_hold (hend : (s.channel c).endAction = .hold) :
    s.serveChannel f c = afterService s c s.capture
      [.playout c k .hold (decide ((s.channel c).step < 0)) (endPosition (s.channel c) clip.entries.length) f]
      { s.channel c with position := endPosition (s.channel c) clip.entries.length, state := .held, countdown := 0 } :=
  serveChannel_ended hready.playing hready.counted
    ((channelMove_past f hready.held hready.found hpast).trans (channelEnd_hold _ _ f hend))
    ChannelState.noConfusion

theorem serveChannel_loop (hend : (s.channel c).endAction = .loop) :
    s.serveChannel f c = afterService s c s.capture
      [.playout c k .loop (decide ((s.channel c).step < 0))
        (loopPosition (nextPosition (s.channel c)) clip.entries.length) f]
      { s.channel c with
        position := loopPosition (nextPosition (s.channel c)) clip.entries.length
        countdown := (s.channel c).reps - 1 } :=
  serveChannel_moved hready.playing hready.counted
    ((channelMove_past f hready.held hready.found hpast).trans (channelEnd_loop _ _ f hend)) hready.playing

theorem serveChannel_release (hend : (s.channel c).endAction = .release) : ∃ u reports,
    (∀ t : State, t.capture = s.capture → (t.markRelease k).removeUser k = (t.setCapture u).sendReports reports) ∧
    s.serveChannel f c = afterService s c u
      (.playout c k .release (decide ((s.channel c).step < 0)) 0 f :: reports) (s.channel c).released := by
  obtain ⟨u, reports, hrequests, hrelease⟩ := channelEnd_release s c k
  exact ⟨u, reports, hrequests, serveChannel_ended hready.playing hready.counted
    ((channelMove_past f hready.held hready.found hpast).trans (hrelease _ _ f hend)) ChannelState.noConfusion⟩

end

/-- Whatever the channel's record, its service changes nothing but the three parts of `afterService`. -/
theorem serveChannel_afterService (s : State) (c : ChannelId) (f : FrameNo) :
    ∃ u reports x, s.serveChannel f c = afterService s c u reports x := by
  by_cases hplaying : (s.channel c).state = .playing
  · by_cases hzero : (s.channel c).countdown = 0
    · obtain ⟨u, reports, x, hmove⟩ := channelMove_afterService s c f
      by_cases hx : x.state = .playing
      · exact ⟨_, _, _, serveChannel_moved hplaying hzero hmove hx⟩
      · exact ⟨_, _, _, serveChannel_ended hplaying hzero hmove hx⟩
    · exact ⟨_, _, _, serveChannel_counting f hplaying (Nat.pos_of_ne_zero hzero)⟩
  · exact ⟨_, _, _, (serveChannel_passed f hplaying).trans (eq_afterService s c)⟩

/-- What the two requests of a RELEASE send, read off the reports on their way. -/
theorem reports_dropped {s v : State} {u : CaptureUnit} {reports : List Report}
    (hv : v = (s.setCapture u).sendReports reports) : v.transit.reports.drop s.transit.reports.length = reports := by
  rw [hv]
  exact List.drop_left

end

theorem channelServed_serveChannel (s : State) (c : ChannelId) (f : FrameNo) : ChannelServed s (s.serveChannel f c) c f where
  frame := by
    obtain ⟨u, reports, x, h⟩ := serveChannel_afterService s c f
    exact h ▸ (frame_afterService s c u reports x).mono (by simp)
  other := by
    obtain ⟨u, reports, x, h⟩ := serveChannel_afterService s c f
    exact h ▸ (rechanneled_afterService s c u reports x).2
  sends := by
    obtain ⟨u, reports, x, h⟩ := serveChannel_afterService s c f
    exact ⟨reports, h ▸ reportsSent_afterService s c u reports x⟩
  passed := serveChannel_passed f
  counts := fun hplaying hcount => by
    rw [serveChannel_counting f hplaying hcount]
    exact ⟨channel_afterService s c _ _ _, rfl, reportsSent_afterService s c _ _ _⟩
  moves := by
    intro k clip hplaying hzero hk hclip
    have hready : ReadyToMove s c k clip := ⟨hplaying, hzero, hk, hclip⟩
    refine ⟨fun hlow hhigh => ?within, fun hpast => ⟨fun hend => ?hold, fun hend => ?loop, fun u v hend hu hv => ?release⟩⟩
    case within =>
      rw [serveChannel_within f hready hlow hhigh]
      exact ⟨channel_afterService s c _ _ _, rfl, reportsSent_afterService s c _ _ _⟩
    case hold =>
      rw [serveChannel_hold f hready hpast hend]
      exact ⟨rfl, channel_afterService s c _ _ _, reportsSent_afterService s c _ _ _⟩
    case loop =>
      rw [serveChannel_loop f hready hpast hend]
      exact ⟨rfl, channel_afterService s c _ _ _, reportsSent_afterService s c _ _ _⟩
    case release =>
      obtain ⟨w, reports, hrequests, hserve⟩ := serveChannel_release f hready hpast hend
      cases hu
      cases hv
      rw [hserve, reports_dropped (hrequests s rfl), hrequests s rfl]
      exact ⟨rfl, channel_afterService s c _ _ _, reportsSent_afterService s c _ _ _⟩

/-! ### The frame start (R137, R178) -/

/-- The state with the oldest frame start on its way to the Playout Unit taken. -/
def playoutFrameTaken (s : State) (rest : List FrameNo) : State :=
  { s with transit := { s.transit with due := { s.transit.due with playout := rest } } }

/-- The state with the channels handed over for the status block. -/
def channelsHanded (s : State) : State :=
  { s with writer := { s.writer with channels := s.writer.channels ++
    [(⟨(s.channel .a).state, (s.channel .a).position⟩, ⟨(s.channel .b).state, (s.channel .b).position⟩)] } }

theorem playoutFrameStart_due {s : State} {f : FrameNo} {rest : List FrameNo} (hdue : s.transit.due.playout = f :: rest) :
    exec .playoutFrameStart s =
      .next (channelsHanded (((playoutFrameTaken s rest).serveChannel f .a).serveChannel f .b)) := by
  show execPlayoutFrameStart s = _
  simp only [execPlayoutFrameStart, hdue]
  rfl

theorem playoutFrameStart_notDue {s : State} (hdue : s.transit.due.playout = []) : exec .playoutFrameStart s = .next s := by
  show execPlayoutFrameStart s = _
  simp only [execPlayoutFrameStart, hdue]

theorem frame_playoutFrameTaken (s : State) (rest : List FrameNo) : Frame [.transit] s (playoutFrameTaken s rest) :=
  frame_setTransit s _

theorem frame_channelsHanded (s : State) : Frame [.writer] s (channelsHanded s) := frame_setWriter s _

/-- With the other channel not PLAYING, the frame start is the service of the one. -/
theorem playoutFrameStart_one {s : State} {f : FrameNo} {rest : List FrameNo} {c : ChannelId}
    (hdue : s.transit.due.playout = f :: rest) (hother : ∀ d, d ≠ c → (s.channel d).state ≠ .playing) :
    exec .playoutFrameStart s = .next (channelsHanded ((playoutFrameTaken s rest).serveChannel f c)) := by
  rw [playoutFrameStart_due hdue]
  cases c with
  | a =>
    have hsame : ((playoutFrameTaken s rest).serveChannel f .a).channel .b = s.channel .b :=
      (channelServed_serveChannel _ .a f).other .b (by decide)
    rw [serveChannel_passed f (c := .b) (by rw [hsame]; exact hother .b (by decide))]
  | b => rw [serveChannel_passed (s := playoutFrameTaken s rest) f (c := .a) (hother .a (by decide))]

/-- A frame start has served one channel, which is now `x`, with the channels handed over and only reports sent. -/
def ServedAlone (s t : State) (c : ChannelId) (rest : List FrameNo) (x : Channel) : Prop :=
  Rechanneled s t c x ∧
    t.writer = { s.writer with channels := s.writer.channels ++
      [(⟨(t.channel .a).state, (t.channel .a).position⟩, ⟨(t.channel .b).state, (t.channel .b).position⟩)] } ∧
    t.transit = { s.transit with due := { s.transit.due with playout := rest }, reports := t.transit.reports }

section
variable {s : State} {f : FrameNo} {rest : List FrameNo} {c : ChannelId} {x : Channel}

theorem playoutFrameStart_serves {u : CaptureUnit} {reports : List Report} (hdue : s.transit.due.playout = f :: rest)
    (hother : ∀ d, d ≠ c → (s.channel d).state ≠ .playing)
    (hserve : (playoutFrameTaken s rest).serveChannel f c = afterService (playoutFrameTaken s rest) c u reports x) :
    ∃ t, Completes .playoutFrameStart [.capture, .playout, .writer, .transit] s t ∧ ServedAlone s t c rest x ∧ t.capture = u ∧
      t.transit.reports = s.transit.reports ++ reports := by
  have hexec := playoutFrameStart_one hdue hother
  rw [hserve] at hexec
  have hframe := (frame_playoutFrameTaken s rest).mono (qs := [.capture, .playout, .writer, .transit]) (by simp)
  exact ⟨_, ⟨hexec, hframe.trans (((frame_afterService _ c u reports x).mono (by simp)).trans
    ((frame_channelsHanded _).mono (by simp)))⟩, ⟨rechanneled_afterService (playoutFrameTaken s rest) c u reports x, rfl, rfl⟩,
    rfl, rfl⟩

/-- Where no request is sent, the Capture Unit stands. -/
theorem playoutFrameStart_stays {reports : List Report} (hdue : s.transit.due.playout = f :: rest)
    (hother : ∀ d, d ≠ c → (s.channel d).state ≠ .playing)
    (hserve : (playoutFrameTaken s rest).serveChannel f c = afterService (playoutFrameTaken s rest) c s.capture reports x) :
    ∃ t, Completes .playoutFrameStart [.playout, .writer, .transit] s t ∧ ServedAlone s t c rest x ∧
      t.transit.reports = s.transit.reports ++ reports := by
  obtain ⟨t, ⟨hexec, hframe⟩, hserved, hcapture, hreports⟩ := playoutFrameStart_serves hdue hother hserve
  exact ⟨t, ⟨hexec, frame_of_agrees hframe hcapture⟩, hserved, hreports⟩

end

/-! ### CHANNEL_MOVE (R137 step 1, R138) -/

section
variable {s : State} {n : Nat} {c : ChannelId} {k : Nat} {clip : Clip}

theorem exec_channelMove_due (hc : channelOf n = some c) (hplaying : (s.channel c).state = .playing)
    (hzero : (s.channel c).countdown = 0) : exec (.channelMove n) s = .next (s.channelMove c s.classifier.frame) := by
  show execChannelMove n s = _
  simp only [execChannelMove, hc, if_pos ((moveDue_iff _).mpr ⟨hplaying, hzero⟩)]

theorem exec_channelMove_not_due (hc : channelOf n = some c)
    (h : (s.channel c).state ≠ .playing ∨ (s.channel c).countdown ≠ 0) : exec (.channelMove n) s = .next s := by
  show execChannelMove n s = _
  simp only [execChannelMove, hc, if_neg (not_moveDue h)]

theorem exec_channelMove_within (hc : channelOf n = some c) (hready : ReadyToMove s c k clip)
    (hlow : 0 ≤ nextPosition (s.channel c)) (hhigh : nextPosition (s.channel c) < (clip.entries.length : Int)) :
    ∃ t, Completes (.channelMove n) [.playout] s t ∧ Rechanneled s t c { s.channel c with
      position := (nextPosition (s.channel c)).toNat, countdown := (s.channel c).reps } := by
  refine ⟨_, ⟨(exec_channelMove_due hc hready.playing hready.counted).trans (congrArg _ ?moved), frame_setChannel s c _⟩,
    rechanneled_setChannel s c _⟩
  case moved => rw [channelMove_within _ hready.held hready.found hlow hhigh, ← setChannel_eq_afterService]

theorem exec_channelMove_hold (hc : channelOf n = some c) (hready : ReadyToMove s c k clip)
    (hpast : PastEnd (s.channel c) clip.entries.length) (hend : (s.channel c).endAction = .hold) :
    ∃ t, Completes (.channelMove n) [.playout, .transit] s t ∧
      Rechanneled s t c { s.channel c with
        position := endPosition (s.channel c) clip.entries.length, state := .held, countdown := 0 } ∧
      ReportsSent s t [.playout c k .hold (decide ((s.channel c).step < 0))
        (endPosition (s.channel c) clip.entries.length) s.classifier.frame] := by
  have hexec := exec_channelMove_due hc hready.playing hready.counted
  rw [channelMove_past _ hready.held hready.found hpast, channelEnd_hold _ _ _ hend] at hexec
  exact ⟨_, ⟨hexec, frame_of_agrees (frame_afterService s c _ _ _) rfl⟩, rechanneled_afterService s c _ _ _,
    reportsSent_afterService s c _ _ _⟩

end

/-- Settles O49: the frame start as the service of channel A and then of channel B; each clause for one channel is one equation for
its service, and each of CHANNEL_MOVE one for its move. -/
theorem channelsMove : Obligations.ChannelsMove := by
  refine ⟨fun s f rest hdue => ⟨_, _, _, ⟨playoutFrameStart_due hdue, ?frame⟩,
    channelServed_serveChannel (playoutFrameTaken s rest) .a f, channelServed_serveChannel _ .b f, rfl⟩,
    fun s => playoutFrameStart_notDue, fun s n c hc => ⟨fun f rest hdue hother => ?alone, exec_channelMove_not_due hc,
    fun k clip hplaying hzero hk hclip => ⟨exec_channelMove_within hc ⟨hplaying, hzero, hk, hclip⟩,
      exec_channelMove_hold hc ⟨hplaying, hzero, hk, hclip⟩⟩⟩⟩
  case frame =>
    have ha := (channelServed_serveChannel (playoutFrameTaken s rest) .a f).frame
    have hb := (channelServed_serveChannel ((playoutFrameTaken s rest).serveChannel f .a) .b f).frame
    exact ((frame_playoutFrameTaken s rest).mono (by simp)).trans
      (((ha.trans hb).mono (by simp)).trans ((frame_channelsHanded _).mono (by simp)))
  case alone =>
    let s1 := playoutFrameTaken s rest
    refine ⟨fun hstands => ?passed, fun hplaying hcount => ?counts, fun k clip hplaying hzero hk hclip =>
      ⟨fun hlow hhigh => ?moves, fun hpast => ⟨fun hend => ?hold, fun hend => ?loop, fun u v hend hu hv => ?release⟩⟩⟩
    case passed =>
      exact playoutFrameStart_stays hdue hother
        ((serveChannel_passed (s := s1) f hstands).trans (eq_afterService s1 c))
    case counts => exact playoutFrameStart_stays hdue hother (serveChannel_counting (s := s1) f hplaying hcount)
    case moves =>
      exact playoutFrameStart_stays hdue hother (serveChannel_within (s := s1) f ⟨hplaying, hzero, hk, hclip⟩ hlow hhigh)
    case hold =>
      exact playoutFrameStart_stays hdue hother (serveChannel_hold (s := s1) f ⟨hplaying, hzero, hk, hclip⟩ hpast hend)
    case loop =>
      exact playoutFrameStart_stays hdue hother (serveChannel_loop (s := s1) f ⟨hplaying, hzero, hk, hclip⟩ hpast hend)
    case release =>
      obtain ⟨w, reports, hrequests, hserve⟩ := serveChannel_release (s := s1) f ⟨hplaying, hzero, hk, hclip⟩ hpast hend
      obtain ⟨t, ⟨hexec, hframe⟩, hserved, hcapture, hreports⟩ := playoutFrameStart_serves hdue hother hserve
      cases hu
      cases hv
      refine ⟨t, ⟨hexec, hframe.mono (by simp)⟩, hserved, ?_, ?_⟩
      · rw [hcapture, hrequests s rfl]
        rfl
      · rw [hreports, reports_dropped (hrequests s rfl)]
        rfl

end Sys2Proof.Proofs.Playout
end
